-- ==== Sys2Proof/Word.lean ====
section
/-! DEFINITION. The word types of the JPEG entropy decoder: the byte of the stream, the nibble fields of its
header bytes, the 16-bit numbers, and the block of 64 coefficients (spec/00_scope.md R7, R9, R10). -/

namespace Sys2Proof

/-- A byte of the input stream, bit 7 its most significant bit (R7, R10). -/
abbrev Byte := BitVec 8

/-- A 4-bit field of a header byte or of an AC symbol (R88). -/
abbrev Nibble := BitVec 4

/-- A 16-bit unsigned number: a segment length, an image dimension, a quantization entry (R7, R89). -/
abbrev Half := BitVec 16

/-- One coefficient: 16 bits, two's complement (R34). -/
abbrev Coef := BitVec 16

/-- JD's Block: entry 0 is the DC value, entries 1 to 63 the AC values in the order decoded (R34). -/
abbrev Block := Vector Coef 64

/-- The all-zero block (R41: `blk[0..63]` is 0 after reset; R194 clears it at the start of each block). -/
def Block.zero : Block := Vector.replicate 64 0

end Sys2Proof
end

