-- ==== Sys2Proof/Config.lean ====
section
/-! DEFINITION. What an implementation of the block fixes (spec/00_scope.md R7), the two enumerations that are
operands of its operations, and the one value the rules leave without a result. -/

namespace Sys2Proof

/-- `MAGNITUDE_MODE` (R7, R176): which bias the negative branch of `ReadMagnitude` subtracts. The host gives it
with START and it is constant through a session (R42). -/
inductive MagnitudeMode where
  /-- `NegBias(n) = 2^(n-1)`, the default. -/
  | observed
  /-- `NegBias(n) = 2^n - 1`. -/
  | standard
deriving DecidableEq, Repr

/-- The class of a Huffman table (R29): `DC = 0`, `AC = 1`. -/
inductive HuffClass where
  | dc
  | ac
deriving DecidableEq, Repr

/-- The default of `MAGNITUDE_MODE` (R7). -/
def Config.defaultMode : MagnitudeMode := .observed

/-- The largest legal DC magnitude category (R7, R198). -/
def Config.dcCategoryLimit : Nat := 11

/-- The largest legal AC magnitude category (R7, R205). -/
def Config.acCategoryLimit : Nat := 10

/-- The length of the longest Huffman code (R7, R146). -/
def Config.maxCodeLength : Nat := 16

/-- The entries of a quantization table (R7, R125). -/
def Config.quantEntries : Nat := 64

/-- The AC values of a block (R34, R199). -/
def Config.acValues : Nat := 63

/-- The largest legal sampling factor (R7, R190). -/
def Config.maxSampling : Nat := 4

/-- The number of the last quantization table slot (R7, R28). -/
def Config.lastQuantSlot : Nat := 15

/-- FREE VALUE (log entry 8, DESIGN CHOICE): the quotient `ceildiv(a, 0)`. R9 states `ceildiv` for a divisor of at
least 1, and R190 keeps a divisor of 0 from ever reaching the grid computation; run on such a divisor all the
same, GRID completes with a quotient nothing is known about. -/
opaque Config.ceildivByZero : Nat → Nat

end Sys2Proof
end

