-- ==== Sys2Proof/Syntax.lean ====
section
/-! DEFINITION. The operations of the block, one constructor per row of spec/opcode_table.json. Rows with a bit
pattern carry the pattern's fields; internal operations carry the operands their rule gives them. -/

namespace Sys2Proof

/-- The operations of spec/opcode_table.json, in the table's order. -/
inductive Instr where
  /-- SOI: the Start-Of-Image marker `FF D8` at address 0 (R111). -/
  | soi
  /-- DQT: marker `FF DB`, load one quantization table (R125). -/
  | dqt
  /-- SOF0: marker `FF C0`, load image size and component descriptors (R135). -/
  | sof0
  /-- DHT: marker `FF C4`, load one Huffman table (R145). -/
  | dht
  /-- SOS: marker `FF DA`, bind components to Huffman tables (R160). -/
  | sos
  /-- SKIP: any other marker byte `m`, pass to the next `FF` (R114). -/
  | skip (m : Byte)
  /-- BADMARKER: a lead byte other than `FF` where a marker is expected (R112). -/
  | badmarker (lead : Byte)
  /-- DATA: an entropy byte other than `FF` (R171). -/
  | data (b : Byte)
  /-- STUFF: `FF 00`, eight one bits (R171). -/
  | stuff
  /-- BADSTUFF: `FF x` with `x` not 0 in entropy data (R171). -/
  | badstuff (x : Byte)
  /-- DC_ZERO: DC symbol 0 (R196). -/
  | dcZero
  /-- DC_MAG: DC symbol 1 to 11 (R197). -/
  | dcMag (n : Nibble)
  /-- DC_BAD: DC symbol 12 to 255 (R198). -/
  | dcBad (n : Byte)
  /-- AC_EOB: AC symbol `(0, 0)` (R200). -/
  | acEob
  /-- AC_ZRL: AC symbol `(15, 0)` (R201). -/
  | acZrl
  /-- AC_RUN: AC symbol `(r, 0)`, `1 <= r <= 14` (R202). -/
  | acRun (r : Nibble)
  /-- AC_COEF: AC symbol `(r, s)`, `1 <= s <= 10` (R203). -/
  | acCoef (r s : Nibble)
  /-- AC_BAD: AC symbol `(r, s)`, `11 <= s` (R205). -/
  | acBad (r s : Nibble)
  /-- RESET: a host action (R250). -/
  | reset
  /-- START: a host action; the stream (its length is `L`) and the magnitude mode (R251). -/
  | start (stream : List Byte) (mode : MagnitudeMode)
  /-- HEADER: the header phase as a whole (R110). -/
  | header
  /-- MARKER_FETCH: read one marker of the marker loop (R112). -/
  | markerFetch
  /-- DISPATCH: route on the marker byte (R113). -/
  | dispatch (m : Byte)
  /-- FETCHBYTE: take the next entropy byte (R171). -/
  | fetchbyte
  /-- NEXTBIT: deliver one bit (R172). -/
  | nextbit
  /-- READCODE: decode one symbol with the table `ht[c][t]` (R173). -/
  | readcode (c : HuffClass) (t : Nibble)
  /-- READMAG: read a magnitude field of `n` bits (R175). -/
  | readmag (n : Nibble)
  /-- CHECK_CONFIG: the scan-start check (R190). -/
  | checkConfig
  /-- BUILD_MSTRUCT: the block-visit order of an MCU (R191). -/
  | buildMstruct
  /-- GRID: the number of MCUs (R192). -/
  | grid
  /-- SCAN: the scan phase as a whole (R193). -/
  | scan
  /-- DECODE_BLOCK: one block of component `id` (R194). -/
  | decodeBlock (id : Byte)
  /-- SCAN_DONE: the end of the scan (R208). -/
  | scanDone
deriving DecidableEq, Repr

end Sys2Proof
end

