-- ==== Sys2Proof/WellFormed.lean ====
section
/-! DEFINITION. Which terms of `Instr` are operations of the block: the constraint column of
spec/opcode_table.json, row by row (R82, R90, R92, R93, R175). -/

namespace Sys2Proof

/-- The constraint the opcode table puts on a row's fields. Rows without a constraint are always well formed. -/
def Instr.wf : Instr → Bool
  | .skip m => m != 0xDB && m != 0xC0 && m != 0xC4 && m != 0xDA
  | .badmarker lead => lead != 0xFF
  | .data b => b != 0xFF
  | .badstuff x => x != 0x00
  | .dcMag n => decide (1 ≤ n.toNat ∧ n.toNat ≤ Config.dcCategoryLimit)
  | .dcBad n => decide (Config.dcCategoryLimit < n.toNat)
  | .acRun r => decide (1 ≤ r.toNat ∧ r.toNat ≤ 14)
  | .acCoef _ s => decide (1 ≤ s.toNat ∧ s.toNat ≤ Config.acCategoryLimit)
  | .acBad _ s => decide (Config.acCategoryLimit < s.toNat)
  | .readmag n => decide (n.toNat ≤ Config.dcCategoryLimit)
  | .soi => true
  | .dqt => true
  | .sof0 => true
  | .dht => true
  | .sos => true
  | .stuff => true
  | .dcZero => true
  | .acEob => true
  | .acZrl => true
  | .reset => true
  | .start _ _ => true
  | .header => true
  | .markerFetch => true
  | .dispatch _ => true
  | .fetchbyte => true
  | .nextbit => true
  | .readcode _ _ => true
  | .checkConfig => true
  | .buildMstruct => true
  | .grid => true
  | .scan => true
  | .decodeBlock _ => true
  | .scanDone => true

end Sys2Proof
end

