-- ==== Sys2Proof/Decode.lean ====
section
/-! DEFINITION. The encodings of spec/30_encoding.md: the decoder of the five pattern spaces (total on any bytes,
rejecting by name), the encoder of the pattern rows written from the same tables, and the listing notation of
R99 with the bytes each line stands for. -/

namespace Sys2Proof

/-! ## Field assembly (R88, R89) -/

/-- The first-named field of a split byte, `b[7:4]` (R88). -/
def hiNibble (b : Byte) : Nibble := b.extractLsb' 4 4

/-- The second-named field of a split byte, `b[3:0]` (R88). -/
def loNibble (b : Byte) : Nibble := b.extractLsb' 0 4

/-- The byte whose first-named field is `h` and whose second-named field is `l` (R88). -/
def ofNibbles (h l : Nibble) : Byte := h ++ l

/-- `256 * hi + lo`: the byte at the lower address is the more significant (R65, R89). -/
def be16 (hi lo : Byte) : Half := hi ++ lo

/-- The byte of a 16-bit number at the lower address (R65). -/
def hiByte (h : Half) : Byte := h.extractLsb' 8 8

/-- The byte of a 16-bit number at the higher address (R65). -/
def loByte (h : Half) : Byte := h.extractLsb' 0 8

/-- A byte as a 16-bit number, zero-extended (R28). -/
def ofByte (b : Byte) : Half := b.zeroExtend 16

/-- Bit 4 of the byte that leads a DHT payload is the table class; bits 7:5 are ignored (R86). -/
def classBit (b : Byte) : HuffClass := if b.getLsbD 4 then .ac else .dc

/-- The byte that leads a DHT payload of class `c` and slot `t`, ignored bits zero (R86). -/
def classByte (c : HuffClass) (t : Nibble) : Byte :=
  match c with
  | .dc => ofNibbles 0 t
  | .ac => ofNibbles 1 t

/-! ## The pattern spaces (R80) -/

/-- The pattern space a word is decoded in. The same bytes mean different operations in different spaces. -/
inductive Level where
  /-- Address 0, where only SOI is accepted (R82). -/
  | start
  /-- The marker loop (R82). -/
  | marker
  /-- The bytes the bit reader fetches (R90). -/
  | entropy
  /-- A symbol of a DC table (R92). -/
  | dc
  /-- A symbol of an AC table (R93). -/
  | ac
deriving DecidableEq, Repr

/-- Why a byte sequence is no word of a pattern space. -/
inductive Reject where
  /-- Fewer bytes are left than the pattern needs. -/
  | truncated
  /-- At address 0, bytes other than `FF D8` (R82). -/
  | notSoi
deriving DecidableEq, Repr

/-- What the decoder answers: an operation with the bytes after its pattern, or a rejection. -/
inductive Decoded where
  | instr (i : Instr) (rest : List Byte)
  | reject (r : Reject)
deriving DecidableEq, Repr

/-- The marker map of the marker loop, by the marker byte (R82, R113). -/
def decodeMarkerByte (m : Byte) : Instr :=
  if m = 0xDB then .dqt
  else if m = 0xC0 then .sof0
  else if m = 0xC4 then .dht
  else if m = 0xDA then .sos
  else .skip m

/-- The DC symbol rows (R92). -/
def decodeDcSymbol (n : Byte) : Instr :=
  if n = 0 then .dcZero
  else if n.toNat ≤ Config.dcCategoryLimit then .dcMag (loNibble n)
  else .dcBad n

/-- The AC symbol rows (R93). -/
def decodeAcSymbol (sym : Byte) : Instr :=
  if sym = 0 then .acEob
  else if loNibble sym = 0 then
    if hiNibble sym = 15 then .acZrl else .acRun (hiNibble sym)
  else if (loNibble sym).toNat ≤ Config.acCategoryLimit then .acCoef (hiNibble sym) (loNibble sym)
  else .acBad (hiNibble sym) (loNibble sym)

/-- Address 0: `FF D8` and nothing else (R82). -/
def decodeStart : List Byte → Decoded
  | [] => .reject .truncated
  | b0 :: rest =>
    if b0 = 0xFF then
      match rest with
      | [] => .reject .truncated
      | b1 :: rest => if b1 = 0xD8 then .instr .soi rest else .reject .notSoi
    else .reject .notSoi

/-- The marker loop: the lead byte is judged before the marker byte is looked at (R81, R82, R112). -/
def decodeMarker : List Byte → Decoded
  | [] => .reject .truncated
  | b0 :: rest =>
    if b0 = 0xFF then
      match rest with
      | [] => .reject .truncated
      | m :: rest => .instr (decodeMarkerByte m) rest
    else .instr (.badmarker b0) rest

/-- The entropy bytes (R90). -/
def decodeEntropy : List Byte → Decoded
  | [] => .reject .truncated
  | b :: rest =>
    if b = 0xFF then
      match rest with
      | [] => .reject .truncated
      | z :: rest => if z = 0 then .instr .stuff rest else .instr (.badstuff z) rest
    else .instr (.data b) rest

/-- The decoder of a pattern space. -/
def decode : Level → List Byte → Decoded
  | .start, bs => decodeStart bs
  | .marker, bs => decodeMarker bs
  | .entropy, bs => decodeEntropy bs
  | .dc, [] => .reject .truncated
  | .dc, n :: rest => .instr (decodeDcSymbol n) rest
  | .ac, [] => .reject .truncated
  | .ac, n :: rest => .instr (decodeAcSymbol n) rest

/-! ## The encoder -/

/-- The pattern space of a row; internal operations have none. -/
def Instr.level : Instr → Option Level
  | .soi => some .start
  | .dqt | .sof0 | .dht | .sos | .skip _ | .badmarker _ => some .marker
  | .data _ | .stuff | .badstuff _ => some .entropy
  | .dcZero | .dcMag _ | .dcBad _ => some .dc
  | .acEob | .acZrl | .acRun _ | .acCoef _ _ | .acBad _ _ => some .ac
  | .reset | .start _ _ | .header | .markerFetch | .dispatch _ | .fetchbyte | .nextbit | .readcode _ _
  | .readmag _ | .checkConfig | .buildMstruct | .grid | .scan | .decodeBlock _ | .scanDone => none

/-- The pattern of a row, byte by byte; an internal operation has no bytes. -/
def encode : Instr → List Byte
  | .soi => [0xFF, 0xD8]
  | .dqt => [0xFF, 0xDB]
  | .sof0 => [0xFF, 0xC0]
  | .dht => [0xFF, 0xC4]
  | .sos => [0xFF, 0xDA]
  | .skip m => [0xFF, m]
  | .badmarker lead => [lead]
  | .data b => [b]
  | .stuff => [0xFF, 0x00]
  | .badstuff x => [0xFF, x]
  | .dcZero => [0x00]
  | .dcMag n => [ofNibbles 0 n]
  | .dcBad n => [n]
  | .acEob => [0x00]
  | .acZrl => [0xF0]
  | .acRun r => [ofNibbles r 0]
  | .acCoef r s => [ofNibbles r s]
  | .acBad r s => [ofNibbles r s]
  | .reset | .start _ _ | .header | .markerFetch | .dispatch _ | .fetchbyte | .nextbit | .readcode _ _
  | .readmag _ | .checkConfig | .buildMstruct | .grid | .scan | .decodeBlock _ | .scanDone => []

/-! ## One word of the opcode table -/

/-- The pattern space a lone table word is read in (log entry 10): the table's 8-bit rows and its `FF xx` rows
overlap between the spaces, so a word alone does not say. -/
def tableLevel (nbits w : Nat) : Option Level :=
  if nbits = 16 then
    let hi := w / 256 % 256
    let lo := w % 256
    if hi = 0xFF then
      if lo = 0xD8 then some .start
      else if lo = 0x00 || lo = 0xD9 || lo = 0xFF || (decide (0xD0 ≤ lo) && decide (lo ≤ 0xD7)) then some .entropy
      else some .marker
    else some .marker
  else if nbits = 8 then
    if w % 256 / 16 = 0 then some .dc else some .ac
  else none

/-- The bytes of a table word: the rows of 16 bits are big-endian words (R65), those of 8 bits are bytes. -/
def tableBytes (nbits w : Nat) : List Byte :=
  if nbits = 16 then [BitVec.ofNat 8 (w / 256), BitVec.ofNat 8 w] else [BitVec.ofNat 8 w]

/-- The operation the decoder reads from a table word, with zero bytes after it. -/
def decodeTableWord (nbits w : Nat) : Option Instr :=
  match tableLevel nbits w with
  | none => none
  | some lv =>
    match decode lv (tableBytes nbits w ++ [0, 0]) with
    | .instr i _ => some i
    | .reject _ => none

/-! ## The listing notation (R99) -/

/-- The component entry of an SOF0 segment (R85). -/
structure FrameEntry where
  id : Byte
  H : Nibble
  V : Nibble
  tq : Byte
deriving DecidableEq, Repr

/-- The component entry of an SOS segment (R87). -/
structure ScanEntry where
  id : Byte
  td : Nibble
  ta : Nibble
deriving DecidableEq, Repr

/-- A line of the listing notation for the header phase (R99). -/
inductive Item where
  | soi
  | skip (m : Byte) (run : List Byte)
  | dqt (pq tq : Nibble) (q : List Half)
  | sof0 (p : Byte) (h w : Half) (comps : List FrameEntry)
  | dht (tc : HuffClass) (th : Nibble) (counts : List Byte) (syms : List Byte)
  | sos (comps : List ScanEntry) (tail : List Byte)
deriving DecidableEq, Repr

/-- A 16-bit field of the stream, big-endian (R65). -/
def halfBytes (h : Half) : List Byte := [hiByte h, loByte h]

/-- The sum of the 16 counts of a DHT segment (R145). -/
def countsTotal (counts : List Byte) : Nat := (counts.map BitVec.toNat).sum

/-- The entries of a DQT segment: one byte each when `Pq = 0`, two bytes each otherwise (R84). -/
def quantBytes (pq : Nibble) (q : List Half) : List Byte :=
  if pq = 0 then q.map loByte else q.flatMap halfBytes

/-- The entries of an SOF0 segment (R85). -/
def frameBytes (comps : List FrameEntry) : List Byte :=
  comps.flatMap fun e => [e.id, ofNibbles e.H e.V, e.tq]

/-- The entries of an SOS segment (R87). -/
def scanBytes (comps : List ScanEntry) : List Byte :=
  comps.flatMap fun e => [e.id, ofNibbles e.td e.ta]

/-- The bytes of a listing line after its marker (R83 to R87). -/
def Item.payload : Item → List Byte
  | .soi => []
  | .skip _ run => run
  | .dqt pq tq q => halfBytes (BitVec.ofNat 16 (3 + (quantBytes pq q).length)) ++ ofNibbles pq tq :: quantBytes pq q
  | .sof0 p h w comps =>
    halfBytes (BitVec.ofNat 16 (8 + 3 * comps.length)) ++ p :: (halfBytes h ++ halfBytes w ++
      BitVec.ofNat 8 comps.length :: frameBytes comps)
  | .dht tc th counts syms =>
    halfBytes (BitVec.ofNat 16 (19 + countsTotal counts)) ++ classByte tc th :: (counts ++ syms)
  | .sos comps tail =>
    halfBytes (BitVec.ofNat 16 (3 + 2 * comps.length + tail.length)) ++
      BitVec.ofNat 8 comps.length :: (scanBytes comps ++ tail)

/-- The operation whose marker leads a listing line (R82). -/
def Item.instr : Item → Instr
  | .soi => .soi
  | .skip m _ => .skip m
  | .dqt _ _ _ => .dqt
  | .sof0 _ _ _ _ => .sof0
  | .dht _ _ _ _ => .dht
  | .sos _ _ => .sos

/-- The bytes a listing line stands for (R99): its marker and its payload. -/
def Item.bytes (it : Item) : List Byte := encode it.instr ++ it.payload

/-- The lines that stand for a segment of the block: field sizes as R84 to R87 lay them out, a skipped run without
`FF` (R114). -/
def Item.wf : Item → Bool
  | .soi => true
  | .skip m run => (Instr.skip m).wf && run.all (· != 0xFF)
  | .dqt pq _ q => q.length == 64 && (pq != 0 || q.all fun h => decide (h.toNat < 256))
  | .sof0 _ _ _ comps => decide (comps.length < 256)
  | .dht _ _ counts syms => counts.length == 16 && syms.length == countsTotal counts
  | .sos comps tail => decide (comps.length < 256) && decide (3 + 2 * comps.length + tail.length < 65536)

end Sys2Proof
end

