-- ==== Sys2Proof/Machine/State.lean ====
section
/-! DEFINITION. The state of a decoding session as plain data (spec/10_state.md R20 to R36), its value after
reset (R41), and the reasons for which a step of the model can stop. -/

namespace Sys2Proof.Machine

/-- Memory: a list of (address, byte) cells, addresses strictly rising, no cell holding the byte an unlisted
address reads as (log entry 1). It holds the input stream `S` (R21, R60). -/
abbrev Memory := List Host.Cell

/-- The five phases of a session (R24). -/
inductive Phase where
  | idle
  | header
  | scan
  | done
  | fault
deriving DecidableEq, Repr

/-- The reason codes of `InvalidConfiguration` (R229). -/
inductive ConfigReason where
  | noComponent1
  | sampling
  | noSelector
  | noQuantTable
  | noDcTable
  | noAcTable
  | huffOversubscribed
deriving DecidableEq, Repr

/-- A decode fault with its detail record, one constructor per row of the table of R220. These are the spec's
faults: raising one is a NEXT state in phase FAULT (R232), never a stop of the model. -/
inductive FaultInfo where
  /-- (address of the bad byte, the byte) (R221). -/
  | malformedMarker (addr : Nat) (byte : Byte)
  /-- (cursor, or `L`) (R222, R61, R64). -/
  | unexpectedEndOfStream (at_ : Nat)
  /-- (`pos`, the declared length) (R223). -/
  | invalidSegmentLength (pos declared : Nat)
  /-- (`pos`, `Lf`, `Nf`) (R224). -/
  | componentCountMismatch (pos lf nf : Nat)
  /-- (`pos`, `Lh`, `total`) (R225). -/
  | symbolCountMismatch (pos lh total : Nat)
  /-- (`pos`, the component id) (R226). -/
  | unknownComponent (pos : Nat) (id : Byte)
  /-- (address of the byte after `FF`, that byte) (R227). -/
  | invalidByteStuffing (addr : Nat) (byte : Byte)
  /-- (`pos`, the 16 accumulated bits) (R228). -/
  | huffmanDecodeOverflow (pos : Nat) (acc : BitVec 16)
  /-- (reason, component id or code length) (R229). -/
  | invalidConfiguration (reason : ConfigReason) (arg : Nat)
  /-- (class, symbol byte) (R230). -/
  | categoryOutOfRange (c : HuffClass) (sym : Byte)
  /-- (`k`, symbol byte) (R231). -/
  | blockOverrun (k : Nat) (sym : Byte)
deriving DecidableEq, Repr

/-- JD's ImageInfo (R26). -/
structure Image where
  width : Half
  height : Half
deriving DecidableEq, Repr

/-- The table ids an SOS segment gives a component (R27: `td`, `ta`). -/
structure Selector where
  td : Nibble
  ta : Nibble
deriving DecidableEq, Repr

/-- JD's ComponentInfo (R27). `sel` is `some` exactly when `sel_valid = 1`. -/
structure Component where
  H : Nibble
  V : Nibble
  tq : Byte
  sel : Option Selector
deriving DecidableEq, Repr

/-- A quantization table (R28): the precision flag and the entries in segment order. -/
structure QuantTable where
  prec : Bool
  q : List Half
deriving DecidableEq, Repr

/-- One key of a Huffman table with its symbol (R29): the code is the `len`-bit string of value `code`. -/
structure HuffEntry where
  len : Nat
  code : Nat
  sym : Byte
deriving DecidableEq, Repr

/-- A Huffman table (R29): the number of entries and the finite map from keys to symbols, in code order. -/
structure HuffTable where
  n : Nat
  map : List HuffEntry
deriving DecidableEq, Repr

/-- The MODEL's own (log entry 5): the operation of the scan phase that the next step runs. -/
inductive Stage where
  /-- CHECK_CONFIG is next (R190). -/
  | check
  /-- BUILD_MSTRUCT is next (R191). -/
  | mstruct
  /-- GRID is next (R192). -/
  | grid
  /-- The DC symbol of the block under assembly is next (R195). -/
  | dc
  /-- An AC symbol of the block under assembly is next (R199). -/
  | ac
  /-- SCAN_DONE is next (R208). -/
  | done
deriving DecidableEq, Repr

/-- The MODEL's own (log entry 6): the result of an internal operation that returns one. -/
inductive Ret where
  | none
  /-- NEXTBIT's bit (R172). -/
  | bit (b : Bool)
  /-- READCODE's symbol (R173). -/
  | symbol (b : Byte)
  /-- READMAG's signed integer (R175). -/
  | value (v : Int)
  /-- MARKER_FETCH's marker byte (R112). -/
  | marker (m : Byte)
  /-- DISPATCH's answer: SOS was dispatched (R113). -/
  | flag (done : Bool)
  /-- DECODE_BLOCK's block (R194). -/
  | block (b : Block)
deriving DecidableEq, Repr

/-- Why the model stops with a fault. None of these is a decode fault of R220 (those are next states), and no step
from a state that satisfies the invariants of R40 raises one. -/
inductive Fault where
  /-- Raised by READCODE, DECODE_BLOCK, GRID and the symbol fetch when they are run on a descriptor or table entry
  whose valid bit is 0: its fields have no value (R41, 93 U15). SAFE: the model stops where the spec says the
  read does not happen. -/
  | entryNotValid
  /-- Raised by the symbol fetch when `blk_idx` names no entry of `mstruct` (R33 keeps it below `mlen` while a block
  is decoded). SAFE. -/
  | noMcuStructureEntry
  /-- Raised by HEADER and DECODE_BLOCK if their loops outran the bounds R262 derives; never raised. SAFE. -/
  | loopBound
deriving DecidableEq, Repr

/-- Why the model refuses an operation. -/
inductive Refusal where
  /-- An instruction without a meaning in `exec`, by its mnemonic. SAFE. -/
  | notModelled (mnemonic : String)
  /-- Raised by START while a session runs (phase HEADER or SCAN): the block does not start a session on top of an
  old one (R251, R263), and 93 U17 gives the situation no meaning. SAFE. -/
  | sessionRunning
deriving DecidableEq, Repr

/-- A decoding session. Fields in the order of spec/10_state.md; `comp`, `qt`, `htDc`, `htAc` list the valid
entries by id, ids rising. -/
@[ext]
structure State where
  /-- The input stream `S` (R21). -/
  mem : Memory
  /-- Its length `L` (R21). -/
  len : Nat
  /-- `MAGNITUDE_MODE` (R7, R42). -/
  mode : MagnitudeMode
  /-- `phase` (R24). -/
  phase : Phase
  /-- `fault`, the fault code (R25). -/
  fault : BitVec 4
  /-- `fault_info` (R25); no record while `fault = 0` (R41). -/
  faultInfo : Option FaultInfo
  /-- `pos`, the cursor (R22). -/
  pos : Nat
  /-- `bit_off` (R23). -/
  bitOff : BitVec 3
  /-- `cur` (R23). -/
  cur : Byte
  /-- `acc` (R30). -/
  acc : BitVec 16
  /-- `acc_len` (R30). -/
  accLen : BitVec 5
  /-- `img`; `some` is `img.valid = 1` (R26). -/
  img : Option Image
  /-- `comp[0..255]`, the valid entries by id (R27). -/
  comp : List (Nat × Component)
  /-- `qt[0..15]`, the valid slots (R28). -/
  qt : List (Nat × QuantTable)
  /-- `ht[DC][0..15]`, the valid slots (R29). -/
  htDc : List (Nat × HuffTable)
  /-- `ht[AC][0..15]`, the valid slots (R29). -/
  htAc : List (Nat × HuffTable)
  /-- `mstruct` (R31). -/
  mstruct : List Byte
  /-- `mcu_cols` (R32). -/
  mcuCols : Nat
  /-- `mcu_rows` (R32). -/
  mcuRows : Nat
  /-- `mcu_total` (R32). -/
  mcuTotal : Nat
  /-- `mcu_idx` (R33). -/
  mcuIdx : Nat
  /-- `blk_idx` (R33). -/
  blkIdx : Nat
  /-- `k` (R33). -/
  k : Nat
  /-- `blk[0..63]` (R34). -/
  blk : Block
  /-- The MCU under assembly (R74, `mcu` of R193). -/
  mcu : List Block
  /-- `out` (R35). -/
  out : List (List Block)
  /-- `skiplog` (R36). -/
  skiplog : List (Byte × List Byte)
  /-- The MODEL's own: the operation of the scan phase that is next. -/
  stage : Stage
  /-- The MODEL's own: the result of the last operation that returns one. -/
  ret : Ret
deriving DecidableEq, Repr

/-- The block right after reset (R41, R250). `mem`, `len` and `mode` are no reset state of the block: the host
gives them with START (log entries 1 and 2). -/
def State.reset : State where
  mem := []
  len := 0
  mode := Config.defaultMode
  phase := .idle
  fault := 0
  faultInfo := none
  pos := 0
  bitOff := 0
  cur := 0
  acc := 0
  accLen := 0
  img := none
  comp := []
  qt := []
  htDc := []
  htAc := []
  mstruct := []
  mcuCols := 0
  mcuRows := 0
  mcuTotal := 0
  mcuIdx := 0
  blkIdx := 0
  k := 0
  blk := Block.zero
  mcu := []
  out := []
  skiplog := []
  stage := .check
  ret := .none

end Sys2Proof.Machine
end

