-- ==== Sys2Proof/Machine/Ops.lean ====
section
/-! DEFINITION. The named operations every meaning is built from: the canonical lists memory and the stores are
kept in, one setter per register, raising a fault (the block's exception entry, spec/60_exceptions.md R232), and
the read primitives of the stream (spec/20_memory.md R61 to R64). -/

namespace Sys2Proof.Machine

/-! ## Canonical lists by key -/

/-- The entry listed under a key. -/
def Slots.get {α : Type} (key : Nat) : List (Nat × α) → Option α
  | [] => none
  | (k, v) :: rest => if k = key then some v else Slots.get key rest

/-- The list with the entry under a key replaced, or added in its place. -/
def Slots.put {α : Type} (key : Nat) (val : α) : List (Nat × α) → List (Nat × α)
  | [] => [(key, val)]
  | (k, v) :: rest =>
    if key < k then (key, val) :: (k, v) :: rest
    else if k = key then (key, val) :: rest
    else (k, v) :: Slots.put key val rest

/-- The list without the entry under a key. -/
def Slots.del {α : Type} (key : Nat) : List (Nat × α) → List (Nat × α)
  | [] => []
  | (k, v) :: rest => if k = key then Slots.del key rest else (k, v) :: Slots.del key rest

/-- Keys strictly rising, each above a bound. -/
def Slots.sortedFrom {α : Type} : Nat → List (Nat × α) → Bool
  | _, [] => true
  | lo, (k, _) :: rest => decide (lo ≤ k) && Slots.sortedFrom (k + 1) rest

/-- Keys strictly rising: the canonical form. -/
def Slots.sorted {α : Type} (m : List (Nat × α)) : Bool := Slots.sortedFrom 0 m

/-! ## Memory: the input stream (R21, R60) -/

/-- What an unlisted address reads as (log entry 1). -/
def Memory.unlisted : Byte := 0

/-- The byte at an address: `S[a]` for an address below `L`. -/
def Memory.read (m : Memory) (a : Nat) : Byte := (Slots.get a m).getD Memory.unlisted

/-- Storing a byte keeps the canonical form: storing the byte an unlisted address reads as removes the cell. Only
the host's loading of a stream stores; the block never does (R72). -/
def Memory.write (m : Memory) (a : Nat) (b : Byte) : Memory :=
  if b = Memory.unlisted then Slots.del a m else Slots.put a b m

/-- The canonical form: addresses strictly rising, no cell holding the byte an unlisted address reads as. -/
def Memory.wf (m : Memory) : Bool := Slots.sorted m && m.all fun c => c.2 != Memory.unlisted

/-- Bytes stored from an address upward. -/
def Memory.load (m : Memory) (a : Nat) : List Byte → Memory
  | [] => m
  | b :: rest => Memory.load (Memory.write m a b) (a + 1) rest

/-- `S[a .. a+n-1]` (R11). -/
def Memory.slice (m : Memory) (a : Nat) : Nat → List Byte
  | 0 => []
  | n + 1 => Memory.read m a :: Memory.slice m (a + 1) n

/-! ## Registers -/

def State.setPos (v : Nat) (s : State) : State := { s with pos := v }
def State.setBitOff (v : BitVec 3) (s : State) : State := { s with bitOff := v }
def State.setCur (v : Byte) (s : State) : State := { s with cur := v }
def State.setAcc (v : BitVec 16) (l : BitVec 5) (s : State) : State := { s with acc := v, accLen := l }
def State.setImg (v : Option Image) (s : State) : State := { s with img := v }
def State.setComp (v : List (Nat × Component)) (s : State) : State := { s with comp := v }
def State.setQt (v : List (Nat × QuantTable)) (s : State) : State := { s with qt := v }
def State.setHtDc (v : List (Nat × HuffTable)) (s : State) : State := { s with htDc := v }
def State.setHtAc (v : List (Nat × HuffTable)) (s : State) : State := { s with htAc := v }
def State.setMstruct (v : List Byte) (s : State) : State := { s with mstruct := v }
def State.setGrid (c r t : Nat) (s : State) : State := { s with mcuCols := c, mcuRows := r, mcuTotal := t }
def State.setMcuIdx (v : Nat) (s : State) : State := { s with mcuIdx := v }
def State.setBlkIdx (v : Nat) (s : State) : State := { s with blkIdx := v }
def State.setK (v : Nat) (s : State) : State := { s with k := v }
def State.setBlk (v : Block) (s : State) : State := { s with blk := v }
def State.setMcu (v : List Block) (s : State) : State := { s with mcu := v }
def State.setOut (v : List (List Block)) (s : State) : State := { s with out := v }
def State.setSkiplog (v : List (Byte × List Byte)) (s : State) : State := { s with skiplog := v }
def State.setPhase (v : Phase) (s : State) : State := { s with phase := v }
def State.setStage (v : Stage) (s : State) : State := { s with stage := v }
def State.setRet (v : Ret) (s : State) : State := { s with ret := v }
def State.setFault (c : BitVec 4) (i : Option FaultInfo) (s : State) : State :=
  { s with fault := c, faultInfo := i }

/-- `mlen`, the length of `mstruct` (R31, R191). -/
def State.mlen (s : State) : Nat := s.mstruct.length

/-- The byte of the stream at an address. -/
def State.byteAt (s : State) (a : Nat) : Byte := Memory.read s.mem a

/-- `S[a .. a+n-1]`. -/
def State.bytesFrom (s : State) (a n : Nat) : List Byte := Memory.slice s.mem a n

/-- `comp[id]`, when valid (R27). -/
def State.compAt (s : State) (id : Nat) : Option Component := Slots.get id s.comp

/-- `qt[t]`, when valid (R28). -/
def State.qtAt (s : State) (t : Nat) : Option QuantTable := Slots.get t s.qt

/-- `ht[c][t]`, when valid (R29). -/
def State.htAt (s : State) (c : HuffClass) (t : Nibble) : Option HuffTable :=
  match c with
  | .dc => Slots.get t.toNat s.htDc
  | .ac => Slots.get t.toNat s.htAc

/-- `comp[id] <- c`, the whole entry (R27). -/
def State.putComp (id : Byte) (c : Component) (s : State) : State := s.setComp (Slots.put id.toNat c s.comp)

/-- `qt[t] <- q`, the whole slot (R28, R128). -/
def State.putQt (t : Nibble) (q : QuantTable) (s : State) : State := s.setQt (Slots.put t.toNat q s.qt)

/-- `ht[c][t] <- h`, the whole slot; the two classes are separate stores (R29, R151). -/
def State.putHt (c : HuffClass) (t : Nibble) (h : HuffTable) (s : State) : State :=
  match c with
  | .dc => s.setHtDc (Slots.put t.toNat h s.htDc)
  | .ac => s.setHtAc (Slots.put t.toNat h s.htAc)

/-! ## Fault entry (R232) -/

/-- The numeric code of a fault (R220). -/
def FaultInfo.code : FaultInfo → BitVec 4
  | .malformedMarker _ _ => 1
  | .unexpectedEndOfStream _ => 2
  | .invalidSegmentLength _ _ => 3
  | .componentCountMismatch _ _ _ => 4
  | .symbolCountMismatch _ _ _ => 5
  | .unknownComponent _ _ => 6
  | .invalidByteStuffing _ _ => 7
  | .huffmanDecodeOverflow _ _ => 8
  | .invalidConfiguration _ _ => 9
  | .categoryOutOfRange _ _ => 10
  | .blockOverrun _ _ => 11

/-- The numeric reason codes of `InvalidConfiguration` (R229). -/
def ConfigReason.code : ConfigReason → Nat
  | .noComponent1 => 1
  | .sampling => 2
  | .noSelector => 3
  | .noQuantTable => 4
  | .noDcTable => 5
  | .noAcTable => 6
  | .huffOversubscribed => 7

/-- TAKING A FAULT: `raise F(info)` writes the fault code, the record and the phase, and nothing else (R232).
There is no return from it beside RESET (R235). -/
def State.raise (f : FaultInfo) (s : State) : State := (s.setFault f.code (some f)).setPhase .fault

/-- How a procedure of the pseudocode ends: it returns a value, it has raised a fault (the session is over, R232),
or the model stops. -/
inductive Res (α : Type) where
  | ok (a : α) (s : State)
  | raised (s : State)
  | stop (f : Fault)
deriving DecidableEq, Repr

/-- Sequencing: what follows a `raise` is not executed (R11, R232). -/
def Res.bind {α β : Type} (r : Res α) (k : α → State → Res β) : Res β :=
  match r with
  | .ok a s => k a s
  | .raised s => .raised s
  | .stop f => .stop f

/-- The outcome of an operation run on its own: a raised fault is a next state in phase FAULT (R232). -/
def Res.outcome {α : Type} (r : Res α) : Host.Outcome State Fault Refusal :=
  match r with
  | .ok _ s => .next s
  | .raised s => .next s
  | .stop f => .fault f

/-- The outcome of an operation that returns a value: the value is kept in `ret` (log entry 6). -/
def Res.outcomeRet {α : Type} (r : Res α) (f : α → Ret) : Host.Outcome State Fault Refusal :=
  (r.bind fun a s => .ok a (s.setRet (f a))).outcome

/-- `raise` as a statement of a procedure. -/
def fail {α : Type} (f : FaultInfo) (s : State) : Res α := .raised (s.raise f)

/-! ## Read primitives (R61 to R64) -/

/-- `Rd8()` (R61). -/
def rd8 (s : State) : Res Byte :=
  if s.len ≤ s.pos then fail (.unexpectedEndOfStream s.pos) s
  else .ok (s.byteAt s.pos) (s.setPos (s.pos + 1))

/-- `Rd16()` (R62). -/
def rd16 (s : State) : Res Half :=
  (rd8 s).bind fun hi s =>
  (rd8 s).bind fun lo s =>
  .ok (be16 hi lo) s

/-- `Peek8()` (R63). -/
def peek8 (s : State) : Option Byte :=
  if s.pos < s.len then some (s.byteAt s.pos) else none

/-- `Consume(n)`: a fault leaves the cursor where it was (R64). -/
def consume (n : Nat) (s : State) : Res (List Byte) :=
  if s.len < s.pos + n then fail (.unexpectedEndOfStream s.len) s
  else .ok (s.bytesFrom s.pos n) (s.setPos (s.pos + n))

/-- `n` calls of `Rd8`, the bytes in order (the 16 counts of R145). -/
def rdBytes : Nat → State → Res (List Byte)
  | 0, s => .ok [] s
  | n + 1, s =>
    (rd8 s).bind fun b s =>
    (rdBytes n s).bind fun bs s =>
    .ok (b :: bs) s

end Sys2Proof.Machine
end

