-- ==== Sys2Proof/Machine/Operands.lean ====
section
/-! DEFINITION. The operand forms of the entropy-coded data (spec/45_bit_reader.md): the entropy byte with stuffing
removed, the single bit, the code matched against a table, the magnitude field; and the 16-bit entries of a
quantization table. -/

namespace Sys2Proof.Machine

/-- `FetchByte()` (R171): the byte after `FF` is read and judged at once. -/
def fetchByte (s : State) : Res Unit :=
  (rd8 s).bind fun b s =>
  if b = 0xFF then
    (rd8 s).bind fun z s =>
    if z = 0 then .ok () (s.setCur b) else fail (.invalidByteStuffing (s.pos - 1) z) s
  else .ok () (s.setCur b)

/-- Bit `7 - bit_off` of `cur`, and `bit_off` one further, modulo 8 (R172). -/
def shiftBit (s : State) : Res Bool :=
  .ok (s.cur.getLsbD (7 - s.bitOff.toNat)) (s.setBitOff (s.bitOff + 1))

/-- `NextBit()` (R172): a byte is fetched only when none is held. -/
def nextBit (s : State) : Res Bool :=
  if s.bitOff = 0 then (fetchByte s).bind fun _ s => shiftBit s else shiftBit s

/-- A bit as a number. -/
def bitVal (b : Bool) : Nat := if b then 1 else 0

/-- The symbol a table maps the `len`-bit string of value `code` to (R29, R173). -/
def HuffTable.lookup (t : HuffTable) (len code : Nat) : Option Byte :=
  (t.map.find? fun e => e.len == len && e.code == code).map HuffEntry.sym

/-- The loop of `ReadCode`, with the number of bits that may still be taken: when 16 bits match no key,
`HuffmanDecodeOverflow`, and no 17th bit is read (R173, R174). -/
def readCodeLoop (t : HuffTable) : Nat → State → Res Byte
  | 0, s => fail (.huffmanDecodeOverflow s.pos s.acc) s
  | n + 1, s =>
    (nextBit s).bind fun b s =>
    let s := s.setAcc (BitVec.ofNat 16 (2 * s.acc.toNat + bitVal b)) (s.accLen + 1)
    match t.lookup s.accLen.toNat s.acc.toNat with
    | some sym => .ok sym s
    | none => readCodeLoop t n s

/-- `ReadCode(t)` (R173). -/
def readCode (t : HuffTable) (s : State) : Res Byte := readCodeLoop t Config.maxCodeLength (s.setAcc 0 0)

/-- `n` bits as an unsigned number, most significant first, after those already in `u` (R66, R175). -/
def readBits : Nat → Nat → State → Res Nat
  | 0, u, s => .ok u s
  | n + 1, u, s => (nextBit s).bind fun b s => readBits n (2 * u + bitVal b) s

/-- `NegBias(n)` (R176). -/
def negBias (mode : MagnitudeMode) (n : Nat) : Int :=
  match mode with
  | .observed => 2 ^ (n - 1)
  | .standard => 2 ^ n - 1

/-- The signed value of an `n`-bit field of unsigned value `u` (R94, R175). -/
def magnitude (mode : MagnitudeMode) (n u : Nat) : Int :=
  if n = 0 then 0
  else if 2 ^ (n - 1) ≤ u then u
  else u - negBias mode n

/-- `ReadMagnitude(n)` (R175); `n = 0` reads no bit. -/
def readMagnitude (n : Nat) (s : State) : Res Int :=
  (readBits n 0 s).bind fun u s => .ok (magnitude s.mode n u) s

/-- Two-byte big-endian values (R125, R126). -/
def bePairs : List Byte → List Half
  | hi :: lo :: rest => be16 hi lo :: bePairs rest
  | _ => []

end Sys2Proof.Machine
end

