-- ==== Sys2Proof/Machine/Flags.lean ====
section
/-! DEFINITION. The block has no arithmetic flags (spec/10_state.md R38). What takes their place: the status a host
reads, and the valid bits that act as predicates. -/

namespace Sys2Proof.Machine

/-- What a host can read at any time: `phase`, `fault`, `fault_info` (R38, R238). -/
def State.status (s : State) : Phase × BitVec 4 × Option FaultInfo := (s.phase, s.fault, s.faultInfo)

/-- JD's DecodedImage, which a host may read in phase DONE only: `(img, comp, out)` (R35, R74, R238). -/
def State.result (s : State) : Option (Option Image × List (Nat × Component) × List (List Block)) :=
  if s.phase = .done then some (s.img, s.comp, s.out) else none

/-- A session has ended when its phase is DONE or FAULT (R261). -/
def State.ended (s : State) : Bool := s.phase == .done || s.phase == .fault

/-- A session runs in phase HEADER and in phase SCAN (R24). -/
def State.running (s : State) : Bool := s.phase == .header || s.phase == .scan

/-- `img.valid` (R26). -/
def State.imgValid (s : State) : Bool := s.img.isSome

/-- `comp[id].valid` (R27). -/
def State.compValid (s : State) (id : Byte) : Bool := (s.compAt id.toNat).isSome

/-- `comp[id].sel_valid` (R27). -/
def State.selValid (s : State) (id : Byte) : Bool :=
  match s.compAt id.toNat with
  | some c => c.sel.isSome
  | none => false

/-- `qt[t].valid` (R28). -/
def State.qtValid (s : State) (t : Nat) : Bool := (s.qtAt t).isSome

/-- `ht[c][t].valid` (R29). -/
def State.htValid (s : State) (c : HuffClass) (t : Nibble) : Bool := (s.htAt c t).isSome

end Sys2Proof.Machine
end

