-- ==== Sys2Proof/Machine/Tables.lean ====
section
/-! DEFINITION. The four segment handlers of the configuration front end: DQT (spec/41_dqt.md R125), SOF0
(spec/42_sof0.md R135), DHT (spec/43_dht.md R145, R146) and SOS (spec/44_sos.md R160). Each runs with `pos` just
after its marker. -/

namespace Sys2Proof.Machine

/-! ## DQT -/

/-- `DQT()` (R125): the payload is consumed before its size is judged. -/
def dqtOp (s : State) : Res Unit :=
  (rd16 s).bind fun lq s =>
  (rd8 s).bind fun pt s =>
  if lq.toNat < 3 then fail (.invalidSegmentLength s.pos lq.toNat) s
  else
    (consume (lq.toNat - 3) s).bind fun d s =>
    if hiNibble pt = 0 then
      if lq.toNat - 3 ≠ Config.quantEntries then fail (.invalidSegmentLength s.pos lq.toNat) s
      else .ok () (s.putQt (loNibble pt) ⟨false, d.map ofByte⟩)
    else if lq.toNat - 3 ≠ 2 * Config.quantEntries then fail (.invalidSegmentLength s.pos lq.toNat) s
    else .ok () (s.putQt (loNibble pt) ⟨true, bePairs d⟩)

def execDqt (s : State) : Host.Outcome State Fault Refusal := (dqtOp s).outcome

/-! ## SOF0 -/

/-- What SOF0 writes of `comp[C]`: `valid`, `H`, `V`, `tq`; the selector fields keep their values (R135, R136). -/
def State.declare (c hv tq : Byte) (s : State) : State :=
  s.putComp c ⟨hiNibble hv, loNibble hv, tq, (s.compAt c.toNat).bind Component.sel⟩

/-- The component entries of SOF0: three bytes are read before an entry is written (R135). -/
def sof0Entries : Nat → State → Res Unit
  | 0, s => .ok () s
  | n + 1, s =>
    (rd8 s).bind fun c s =>
    (rd8 s).bind fun hv s =>
    (rd8 s).bind fun tq s =>
    sof0Entries n (s.declare c hv tq)

/-- `SOF0()` (R135): the length relation is judged before any entry is read. -/
def sof0Op (s : State) : Res Unit :=
  (rd16 s).bind fun lf s =>
  (rd8 s).bind fun _ s =>
  (rd16 s).bind fun y s =>
  (rd16 s).bind fun x s =>
  (rd8 s).bind fun nf s =>
  if (lf.toNat : Int) - 8 ≠ 3 * nf.toNat then fail (.componentCountMismatch s.pos lf.toNat nf.toNat) s
  else sof0Entries nf.toNat (s.setImg (some ⟨x, y⟩))

def execSof0 (s : State) : Host.Outcome State Fault Refusal := (sof0Op s).outcome

/-! ## DHT -/

/-- A key of a table under construction: `(len, code)` (R146). -/
abbrev CodeKey := Nat × Nat

/-- The codes of one length: `count` sequential values from `code`, each of which must be below `2^len`, or the
histogram is oversubscribed at `len` (R146, R148). -/
def assignCodes (len code : Nat) : Nat → Except Nat (List CodeKey)
  | 0 => .ok []
  | count + 1 =>
    if 2 ^ len ≤ code then .error len
    else
      match assignCodes len (code + 1) count with
      | .ok keys => .ok ((len, code) :: keys)
      | .error l => .error l

/-- The keys of all lengths from `len` on; after each length the running code is doubled (R146). -/
def assignLengths (len code : Nat) : List Nat → Except Nat (List CodeKey)
  | [] => .ok []
  | count :: counts =>
    match assignCodes len code count with
    | .error l => .error l
    | .ok keys =>
      match assignLengths (len + 1) (2 * (code + count)) counts with
      | .error l => .error l
      | .ok more => .ok (keys ++ more)

/-- `BuildCodes(cnt, V)` (R146): the `i`-th code generated maps to `V[i]` (R91). The error is the code length at
which the histogram is oversubscribed. -/
def buildCodes (counts syms : List Byte) : Except Nat (List HuffEntry) :=
  match assignLengths 1 0 (counts.map BitVec.toNat) with
  | .error l => .error l
  | .ok keys => .ok (keys.zipWith (fun key v => ⟨key.1, key.2, v⟩) syms)

/-- `DHT()` (R145): count mismatch, then end of stream, then oversubscription. -/
def dhtOp (s : State) : Res Unit :=
  (rd16 s).bind fun lh s =>
  (rd8 s).bind fun t s =>
  (rdBytes 16 s).bind fun counts s =>
  if (lh.toNat : Int) - 19 ≠ countsTotal counts then
    fail (.symbolCountMismatch s.pos lh.toNat (countsTotal counts)) s
  else
    (consume (countsTotal counts) s).bind fun syms s =>
    match buildCodes counts syms with
    | .error len => fail (.invalidConfiguration .huffOversubscribed len) s
    | .ok map => .ok () (s.putHt (classBit t) (loNibble t) ⟨countsTotal counts, map⟩)

def execDht (s : State) : Host.Outcome State Fault Refusal := (dhtOp s).outcome

/-! ## SOS -/

/-- The component entries of SOS: both bytes are read, then the id is looked up, then the selector is written
(R160, R162). -/
def sosEntries : Nat → State → Res Unit
  | 0, s => .ok () s
  | n + 1, s =>
    (rd8 s).bind fun cs s =>
    (rd8 s).bind fun sel s =>
    match s.compAt cs.toNat with
    | none => fail (.unknownComponent s.pos cs) s
    | some c => sosEntries n (s.putComp cs { c with sel := some ⟨hiNibble sel, loNibble sel⟩ })

/-- `SOS()` (R160): the tail is stepped over by its length (R161). -/
def sosOp (s : State) : Res Unit :=
  (rd16 s).bind fun ls s =>
  (rd8 s).bind fun ns s =>
  (sosEntries ns.toNat s).bind fun _ s =>
  if ls.toNat < 3 + 2 * ns.toNat then fail (.invalidSegmentLength s.pos ls.toNat) s
  else (consume (ls.toNat - 3 - 2 * ns.toNat) s).bind fun _ s => .ok () s

def execSos (s : State) : Host.Outcome State Fault Refusal := (sosOp s).outcome

end Sys2Proof.Machine
end

