-- ==== Sys2Proof/Machine/Marker.lean ====
section
/-! DEFINITION. The marker dispatcher (spec/40_marker_dispatcher.md): SOI, SKIP, BADMARKER, MARKER_FETCH, DISPATCH
and HEADER. -/

namespace Sys2Proof.Machine

/-- `SOI_CHECK()` (R111): the bytes are judged in the order read. -/
def soiOp (s : State) : Res Unit :=
  (rd8 s).bind fun b0 s =>
  if b0 ≠ 0xFF then fail (.malformedMarker (s.pos - 1) b0) s
  else
    (rd8 s).bind fun b1 s =>
    if b1 ≠ 0xD8 then fail (.malformedMarker (s.pos - 1) b1) s
    else .ok () s

def execSoi (s : State) : Host.Outcome State Fault Refusal := (soiOp s).outcome

/-- The address SKIP stops at: the first `FF` from `pos` on, or the end of the stream; `n` bounds the search (R114). -/
def skipEnd (m : Memory) : Nat → Nat → Nat
  | 0, a => a
  | n + 1, a => if Memory.read m a = 0xFF then a else skipEnd m n (a + 1)

/-- `SKIP(m)` (R114): the `FF` found is not consumed; the run is logged under the marker byte (R36). -/
def skipOp (m : Byte) (s : State) : Res Unit :=
  let stop := skipEnd s.mem (s.len - s.pos) s.pos
  .ok () ((s.setSkiplog (s.skiplog ++ [(m, s.bytesFrom s.pos (stop - s.pos))])).setPos stop)

def execSkip (m : Byte) (s : State) : Host.Outcome State Fault Refusal := (skipOp m s).outcome

/-- A wrong lead byte, just consumed: `MalformedMarker` with its address (R112). -/
def badmarkerOp (lead : Byte) (s : State) : Res Unit := fail (.malformedMarker (s.pos - 1) lead) s

def execBadmarker (lead : Byte) (s : State) : Host.Outcome State Fault Refusal := (badmarkerOp lead s).outcome

/-- `MARKER_FETCH()` (R112): the lead byte is judged before the marker byte is read. -/
def markerFetchOp (s : State) : Res Byte :=
  (rd8 s).bind fun b0 s =>
  if b0 ≠ 0xFF then fail (.malformedMarker (s.pos - 1) b0) s
  else rd8 s

def execMarkerFetch (s : State) : Host.Outcome State Fault Refusal := (markerFetchOp s).outcomeRet Ret.marker

/-- `DISPATCH(m)` (R113): true exactly when SOS was dispatched. -/
def dispatchOp (m : Byte) (s : State) : Res Bool :=
  if m = 0xDB then (dqtOp s).bind fun _ s => .ok false s
  else if m = 0xC0 then (sof0Op s).bind fun _ s => .ok false s
  else if m = 0xC4 then (dhtOp s).bind fun _ s => .ok false s
  else if m = 0xDA then (sosOp s).bind fun _ s => .ok true s
  else (skipOp m s).bind fun _ s => .ok false s

def execDispatch (m : Byte) (s : State) : Host.Outcome State Fault Refusal := (dispatchOp m s).outcomeRet Ret.flag

/-- The marker loop of `HEADER()`, at most `n` rounds; each round takes two bytes or faults, so a bound above the
bytes left is never met (R110, R262). -/
def markerLoop : Nat → State → Res Unit
  | 0, _ => .stop .loopBound
  | n + 1, s =>
    (markerFetchOp s).bind fun m s =>
    (dispatchOp m s).bind fun done s =>
    if done then .ok () s else markerLoop n s

/-- `HEADER()` (R110). -/
def headerOp (s : State) : Res Unit :=
  (soiOp s).bind fun _ s => markerLoop (s.len + 1 - s.pos) s

def execHeader (s : State) : Host.Outcome State Fault Refusal := (headerOp s).outcome

end Sys2Proof.Machine
end

