-- ==== Sys2Proof/Machine/BitReader.lean ====
section
/-! DEFINITION. The bit reader's operations (spec/45_bit_reader.md R170 to R180): DATA, STUFF, BADSTUFF, FETCHBYTE,
NEXTBIT, READCODE, READMAG. DATA, STUFF and BADSTUFF run when their bytes have just been taken from the stream. -/

namespace Sys2Proof.Machine

/-- A byte other than `FF` is held as it is (R171). -/
def dataOp (b : Byte) (s : State) : Res Unit := .ok () (s.setCur b)

def execData (b : Byte) (s : State) : Host.Outcome State Fault Refusal := (dataOp b s).outcome

/-- `FF 00` is the data byte `FF` (R171). -/
def stuffOp (s : State) : Res Unit := .ok () (s.setCur 0xFF)

def execStuff (s : State) : Host.Outcome State Fault Refusal := (stuffOp s).outcome

/-- `FF x`: the record holds the address of `x`, the byte just taken (R171). -/
def badstuffOp (x : Byte) (s : State) : Res Unit := fail (.invalidByteStuffing (s.pos - 1) x) s

def execBadstuff (x : Byte) (s : State) : Host.Outcome State Fault Refusal := (badstuffOp x s).outcome

def execFetchbyte (s : State) : Host.Outcome State Fault Refusal := (fetchByte s).outcome

def execNextbit (s : State) : Host.Outcome State Fault Refusal := (nextBit s).outcomeRet Ret.bit

/-- `ReadCode` with the table `ht[c][t]`, which must be valid (R173, R41). -/
def readCodeOf (c : HuffClass) (t : Nibble) (s : State) : Res Byte :=
  match s.htAt c t with
  | none => .stop .entryNotValid
  | some h => readCode h s

def execReadcode (c : HuffClass) (t : Nibble) (s : State) : Host.Outcome State Fault Refusal :=
  (readCodeOf c t s).outcomeRet Ret.symbol

def execReadmag (n : Nibble) (s : State) : Host.Outcome State Fault Refusal :=
  (readMagnitude n.toNat s).outcomeRet Ret.value

end Sys2Proof.Machine
end

