-- ==== Sys2Proof/Machine/Block.lean ====
section
/-! DEFINITION. The block assembler (spec/46_mcu_decoder.md R194 to R207): the DC and AC symbol operations, each run
when its symbol's code has just been read, and DECODE_BLOCK. -/

namespace Sys2Proof.Machine

/-! ## DC operations -/

/-- `blk[j] <- v`, two's complement (R34). -/
def State.putCoef (j : Nat) (v : Int) (s : State) : State := s.setBlk (s.blk.setIfInBounds j (BitVec.ofInt 16 v))

/-- DC_ZERO (R196). -/
def dcZeroOp (s : State) : Res Unit := .ok () (s.putCoef 0 0)

def execDcZero (s : State) : Host.Outcome State Fault Refusal := (dcZeroOp s).outcome

/-- DC_MAG of category `n` (R197): the value is stored as it is, without prediction (R206). -/
def dcMagOp (n : Nat) (s : State) : Res Unit := (readMagnitude n s).bind fun v s => .ok () (s.putCoef 0 v)

def execDcMag (n : Nibble) (s : State) : Host.Outcome State Fault Refusal := (dcMagOp n.toNat s).outcome

/-- DC_BAD (R198). -/
def dcBadOp (n : Byte) (s : State) : Res Unit := fail (.categoryOutOfRange .dc n) s

def execDcBad (n : Byte) (s : State) : Host.Outcome State Fault Refusal := (dcBadOp n s).outcome

/-! ## AC operations -/

/-- AC_EOB (R200). -/
def acEobOp (s : State) : Res Unit := .ok () (s.setK Config.acValues)

def execAcEob (s : State) : Host.Outcome State Fault Refusal := (acEobOp s).outcome

/-- `z` zero AC values of the symbol `sym`, unless they would pass the 63rd (R201, R202, R204). -/
def acZeros (z : Nat) (sym : Byte) (s : State) : Res Unit :=
  if Config.acValues < s.k + z then fail (.blockOverrun s.k sym) s
  else .ok () (s.setK (s.k + z))

/-- AC_ZRL: 16 zeros (R201). -/
def acZrlOp (s : State) : Res Unit := acZeros 16 0xF0 s

def execAcZrl (s : State) : Host.Outcome State Fault Refusal := (acZrlOp s).outcome

/-- AC_RUN: `r` zeros (R202). -/
def acRunOp (r : Nibble) (s : State) : Res Unit := acZeros r.toNat (ofNibbles r 0) s

def execAcRun (r : Nibble) (s : State) : Host.Outcome State Fault Refusal := (acRunOp r s).outcome

/-- AC_COEF: the overrun is judged before a magnitude bit is read (R203, R204). -/
def acCoefOp (r sz : Nibble) (s : State) : Res Unit :=
  if Config.acValues < s.k + r.toNat + 1 then fail (.blockOverrun s.k (ofNibbles r sz)) s
  else
    (readMagnitude sz.toNat (s.setK (s.k + r.toNat))).bind fun v s =>
    .ok () ((s.putCoef (1 + s.k) v).setK (s.k + 1))

def execAcCoef (r sz : Nibble) (s : State) : Host.Outcome State Fault Refusal := (acCoefOp r sz s).outcome

/-- AC_BAD: the overrun test is not made (R205). -/
def acBadOp (r sz : Nibble) (s : State) : Res Unit := fail (.categoryOutOfRange .ac (ofNibbles r sz)) s

def execAcBad (r sz : Nibble) (s : State) : Host.Outcome State Fault Refusal := (acBadOp r sz s).outcome

/-! ## DECODE_BLOCK -/

/-- The DC part after its symbol (R194, R195). -/
def dcSymbol (n : Byte) (s : State) : Res Unit :=
  if n = 0 then dcZeroOp s
  else if n.toNat ≤ Config.dcCategoryLimit then dcMagOp n.toNat s
  else dcBadOp n s

/-- One round of the AC part after its symbol (R194, R199). -/
def acSymbol (sym : Byte) (s : State) : Res Unit :=
  if sym = 0 then acEobOp s
  else if loNibble sym = 0 then
    if hiNibble sym = 15 then acZrlOp s else acRunOp (hiNibble sym) s
  else if (loNibble sym).toNat ≤ Config.acCategoryLimit then acCoefOp (hiNibble sym) (loNibble sym) s
  else acBadOp (hiNibble sym) (loNibble sym) s

/-- The AC loop, at most `n` tests of its condition; `k` grows in every round, so 64 tests are enough (R199, R262). -/
def acLoop (act : HuffTable) : Nat → State → Res Unit
  | 0, _ => .stop .loopBound
  | n + 1, s =>
    if s.k < Config.acValues then
      (readCode act s).bind fun sym s =>
      (acSymbol sym s).bind fun _ s => acLoop act n s
    else .ok () s

/-- The two tables of a component: `ht[DC][comp[id].td]`, `ht[AC][comp[id].ta]` (R194, R96). -/
def State.tablesOf (s : State) (id : Byte) : Option (HuffTable × HuffTable) :=
  match s.compAt id.toNat with
  | none => none
  | some c =>
    match c.sel with
    | none => none
    | some sel =>
      match s.htAt .dc sel.td, s.htAt .ac sel.ta with
      | some dct, some act => some (dct, act)
      | _, _ => none

/-- `DecodeBlock(id)` after the tables are looked up (R194). -/
def decodeBlockWith (dct act : HuffTable) (s : State) : Res Block :=
  (readCode dct (s.setBlk Block.zero)).bind fun n s =>
  (dcSymbol n s).bind fun _ s =>
  (acLoop act (Config.acValues + 1) (s.setK 0)).bind fun _ s =>
  .ok s.blk s

/-- `DecodeBlock(id)` (R194). -/
def decodeBlockOp (id : Byte) (s : State) : Res Block :=
  match s.tablesOf id with
  | none => .stop .entryNotValid
  | some (dct, act) => decodeBlockWith dct act s

def execDecodeBlock (id : Byte) (s : State) : Host.Outcome State Fault Refusal :=
  (decodeBlockOp id s).outcomeRet Ret.block

end Sys2Proof.Machine
end

