-- ==== Sys2Proof/Machine/Scan.lean ====
section
/-! DEFINITION. Scan start and scan loop (spec/46_mcu_decoder.md R190 to R193, R208): CHECK_CONFIG, BUILD_MSTRUCT,
GRID, SCAN, SCAN_DONE. -/

namespace Sys2Proof.Machine

/-! ## CHECK_CONFIG -/

/-- A sampling factor JD's data model allows: 1 to 4 (R190). -/
def samplingOk (f : Nibble) : Bool := decide (1 ≤ f.toNat ∧ f.toNat ≤ Config.maxSampling)

/-- The first reason, in the order of R190, why a valid component cannot be decoded. -/
def componentError (s : State) (c : Component) : Option ConfigReason :=
  if !(samplingOk c.H && samplingOk c.V) then some .sampling
  else
    match c.sel with
    | none => some .noSelector
    | some sel =>
      if decide (Config.lastQuantSlot < c.tq.toNat) || (s.qtAt c.tq.toNat).isNone then some .noQuantTable
      else if (s.htAt .dc sel.td).isNone then some .noDcTable
      else if (s.htAt .ac sel.ta).isNone then some .noAcTable
      else none

/-- The first reason met over components in ascending id order, with the id (R190). -/
def componentsError (s : State) : List (Nat × Component) → Option (ConfigReason × Nat)
  | [] => none
  | (id, c) :: rest =>
    match componentError s c with
    | some r => some (r, id)
    | none => componentsError s rest

/-- What the scan-start check finds (R190). -/
def configError (s : State) : Option (ConfigReason × Nat) :=
  match s.compAt 1 with
  | none => some (.noComponent1, 1)
  | some _ => componentsError s s.comp

/-- `CheckConfig()` (R190). -/
def checkConfigOp (s : State) : Res Unit :=
  match configError s with
  | some (r, id) => fail (.invalidConfiguration r id) s
  | none => .ok () s

def execCheckConfig (s : State) : Host.Outcome State Fault Refusal := (checkConfigOp s).outcome

/-! ## BUILD_MSTRUCT -/

/-- The ids of valid components in ascending order, each `H * V` times (R191). -/
def mstructOf (comps : List (Nat × Component)) : List Byte :=
  comps.flatMap fun e => List.replicate (e.2.H.toNat * e.2.V.toNat) (BitVec.ofNat 8 e.1)

/-- `BuildMstruct()` (R191). -/
def buildMstructOp (s : State) : Res Unit := .ok () (s.setMstruct (mstructOf s.comp))

def execBuildMstruct (s : State) : Host.Outcome State Fault Refusal := (buildMstructOp s).outcome

/-! ## GRID -/

/-- `ceildiv(a, b) = (a + b - 1) div b` for `b >= 1` (R9); for `b = 0` the rules state no quotient (log entry 8). -/
def ceildiv (a b : Nat) : Nat := if b = 0 then Config.ceildivByZero a else (a + b - 1) / b

/-- `Grid()` (R192). -/
def gridOp (s : State) : Res Unit :=
  match s.img, s.compAt 1 with
  | some im, some c =>
    let cols := ceildiv (ceildiv im.width.toNat 8) c.H.toNat
    let rows := ceildiv (ceildiv im.height.toNat 8) c.V.toNat
    .ok () (s.setGrid cols rows (cols * rows))
  | _, _ => .stop .entryNotValid

def execGrid (s : State) : Host.Outcome State Fault Refusal := (gridOp s).outcome

/-! ## SCAN -/

/-- The blocks of one MCU, over the entries of `mstruct` still to come (R193). -/
def scanBlocks : List Byte → State → Res Unit
  | [], s => .ok () s
  | id :: ids, s =>
    (decodeBlockOp id s).bind fun b s =>
    scanBlocks ids ((s.setMcu (s.mcu ++ [b])).setBlkIdx (s.blkIdx + 1))

/-- `n` MCUs; an MCU is appended to `out` when all its blocks are complete (R193, R74). -/
def scanMcus : Nat → State → Res Unit
  | 0, s => .ok () s
  | n + 1, s =>
    (scanBlocks s.mstruct ((s.setMcu []).setBlkIdx 0)).bind fun _ s =>
    scanMcus n ((s.setOut (s.out ++ [s.mcu])).setMcuIdx (s.mcuIdx + 1))

/-- `phase <- DONE` (R208). -/
def scanDoneOp (s : State) : Res Unit := .ok () (s.setPhase .done)

def execScanDone (s : State) : Host.Outcome State Fault Refusal := (scanDoneOp s).outcome

/-- `Scan()` (R193). -/
def scanOp (s : State) : Res Unit :=
  (checkConfigOp s).bind fun _ s =>
  (buildMstructOp s).bind fun _ s =>
  (gridOp s).bind fun _ s =>
  (scanMcus s.mcuTotal ((s.setBitOff 0).setMcuIdx 0)).bind fun _ s =>
  scanDoneOp s

def execScan (s : State) : Host.Outcome State Fault Refusal := (scanOp s).outcome

end Sys2Proof.Machine
end

