-- ==== Sys2Proof/Machine/Session.lean ====
section
/-! DEFINITION. The host's actions RESET and START (spec/70_reset_and_hazards.md R250, R251). -/

namespace Sys2Proof.Machine

/-- RESET, in any phase: every field takes its reset value (R250). -/
def execReset (_ : State) : Host.Outcome State Fault Refusal := .next State.reset

/-- The state in which a session over a stream begins: the reset state with the host's operands, in phase HEADER
(R251, R41). -/
def State.launch (stream : List Byte) (mode : MagnitudeMode) : State :=
  { State.reset with mem := Memory.load [] 0 stream, len := stream.length, mode := mode, phase := .header }

/-- A session to its end: the header phase, the hand-over (R115), the scan (R251). -/
def sessionOp (s : State) : Res Unit :=
  (headerOp s).bind fun _ s => scanOp (s.setPhase .scan)

/-- START (R251). In phases DONE and FAULT it is preceded by RESET; while a session runs it has no meaning (93 U17). -/
def execStart (stream : List Byte) (mode : MagnitudeMode) (s : State) : Host.Outcome State Fault Refusal :=
  if s.running then .refused .sessionRunning
  else (sessionOp (State.launch stream mode)).outcome

end Sys2Proof.Machine
end

