-- ==== Sys2Proof/Machine/Dispatch.lean ====
section
/-! DEFINITION. One arm per operation of spec/opcode_table.json, each one call of its meaning. -/

namespace Sys2Proof.Machine

def exec (i : Instr) (s : State) : Host.Outcome State Fault Refusal :=
  match i with
  | .soi => Sys2Proof.Machine.execSoi s
  | .dqt => Sys2Proof.Machine.execDqt s
  | .sof0 => Sys2Proof.Machine.execSof0 s
  | .dht => Sys2Proof.Machine.execDht s
  | .sos => Sys2Proof.Machine.execSos s
  | .skip m => Sys2Proof.Machine.execSkip m s
  | .badmarker lead => Sys2Proof.Machine.execBadmarker lead s
  | .data b => Sys2Proof.Machine.execData b s
  | .stuff => Sys2Proof.Machine.execStuff s
  | .badstuff x => Sys2Proof.Machine.execBadstuff x s
  | .dcZero => Sys2Proof.Machine.execDcZero s
  | .dcMag n => Sys2Proof.Machine.execDcMag n s
  | .dcBad n => Sys2Proof.Machine.execDcBad n s
  | .acEob => Sys2Proof.Machine.execAcEob s
  | .acZrl => Sys2Proof.Machine.execAcZrl s
  | .acRun r => Sys2Proof.Machine.execAcRun r s
  | .acCoef r sz => Sys2Proof.Machine.execAcCoef r sz s
  | .acBad r sz => Sys2Proof.Machine.execAcBad r sz s
  | .reset => Sys2Proof.Machine.execReset s
  | .start stream mode => Sys2Proof.Machine.execStart stream mode s
  | .header => Sys2Proof.Machine.execHeader s
  | .markerFetch => Sys2Proof.Machine.execMarkerFetch s
  | .dispatch m => Sys2Proof.Machine.execDispatch m s
  | .fetchbyte => Sys2Proof.Machine.execFetchbyte s
  | .nextbit => Sys2Proof.Machine.execNextbit s
  | .readcode c t => Sys2Proof.Machine.execReadcode c t s
  | .readmag n => Sys2Proof.Machine.execReadmag n s
  | .checkConfig => Sys2Proof.Machine.execCheckConfig s
  | .buildMstruct => Sys2Proof.Machine.execBuildMstruct s
  | .grid => Sys2Proof.Machine.execGrid s
  | .scan => Sys2Proof.Machine.execScan s
  | .decodeBlock id => Sys2Proof.Machine.execDecodeBlock id s
  | .scanDone => Sys2Proof.Machine.execScanDone s

end Sys2Proof.Machine
end

