-- ==== Sys2Proof/Machine/Fetch.lean ====
section
/-! DEFINITION. What a step does around an operation (log entry 5): fetching the operation that is due, which takes
its pattern from the stream, and moving on after it, which is the control flow of HEADER, SCAN and DECODE_BLOCK
(spec/40_marker_dispatcher.md R110, R115, spec/46_mcu_decoder.md R193, R194); and storing a table word where it is
fetched next (log entry 10). -/

namespace Sys2Proof.Machine

/-! ## Fetching -/

/-- The bytes from the cursor on that a pattern may take, at most two. -/
def State.window (s : State) : List Byte := s.bytesFrom s.pos (min 2 (s.len - s.pos))

/-- Take the pattern at the cursor: the cursor moves over the bytes of the pattern, or over the bytes there are when
the stream ends inside it, as the reads of R112 and R171 do. -/
def fetchPattern (lv : Level) (s : State) : Res (Option Instr) :=
  match decode lv s.window with
  | .instr i rest => .ok (some i) (s.setPos (s.pos + (s.window.length - rest.length)))
  | .reject _ => fail (.unexpectedEndOfStream (s.pos + s.window.length)) (s.setPos (s.pos + s.window.length))

/-- Take the code of a symbol of the block under assembly from the stream, with the DC or the AC table of its
component (R96, R194), and decode the symbol (R92, R93). -/
def fetchSymbol (c : HuffClass) (s : State) : Res (Option Instr) :=
  match s.mstruct[s.blkIdx]? with
  | none => .stop .noMcuStructureEntry
  | some id =>
    match s.tablesOf id with
    | none => .stop .entryNotValid
    | some (dct, act) =>
      match c with
      | .dc => (readCode dct s).bind fun sym s => .ok (some (decodeDcSymbol sym)) s
      | .ac => (readCode act s).bind fun sym s => .ok (some (decodeAcSymbol sym)) s

/-- The operation that is due, with the state after its pattern was taken; none in phases IDLE, DONE and FAULT, where
no operation runs (R235). -/
def fetch (s : State) : Res (Option Instr) :=
  match s.phase with
  | .idle => .ok none s
  | .header => if s.pos = 0 then .ok (some .soi) s else fetchPattern .marker s
  | .scan =>
    match s.stage with
    | .check => .ok (some .checkConfig) s
    | .mstruct => .ok (some .buildMstruct) s
    | .grid => .ok (some .grid) s
    | .dc => fetchSymbol .dc s
    | .ac => fetchSymbol .ac s
    | .done => .ok (some .scanDone) s
  | .done => .ok none s
  | .fault => .ok none s

/-! ## Moving on -/

/-- Begin a block: `blk` is cleared and its DC symbol is due (R194). -/
def startBlock (s : State) : State := (s.setBlk Block.zero).setStage .dc

/-- The head of the MCU loop (R193): begin the next MCU, or let SCAN_DONE be due. With an empty MCU structure every
MCU still to come is the empty list. -/
def nextMcu (s : State) : State :=
  if s.mcuIdx < s.mcuTotal then
    if s.mlen = 0 then
      ((((s.setMcu []).setBlkIdx 0).setOut (s.out ++ List.replicate (s.mcuTotal - s.mcuIdx) [])).setMcuIdx
        s.mcuTotal).setStage .done
    else startBlock ((s.setMcu []).setBlkIdx 0)
  else s.setStage .done

/-- After a block: append it to the MCU; begin the next block, or append the MCU to `out` (R193, R74). -/
def nextBlock (s : State) : State :=
  let s := (s.setMcu (s.mcu ++ [s.blk])).setBlkIdx (s.blkIdx + 1)
  if s.blkIdx < s.mlen then startBlock s
  else nextMcu ((s.setOut (s.out ++ [s.mcu])).setMcuIdx (s.mcuIdx + 1))

/-- Hand-over to the MCU decoder (R115, R163). -/
def enterScan (s : State) : State := (s.setPhase .scan).setStage .check

/-- The control flow after the operation `i` of the scan phase (R193, R194). -/
def advanceScan (s : State) : State :=
  match s.stage with
  | .check => s.setStage .mstruct
  | .mstruct => s.setStage .grid
  | .grid => nextMcu ((s.setBitOff 0).setMcuIdx 0)
  | .dc => (s.setK 0).setStage .ac
  | .ac => if s.k < Config.acValues then s else nextBlock s
  | .done => s

/-- Is this the operation that ends the header phase (R113)? -/
def endsHeader (i : Instr) : Bool := i == .sos

/-- The control flow after an operation: nothing more once a fault was raised or the scan is done (R232, R208). -/
def advance (i : Instr) (s : State) : State :=
  match s.phase with
  | .header => if endsHeader i then enterScan s else s
  | .scan => advanceScan s
  | .idle => s
  | .done => s
  | .fault => s

/-! ## A table word in place -/

/-- How many zero bytes follow a placed word: more than an operation reads from operand words of zeros. -/
def wordTail : Nat := 64

/-- Bytes at the cursor, with zeros after them, inside the stream. -/
def State.placeBytes (bs : List Byte) (s : State) : State :=
  { s with
    mem := Memory.load s.mem s.pos (bs ++ List.replicate wordTail 0)
    len := max s.len (s.pos + bs.length + wordTail) }

/-- A table with one code of one bit. -/
def oneCode (code : Nat) (sym : Byte) : HuffTable := ⟨1, [⟨1, code, sym⟩]⟩

/-- A block of a component 1 with the tables `dct`, `act` is under assembly. -/
def State.placeBlock (dct act : HuffTable) (st : Stage) (s : State) : State :=
  ((((((((s.setPhase .scan).setStage st).setBitOff 0).setMstruct [1]).setBlkIdx 0).setK 0).putComp 1
    ⟨1, 1, 0, some ⟨0, 0⟩⟩).putHt .dc 0 dct).putHt .ac 0 act

/-- A table word where `step` fetches its next operation (log entry 10): marker words at the cursor of a session in
the header phase, SOI at address 0; entropy words at the cursor of a session in the scan phase; symbols as the
symbol of the code `0`, whose bit is the next of the stream. -/
def placeWord (s : State) (nbits w : Nat) : State :=
  match tableLevel nbits w with
  | none => s
  | some .start => ((s.setPhase .header).setPos 0).placeBytes (tableBytes nbits w)
  | some .marker =>
    ((s.setPhase .header).setPos (if s.pos = 0 then 2 else s.pos)).placeBytes (tableBytes nbits w)
  | some .entropy => (s.placeBlock (oneCode 1 0) (oneCode 0 0) .dc).placeBytes (tableBytes nbits w)
  | some .dc => (s.placeBlock (oneCode 0 (BitVec.ofNat 8 w)) (oneCode 0 0) .dc).placeBytes []
  | some .ac => (s.placeBlock (oneCode 0 0) (oneCode 0 (BitVec.ofNat 8 w)) .ac).placeBytes []

end Sys2Proof.Machine
end

