-- ==== Sys2Proof/Machine/Step.lean ====
section
/-! DEFINITION. One step: fetch the operation that is due, run it, move on (log entry 5). -/

namespace Sys2Proof.Machine

/-- One step of the block. In phases IDLE, DONE and FAULT no operation runs and the state stays (R235, R236). A
fetch that raises a fault ends the session in that step (R232). -/
def step (s : State) : Host.Outcome State Fault Refusal :=
  match fetch s with
  | .stop f => .fault f
  | .raised t => .next t
  | .ok none t => .next t
  | .ok (some i) t =>
    match exec i t with
    | .next u => .next (advance i u)
    | .fault f => .fault f
    | .refused r => .refused r

/-- A table word stored where `step` fetches its next operation (log entry 10). -/
def State.withFetchWord (s : State) (nbits w : Nat) : State := placeWord s nbits w

end Sys2Proof.Machine
end

