-- ==== Sys2Proof/Safety.lean ====
section
/-! DEFINITION. What counts as a safe state and a safe run, in the terms claims use: the invariants of
spec/10_state.md R40, what a stream holds, the bits it delivers, and the listing of a block (R95). -/

namespace Sys2Proof.Machine

/-! ## Streams and bits -/

/-- The stream holds the bytes `bs` from address `a` on, all of them below `L`. -/
abbrev State.holds (s : State) (a : Nat) (bs : List Byte) : Prop :=
  a + bs.length ≤ s.len ∧ s.bytesFrom a bs.length = bs

/-- Bits as an unsigned number, the first the most significant (R66). -/
def bitsVal (bs : List Bool) : Nat := bs.foldl (fun u b => 2 * u + bitVal b) 0

/-- The next `n` bits the bit reader delivers, with the state after them; none when a fault comes first (R172). -/
def State.nextBits : Nat → State → Option (List Bool × State)
  | 0, s => some ([], s)
  | n + 1, s =>
    match nextBit s with
    | .ok b t =>
      match State.nextBits n t with
      | some (bs, u) => some (b :: bs, u)
      | none => none
    | .raised _ => none
    | .stop _ => none

/-- The bits of a byte, bit 7 first (R66). -/
def byteBits (b : Byte) : List Bool :=
  [b.getLsbD 7, b.getLsbD 6, b.getLsbD 5, b.getLsbD 4, b.getLsbD 3, b.getLsbD 2, b.getLsbD 1, b.getLsbD 0]

/-- Data bytes with a `00` after every `FF` (R90, R258). -/
def stuffed (bs : List Byte) : List Byte := bs.flatMap fun b => if b = 0xFF then [b, 0x00] else [b]

/-- The status registers are as before, or a fault was raised (R232). -/
def State.StatusFrame (s t : State) : Prop :=
  (t.phase = s.phase ∧ t.fault = s.fault ∧ t.faultInfo = s.faultInfo) ∨
    ∃ f : FaultInfo, t.phase = .fault ∧ t.fault = f.code ∧ t.faultInfo = some f

/-- The values R41 gives the fields after reset and at every session start; `phase` is stated apart. Valid bits of 0
leave the other fields of an entry without a value. -/
structure State.Fresh (s : State) : Prop where
  fault : s.fault = 0
  pos : s.pos = 0
  bitOff : s.bitOff = 0
  cur : s.cur = 0
  acc : s.acc = 0
  accLen : s.accLen = 0
  imgValid : s.imgValid = false
  compValid : ∀ id : Byte, s.compValid id = false ∧ s.selValid id = false
  qtValid : ∀ t : Nat, s.qtValid t = false
  htValid : ∀ (c : HuffClass) (t : Nibble), s.htValid c t = false
  mstruct : s.mstruct = [] ∧ s.mlen = 0
  grid : s.mcuCols = 0 ∧ s.mcuRows = 0 ∧ s.mcuTotal = 0
  counters : s.mcuIdx = 0 ∧ s.blkIdx = 0 ∧ s.k = 0
  blk : ∀ j : Fin 64, s.blk[j] = 0
  out : s.out = []
  skiplog : s.skiplog = []

/-! ## Canonical codes (R146) -/

/-- `cnt[n+1]` of R146, from the list of the 16 counts. -/
def countAt (counts : List Byte) (n : Nat) : Nat := (counts.getD n 0).toNat

/-- The closed form of the first code of length `n + 1` (R146): `first[1] = 0`,
`first[len+1] = 2 * (first[len] + cnt[len])`. -/
def firstCode (counts : List Byte) : Nat → Nat
  | 0 => 0
  | n + 1 => 2 * (firstCode counts n + countAt counts n)

/-- The keys of the closed form of R146, shorter codes first, rising within a length. -/
def canonicalKeys (counts : List Byte) : List CodeKey :=
  (List.range 16).flatMap fun n =>
    (List.range (countAt counts n)).map fun j => (n + 1, firstCode counts n + j)

/-- The Kraft sum of R152, times `2^16`. -/
def kraftSum (counts : List Byte) : Nat :=
  ((List.range 16).map fun n => countAt counts n * 2 ^ (15 - n)).sum

/-! ## Huffman tables (R29, R40 e) -/

/-- The code of `e` is a prefix of the code of `f` (as bit-strings). -/
abbrev HuffEntry.prefixOf (e f : HuffEntry) : Prop := e.len ≤ f.len ∧ f.code / 2 ^ (f.len - e.len) = e.code

/-- No code of the table is a prefix of another, and no key occurs twice. -/
abbrev HuffTable.prefixFree (t : HuffTable) : Prop :=
  t.map.Pairwise fun e f => ¬ e.prefixOf f ∧ ¬ f.prefixOf e

/-- A key of a table: 1 to 16 bits, the code below `2^len` (R29). -/
abbrev HuffEntry.inRange (e : HuffEntry) : Prop := 1 ≤ e.len ∧ e.len ≤ Config.maxCodeLength ∧ e.code < 2 ^ e.len

/-- What every stored Huffman table satisfies (R40 e, R152). -/
structure HuffTable.Valid (t : HuffTable) : Prop where
  size : t.n = t.map.length
  bound : t.n ≤ 16 * 255
  keys : ∀ e ∈ t.map, e.inRange
  prefixFree : t.prefixFree

/-- What every stored quantization table satisfies (R40 d, R126). -/
structure QuantTable.Valid (t : QuantTable) : Prop where
  size : t.q.length = Config.quantEntries
  byteEntries : t.prec = false → ∀ h ∈ t.q, h.toNat < 256

/-! ## Components (R190) -/

/-- Sampling factors in 1 to 4 (R190). -/
abbrev Component.SamplingGood (c : Component) : Prop :=
  1 ≤ c.H.toNat ∧ c.H.toNat ≤ 4 ∧ 1 ≤ c.V.toNat ∧ c.V.toNat ≤ 4

/-- The quantization table of a component is loaded (R190). -/
abbrev Component.QuantGood (s : State) (c : Component) : Prop :=
  c.tq.toNat ≤ 15 ∧ (s.qtAt c.tq.toNat).isSome = true

/-- A component that passes the scan-start check (R190). -/
def Component.Good (s : State) (c : Component) : Prop :=
  c.SamplingGood ∧ c.QuantGood s ∧
    ∃ sel, c.sel = some sel ∧ (s.htAt .dc sel.td).isSome = true ∧ (s.htAt .ac sel.ta).isSome = true

/-- A state whose scan-start check passes (R190). -/
def State.ConfigGood (s : State) : Prop :=
  (s.compAt 1).isSome = true ∧ ∀ e ∈ s.comp, e.2.Good s

/-! ## The effect of a listing line (R99, R125, R135, R145, R160) -/

/-- The selector SOS writes of a listed component (R160). -/
def State.select (e : ScanEntry) (s : State) : State :=
  match s.compAt e.id.toNat with
  | some c => s.putComp e.id { c with sel := some ⟨e.td, e.ta⟩ }
  | none => s

end Sys2Proof.Machine

namespace Sys2Proof
open Sys2Proof.Machine

/-- What the rules say a listing line does to the stores. -/
def Item.store : Item → State → State
  | .soi, s => s
  | .skip m run, s => s.setSkiplog (s.skiplog ++ [(m, run)])
  | .dqt pq tq q, s => s.putQt tq ⟨decide (pq ≠ 0), q⟩
  | .sof0 _ h w comps, s =>
    comps.foldl (fun s e => s.declare e.id (ofNibbles e.H e.V) e.tq) (s.setImg (some ⟨w, h⟩))
  | .dht tc th counts syms, s =>
    match buildCodes counts syms with
    | .ok map => s.putHt tc th ⟨countsTotal counts, map⟩
    | .error _ => s
  | .sos comps _, s => comps.foldl (fun s e => s.select e) s

/-- A listing line's effect, the cursor moving over its bytes. -/
def Item.apply (it : Item) (s : State) : State := (it.store s).setPos (s.pos + it.bytes.length)

/-- A line of the header phase between SOI and SOS that raises no fault: well formed, its histogram not oversubscribed
(R148). -/
def Item.Segment : Item → Prop
  | .soi => False
  | .skip m run => (Item.skip m run).wf = true
  | .dqt pq tq q => (Item.dqt pq tq q).wf = true
  | .sof0 p h w comps => (Item.sof0 p h w comps).wf = true
  | .dht tc th counts syms => (Item.dht tc th counts syms).wf = true ∧ ∃ map, buildCodes counts syms = .ok map
  | .sos _ _ => False

end Sys2Proof

namespace Sys2Proof.Machine

/-- The bytes of a header: SOI, segments, SOS (R110). -/
def headerBytes (segs : List Item) (comps : List ScanEntry) (tail : List Byte) : List Byte :=
  Item.soi.bytes ++ segs.flatMap Item.bytes ++ (Item.sos comps tail).bytes

/-- The state after SOI and the segments of a header. -/
def afterSegments (segs : List Item) (s : State) : State := segs.foldl (fun s it => it.apply s) (Item.soi.apply s)

/-- The state after a header. -/
def afterHeader (segs : List Item) (comps : List ScanEntry) (tail : List Byte) (s : State) : State :=
  (Item.sos comps tail).apply (afterSegments segs s)

/-! ## The listing of a block (R95) -/

/-- A code with the magnitude bits that follow it. -/
structure CodeItem where
  entry : HuffEntry
  bits : List Bool
deriving DecidableEq, Repr

/-- The bits of a code, first transmitted first: `code` written as exactly `len` bits (R146). -/
def HuffEntry.bits (e : HuffEntry) : List Bool :=
  (List.range e.len).map fun i => e.code.testBit (e.len - 1 - i)

/-- The bits an item occupies: `code(T: X) mag(n)` (R95). -/
def CodeItem.stream (c : CodeItem) : List Bool := c.entry.bits ++ c.bits

/-- A DC item: a symbol of category at most 11, with that many magnitude bits (R92). -/
abbrev CodeItem.dcOk (t : HuffTable) (c : CodeItem) : Prop :=
  c.entry ∈ t.map ∧ c.entry.sym.toNat ≤ Config.dcCategoryLimit ∧ c.bits.length = c.entry.sym.toNat

/-- An AC item: a symbol of size at most 10, with that many magnitude bits (R93). -/
abbrev CodeItem.acOk (t : HuffTable) (c : CodeItem) : Prop :=
  c.entry ∈ t.map ∧ (loNibble c.entry.sym).toNat ≤ Config.acCategoryLimit ∧
    c.bits.length = (loNibble c.entry.sym).toNat

/-- The value of a DC item (R196, R197). -/
def CodeItem.dcValue (mode : MagnitudeMode) (c : CodeItem) : Int := magnitude mode c.bits.length (bitsVal c.bits)

/-- The AC values an item other than EOB emits (R201, R202, R203). -/
def CodeItem.acValues (mode : MagnitudeMode) (c : CodeItem) : List Int :=
  let r := (hiNibble c.entry.sym).toNat
  if loNibble c.entry.sym = 0 then List.replicate (if r = 15 then 16 else r) 0
  else List.replicate r 0 ++ [magnitude mode c.bits.length (bitsVal c.bits)]

/-- One block: its DC item, its AC items before EOB, and its EOB item when it has one (R95). -/
structure BlockCode where
  dc : CodeItem
  ac : List CodeItem
  eob : Option CodeItem
deriving DecidableEq, Repr

/-- The bits of a block, without alignment or separators (R95). -/
def BlockCode.stream (b : BlockCode) : List Bool :=
  b.dc.stream ++ b.ac.flatMap CodeItem.stream ++ (b.eob.map CodeItem.stream).getD []

/-- The AC values the items before EOB emit. -/
def BlockCode.emitted (mode : MagnitudeMode) (b : BlockCode) : List Int := b.ac.flatMap (CodeItem.acValues mode)

/-- The 64 values of a block: DC, the emitted AC values, zeros up to 63 of them (R95, R200). -/
def BlockCode.values (mode : MagnitudeMode) (b : BlockCode) : List Int :=
  b.dc.dcValue mode :: (b.emitted mode ++ List.replicate (Config.acValues - (b.emitted mode).length) 0)

/-- A block a stream writer may send with the tables `dct`, `act`: no AC item but the last is EOB; the items emit 63
values, or fewer and then EOB comes (R95, R258). -/
structure BlockCode.Ok (dct act : HuffTable) (mode : MagnitudeMode) (b : BlockCode) : Prop where
  dc : b.dc.dcOk dct
  ac : ∀ c ∈ b.ac, c.acOk act ∧ c.entry.sym ≠ 0
  eobItem : ∀ c ∈ b.eob, c.acOk act ∧ c.entry.sym = 0
  full : b.eob = none → (b.emitted mode).length = Config.acValues
  short : b.eob ≠ none → (b.emitted mode).length < Config.acValues

/-! ## The invariants of R40 -/

/-- The block's stores are in their canonical form, ids within their ranges (R27, R28, R29). -/
structure State.StoresOk (s : State) : Prop where
  comp : Slots.sorted s.comp = true
  qt : Slots.sorted s.qt = true
  htDc : Slots.sorted s.htDc = true
  htAc : Slots.sorted s.htAc = true
  compIds : ∀ e ∈ s.comp, e.1 < 256
  qtIds : ∀ e ∈ s.qt, e.1 < 16
  htDcIds : ∀ e ∈ s.htDc, e.1 < 16
  htAcIds : ∀ e ∈ s.htAc, e.1 < 16
  quant : ∀ e ∈ s.qt, e.2.Valid
  huffDc : ∀ e ∈ s.htDc, e.2.Valid
  huffAc : ∀ e ∈ s.htAc, e.2.Valid

/-- The memory is in canonical form and lists addresses below `L` only (log entry 1). -/
structure State.StreamOk (s : State) : Prop where
  wf : Memory.wf s.mem = true
  below : ∀ c ∈ s.mem, c.1 < s.len
  cursor : s.pos ≤ s.len

/-- What holds between the phases and the status registers (R40 j, R232). -/
abbrev State.StatusOk (s : State) : Prop :=
  (s.phase = .fault → ∃ f, s.faultInfo = some f ∧ s.fault = f.code) ∧
  (s.phase ≠ .fault → s.faultInfo = none ∧ s.fault = 0)

/-- What the scan phase rests on once the scan-start check has passed (R40 g, R191). -/
structure State.ScanOk (s : State) : Prop where
  config : s.phase = .scan → s.stage ≠ .check → configError s = none
  image : s.comp ≠ [] → s.img.isSome = true
  structureBuilt : s.phase = .scan → s.stage ≠ .check → s.stage ≠ .mstruct → s.mstruct = mstructOf s.comp

/-- The counters and the output store (R40 h, i, R33, R35, R74). -/
structure State.OutputOk (s : State) : Prop where
  kLe : s.k ≤ Config.acValues
  outCount : s.out.length = s.mcuIdx
  outSizes : ∀ m ∈ s.out, m.length = s.mlen
  fresh : s.phase = .header ∨ (s.phase = .scan ∧ (s.stage = .check ∨ s.stage = .mstruct ∨ s.stage = .grid)) →
    s.out = []
  inBlock : s.phase = .scan → (s.stage = .dc ∨ s.stage = .ac) →
    s.mcuIdx < s.mcuTotal ∧ s.blkIdx < s.mlen ∧ s.mcu.length = s.blkIdx
  acOpen : s.phase = .scan → s.stage = .ac → s.k < Config.acValues
  complete : s.phase = .done ∨ (s.phase = .scan ∧ s.stage = .done) → s.mcuIdx = s.mcuTotal

/-- The invariant of a session: R40 (a), (c), (d), (e), (g), (h), (i), (j), with the canonical forms of the model's
lists. R40 (b) is about two states; R40 (f) holds by the shape of `comp`, whose selector is part of an entry. -/
structure State.Inv (s : State) : Prop where
  stream : s.StreamOk
  stores : s.StoresOk
  status : s.StatusOk
  aligned : s.phase = .header → s.bitOff = 0
  scan : s.ScanOk
  output : s.OutputOk

/-- `n` steps, each of which must answer a next state. -/
def runSteps : Nat → State → Option State
  | 0, s => some s
  | n + 1, s =>
    match step s with
    | .next t => runSteps n t
    | .fault _ => none
    | .refused _ => none

/-- The state as the spec sees it: the model's own `stage` put aside (log entry 5). -/
def State.seen (s : State) : State := s.setStage .check

end Sys2Proof.Machine
end

