-- ==== Sys2Proof/Certificates/Slice0/Obligations.lean ====
section
/-! DEFINITION. The statements for the provers, one definition each. `s` is any state unless a premise says more;
a fault of the block is a next state in phase FAULT (spec/60_exceptions.md R232), written with `State.raise`. -/

open Sys2Proof Sys2Proof.Machine

/-! ## Encodings -/

/-- R82, R90, R92, R93: the decoder of a row's pattern space reads the row back from its pattern, whatever follows. -/
def Obligations.DecodeEncodeAgree : Prop :=
  ∀ (i : Instr) (lv : Level) (rest : List Byte), i.wf = true → i.level = some lv →
    decode lv (encode i ++ rest) = .instr i rest

/-- R82, R90, R92, R93: a word decodes only to the row whose pattern and constraint it satisfies, so no two rows of a
pattern space share a word. -/
def Obligations.DecodedWordIsItsPattern : Prop :=
  ∀ (lv : Level) (bs rest : List Byte) (i : Instr), decode lv bs = .instr i rest →
    i.wf = true ∧ i.level = some lv ∧ bs = encode i ++ rest

/-- Words written out from the tables of R82, R90, R92 and R93 (a sanity statement). -/
def Obligations.WordsOfTheTablesDecode : Prop :=
  decode .start [0xFF, 0xD8] = .instr .soi [] ∧
  decode .marker [0xFF, 0xDB] = .instr .dqt [] ∧
  decode .marker [0xFF, 0xE0] = .instr (.skip 0xE0) [] ∧
  decode .marker [0x12, 0x34] = .instr (.badmarker 0x12) [0x34] ∧
  decode .entropy [0xFF, 0x00] = .instr .stuff [] ∧
  decode .entropy [0xFF, 0xD9] = .instr (.badstuff 0xD9) [] ∧
  decode .dc [0x0B] = .instr (.dcMag 11) [] ∧
  decode .dc [0x0C] = .instr (.dcBad 0x0C) [] ∧
  decode .ac [0xF0] = .instr .acZrl [] ∧
  decode .ac [0x30] = .instr (.acRun 3) [] ∧
  decode .ac [0x53] = .instr (.acCoef 5 3) [] ∧
  decode .ac [0x0B] = .instr (.acBad 0 11) []

/-! ## Reading the stream -/

/-- R61, R62, R64, R65: the read primitives. `Rd8` returns the byte at the cursor and moves it by one, or raises
`UnexpectedEndOfStream(pos)`; `Rd16` is two of them, big-endian; `Consume(n)` returns the `n` bytes from the cursor on,
or raises with the cursor unchanged and `L` recorded. -/
def Obligations.ReadPrimitives : Prop :=
  ∀ s : State,
    (s.pos < s.len → rd8 s = .ok (s.byteAt s.pos) { s with pos := s.pos + 1 }) ∧
    (s.len ≤ s.pos → rd8 s = .raised (s.raise (.unexpectedEndOfStream s.pos))) ∧
    (s.pos + 2 ≤ s.len → ∃ h : Half, rd16 s = .ok h { s with pos := s.pos + 2 } ∧
      h.toNat = 256 * (s.byteAt s.pos).toNat + (s.byteAt (s.pos + 1)).toNat) ∧
    (s.pos + 1 = s.len → rd16 s = .raised (({ s with pos := s.len } : State).raise (.unexpectedEndOfStream s.len))) ∧
    (s.len ≤ s.pos → rd16 s = .raised (s.raise (.unexpectedEndOfStream s.pos))) ∧
    ∀ n : Nat,
      (s.pos + n ≤ s.len → ∃ d : List Byte, consume n s = .ok d { s with pos := s.pos + n } ∧
        d.length = n ∧ ∀ i, i < n → d[i]? = some (s.byteAt (s.pos + i))) ∧
      (s.len < s.pos + n → consume n s = .raised (s.raise (.unexpectedEndOfStream s.len)))

/-! ## The marker dispatcher -/

/-- R111: SOI_CHECK at address 0, every case in the order read. -/
def Obligations.SoiCheckCases : Prop :=
  ∀ s : State, s.pos = 0 →
    (s.len = 0 → exec .soi s = .next (s.raise (.unexpectedEndOfStream 0))) ∧
    (1 ≤ s.len → s.byteAt 0 ≠ 0xFF →
      exec .soi s = .next (({ s with pos := 1 } : State).raise (.malformedMarker 0 (s.byteAt 0)))) ∧
    (s.len = 1 → s.byteAt 0 = 0xFF →
      exec .soi s = .next (({ s with pos := 1 } : State).raise (.unexpectedEndOfStream 1))) ∧
    (2 ≤ s.len → s.byteAt 0 = 0xFF → s.byteAt 1 ≠ 0xD8 →
      exec .soi s = .next (({ s with pos := 2 } : State).raise (.malformedMarker 1 (s.byteAt 1)))) ∧
    (2 ≤ s.len → s.byteAt 0 = 0xFF → s.byteAt 1 = 0xD8 → exec .soi s = .next { s with pos := 2 })

/-- R112: MARKER_FETCH, every case, the marker byte its result; and BADMARKER, its lead byte just taken, which raises
`MalformedMarker` with that byte's address. The result register `ret` is the model's (log entry 6), and so is
BADMARKER of a lead byte FF (log entry 17). -/
def Obligations.MarkerFetchCases : Prop :=
  ∀ s : State,
    (s.len ≤ s.pos → exec .markerFetch s = .next (s.raise (.unexpectedEndOfStream s.pos))) ∧
    (s.pos < s.len → s.byteAt s.pos ≠ 0xFF →
      exec .markerFetch s =
        .next (({ s with pos := s.pos + 1 } : State).raise (.malformedMarker s.pos (s.byteAt s.pos)))) ∧
    (s.pos + 1 = s.len → s.byteAt s.pos = 0xFF →
      exec .markerFetch s = .next (({ s with pos := s.len } : State).raise (.unexpectedEndOfStream s.len))) ∧
    (s.pos + 2 ≤ s.len → s.byteAt s.pos = 0xFF →
      exec .markerFetch s = .next { s with pos := s.pos + 2, ret := .marker (s.byteAt (s.pos + 1)) }) ∧
    ∀ lead : Byte, 1 ≤ s.pos → exec (.badmarker lead) s = .next (s.raise (.malformedMarker (s.pos - 1) lead))

/-- R114: SKIP moves the cursor to the next `FF`, which it leaves, or to the end of the stream, logs the run and
changes nothing else. SKIP of DB, C0, C4 or DA, which no word of the row carries, is the model's choice (log entry
17). -/
def Obligations.SkipStopsAtNextMarker : Prop :=
  ∀ (s : State) (m : Byte), s.pos ≤ s.len →
    ∃ e, exec (.skip m) s =
        .next { s with pos := e, skiplog := s.skiplog ++ [(m, s.bytesFrom s.pos (e - s.pos))] } ∧
      s.pos ≤ e ∧ e ≤ s.len ∧ (∀ a, s.pos ≤ a → a < e → s.byteAt a ≠ 0xFF) ∧
      (e < s.len → s.byteAt e = 0xFF)

/-- R113: DISPATCH runs the handler the marker byte selects and answers whether it was SOS; a handler's fault ends it;
a marker byte that selects no handler is skipped, answer false. The result register `ret` is the model's (log entry
6). -/
def Obligations.DispatchRunsTheHandler : Prop :=
  ∀ (s : State) (m : Byte),
    (s.phase ≠ .fault →
      ∃ t, exec (decodeMarkerByte m) s = .next t ∧
        (t.phase = .fault → exec (.dispatch m) s = .next t) ∧
        (t.phase ≠ .fault → exec (.dispatch m) s = .next { t with ret := .flag (decide (m = 0xDA)) })) ∧
    (m ≠ 0xDB → m ≠ 0xC0 → m ≠ 0xC4 → m ≠ 0xDA →
      ∃ t, exec (.skip m) s = .next t ∧ exec (.dispatch m) s = .next { t with ret := .flag false })

/-- R110: on a stream of SOI, well-formed segments and an SOS whose ids are declared, HEADER completes with the effect
of the lines one after another. -/
def Obligations.HeaderRunsTheListing : Prop :=
  ∀ (s : State) (segs : List Item) (comps : List ScanEntry) (tail : List Byte),
    (∀ it ∈ segs, it.Segment) → (Item.sos comps tail).wf = true →
    (∀ e ∈ comps, (afterSegments segs s).compValid e.id = true) →
    s.holds s.pos (headerBytes segs comps tail) →
    exec .header s = .next (afterHeader segs comps tail s)

/-- R110, R262: from every state HEADER ends, in its phase after SOS or in a fault. -/
def Obligations.HeaderAlwaysEnds : Prop :=
  ∀ s : State, ∃ t, exec .header s = .next t ∧ (t.phase = s.phase ∨ t.phase = .fault) ∧ s.pos ≤ t.pos

/-! ## The segment handlers -/

/-- R125: the two forms of a DQT segment, by the bytes at the cursor. -/
def Obligations.DqtLoadsATable : Prop :=
  ∀ (s : State) (pt : Byte),
    s.byteAt (s.pos + 2) = pt →
    (hiNibble pt = 0 → s.byteAt s.pos = 0 → s.byteAt (s.pos + 1) = 67 → s.pos + 67 ≤ s.len →
      ∃ t q, exec .dqt s = .next t ∧ t = { s with pos := s.pos + 67, qt := t.qt } ∧
        t.qtAt (loNibble pt).toNat = some ⟨false, q⟩ ∧ q.length = 64 ∧
        (∀ i, i < 64 → (q.getD i 0).toNat = (s.byteAt (s.pos + 3 + i)).toNat) ∧
        ∀ u, u ≠ (loNibble pt).toNat → t.qtAt u = s.qtAt u) ∧
    (hiNibble pt ≠ 0 → s.byteAt s.pos = 0 → s.byteAt (s.pos + 1) = 131 → s.pos + 131 ≤ s.len →
      ∃ t q, exec .dqt s = .next t ∧ t = { s with pos := s.pos + 131, qt := t.qt } ∧
        t.qtAt (loNibble pt).toNat = some ⟨true, q⟩ ∧ q.length = 64 ∧
        (∀ i, i < 64 → (q.getD i 0).toNat =
          256 * (s.byteAt (s.pos + 3 + 2 * i)).toNat + (s.byteAt (s.pos + 4 + 2 * i)).toNat) ∧
        ∀ u, u ≠ (loNibble pt).toNat → t.qtAt u = s.qtAt u)

/-- R125, R223, R234 b: the faults of DQT in the order they can occur; the slot is not written. -/
def Obligations.DqtFaultOrder : Prop :=
  ∀ (s : State) (lq : Nat), lq = 256 * (s.byteAt s.pos).toNat + (s.byteAt (s.pos + 1)).toNat →
    (s.pos ≤ s.len → s.len < s.pos + 3 →
      exec .dqt s = .next (({ s with pos := s.len } : State).raise (.unexpectedEndOfStream s.len))) ∧
    (s.pos + 3 ≤ s.len → lq < 3 →
      exec .dqt s = .next (({ s with pos := s.pos + 3 } : State).raise (.invalidSegmentLength (s.pos + 3) lq))) ∧
    (s.pos + 3 ≤ s.len → 3 ≤ lq → s.len < s.pos + lq →
      exec .dqt s = .next (({ s with pos := s.pos + 3 } : State).raise (.unexpectedEndOfStream s.len))) ∧
    (s.pos + lq ≤ s.len → 3 ≤ lq → lq ≠ (if hiNibble (s.byteAt (s.pos + 2)) = 0 then 67 else 131) →
      exec .dqt s =
        .next (({ s with pos := s.pos + lq } : State).raise (.invalidSegmentLength (s.pos + lq) lq)))

/-- R135, R136: a SOF0 segment of matching length sets the image size and the listed components, the later entry of an
id winning; selectors and unlisted components keep their values. -/
def Obligations.SofDeclaresComponents : Prop :=
  ∀ (s : State) (n : Nat), n = (s.byteAt (s.pos + 7)).toNat →
    256 * (s.byteAt s.pos).toNat + (s.byteAt (s.pos + 1)).toNat = 8 + 3 * n → s.pos + 8 + 3 * n ≤ s.len →
    ∃ t, exec .sof0 s = .next t ∧
      t = { s with
        pos := s.pos + 8 + 3 * n
        img := some ⟨be16 (s.byteAt (s.pos + 5)) (s.byteAt (s.pos + 6)),
          be16 (s.byteAt (s.pos + 3)) (s.byteAt (s.pos + 4))⟩
        comp := t.comp } ∧
      (∀ i, i < n →
        (∀ j, i < j → j < n → s.byteAt (s.pos + 8 + 3 * j) ≠ s.byteAt (s.pos + 8 + 3 * i)) →
        t.compAt (s.byteAt (s.pos + 8 + 3 * i)).toNat =
          some ⟨hiNibble (s.byteAt (s.pos + 9 + 3 * i)), loNibble (s.byteAt (s.pos + 9 + 3 * i)),
            s.byteAt (s.pos + 10 + 3 * i),
            (s.compAt (s.byteAt (s.pos + 8 + 3 * i)).toNat).bind Component.sel⟩) ∧
      ∀ id, (∀ i, i < n → (s.byteAt (s.pos + 8 + 3 * i)).toNat ≠ id) → t.compAt id = s.compAt id

/-- R135, R224, R234 c: the length relation of SOF0 is judged when the count is read, before an entry is read and
before anything is written. -/
def Obligations.SofCountMismatch : Prop :=
  ∀ (s : State) (lf nf : Nat), lf = 256 * (s.byteAt s.pos).toNat + (s.byteAt (s.pos + 1)).toNat →
    nf = (s.byteAt (s.pos + 7)).toNat → s.pos + 8 ≤ s.len → lf ≠ 8 + 3 * nf →
    exec .sof0 s =
      .next (({ s with pos := s.pos + 8 } : State).raise (.componentCountMismatch (s.pos + 8) lf nf))

/-- R145, R86, R151: a DHT segment whose length and histogram are right stores the table built from it under the class
of bit 4 and the low nibble of its leading byte, whatever bits 7:5 are, and no other slot of either class changes. -/
def Obligations.DhtStoresTheBuiltTable : Prop :=
  ∀ (s : State) (tb : Byte) (counts syms : List Byte) (map : List HuffEntry),
    counts.length = 16 → syms.length = countsTotal counts →
    s.holds s.pos (halfBytes (BitVec.ofNat 16 (19 + countsTotal counts)) ++ tb :: (counts ++ syms)) →
    buildCodes counts syms = .ok map →
    ∃ t, exec .dht s = .next t ∧
      t = { s with pos := s.pos + 19 + countsTotal counts, htDc := t.htDc, htAc := t.htAc } ∧
      t.htAt (if tb.getLsbD 4 then .ac else .dc) (loNibble tb) = some ⟨countsTotal counts, map⟩ ∧
      ∀ (c : HuffClass) (u : Nibble), (c, u) ≠ (if tb.getLsbD 4 then HuffClass.ac else .dc, loNibble tb) →
        t.htAt c u = s.htAt c u

/-- R145, R148, R225, R234 c: the faults of DHT in the order they can occur; no slot is written. -/
def Obligations.DhtFaultOrder : Prop :=
  ∀ (s : State) (lh : Nat), lh = 256 * (s.byteAt s.pos).toNat + (s.byteAt (s.pos + 1)).toNat →
    (s.pos ≤ s.len → s.len < s.pos + 19 →
      exec .dht s = .next (({ s with pos := s.len } : State).raise (.unexpectedEndOfStream s.len))) ∧
    (s.pos + 19 ≤ s.len → lh ≠ 19 + countsTotal (s.bytesFrom (s.pos + 3) 16) →
      exec .dht s = .next (({ s with pos := s.pos + 19 } : State).raise
        (.symbolCountMismatch (s.pos + 19) lh (countsTotal (s.bytesFrom (s.pos + 3) 16))))) ∧
    (s.pos + 19 ≤ s.len → lh = 19 + countsTotal (s.bytesFrom (s.pos + 3) 16) → s.len < s.pos + lh →
      exec .dht s = .next (({ s with pos := s.pos + 19 } : State).raise (.unexpectedEndOfStream s.len))) ∧
    (lh = 19 + countsTotal (s.bytesFrom (s.pos + 3) 16) → s.pos + lh ≤ s.len →
      ∀ l, buildCodes (s.bytesFrom (s.pos + 3) 16) (s.bytesFrom (s.pos + 19) (lh - 19)) = .error l →
        exec .dht s = .next (({ s with pos := s.pos + lh } : State).raise
          (.invalidConfiguration .huffOversubscribed l)))

/-- R146, R91: a table that is built maps the `i`-th key of the closed form of R146 to symbol `V[i]`. -/
def Obligations.CodesAreCanonical : Prop :=
  ∀ (counts syms : List Byte) (map : List HuffEntry), counts.length = 16 → buildCodes counts syms = .ok map →
    map = (canonicalKeys counts).zipWith (fun key v => ⟨key.1, key.2, v⟩) syms

/-- R149: every table BuildCodes returns is prefix-free and has no duplicate key, its keys within R29's range. -/
def Obligations.BuiltTablesArePrefixFree : Prop :=
  ∀ (counts syms : List Byte) (map : List HuffEntry), counts.length = 16 → buildCodes counts syms = .ok map →
    (∀ e ∈ map, 1 ≤ e.len ∧ e.len ≤ 16 ∧ e.code < 2 ^ e.len) ∧
    map.Pairwise fun e f => ¬ e.prefixOf f ∧ ¬ f.prefixOf e

/-- R148, R152: BuildCodes succeeds exactly on the histograms of Kraft sum at most 1. -/
def Obligations.BuiltExactlyUnderKraft : Prop :=
  ∀ counts syms : List Byte, counts.length = 16 →
    ((∃ map, buildCodes counts syms = .ok map) ↔ kraftSum counts ≤ 2 ^ 16)

/-- R160, R161: an SOS segment whose ids are declared and whose length reaches over its entries binds the selectors,
the later entry of an id winning, and leaves the cursor at the declared end whatever the tail holds. -/
def Obligations.SosBindsSelectors : Prop :=
  ∀ (s : State) (ls n : Nat), ls = 256 * (s.byteAt s.pos).toNat + (s.byteAt (s.pos + 1)).toNat →
    n = (s.byteAt (s.pos + 2)).toNat → 3 + 2 * n ≤ ls → s.pos + ls ≤ s.len →
    (∀ i, i < n → s.compValid (s.byteAt (s.pos + 3 + 2 * i)) = true) →
    ∃ t, exec .sos s = .next t ∧ t = { s with pos := s.pos + ls, comp := t.comp } ∧
      (∀ i c, i < n →
        (∀ j, i < j → j < n → s.byteAt (s.pos + 3 + 2 * j) ≠ s.byteAt (s.pos + 3 + 2 * i)) →
        s.compAt (s.byteAt (s.pos + 3 + 2 * i)).toNat = some c →
        t.compAt (s.byteAt (s.pos + 3 + 2 * i)).toNat =
          some { c with sel := some ⟨hiNibble (s.byteAt (s.pos + 4 + 2 * i)),
            loNibble (s.byteAt (s.pos + 4 + 2 * i))⟩ }) ∧
      ∀ id, (∀ i, i < n → (s.byteAt (s.pos + 3 + 2 * i)).toNat ≠ id) → t.compAt id = s.compAt id

/-- R160, R162, R223, R226, R234 d: the first listed id that is not declared raises `UnknownComponent` after both its
bytes, before the length is judged; a length too small for entries that are all declared raises
`InvalidSegmentLength` after them. -/
def Obligations.SosFaultOrder : Prop :=
  ∀ (s : State) (ls n : Nat), ls = 256 * (s.byteAt s.pos).toNat + (s.byteAt (s.pos + 1)).toNat →
    n = (s.byteAt (s.pos + 2)).toNat →
    (∀ i, i < n → s.pos + 5 + 2 * i ≤ s.len →
      (∀ j, j < i → s.compValid (s.byteAt (s.pos + 3 + 2 * j)) = true) →
      s.compValid (s.byteAt (s.pos + 3 + 2 * i)) = false →
      ∃ t, exec .sos s = .next t ∧ t.phase = .fault ∧ t.fault = 6 ∧
        t.faultInfo = some (.unknownComponent (s.pos + 5 + 2 * i) (s.byteAt (s.pos + 3 + 2 * i))) ∧
        t.pos = s.pos + 5 + 2 * i) ∧
    (s.pos + 3 + 2 * n ≤ s.len → ls < 3 + 2 * n →
      (∀ i, i < n → s.compValid (s.byteAt (s.pos + 3 + 2 * i)) = true) →
      ∃ t, exec .sos s = .next t ∧ t.phase = .fault ∧ t.fault = 3 ∧
        t.faultInfo = some (.invalidSegmentLength (s.pos + 3 + 2 * n) ls) ∧ t.pos = s.pos + 3 + 2 * n)

/-- R37, R73: what DQT, SOF0, DHT and SOS leave unchanged, in success and in fault. -/
def Obligations.SegmentHandlersFrame : Prop :=
  ∀ s t : State,
    (exec .dqt s = .next t → s.StatusFrame t ∧
      t = { s with pos := t.pos, phase := t.phase, fault := t.fault, faultInfo := t.faultInfo, qt := t.qt } ∧
      (∀ u, u ≠ (loNibble (s.byteAt (s.pos + 2))).toNat → t.qtAt u = s.qtAt u) ∧ ∀ a, t.byteAt a = s.byteAt a) ∧
    (exec .sof0 s = .next t → s.StatusFrame t ∧
      t = { s with
        pos := t.pos, phase := t.phase, fault := t.fault, faultInfo := t.faultInfo, img := t.img,
        comp := t.comp } ∧
      ∀ a, t.byteAt a = s.byteAt a) ∧
    (exec .dht s = .next t → s.StatusFrame t ∧
      t = { s with
        pos := t.pos, phase := t.phase, fault := t.fault, faultInfo := t.faultInfo, htDc := t.htDc,
        htAc := t.htAc } ∧
      ∀ a, t.byteAt a = s.byteAt a) ∧
    (exec .sos s = .next t → s.StatusFrame t ∧
      t = { s with
        pos := t.pos, phase := t.phase, fault := t.fault, faultInfo := t.faultInfo, comp := t.comp } ∧
      (∀ id, (t.compAt id).isSome = (s.compAt id).isSome) ∧ ∀ a, t.byteAt a = s.byteAt a)

/-! ## The bit reader -/

/-- R171: the effect of the entropy rows, their bytes just taken: DATA holds its byte, STUFF holds `FF`, BADSTUFF
raises `InvalidByteStuffing` with the address of the byte after `FF`. On a byte that no word of the row carries (DATA
of FF, BADSTUFF of 00) this is the model's choice (log entry 17). -/
def Obligations.EntropyRowsEffect : Prop :=
  ∀ (s : State) (b : Byte),
    exec (.data b) s = .next { s with cur := b } ∧
    exec .stuff s = .next { s with cur := 0xFF } ∧
    (1 ≤ s.pos → exec (.badstuff b) s = .next (s.raise (.invalidByteStuffing (s.pos - 1) b)))

/-- R171: FETCHBYTE, every case. -/
def Obligations.FetchByteCases : Prop :=
  ∀ s : State,
    (s.len ≤ s.pos → exec .fetchbyte s = .next (s.raise (.unexpectedEndOfStream s.pos))) ∧
    (s.pos < s.len → s.byteAt s.pos ≠ 0xFF →
      exec .fetchbyte s = .next { s with pos := s.pos + 1, cur := s.byteAt s.pos }) ∧
    (s.pos + 1 = s.len → s.byteAt s.pos = 0xFF →
      exec .fetchbyte s = .next (({ s with pos := s.len } : State).raise (.unexpectedEndOfStream s.len))) ∧
    (s.pos + 2 ≤ s.len → s.byteAt s.pos = 0xFF → s.byteAt (s.pos + 1) = 0 →
      exec .fetchbyte s = .next { s with pos := s.pos + 2, cur := 0xFF }) ∧
    (s.pos + 2 ≤ s.len → s.byteAt s.pos = 0xFF → s.byteAt (s.pos + 1) ≠ 0 →
      exec .fetchbyte s = .next (({ s with pos := s.pos + 2 } : State).raise
        (.invalidByteStuffing (s.pos + 1) (s.byteAt (s.pos + 1)))))

/-- R90, R171: FETCHBYTE takes the entropy word at the cursor and does what the row it decodes to does. -/
def Obligations.FetchByteRunsItsRow : Prop :=
  ∀ (s : State) (i : Instr) (rest : List Byte), decode .entropy s.window = .instr i rest →
    exec .fetchbyte s = exec i { s with pos := s.pos + (s.window.length - rest.length) }

/-- R172: NEXTBIT, every case: a held byte gives its next bit; otherwise a byte is fetched first, and only then can a
fault occur. The result register `ret` is the model's (log entry 6). -/
def Obligations.NextBitCases : Prop :=
  ∀ s : State,
    (s.bitOff ≠ 0 → exec .nextbit s =
      .next { s with bitOff := s.bitOff + 1, ret := .bit (s.cur.getLsbD (7 - s.bitOff.toNat)) }) ∧
    (s.bitOff = 0 → s.pos < s.len → s.byteAt s.pos ≠ 0xFF → exec .nextbit s =
      .next { s with
        pos := s.pos + 1, cur := s.byteAt s.pos, bitOff := 1, ret := .bit ((s.byteAt s.pos).getLsbD 7) }) ∧
    (s.bitOff = 0 → s.pos + 2 ≤ s.len → s.byteAt s.pos = 0xFF → s.byteAt (s.pos + 1) = 0 → exec .nextbit s =
      .next { s with pos := s.pos + 2, cur := 0xFF, bitOff := 1, ret := .bit true }) ∧
    (s.bitOff = 0 → s.phase ≠ .fault → ∀ t, exec .fetchbyte s = .next t → t.phase = .fault →
      exec .nextbit s = .next t)

/-- R171, R172, JD's byte-stuffing transparency: from a byte boundary a stuffed run of data bytes delivers exactly the
bits of the data bytes, most significant first, and the cursor moves over the stuffed run. -/
def Obligations.StuffingIsTransparent : Prop :=
  ∀ (s : State) (bs : List Byte), s.bitOff = 0 → s.holds s.pos (stuffed bs) →
    ∃ c, s.nextBits (8 * bs.length) =
      some (bs.flatMap byteBits, { s with pos := s.pos + (stuffed bs).length, cur := c })

/-- R173: when the next bits are the code of a key of a valid table, READCODE returns its symbol after exactly those
bits. The result register `ret` is the model's (log entry 6), and so is that `acc`, `acc_len` keep their last values
(log entry 20). -/
def Obligations.ReadCodeReturnsTheSymbol : Prop :=
  ∀ (s u : State) (c : HuffClass) (t : Nibble) (h : HuffTable) (e : HuffEntry),
    s.htAt c t = some h → h.Valid → e ∈ h.map → s.nextBits e.len = some (e.bits, u) →
    exec (.readcode c t) s =
      .next { u with
        acc := BitVec.ofNat 16 e.code, accLen := BitVec.ofNat 5 e.len, ret := .symbol e.sym }

/-- R173, R174, R232: when no code of the table begins the next 16 bits, READCODE raises `HuffmanDecodeOverflow` with
those bits and reads no 17th. That `acc`, `acc_len` hold the 16 bits after the fault is the model's reading of R173
(log entry 20). -/
def Obligations.ReadCodeOverflows : Prop :=
  ∀ (s u : State) (c : HuffClass) (t : Nibble) (h : HuffTable) (bits : List Bool),
    s.htAt c t = some h → h.Valid → s.nextBits 16 = some (bits, u) →
    (∀ e ∈ h.map, bits.take e.len ≠ e.bits) →
    exec (.readcode c t) s =
      .next (({ u with acc := BitVec.ofNat 16 (bitsVal bits), accLen := 16 } : State).raise
        (.huffmanDecodeOverflow u.pos (BitVec.ofNat 16 (bitsVal bits))))

/-- R175, R176: READMAG reads `n` bits and returns their value `U` when the first is 1, and `U` less the bias of the
mode when it is 0; with `n = 0` it reads nothing and returns 0. The result register `ret` is the model's (log entry
6), and so is READMAG of a category 12 to 15, which no caller passes (log entry 17). -/
def Obligations.ReadMagReturnsTheValue : Prop :=
  ∀ (s u : State) (n : Nibble) (bits : List Bool), s.nextBits n.toNat = some (bits, u) →
    exec (.readmag n) s =
      .next { u with
        ret := .value (if n = 0 then 0
          else if bits.head? = some true then (bitsVal bits : Int)
          else match s.mode with
            | .observed => (bitsVal bits : Int) - 2 ^ (n.toNat - 1)
            | .standard => (bitsVal bits : Int) - (2 ^ n.toNat - 1)) }

/-- R177, R34: the ranges of the two modes, for every category; every value fits a 16-bit entry of `blk`. -/
def Obligations.MagnitudeRanges : Prop :=
  ∀ n u : Nat, 1 ≤ n → n ≤ 11 → u < 2 ^ n →
    (2 ^ (n - 1) ≤ u → ∀ m, magnitude m n u = u) ∧
    (u < 2 ^ (n - 1) →
      (-(2 ^ (n - 1)) ≤ magnitude .observed n u ∧ magnitude .observed n u ≤ -1) ∧
      (-(2 ^ n - 1) ≤ magnitude .standard n u ∧ magnitude .standard n u ≤ -(2 ^ (n - 1)))) ∧
    ∀ m, (BitVec.ofInt 16 (magnitude m n u)).toInt = magnitude m n u

/-- R178: the encoder of the JPEG standard followed by `ReadMagnitude` returns the value in STANDARD mode; in OBSERVED
mode it does so for positive values and returns `v + 2^(n-1) - 1` for negative ones, which is `v` for -1 only. Category 0
is the value 0 in both. -/
def Obligations.MagnitudeRoundTrip : Prop :=
  (∀ m, magnitude m 0 0 = 0) ∧ ∀ (n : Nat) (v : Int), 1 ≤ n → n ≤ 11 →
    (2 ^ (n - 1) ≤ v → v ≤ 2 ^ n - 1 → ∀ m, magnitude m n v.toNat = v) ∧
    (-(2 ^ n - 1) ≤ v → v ≤ -(2 ^ (n - 1)) →
      magnitude .standard n (v + 2 ^ n - 1).toNat = v ∧
      magnitude .observed n (v + 2 ^ n - 1).toNat = v + 2 ^ (n - 1) - 1 ∧
      (magnitude .observed n (v + 2 ^ n - 1).toNat = v ↔ v = -1))

/-! ## DC and AC operations -/

/-- R196, R197, R198, R175, R176, R206: the DC operations; DC_MAG stores the value of the next `n` bits as it is.
DC_BAD of a byte below 12, which R198 does not speak of, raises all the same: the model's choice (log entry 17). -/
def Obligations.DcOperationsEffect : Prop :=
  ∀ s : State,
    exec .dcZero s = .next { s with blk := s.blk.set 0 0 } ∧
    (∀ (n : Nibble) (bits : List Bool) (u : State), 1 ≤ n.toNat → n.toNat ≤ 11 →
      s.nextBits n.toNat = some (bits, u) →
      exec (.dcMag n) s =
        .next { u with blk := s.blk.set 0 (BitVec.ofInt 16 (magnitude s.mode n.toNat (bitsVal bits))) }) ∧
    ∀ n : Byte, exec (.dcBad n) s = .next (s.raise (.categoryOutOfRange .dc n))

/-- R200, R201, R202, R204: the AC operations that read no magnitude bit; a run past the 63rd value raises
`BlockOverrun` before anything changes. AC_RUN with `r` 0 or 15, which no word of the row carries, is the model's
choice (log entry 17). -/
def Obligations.AcRunOperationsEffect : Prop :=
  ∀ s : State,
    exec .acEob s = .next { s with k := 63 } ∧
    (s.k ≤ 47 → exec .acZrl s = .next { s with k := s.k + 16 }) ∧
    (48 ≤ s.k → exec .acZrl s = .next (s.raise (.blockOverrun s.k 0xF0))) ∧
    ∀ r : Nibble,
      (s.k + r.toNat ≤ 63 → exec (.acRun r) s = .next { s with k := s.k + r.toNat }) ∧
      (63 < s.k + r.toNat → exec (.acRun r) s = .next (s.raise (.blockOverrun s.k (ofNibbles r 0))))

/-- R203, R204, R205: AC_COEF skips `r` entries and stores the value of the next `sz` bits; a coefficient past the
63rd value raises `BlockOverrun` before a bit is read; AC_BAD raises `CategoryOutOfRange` whatever `k` is. A size
outside the row's (AC_COEF with 0 or above 10, AC_BAD below 11) is the model's choice (log entry 17). -/
def Obligations.AcCoefOperationsEffect : Prop :=
  ∀ (s : State) (r sz : Nibble),
    (∀ (bits : List Bool) (u : State), 1 ≤ sz.toNat → sz.toNat ≤ 10 → s.nextBits sz.toNat = some (bits, u) →
      s.k + r.toNat + 1 ≤ 63 →
      exec (.acCoef r sz) s =
        .next { u with
          k := s.k + r.toNat + 1
          blk := s.blk.setIfInBounds (1 + s.k + r.toNat)
            (BitVec.ofInt 16 (magnitude s.mode sz.toNat (bitsVal bits))) }) ∧
    (63 < s.k + r.toNat + 1 →
      exec (.acCoef r sz) s = .next (s.raise (.blockOverrun s.k (ofNibbles r sz)))) ∧
    exec (.acBad r sz) s = .next (s.raise (.categoryOutOfRange .ac (ofNibbles r sz)))

/-- R37, R172, R194: what the operations that read bits leave unchanged, in success and in fault: NEXTBIT, READCODE,
READMAG, DC_MAG, AC_COEF and DECODE_BLOCK change the bit reader, the status, `acc`, `k`, `blk` and the result only as
listed, and no byte of the stream. The result register `ret` is the model's (log entry 6), and so is what a field
outside its row's constraint does (log entry 17). -/
def Obligations.BitOperationsFrame : Prop :=
  ∀ s t : State,
    (∀ i, i = .nextbit ∨ (∃ n, i = .readmag n) → exec i s = .next t → s.StatusFrame t ∧
      t = { s with
        pos := t.pos, bitOff := t.bitOff, cur := t.cur, phase := t.phase, fault := t.fault,
        faultInfo := t.faultInfo, ret := t.ret } ∧ ∀ a, t.byteAt a = s.byteAt a) ∧
    (∀ c h, exec (.readcode c h) s = .next t → s.StatusFrame t ∧
      t = { s with
        pos := t.pos, bitOff := t.bitOff, cur := t.cur, phase := t.phase, fault := t.fault,
        faultInfo := t.faultInfo, acc := t.acc, accLen := t.accLen, ret := t.ret } ∧
      ∀ a, t.byteAt a = s.byteAt a) ∧
    (∀ n, exec (.dcMag n) s = .next t → s.StatusFrame t ∧
      t = { s with
        pos := t.pos, bitOff := t.bitOff, cur := t.cur, phase := t.phase, fault := t.fault,
        faultInfo := t.faultInfo, blk := t.blk } ∧
      (∀ j, j ≠ 0 → t.blk[j]? = s.blk[j]?) ∧ ∀ a, t.byteAt a = s.byteAt a) ∧
    (∀ r sz, exec (.acCoef r sz) s = .next t → s.StatusFrame t ∧
      t = { s with
        pos := t.pos, bitOff := t.bitOff, cur := t.cur, phase := t.phase, fault := t.fault,
        faultInfo := t.faultInfo, k := t.k, blk := t.blk } ∧
      (∀ j, j ≠ 1 + s.k + r.toNat → t.blk[j]? = s.blk[j]?) ∧ ∀ a, t.byteAt a = s.byteAt a) ∧
    (∀ id, exec (.decodeBlock id) s = .next t → s.StatusFrame t ∧
      t = { s with
        pos := t.pos, bitOff := t.bitOff, cur := t.cur, phase := t.phase, fault := t.fault,
        faultInfo := t.faultInfo, acc := t.acc, accLen := t.accLen, k := t.k, blk := t.blk, ret := t.ret } ∧
      ∀ a, t.byteAt a = s.byteAt a)

/-! ## Blocks -/

/-- R194, R95: when the next bits of the stream are those of a block written with the component's tables, DECODE_BLOCK
completes, returns that block's 64 values and has taken exactly those bits. The result register `ret` is the model's
(log entry 6). -/
def Obligations.DecodeBlockInvertsTheListing : Prop :=
  ∀ (s u : State) (id : Byte) (dct act : HuffTable) (b : BlockCode),
    s.tablesOf id = some (dct, act) → dct.Valid → act.Valid → b.Ok dct act s.mode →
    s.nextBits b.stream.length = some (b.stream, u) →
    ∃ t, exec (.decodeBlock id) s = .next t ∧ t.blk.toList.map BitVec.toInt = b.values s.mode ∧
      t.ret = .block t.blk ∧ t.k = 63 ∧
      t = { u with acc := t.acc, accLen := t.accLen, k := t.k, blk := t.blk, ret := t.ret }

/-- R206: a block depends on the component's tables, the stream and the bit reader's position only; nothing else passes
from one block to the next, so there is no DC prediction. -/
def Obligations.BlocksAreIndependent : Prop :=
  ∀ (s s' t : State) (id : Byte), s'.tablesOf id = s.tablesOf id → s'.mem = s.mem → s'.len = s.len →
    s'.mode = s.mode → s'.pos = s.pos → s'.bitOff = s.bitOff → s'.cur = s.cur →
    s.phase ≠ .fault → s'.phase ≠ .fault → exec (.decodeBlock id) s = .next t →
    ∃ t', exec (.decodeBlock id) s' = .next t' ∧ t'.blk = t.blk ∧ t'.pos = t.pos ∧ t'.bitOff = t.bitOff ∧
      t'.cur = t.cur ∧ (t'.phase = .fault ↔ t.phase = .fault)

/-! ## Scan start and scan -/

/-- R190, R229, R234 h: CHECK_CONFIG passes, and writes nothing, when component 1 is declared and every component has
sampling factors in 1 to 4, a selector, and loaded tables; otherwise it raises the first reason in its order, for the
first bad component. -/
def Obligations.CheckConfigCases : Prop :=
  ∀ s : State,
    (s.ConfigGood → exec .checkConfig s = .next s) ∧
    (s.compAt 1 = none → exec .checkConfig s = .next (s.raise (.invalidConfiguration .noComponent1 1))) ∧
    ∀ (pre post : List (Nat × Component)) (id : Nat) (c : Component), (s.compAt 1).isSome = true →
      s.comp = pre ++ (id, c) :: post → (∀ e ∈ pre, e.2.Good s) →
      (¬ c.SamplingGood → exec .checkConfig s = .next (s.raise (.invalidConfiguration .sampling id))) ∧
      (c.SamplingGood → c.sel = none →
        exec .checkConfig s = .next (s.raise (.invalidConfiguration .noSelector id))) ∧
      ∀ sel, c.SamplingGood → c.sel = some sel →
        (¬ c.QuantGood s → exec .checkConfig s = .next (s.raise (.invalidConfiguration .noQuantTable id))) ∧
        (c.QuantGood s → s.htAt .dc sel.td = none →
          exec .checkConfig s = .next (s.raise (.invalidConfiguration .noDcTable id))) ∧
        (c.QuantGood s → (s.htAt .dc sel.td).isSome = true → s.htAt .ac sel.ta = none →
          exec .checkConfig s = .next (s.raise (.invalidConfiguration .noAcTable id)))

/-- R191: BUILD_MSTRUCT lists the ids of valid components in ascending order, each `H * V` times. -/
def Obligations.BuildMstructOrder : Prop :=
  ∀ s : State, s.StoresOk →
    ∃ l : List Byte, exec .buildMstruct s = .next { s with mstruct := l } ∧
      l.Pairwise (fun a b => a.toNat ≤ b.toNat) ∧
      ∀ id : Byte, l.count id =
        match s.compAt id.toNat with
        | some c => c.H.toNat * c.V.toNat
        | none => 0

/-- R192: GRID rounds up both divisions: the grid covers the image and is the smallest that does. -/
def Obligations.GridCoversTheImage : Prop :=
  ∀ (s : State) (im : Image) (c : Component), s.img = some im → s.compAt 1 = some c →
    1 ≤ c.H.toNat → 1 ≤ c.V.toNat →
    ∃ cols rows : Nat,
      exec .grid s = .next { s with mcuCols := cols, mcuRows := rows, mcuTotal := cols * rows } ∧
      im.width.toNat ≤ 8 * c.H.toNat * cols ∧ (cols = 0 ∨ 8 * c.H.toNat * (cols - 1) < im.width.toNat) ∧
      im.height.toNat ≤ 8 * c.V.toNat * rows ∧ (rows = 0 ∨ 8 * c.V.toNat * (rows - 1) < im.height.toNat)

/-- R192, R193, R208: an image without width or height has no MCU: SCAN ends at once in DONE, reading no entropy byte;
SCAN_DONE sets the phase and nothing else. -/
def Obligations.ScanOfAnEmptyImage : Prop :=
  ∀ s : State,
    exec .scanDone s = .next { s with phase := .done } ∧
    ∀ im : Image, s.ConfigGood → s.img = some im → (im.width = 0 ∨ im.height = 0) →
      ∃ t, exec .scan s = .next t ∧
        t = { s with
          phase := .done, mstruct := t.mstruct, mcuCols := t.mcuCols, mcuRows := t.mcuRows,
          mcuTotal := 0, mcuIdx := 0, bitOff := 0 }

/-- R193, R96, R208: when the next bits of the stream are those of `mcu_total` MCUs, each a block per entry of the MCU
structure, SCAN completes in DONE with exactly the values of those blocks appended to `out`. That `mcu_idx` ends at
`mcu_total` is the model's reading (log entry 12). -/
def Obligations.ScanInvertsTheListing : Prop :=
  ∀ (s g u : State) (mcus : List (List BlockCode)),
    s.StoresOk → s.ConfigGood → s.bitOff = 0 →
    exec .grid { s with mstruct := mstructOf s.comp } = .next g → mcus.length = g.mcuTotal →
    (∀ m ∈ mcus, m.length = g.mlen ∧ ∀ (i : Nat) (b : BlockCode), m[i]? = some b →
      ∃ id dct act, g.mstruct[i]? = some id ∧ s.tablesOf id = some (dct, act) ∧ BlockCode.Ok dct act s.mode b) →
    s.nextBits (mcus.flatMap fun m => m.flatMap BlockCode.stream).length =
      some (mcus.flatMap fun m => m.flatMap BlockCode.stream, u) →
    ∃ t, exec .scan s = .next t ∧ t.phase = .done ∧ t.mcuIdx = g.mcuTotal ∧ t.pos = u.pos ∧
      t.bitOff = u.bitOff ∧
      t.out.map (fun m => m.map fun b => b.toList.map BitVec.toInt) =
        s.out.map (fun m => m.map fun b => b.toList.map BitVec.toInt) ++
          mcus.map fun m => m.map fun b => b.values s.mode

/-- R193, R262: SCAN always ends, in DONE or in FAULT, from every state whose stores are in order. -/
def Obligations.ScanAlwaysEnds : Prop :=
  ∀ s : State, s.StoresOk → (s.comp ≠ [] → s.img.isSome = true) →
    ∃ t, exec .scan s = .next t ∧ (t.phase = .done ∨ t.phase = .fault)

/-- R37, R73, R110, R113, R193: what HEADER, DISPATCH and SCAN leave unchanged, in success and in fault. HEADER and
DISPATCH write nothing of the scan; SCAN writes no descriptor and no table, and only appends to the output. The result
register `ret` is the model's (log entry 6). -/
def Obligations.PhaseOperationsFrame : Prop :=
  ∀ s t : State,
    (exec .header s = .next t → s.StatusFrame t ∧
      t = { s with
        pos := t.pos, phase := t.phase, fault := t.fault, faultInfo := t.faultInfo, img := t.img, comp := t.comp,
        qt := t.qt, htDc := t.htDc, htAc := t.htAc, skiplog := t.skiplog } ∧ ∀ a, t.byteAt a = s.byteAt a) ∧
    (∀ m, exec (.dispatch m) s = .next t → s.StatusFrame t ∧
      t = { s with
        pos := t.pos, phase := t.phase, fault := t.fault, faultInfo := t.faultInfo, img := t.img, comp := t.comp,
        qt := t.qt, htDc := t.htDc, htAc := t.htAc, skiplog := t.skiplog, ret := t.ret } ∧
      ∀ a, t.byteAt a = s.byteAt a) ∧
    (exec .scan s = .next t →
      t = { s with
        pos := t.pos, bitOff := t.bitOff, cur := t.cur, acc := t.acc, accLen := t.accLen, phase := t.phase,
        fault := t.fault, faultInfo := t.faultInfo, mstruct := t.mstruct, mcuCols := t.mcuCols,
        mcuRows := t.mcuRows, mcuTotal := t.mcuTotal, mcuIdx := t.mcuIdx, blkIdx := t.blkIdx, k := t.k,
        blk := t.blk, mcu := t.mcu, out := t.out } ∧
      (∃ more, t.out = s.out ++ more) ∧ ∀ a, t.byteAt a = s.byteAt a)

/-! ## Faults -/

/-- R232, R220, R235: raising a fault writes the code, which is 1 to 11, the record and the phase and keeps all other
state; no further operation of the session runs. That a step then answers the same state is the model's form of it
(log entry 4). -/
def Obligations.RaiseWritesThreeRegisters : Prop :=
  ∀ (s : State) (f : FaultInfo),
    s.raise f = { s with phase := .fault, fault := f.code, faultInfo := some f } ∧
    step (s.raise f) = .next (s.raise f) ∧ f.code ≠ 0 ∧ f.code.toNat ≤ 11

/-- R220: which phase each fault can arise in, for every step. -/
def Obligations.FaultsArriveInTheirPhase : Prop :=
  ∀ (s t : State) (f : FaultInfo), step s = .next t → s.phase ≠ .fault → t.phase = .fault →
    t.faultInfo = some f →
    match f with
    | .malformedMarker _ _ | .invalidSegmentLength _ _ | .componentCountMismatch _ _ _
    | .symbolCountMismatch _ _ _ | .unknownComponent _ _ | .invalidConfiguration .huffOversubscribed _ =>
      s.phase = .header
    | .invalidByteStuffing _ _ | .huffmanDecodeOverflow _ _ | .categoryOutOfRange _ _ | .blockOverrun _ _
    | .invalidConfiguration _ _ => s.phase = .scan
    | .unexpectedEndOfStream _ => s.phase = .header ∨ s.phase = .scan

/-! ## Reset and start -/

/-- R41, R250: RESET answers, in every state, a state in phase IDLE with the values R41 gives, as `State.reset` has
them; and a session over any stream begins with the same values in phase HEADER. -/
def Obligations.ResetValues : Prop :=
  (∀ s : State, ∃ t, exec .reset s = .next t ∧ t.phase = .idle ∧ t.Fresh) ∧
  (State.reset.phase = .idle ∧ State.reset.Fresh) ∧
  ∀ (stream : List Byte) (m : MagnitudeMode),
    (State.launch stream m).phase = .header ∧ (State.launch stream m).Fresh

/-- R251, R263: START while a session runs is refused by name. The refusal is the model's form of "the block does not
start a session on top of an old one" and of U17 (log entry 9). -/
def Obligations.StartWhileRunningIsRefused : Prop :=
  ∀ (s : State) (stream : List Byte) (m : MagnitudeMode), (s.phase = .header ∨ s.phase = .scan) →
    exec (.start stream m) s = .refused .sessionRunning

/-- R8, R251, R262: from every state in which no session runs, START runs a session over any stream to its end, DONE
or FAULT, whatever the earlier session left. That START in DONE or FAULT resets first is the model's reading of R251
(log entry 9). -/
def Obligations.EverySessionEnds : Prop :=
  ∀ (stream : List Byte) (m : MagnitudeMode), ∃ t, (t.phase = .done ∨ t.phase = .fault) ∧
    ∀ s : State, s.phase ≠ .header → s.phase ≠ .scan → exec (.start stream m) s = .next t

/-- R251, R110, R193, R208, R209: START of a stream that is a header with a good configuration, whose bytes after it
deliver the bits of every block of every MCU, whatever follows them, completes in DONE with the header's descriptors
and exactly the values of those blocks. With an image of no width or height there is no block and no bit. That START
in DONE or FAULT resets first is the model's reading of R251 (log entry 9). -/
def Obligations.StartDecodesTheListing : Prop :=
  ∀ (s h g u : State) (segs : List Item) (comps : List ScanEntry) (tail rest : List Byte) (m : MagnitudeMode)
    (mcus : List (List BlockCode)),
    s.phase ≠ .header → s.phase ≠ .scan →
    (∀ it ∈ segs, it.Segment) → (Item.sos comps tail).wf = true →
    (∀ e ∈ comps, (afterSegments segs (State.launch (headerBytes segs comps tail ++ rest) m)).compValid e.id = true) →
    h = afterHeader segs comps tail (State.launch (headerBytes segs comps tail ++ rest) m) →
    h.ConfigGood → exec .grid { h with mstruct := mstructOf h.comp } = .next g → mcus.length = g.mcuTotal →
    (∀ m' ∈ mcus, m'.length = g.mlen ∧ ∀ (i : Nat) (b : BlockCode), m'[i]? = some b →
      ∃ id dct act, g.mstruct[i]? = some id ∧ h.tablesOf id = some (dct, act) ∧ BlockCode.Ok dct act m b) →
    h.nextBits (mcus.flatMap fun m' => m'.flatMap BlockCode.stream).length =
      some (mcus.flatMap fun m' => m'.flatMap BlockCode.stream, u) →
    ∃ t, exec (.start (headerBytes segs comps tail ++ rest) m) s = .next t ∧ t.phase = .done ∧
      t.img = h.img ∧ t.comp = h.comp ∧ t.pos = u.pos ∧ t.bitOff = u.bitOff ∧
      t.out.map (fun m' => m'.map fun b => b.toList.map BitVec.toInt) =
        mcus.map fun m' => m'.map fun b => b.values m

/-! ## Steps -/

/-- R82, R113, R115, R163, R193, R194: a step runs the operation the bytes at the cursor decode to, on the state after
its pattern, and then moves on (`advance`): SOI at address 0, the marker words after it, the symbols of the block
under assembly; between them it runs the operation of the scan that is due. When SOS completes, moving on ends the
header phase: phase SCAN, the scan-start check next. How much one step does is the model's choice (log entry 5). -/
def Obligations.StepRunsTheDecodedOperation : Prop :=
  ∀ (s t : State) (i : Instr),
    (s.phase = .header → s.pos = 0 → exec .soi s = .next t → step s = .next (advance .soi t)) ∧
    (∀ rest, s.phase = .header → s.pos ≠ 0 → decode .marker s.window = .instr i rest →
      exec i { s with pos := s.pos + (s.window.length - rest.length) } = .next t →
      step s = .next (advance i t)) ∧
    (∀ id dct act sym u, s.phase = .scan → s.stage = .dc → s.mstruct[s.blkIdx]? = some id →
      s.tablesOf id = some (dct, act) → readCode dct s = .ok sym u → decode .dc [sym] = .instr i [] →
      exec i u = .next t → step s = .next (advance i t)) ∧
    (∀ id dct act sym u, s.phase = .scan → s.stage = .ac → s.mstruct[s.blkIdx]? = some id →
      s.tablesOf id = some (dct, act) → readCode act s = .ok sym u → decode .ac [sym] = .instr i [] →
      exec i u = .next t → step s = .next (advance i t)) ∧
    (s.phase = .scan →
      (s.stage = .check ∧ i = .checkConfig) ∨ (s.stage = .mstruct ∧ i = .buildMstruct) ∨
        (s.stage = .grid ∧ i = .grid) ∨ (s.stage = .done ∧ i = .scanDone) →
      exec i s = .next t → step s = .next (advance i t)) ∧
    (t.phase = .header → advance .sos t = { t with phase := .scan, stage := .check })

/-- R235, R236: in IDLE, DONE and FAULT no operation runs: a step changes nothing. That a step in these phases answers
the same state is the model's form of it (log entry 4). -/
def Obligations.EndedSessionsStay : Prop :=
  ∀ s : State, s.phase ≠ .header → s.phase ≠ .scan → step s = .next s

/-- R40: the invariant holds at reset, and when a session over any stream begins. The stream's canonical form is the
model's (log entry 1). -/
def Obligations.InvariantAtResetAndLaunch : Prop :=
  State.reset.Inv ∧ ∀ (stream : List Byte) (m : MagnitudeMode), (State.launch stream m).Inv

/-- R40: every step keeps the invariant. The stream's canonical form and `stage` are the model's (log entries 1, 5). -/
def Obligations.StepKeepsTheInvariant : Prop :=
  ∀ s t : State, s.Inv → step s = .next t → t.Inv

/-- R8, R41, R262: from a state that satisfies the invariant a step always answers a next state. The stream's
canonical form and `stage` are the model's (log entries 1, 5). -/
def Obligations.StepNeverStops : Prop :=
  ∀ s : State, s.Inv → ∃ t, step s = .next t

/-- R40 b, R69, R72: no operation but the host's RESET and START, and no step, changes a byte of the stream, its
length or the mode, or moves the cursor back. That the stream and the mode stand in State, and what a field outside
its row's constraint does, are the model's choices (log entries 1, 2, 17). -/
def Obligations.OnlyTheHostWritesTheStream : Prop :=
  (∀ (i : Instr) (s t : State), i ≠ .reset → (∀ bs m, i ≠ .start bs m) → exec i s = .next t →
    s.pos ≤ t.pos ∧ t.len = s.len ∧ t.mode = s.mode ∧ ∀ a, t.byteAt a = s.byteAt a) ∧
  ∀ s t : State, step s = .next t →
    s.pos ≤ t.pos ∧ t.len = s.len ∧ t.mode = s.mode ∧ ∀ a, t.byteAt a = s.byteAt a

/-- R35, R73, R74: a step only appends to the output store; in the scan phase no step writes a descriptor, a table or
the skip log; in the header phase no step writes the bit reader, the block, the counters or the output store. -/
def Obligations.PhasesWriteTheirOwnState : Prop :=
  ∀ s t : State, step s = .next t →
    (∃ more, t.out = s.out ++ more) ∧
    (s.phase = .scan → t.img = s.img ∧ t.comp = s.comp ∧ t.qt = s.qt ∧ t.htDc = s.htDc ∧ t.htAc = s.htAc ∧
      t.skiplog = s.skiplog) ∧
    (s.phase = .header → t.bitOff = s.bitOff ∧ t.cur = s.cur ∧ t.acc = s.acc ∧ t.accLen = s.accLen ∧
      t.mstruct = s.mstruct ∧ t.mcuCols = s.mcuCols ∧ t.mcuRows = s.mcuRows ∧ t.mcuTotal = s.mcuTotal ∧
      t.mcuIdx = s.mcuIdx ∧ t.blkIdx = s.blkIdx ∧ t.k = s.k ∧ t.blk = s.blk ∧ t.mcu = s.mcu ∧ t.out = s.out)

/-- R36: nothing reads the skip log: a step from two states that differ in it alone answers two states that differ in
it alone. -/
def Obligations.SkiplogIsNeverRead : Prop :=
  ∀ (s t : State) (l : List (Byte × List Byte)), step s = .next t →
    ∃ l', step { s with skiplog := l } = .next { t with skiplog := l' }

/-- R8, R251, R110, R193: the step machine and the nested procedures agree: stepping from the launch of a session
reaches the state START answers, the model's own stage put aside. How much one step does, and `stage`, are the model's
choice (log entry 5). -/
def Obligations.StepsRefineTheSession : Prop :=
  ∀ (stream : List Byte) (m : MagnitudeMode), ∃ (n : Nat) (t u : State),
    exec (.start stream m) State.reset = .next t ∧
    runSteps n (State.launch stream m) = some u ∧ u.seen = t.seen
end

