-- ==== Sys2Proof/Laws/State.lean ====
section
/-! SUPPORT. One lemma per field per update of the state, each true by rfl, so that no later proof unfolds a record
update. -/

namespace Sys2Proof.Machine

section setPos
variable (v : Nat) (s : State)
@[simp] theorem State.setPos_mem : (s.setPos v).mem = s.mem := rfl
@[simp] theorem State.setPos_len : (s.setPos v).len = s.len := rfl
@[simp] theorem State.setPos_mode : (s.setPos v).mode = s.mode := rfl
@[simp] theorem State.setPos_phase : (s.setPos v).phase = s.phase := rfl
@[simp] theorem State.setPos_fault : (s.setPos v).fault = s.fault := rfl
@[simp] theorem State.setPos_faultInfo : (s.setPos v).faultInfo = s.faultInfo := rfl
@[simp] theorem State.setPos_pos : (s.setPos v).pos = v := rfl
@[simp] theorem State.setPos_bitOff : (s.setPos v).bitOff = s.bitOff := rfl
@[simp] theorem State.setPos_cur : (s.setPos v).cur = s.cur := rfl
@[simp] theorem State.setPos_acc : (s.setPos v).acc = s.acc := rfl
@[simp] theorem State.setPos_accLen : (s.setPos v).accLen = s.accLen := rfl
@[simp] theorem State.setPos_img : (s.setPos v).img = s.img := rfl
@[simp] theorem State.setPos_comp : (s.setPos v).comp = s.comp := rfl
@[simp] theorem State.setPos_qt : (s.setPos v).qt = s.qt := rfl
@[simp] theorem State.setPos_htDc : (s.setPos v).htDc = s.htDc := rfl
@[simp] theorem State.setPos_htAc : (s.setPos v).htAc = s.htAc := rfl
@[simp] theorem State.setPos_mstruct : (s.setPos v).mstruct = s.mstruct := rfl
@[simp] theorem State.setPos_mcuCols : (s.setPos v).mcuCols = s.mcuCols := rfl
@[simp] theorem State.setPos_mcuRows : (s.setPos v).mcuRows = s.mcuRows := rfl
@[simp] theorem State.setPos_mcuTotal : (s.setPos v).mcuTotal = s.mcuTotal := rfl
@[simp] theorem State.setPos_mcuIdx : (s.setPos v).mcuIdx = s.mcuIdx := rfl
@[simp] theorem State.setPos_blkIdx : (s.setPos v).blkIdx = s.blkIdx := rfl
@[simp] theorem State.setPos_k : (s.setPos v).k = s.k := rfl
@[simp] theorem State.setPos_blk : (s.setPos v).blk = s.blk := rfl
@[simp] theorem State.setPos_mcu : (s.setPos v).mcu = s.mcu := rfl
@[simp] theorem State.setPos_out : (s.setPos v).out = s.out := rfl
@[simp] theorem State.setPos_skiplog : (s.setPos v).skiplog = s.skiplog := rfl
@[simp] theorem State.setPos_stage : (s.setPos v).stage = s.stage := rfl
@[simp] theorem State.setPos_ret : (s.setPos v).ret = s.ret := rfl
end setPos

section setBitOff
variable (v : BitVec 3) (s : State)
@[simp] theorem State.setBitOff_mem : (s.setBitOff v).mem = s.mem := rfl
@[simp] theorem State.setBitOff_len : (s.setBitOff v).len = s.len := rfl
@[simp] theorem State.setBitOff_mode : (s.setBitOff v).mode = s.mode := rfl
@[simp] theorem State.setBitOff_phase : (s.setBitOff v).phase = s.phase := rfl
@[simp] theorem State.setBitOff_fault : (s.setBitOff v).fault = s.fault := rfl
@[simp] theorem State.setBitOff_faultInfo : (s.setBitOff v).faultInfo = s.faultInfo := rfl
@[simp] theorem State.setBitOff_pos : (s.setBitOff v).pos = s.pos := rfl
@[simp] theorem State.setBitOff_bitOff : (s.setBitOff v).bitOff = v := rfl
@[simp] theorem State.setBitOff_cur : (s.setBitOff v).cur = s.cur := rfl
@[simp] theorem State.setBitOff_acc : (s.setBitOff v).acc = s.acc := rfl
@[simp] theorem State.setBitOff_accLen : (s.setBitOff v).accLen = s.accLen := rfl
@[simp] theorem State.setBitOff_img : (s.setBitOff v).img = s.img := rfl
@[simp] theorem State.setBitOff_comp : (s.setBitOff v).comp = s.comp := rfl
@[simp] theorem State.setBitOff_qt : (s.setBitOff v).qt = s.qt := rfl
@[simp] theorem State.setBitOff_htDc : (s.setBitOff v).htDc = s.htDc := rfl
@[simp] theorem State.setBitOff_htAc : (s.setBitOff v).htAc = s.htAc := rfl
@[simp] theorem State.setBitOff_mstruct : (s.setBitOff v).mstruct = s.mstruct := rfl
@[simp] theorem State.setBitOff_mcuCols : (s.setBitOff v).mcuCols = s.mcuCols := rfl
@[simp] theorem State.setBitOff_mcuRows : (s.setBitOff v).mcuRows = s.mcuRows := rfl
@[simp] theorem State.setBitOff_mcuTotal : (s.setBitOff v).mcuTotal = s.mcuTotal := rfl
@[simp] theorem State.setBitOff_mcuIdx : (s.setBitOff v).mcuIdx = s.mcuIdx := rfl
@[simp] theorem State.setBitOff_blkIdx : (s.setBitOff v).blkIdx = s.blkIdx := rfl
@[simp] theorem State.setBitOff_k : (s.setBitOff v).k = s.k := rfl
@[simp] theorem State.setBitOff_blk : (s.setBitOff v).blk = s.blk := rfl
@[simp] theorem State.setBitOff_mcu : (s.setBitOff v).mcu = s.mcu := rfl
@[simp] theorem State.setBitOff_out : (s.setBitOff v).out = s.out := rfl
@[simp] theorem State.setBitOff_skiplog : (s.setBitOff v).skiplog = s.skiplog := rfl
@[simp] theorem State.setBitOff_stage : (s.setBitOff v).stage = s.stage := rfl
@[simp] theorem State.setBitOff_ret : (s.setBitOff v).ret = s.ret := rfl
end setBitOff

section setCur
variable (v : Byte) (s : State)
@[simp] theorem State.setCur_mem : (s.setCur v).mem = s.mem := rfl
@[simp] theorem State.setCur_len : (s.setCur v).len = s.len := rfl
@[simp] theorem State.setCur_mode : (s.setCur v).mode = s.mode := rfl
@[simp] theorem State.setCur_phase : (s.setCur v).phase = s.phase := rfl
@[simp] theorem State.setCur_fault : (s.setCur v).fault = s.fault := rfl
@[simp] theorem State.setCur_faultInfo : (s.setCur v).faultInfo = s.faultInfo := rfl
@[simp] theorem State.setCur_pos : (s.setCur v).pos = s.pos := rfl
@[simp] theorem State.setCur_bitOff : (s.setCur v).bitOff = s.bitOff := rfl
@[simp] theorem State.setCur_cur : (s.setCur v).cur = v := rfl
@[simp] theorem State.setCur_acc : (s.setCur v).acc = s.acc := rfl
@[simp] theorem State.setCur_accLen : (s.setCur v).accLen = s.accLen := rfl
@[simp] theorem State.setCur_img : (s.setCur v).img = s.img := rfl
@[simp] theorem State.setCur_comp : (s.setCur v).comp = s.comp := rfl
@[simp] theorem State.setCur_qt : (s.setCur v).qt = s.qt := rfl
@[simp] theorem State.setCur_htDc : (s.setCur v).htDc = s.htDc := rfl
@[simp] theorem State.setCur_htAc : (s.setCur v).htAc = s.htAc := rfl
@[simp] theorem State.setCur_mstruct : (s.setCur v).mstruct = s.mstruct := rfl
@[simp] theorem State.setCur_mcuCols : (s.setCur v).mcuCols = s.mcuCols := rfl
@[simp] theorem State.setCur_mcuRows : (s.setCur v).mcuRows = s.mcuRows := rfl
@[simp] theorem State.setCur_mcuTotal : (s.setCur v).mcuTotal = s.mcuTotal := rfl
@[simp] theorem State.setCur_mcuIdx : (s.setCur v).mcuIdx = s.mcuIdx := rfl
@[simp] theorem State.setCur_blkIdx : (s.setCur v).blkIdx = s.blkIdx := rfl
@[simp] theorem State.setCur_k : (s.setCur v).k = s.k := rfl
@[simp] theorem State.setCur_blk : (s.setCur v).blk = s.blk := rfl
@[simp] theorem State.setCur_mcu : (s.setCur v).mcu = s.mcu := rfl
@[simp] theorem State.setCur_out : (s.setCur v).out = s.out := rfl
@[simp] theorem State.setCur_skiplog : (s.setCur v).skiplog = s.skiplog := rfl
@[simp] theorem State.setCur_stage : (s.setCur v).stage = s.stage := rfl
@[simp] theorem State.setCur_ret : (s.setCur v).ret = s.ret := rfl
end setCur

section setAcc
variable (v : BitVec 16) (l : BitVec 5) (s : State)
@[simp] theorem State.setAcc_mem : (s.setAcc v l).mem = s.mem := rfl
@[simp] theorem State.setAcc_len : (s.setAcc v l).len = s.len := rfl
@[simp] theorem State.setAcc_mode : (s.setAcc v l).mode = s.mode := rfl
@[simp] theorem State.setAcc_phase : (s.setAcc v l).phase = s.phase := rfl
@[simp] theorem State.setAcc_fault : (s.setAcc v l).fault = s.fault := rfl
@[simp] theorem State.setAcc_faultInfo : (s.setAcc v l).faultInfo = s.faultInfo := rfl
@[simp] theorem State.setAcc_pos : (s.setAcc v l).pos = s.pos := rfl
@[simp] theorem State.setAcc_bitOff : (s.setAcc v l).bitOff = s.bitOff := rfl
@[simp] theorem State.setAcc_cur : (s.setAcc v l).cur = s.cur := rfl
@[simp] theorem State.setAcc_acc : (s.setAcc v l).acc = v := rfl
@[simp] theorem State.setAcc_accLen : (s.setAcc v l).accLen = l := rfl
@[simp] theorem State.setAcc_img : (s.setAcc v l).img = s.img := rfl
@[simp] theorem State.setAcc_comp : (s.setAcc v l).comp = s.comp := rfl
@[simp] theorem State.setAcc_qt : (s.setAcc v l).qt = s.qt := rfl
@[simp] theorem State.setAcc_htDc : (s.setAcc v l).htDc = s.htDc := rfl
@[simp] theorem State.setAcc_htAc : (s.setAcc v l).htAc = s.htAc := rfl
@[simp] theorem State.setAcc_mstruct : (s.setAcc v l).mstruct = s.mstruct := rfl
@[simp] theorem State.setAcc_mcuCols : (s.setAcc v l).mcuCols = s.mcuCols := rfl
@[simp] theorem State.setAcc_mcuRows : (s.setAcc v l).mcuRows = s.mcuRows := rfl
@[simp] theorem State.setAcc_mcuTotal : (s.setAcc v l).mcuTotal = s.mcuTotal := rfl
@[simp] theorem State.setAcc_mcuIdx : (s.setAcc v l).mcuIdx = s.mcuIdx := rfl
@[simp] theorem State.setAcc_blkIdx : (s.setAcc v l).blkIdx = s.blkIdx := rfl
@[simp] theorem State.setAcc_k : (s.setAcc v l).k = s.k := rfl
@[simp] theorem State.setAcc_blk : (s.setAcc v l).blk = s.blk := rfl
@[simp] theorem State.setAcc_mcu : (s.setAcc v l).mcu = s.mcu := rfl
@[simp] theorem State.setAcc_out : (s.setAcc v l).out = s.out := rfl
@[simp] theorem State.setAcc_skiplog : (s.setAcc v l).skiplog = s.skiplog := rfl
@[simp] theorem State.setAcc_stage : (s.setAcc v l).stage = s.stage := rfl
@[simp] theorem State.setAcc_ret : (s.setAcc v l).ret = s.ret := rfl
end setAcc

section setImg
variable (v : Option Image) (s : State)
@[simp] theorem State.setImg_mem : (s.setImg v).mem = s.mem := rfl
@[simp] theorem State.setImg_len : (s.setImg v).len = s.len := rfl
@[simp] theorem State.setImg_mode : (s.setImg v).mode = s.mode := rfl
@[simp] theorem State.setImg_phase : (s.setImg v).phase = s.phase := rfl
@[simp] theorem State.setImg_fault : (s.setImg v).fault = s.fault := rfl
@[simp] theorem State.setImg_faultInfo : (s.setImg v).faultInfo = s.faultInfo := rfl
@[simp] theorem State.setImg_pos : (s.setImg v).pos = s.pos := rfl
@[simp] theorem State.setImg_bitOff : (s.setImg v).bitOff = s.bitOff := rfl
@[simp] theorem State.setImg_cur : (s.setImg v).cur = s.cur := rfl
@[simp] theorem State.setImg_acc : (s.setImg v).acc = s.acc := rfl
@[simp] theorem State.setImg_accLen : (s.setImg v).accLen = s.accLen := rfl
@[simp] theorem State.setImg_img : (s.setImg v).img = v := rfl
@[simp] theorem State.setImg_comp : (s.setImg v).comp = s.comp := rfl
@[simp] theorem State.setImg_qt : (s.setImg v).qt = s.qt := rfl
@[simp] theorem State.setImg_htDc : (s.setImg v).htDc = s.htDc := rfl
@[simp] theorem State.setImg_htAc : (s.setImg v).htAc = s.htAc := rfl
@[simp] theorem State.setImg_mstruct : (s.setImg v).mstruct = s.mstruct := rfl
@[simp] theorem State.setImg_mcuCols : (s.setImg v).mcuCols = s.mcuCols := rfl
@[simp] theorem State.setImg_mcuRows : (s.setImg v).mcuRows = s.mcuRows := rfl
@[simp] theorem State.setImg_mcuTotal : (s.setImg v).mcuTotal = s.mcuTotal := rfl
@[simp] theorem State.setImg_mcuIdx : (s.setImg v).mcuIdx = s.mcuIdx := rfl
@[simp] theorem State.setImg_blkIdx : (s.setImg v).blkIdx = s.blkIdx := rfl
@[simp] theorem State.setImg_k : (s.setImg v).k = s.k := rfl
@[simp] theorem State.setImg_blk : (s.setImg v).blk = s.blk := rfl
@[simp] theorem State.setImg_mcu : (s.setImg v).mcu = s.mcu := rfl
@[simp] theorem State.setImg_out : (s.setImg v).out = s.out := rfl
@[simp] theorem State.setImg_skiplog : (s.setImg v).skiplog = s.skiplog := rfl
@[simp] theorem State.setImg_stage : (s.setImg v).stage = s.stage := rfl
@[simp] theorem State.setImg_ret : (s.setImg v).ret = s.ret := rfl
end setImg

section setComp
variable (v : List (Nat × Component)) (s : State)
@[simp] theorem State.setComp_mem : (s.setComp v).mem = s.mem := rfl
@[simp] theorem State.setComp_len : (s.setComp v).len = s.len := rfl
@[simp] theorem State.setComp_mode : (s.setComp v).mode = s.mode := rfl
@[simp] theorem State.setComp_phase : (s.setComp v).phase = s.phase := rfl
@[simp] theorem State.setComp_fault : (s.setComp v).fault = s.fault := rfl
@[simp] theorem State.setComp_faultInfo : (s.setComp v).faultInfo = s.faultInfo := rfl
@[simp] theorem State.setComp_pos : (s.setComp v).pos = s.pos := rfl
@[simp] theorem State.setComp_bitOff : (s.setComp v).bitOff = s.bitOff := rfl
@[simp] theorem State.setComp_cur : (s.setComp v).cur = s.cur := rfl
@[simp] theorem State.setComp_acc : (s.setComp v).acc = s.acc := rfl
@[simp] theorem State.setComp_accLen : (s.setComp v).accLen = s.accLen := rfl
@[simp] theorem State.setComp_img : (s.setComp v).img = s.img := rfl
@[simp] theorem State.setComp_comp : (s.setComp v).comp = v := rfl
@[simp] theorem State.setComp_qt : (s.setComp v).qt = s.qt := rfl
@[simp] theorem State.setComp_htDc : (s.setComp v).htDc = s.htDc := rfl
@[simp] theorem State.setComp_htAc : (s.setComp v).htAc = s.htAc := rfl
@[simp] theorem State.setComp_mstruct : (s.setComp v).mstruct = s.mstruct := rfl
@[simp] theorem State.setComp_mcuCols : (s.setComp v).mcuCols = s.mcuCols := rfl
@[simp] theorem State.setComp_mcuRows : (s.setComp v).mcuRows = s.mcuRows := rfl
@[simp] theorem State.setComp_mcuTotal : (s.setComp v).mcuTotal = s.mcuTotal := rfl
@[simp] theorem State.setComp_mcuIdx : (s.setComp v).mcuIdx = s.mcuIdx := rfl
@[simp] theorem State.setComp_blkIdx : (s.setComp v).blkIdx = s.blkIdx := rfl
@[simp] theorem State.setComp_k : (s.setComp v).k = s.k := rfl
@[simp] theorem State.setComp_blk : (s.setComp v).blk = s.blk := rfl
@[simp] theorem State.setComp_mcu : (s.setComp v).mcu = s.mcu := rfl
@[simp] theorem State.setComp_out : (s.setComp v).out = s.out := rfl
@[simp] theorem State.setComp_skiplog : (s.setComp v).skiplog = s.skiplog := rfl
@[simp] theorem State.setComp_stage : (s.setComp v).stage = s.stage := rfl
@[simp] theorem State.setComp_ret : (s.setComp v).ret = s.ret := rfl
end setComp

section setQt
variable (v : List (Nat × QuantTable)) (s : State)
@[simp] theorem State.setQt_mem : (s.setQt v).mem = s.mem := rfl
@[simp] theorem State.setQt_len : (s.setQt v).len = s.len := rfl
@[simp] theorem State.setQt_mode : (s.setQt v).mode = s.mode := rfl
@[simp] theorem State.setQt_phase : (s.setQt v).phase = s.phase := rfl
@[simp] theorem State.setQt_fault : (s.setQt v).fault = s.fault := rfl
@[simp] theorem State.setQt_faultInfo : (s.setQt v).faultInfo = s.faultInfo := rfl
@[simp] theorem State.setQt_pos : (s.setQt v).pos = s.pos := rfl
@[simp] theorem State.setQt_bitOff : (s.setQt v).bitOff = s.bitOff := rfl
@[simp] theorem State.setQt_cur : (s.setQt v).cur = s.cur := rfl
@[simp] theorem State.setQt_acc : (s.setQt v).acc = s.acc := rfl
@[simp] theorem State.setQt_accLen : (s.setQt v).accLen = s.accLen := rfl
@[simp] theorem State.setQt_img : (s.setQt v).img = s.img := rfl
@[simp] theorem State.setQt_comp : (s.setQt v).comp = s.comp := rfl
@[simp] theorem State.setQt_qt : (s.setQt v).qt = v := rfl
@[simp] theorem State.setQt_htDc : (s.setQt v).htDc = s.htDc := rfl
@[simp] theorem State.setQt_htAc : (s.setQt v).htAc = s.htAc := rfl
@[simp] theorem State.setQt_mstruct : (s.setQt v).mstruct = s.mstruct := rfl
@[simp] theorem State.setQt_mcuCols : (s.setQt v).mcuCols = s.mcuCols := rfl
@[simp] theorem State.setQt_mcuRows : (s.setQt v).mcuRows = s.mcuRows := rfl
@[simp] theorem State.setQt_mcuTotal : (s.setQt v).mcuTotal = s.mcuTotal := rfl
@[simp] theorem State.setQt_mcuIdx : (s.setQt v).mcuIdx = s.mcuIdx := rfl
@[simp] theorem State.setQt_blkIdx : (s.setQt v).blkIdx = s.blkIdx := rfl
@[simp] theorem State.setQt_k : (s.setQt v).k = s.k := rfl
@[simp] theorem State.setQt_blk : (s.setQt v).blk = s.blk := rfl
@[simp] theorem State.setQt_mcu : (s.setQt v).mcu = s.mcu := rfl
@[simp] theorem State.setQt_out : (s.setQt v).out = s.out := rfl
@[simp] theorem State.setQt_skiplog : (s.setQt v).skiplog = s.skiplog := rfl
@[simp] theorem State.setQt_stage : (s.setQt v).stage = s.stage := rfl
@[simp] theorem State.setQt_ret : (s.setQt v).ret = s.ret := rfl
end setQt

section setHtDc
variable (v : List (Nat × HuffTable)) (s : State)
@[simp] theorem State.setHtDc_mem : (s.setHtDc v).mem = s.mem := rfl
@[simp] theorem State.setHtDc_len : (s.setHtDc v).len = s.len := rfl
@[simp] theorem State.setHtDc_mode : (s.setHtDc v).mode = s.mode := rfl
@[simp] theorem State.setHtDc_phase : (s.setHtDc v).phase = s.phase := rfl
@[simp] theorem State.setHtDc_fault : (s.setHtDc v).fault = s.fault := rfl
@[simp] theorem State.setHtDc_faultInfo : (s.setHtDc v).faultInfo = s.faultInfo := rfl
@[simp] theorem State.setHtDc_pos : (s.setHtDc v).pos = s.pos := rfl
@[simp] theorem State.setHtDc_bitOff : (s.setHtDc v).bitOff = s.bitOff := rfl
@[simp] theorem State.setHtDc_cur : (s.setHtDc v).cur = s.cur := rfl
@[simp] theorem State.setHtDc_acc : (s.setHtDc v).acc = s.acc := rfl
@[simp] theorem State.setHtDc_accLen : (s.setHtDc v).accLen = s.accLen := rfl
@[simp] theorem State.setHtDc_img : (s.setHtDc v).img = s.img := rfl
@[simp] theorem State.setHtDc_comp : (s.setHtDc v).comp = s.comp := rfl
@[simp] theorem State.setHtDc_qt : (s.setHtDc v).qt = s.qt := rfl
@[simp] theorem State.setHtDc_htDc : (s.setHtDc v).htDc = v := rfl
@[simp] theorem State.setHtDc_htAc : (s.setHtDc v).htAc = s.htAc := rfl
@[simp] theorem State.setHtDc_mstruct : (s.setHtDc v).mstruct = s.mstruct := rfl
@[simp] theorem State.setHtDc_mcuCols : (s.setHtDc v).mcuCols = s.mcuCols := rfl
@[simp] theorem State.setHtDc_mcuRows : (s.setHtDc v).mcuRows = s.mcuRows := rfl
@[simp] theorem State.setHtDc_mcuTotal : (s.setHtDc v).mcuTotal = s.mcuTotal := rfl
@[simp] theorem State.setHtDc_mcuIdx : (s.setHtDc v).mcuIdx = s.mcuIdx := rfl
@[simp] theorem State.setHtDc_blkIdx : (s.setHtDc v).blkIdx = s.blkIdx := rfl
@[simp] theorem State.setHtDc_k : (s.setHtDc v).k = s.k := rfl
@[simp] theorem State.setHtDc_blk : (s.setHtDc v).blk = s.blk := rfl
@[simp] theorem State.setHtDc_mcu : (s.setHtDc v).mcu = s.mcu := rfl
@[simp] theorem State.setHtDc_out : (s.setHtDc v).out = s.out := rfl
@[simp] theorem State.setHtDc_skiplog : (s.setHtDc v).skiplog = s.skiplog := rfl
@[simp] theorem State.setHtDc_stage : (s.setHtDc v).stage = s.stage := rfl
@[simp] theorem State.setHtDc_ret : (s.setHtDc v).ret = s.ret := rfl
end setHtDc

section setHtAc
variable (v : List (Nat × HuffTable)) (s : State)
@[simp] theorem State.setHtAc_mem : (s.setHtAc v).mem = s.mem := rfl
@[simp] theorem State.setHtAc_len : (s.setHtAc v).len = s.len := rfl
@[simp] theorem State.setHtAc_mode : (s.setHtAc v).mode = s.mode := rfl
@[simp] theorem State.setHtAc_phase : (s.setHtAc v).phase = s.phase := rfl
@[simp] theorem State.setHtAc_fault : (s.setHtAc v).fault = s.fault := rfl
@[simp] theorem State.setHtAc_faultInfo : (s.setHtAc v).faultInfo = s.faultInfo := rfl
@[simp] theorem State.setHtAc_pos : (s.setHtAc v).pos = s.pos := rfl
@[simp] theorem State.setHtAc_bitOff : (s.setHtAc v).bitOff = s.bitOff := rfl
@[simp] theorem State.setHtAc_cur : (s.setHtAc v).cur = s.cur := rfl
@[simp] theorem State.setHtAc_acc : (s.setHtAc v).acc = s.acc := rfl
@[simp] theorem State.setHtAc_accLen : (s.setHtAc v).accLen = s.accLen := rfl
@[simp] theorem State.setHtAc_img : (s.setHtAc v).img = s.img := rfl
@[simp] theorem State.setHtAc_comp : (s.setHtAc v).comp = s.comp := rfl
@[simp] theorem State.setHtAc_qt : (s.setHtAc v).qt = s.qt := rfl
@[simp] theorem State.setHtAc_htDc : (s.setHtAc v).htDc = s.htDc := rfl
@[simp] theorem State.setHtAc_htAc : (s.setHtAc v).htAc = v := rfl
@[simp] theorem State.setHtAc_mstruct : (s.setHtAc v).mstruct = s.mstruct := rfl
@[simp] theorem State.setHtAc_mcuCols : (s.setHtAc v).mcuCols = s.mcuCols := rfl
@[simp] theorem State.setHtAc_mcuRows : (s.setHtAc v).mcuRows = s.mcuRows := rfl
@[simp] theorem State.setHtAc_mcuTotal : (s.setHtAc v).mcuTotal = s.mcuTotal := rfl
@[simp] theorem State.setHtAc_mcuIdx : (s.setHtAc v).mcuIdx = s.mcuIdx := rfl
@[simp] theorem State.setHtAc_blkIdx : (s.setHtAc v).blkIdx = s.blkIdx := rfl
@[simp] theorem State.setHtAc_k : (s.setHtAc v).k = s.k := rfl
@[simp] theorem State.setHtAc_blk : (s.setHtAc v).blk = s.blk := rfl
@[simp] theorem State.setHtAc_mcu : (s.setHtAc v).mcu = s.mcu := rfl
@[simp] theorem State.setHtAc_out : (s.setHtAc v).out = s.out := rfl
@[simp] theorem State.setHtAc_skiplog : (s.setHtAc v).skiplog = s.skiplog := rfl
@[simp] theorem State.setHtAc_stage : (s.setHtAc v).stage = s.stage := rfl
@[simp] theorem State.setHtAc_ret : (s.setHtAc v).ret = s.ret := rfl
end setHtAc

section setMstruct
variable (v : List Byte) (s : State)
@[simp] theorem State.setMstruct_mem : (s.setMstruct v).mem = s.mem := rfl
@[simp] theorem State.setMstruct_len : (s.setMstruct v).len = s.len := rfl
@[simp] theorem State.setMstruct_mode : (s.setMstruct v).mode = s.mode := rfl
@[simp] theorem State.setMstruct_phase : (s.setMstruct v).phase = s.phase := rfl
@[simp] theorem State.setMstruct_fault : (s.setMstruct v).fault = s.fault := rfl
@[simp] theorem State.setMstruct_faultInfo : (s.setMstruct v).faultInfo = s.faultInfo := rfl
@[simp] theorem State.setMstruct_pos : (s.setMstruct v).pos = s.pos := rfl
@[simp] theorem State.setMstruct_bitOff : (s.setMstruct v).bitOff = s.bitOff := rfl
@[simp] theorem State.setMstruct_cur : (s.setMstruct v).cur = s.cur := rfl
@[simp] theorem State.setMstruct_acc : (s.setMstruct v).acc = s.acc := rfl
@[simp] theorem State.setMstruct_accLen : (s.setMstruct v).accLen = s.accLen := rfl
@[simp] theorem State.setMstruct_img : (s.setMstruct v).img = s.img := rfl
@[simp] theorem State.setMstruct_comp : (s.setMstruct v).comp = s.comp := rfl
@[simp] theorem State.setMstruct_qt : (s.setMstruct v).qt = s.qt := rfl
@[simp] theorem State.setMstruct_htDc : (s.setMstruct v).htDc = s.htDc := rfl
@[simp] theorem State.setMstruct_htAc : (s.setMstruct v).htAc = s.htAc := rfl
@[simp] theorem State.setMstruct_mstruct : (s.setMstruct v).mstruct = v := rfl
@[simp] theorem State.setMstruct_mcuCols : (s.setMstruct v).mcuCols = s.mcuCols := rfl
@[simp] theorem State.setMstruct_mcuRows : (s.setMstruct v).mcuRows = s.mcuRows := rfl
@[simp] theorem State.setMstruct_mcuTotal : (s.setMstruct v).mcuTotal = s.mcuTotal := rfl
@[simp] theorem State.setMstruct_mcuIdx : (s.setMstruct v).mcuIdx = s.mcuIdx := rfl
@[simp] theorem State.setMstruct_blkIdx : (s.setMstruct v).blkIdx = s.blkIdx := rfl
@[simp] theorem State.setMstruct_k : (s.setMstruct v).k = s.k := rfl
@[simp] theorem State.setMstruct_blk : (s.setMstruct v).blk = s.blk := rfl
@[simp] theorem State.setMstruct_mcu : (s.setMstruct v).mcu = s.mcu := rfl
@[simp] theorem State.setMstruct_out : (s.setMstruct v).out = s.out := rfl
@[simp] theorem State.setMstruct_skiplog : (s.setMstruct v).skiplog = s.skiplog := rfl
@[simp] theorem State.setMstruct_stage : (s.setMstruct v).stage = s.stage := rfl
@[simp] theorem State.setMstruct_ret : (s.setMstruct v).ret = s.ret := rfl
end setMstruct

section setGrid
variable (c r t : Nat) (s : State)
@[simp] theorem State.setGrid_mem : (s.setGrid c r t).mem = s.mem := rfl
@[simp] theorem State.setGrid_len : (s.setGrid c r t).len = s.len := rfl
@[simp] theorem State.setGrid_mode : (s.setGrid c r t).mode = s.mode := rfl
@[simp] theorem State.setGrid_phase : (s.setGrid c r t).phase = s.phase := rfl
@[simp] theorem State.setGrid_fault : (s.setGrid c r t).fault = s.fault := rfl
@[simp] theorem State.setGrid_faultInfo : (s.setGrid c r t).faultInfo = s.faultInfo := rfl
@[simp] theorem State.setGrid_pos : (s.setGrid c r t).pos = s.pos := rfl
@[simp] theorem State.setGrid_bitOff : (s.setGrid c r t).bitOff = s.bitOff := rfl
@[simp] theorem State.setGrid_cur : (s.setGrid c r t).cur = s.cur := rfl
@[simp] theorem State.setGrid_acc : (s.setGrid c r t).acc = s.acc := rfl
@[simp] theorem State.setGrid_accLen : (s.setGrid c r t).accLen = s.accLen := rfl
@[simp] theorem State.setGrid_img : (s.setGrid c r t).img = s.img := rfl
@[simp] theorem State.setGrid_comp : (s.setGrid c r t).comp = s.comp := rfl
@[simp] theorem State.setGrid_qt : (s.setGrid c r t).qt = s.qt := rfl
@[simp] theorem State.setGrid_htDc : (s.setGrid c r t).htDc = s.htDc := rfl
@[simp] theorem State.setGrid_htAc : (s.setGrid c r t).htAc = s.htAc := rfl
@[simp] theorem State.setGrid_mstruct : (s.setGrid c r t).mstruct = s.mstruct := rfl
@[simp] theorem State.setGrid_mcuCols : (s.setGrid c r t).mcuCols = c := rfl
@[simp] theorem State.setGrid_mcuRows : (s.setGrid c r t).mcuRows = r := rfl
@[simp] theorem State.setGrid_mcuTotal : (s.setGrid c r t).mcuTotal = t := rfl
@[simp] theorem State.setGrid_mcuIdx : (s.setGrid c r t).mcuIdx = s.mcuIdx := rfl
@[simp] theorem State.setGrid_blkIdx : (s.setGrid c r t).blkIdx = s.blkIdx := rfl
@[simp] theorem State.setGrid_k : (s.setGrid c r t).k = s.k := rfl
@[simp] theorem State.setGrid_blk : (s.setGrid c r t).blk = s.blk := rfl
@[simp] theorem State.setGrid_mcu : (s.setGrid c r t).mcu = s.mcu := rfl
@[simp] theorem State.setGrid_out : (s.setGrid c r t).out = s.out := rfl
@[simp] theorem State.setGrid_skiplog : (s.setGrid c r t).skiplog = s.skiplog := rfl
@[simp] theorem State.setGrid_stage : (s.setGrid c r t).stage = s.stage := rfl
@[simp] theorem State.setGrid_ret : (s.setGrid c r t).ret = s.ret := rfl
end setGrid

section setMcuIdx
variable (v : Nat) (s : State)
@[simp] theorem State.setMcuIdx_mem : (s.setMcuIdx v).mem = s.mem := rfl
@[simp] theorem State.setMcuIdx_len : (s.setMcuIdx v).len = s.len := rfl
@[simp] theorem State.setMcuIdx_mode : (s.setMcuIdx v).mode = s.mode := rfl
@[simp] theorem State.setMcuIdx_phase : (s.setMcuIdx v).phase = s.phase := rfl
@[simp] theorem State.setMcuIdx_fault : (s.setMcuIdx v).fault = s.fault := rfl
@[simp] theorem State.setMcuIdx_faultInfo : (s.setMcuIdx v).faultInfo = s.faultInfo := rfl
@[simp] theorem State.setMcuIdx_pos : (s.setMcuIdx v).pos = s.pos := rfl
@[simp] theorem State.setMcuIdx_bitOff : (s.setMcuIdx v).bitOff = s.bitOff := rfl
@[simp] theorem State.setMcuIdx_cur : (s.setMcuIdx v).cur = s.cur := rfl
@[simp] theorem State.setMcuIdx_acc : (s.setMcuIdx v).acc = s.acc := rfl
@[simp] theorem State.setMcuIdx_accLen : (s.setMcuIdx v).accLen = s.accLen := rfl
@[simp] theorem State.setMcuIdx_img : (s.setMcuIdx v).img = s.img := rfl
@[simp] theorem State.setMcuIdx_comp : (s.setMcuIdx v).comp = s.comp := rfl
@[simp] theorem State.setMcuIdx_qt : (s.setMcuIdx v).qt = s.qt := rfl
@[simp] theorem State.setMcuIdx_htDc : (s.setMcuIdx v).htDc = s.htDc := rfl
@[simp] theorem State.setMcuIdx_htAc : (s.setMcuIdx v).htAc = s.htAc := rfl
@[simp] theorem State.setMcuIdx_mstruct : (s.setMcuIdx v).mstruct = s.mstruct := rfl
@[simp] theorem State.setMcuIdx_mcuCols : (s.setMcuIdx v).mcuCols = s.mcuCols := rfl
@[simp] theorem State.setMcuIdx_mcuRows : (s.setMcuIdx v).mcuRows = s.mcuRows := rfl
@[simp] theorem State.setMcuIdx_mcuTotal : (s.setMcuIdx v).mcuTotal = s.mcuTotal := rfl
@[simp] theorem State.setMcuIdx_mcuIdx : (s.setMcuIdx v).mcuIdx = v := rfl
@[simp] theorem State.setMcuIdx_blkIdx : (s.setMcuIdx v).blkIdx = s.blkIdx := rfl
@[simp] theorem State.setMcuIdx_k : (s.setMcuIdx v).k = s.k := rfl
@[simp] theorem State.setMcuIdx_blk : (s.setMcuIdx v).blk = s.blk := rfl
@[simp] theorem State.setMcuIdx_mcu : (s.setMcuIdx v).mcu = s.mcu := rfl
@[simp] theorem State.setMcuIdx_out : (s.setMcuIdx v).out = s.out := rfl
@[simp] theorem State.setMcuIdx_skiplog : (s.setMcuIdx v).skiplog = s.skiplog := rfl
@[simp] theorem State.setMcuIdx_stage : (s.setMcuIdx v).stage = s.stage := rfl
@[simp] theorem State.setMcuIdx_ret : (s.setMcuIdx v).ret = s.ret := rfl
end setMcuIdx

section setBlkIdx
variable (v : Nat) (s : State)
@[simp] theorem State.setBlkIdx_mem : (s.setBlkIdx v).mem = s.mem := rfl
@[simp] theorem State.setBlkIdx_len : (s.setBlkIdx v).len = s.len := rfl
@[simp] theorem State.setBlkIdx_mode : (s.setBlkIdx v).mode = s.mode := rfl
@[simp] theorem State.setBlkIdx_phase : (s.setBlkIdx v).phase = s.phase := rfl
@[simp] theorem State.setBlkIdx_fault : (s.setBlkIdx v).fault = s.fault := rfl
@[simp] theorem State.setBlkIdx_faultInfo : (s.setBlkIdx v).faultInfo = s.faultInfo := rfl
@[simp] theorem State.setBlkIdx_pos : (s.setBlkIdx v).pos = s.pos := rfl
@[simp] theorem State.setBlkIdx_bitOff : (s.setBlkIdx v).bitOff = s.bitOff := rfl
@[simp] theorem State.setBlkIdx_cur : (s.setBlkIdx v).cur = s.cur := rfl
@[simp] theorem State.setBlkIdx_acc : (s.setBlkIdx v).acc = s.acc := rfl
@[simp] theorem State.setBlkIdx_accLen : (s.setBlkIdx v).accLen = s.accLen := rfl
@[simp] theorem State.setBlkIdx_img : (s.setBlkIdx v).img = s.img := rfl
@[simp] theorem State.setBlkIdx_comp : (s.setBlkIdx v).comp = s.comp := rfl
@[simp] theorem State.setBlkIdx_qt : (s.setBlkIdx v).qt = s.qt := rfl
@[simp] theorem State.setBlkIdx_htDc : (s.setBlkIdx v).htDc = s.htDc := rfl
@[simp] theorem State.setBlkIdx_htAc : (s.setBlkIdx v).htAc = s.htAc := rfl
@[simp] theorem State.setBlkIdx_mstruct : (s.setBlkIdx v).mstruct = s.mstruct := rfl
@[simp] theorem State.setBlkIdx_mcuCols : (s.setBlkIdx v).mcuCols = s.mcuCols := rfl
@[simp] theorem State.setBlkIdx_mcuRows : (s.setBlkIdx v).mcuRows = s.mcuRows := rfl
@[simp] theorem State.setBlkIdx_mcuTotal : (s.setBlkIdx v).mcuTotal = s.mcuTotal := rfl
@[simp] theorem State.setBlkIdx_mcuIdx : (s.setBlkIdx v).mcuIdx = s.mcuIdx := rfl
@[simp] theorem State.setBlkIdx_blkIdx : (s.setBlkIdx v).blkIdx = v := rfl
@[simp] theorem State.setBlkIdx_k : (s.setBlkIdx v).k = s.k := rfl
@[simp] theorem State.setBlkIdx_blk : (s.setBlkIdx v).blk = s.blk := rfl
@[simp] theorem State.setBlkIdx_mcu : (s.setBlkIdx v).mcu = s.mcu := rfl
@[simp] theorem State.setBlkIdx_out : (s.setBlkIdx v).out = s.out := rfl
@[simp] theorem State.setBlkIdx_skiplog : (s.setBlkIdx v).skiplog = s.skiplog := rfl
@[simp] theorem State.setBlkIdx_stage : (s.setBlkIdx v).stage = s.stage := rfl
@[simp] theorem State.setBlkIdx_ret : (s.setBlkIdx v).ret = s.ret := rfl
end setBlkIdx

section setK
variable (v : Nat) (s : State)
@[simp] theorem State.setK_mem : (s.setK v).mem = s.mem := rfl
@[simp] theorem State.setK_len : (s.setK v).len = s.len := rfl
@[simp] theorem State.setK_mode : (s.setK v).mode = s.mode := rfl
@[simp] theorem State.setK_phase : (s.setK v).phase = s.phase := rfl
@[simp] theorem State.setK_fault : (s.setK v).fault = s.fault := rfl
@[simp] theorem State.setK_faultInfo : (s.setK v).faultInfo = s.faultInfo := rfl
@[simp] theorem State.setK_pos : (s.setK v).pos = s.pos := rfl
@[simp] theorem State.setK_bitOff : (s.setK v).bitOff = s.bitOff := rfl
@[simp] theorem State.setK_cur : (s.setK v).cur = s.cur := rfl
@[simp] theorem State.setK_acc : (s.setK v).acc = s.acc := rfl
@[simp] theorem State.setK_accLen : (s.setK v).accLen = s.accLen := rfl
@[simp] theorem State.setK_img : (s.setK v).img = s.img := rfl
@[simp] theorem State.setK_comp : (s.setK v).comp = s.comp := rfl
@[simp] theorem State.setK_qt : (s.setK v).qt = s.qt := rfl
@[simp] theorem State.setK_htDc : (s.setK v).htDc = s.htDc := rfl
@[simp] theorem State.setK_htAc : (s.setK v).htAc = s.htAc := rfl
@[simp] theorem State.setK_mstruct : (s.setK v).mstruct = s.mstruct := rfl
@[simp] theorem State.setK_mcuCols : (s.setK v).mcuCols = s.mcuCols := rfl
@[simp] theorem State.setK_mcuRows : (s.setK v).mcuRows = s.mcuRows := rfl
@[simp] theorem State.setK_mcuTotal : (s.setK v).mcuTotal = s.mcuTotal := rfl
@[simp] theorem State.setK_mcuIdx : (s.setK v).mcuIdx = s.mcuIdx := rfl
@[simp] theorem State.setK_blkIdx : (s.setK v).blkIdx = s.blkIdx := rfl
@[simp] theorem State.setK_k : (s.setK v).k = v := rfl
@[simp] theorem State.setK_blk : (s.setK v).blk = s.blk := rfl
@[simp] theorem State.setK_mcu : (s.setK v).mcu = s.mcu := rfl
@[simp] theorem State.setK_out : (s.setK v).out = s.out := rfl
@[simp] theorem State.setK_skiplog : (s.setK v).skiplog = s.skiplog := rfl
@[simp] theorem State.setK_stage : (s.setK v).stage = s.stage := rfl
@[simp] theorem State.setK_ret : (s.setK v).ret = s.ret := rfl
end setK

section setBlk
variable (v : Block) (s : State)
@[simp] theorem State.setBlk_mem : (s.setBlk v).mem = s.mem := rfl
@[simp] theorem State.setBlk_len : (s.setBlk v).len = s.len := rfl
@[simp] theorem State.setBlk_mode : (s.setBlk v).mode = s.mode := rfl
@[simp] theorem State.setBlk_phase : (s.setBlk v).phase = s.phase := rfl
@[simp] theorem State.setBlk_fault : (s.setBlk v).fault = s.fault := rfl
@[simp] theorem State.setBlk_faultInfo : (s.setBlk v).faultInfo = s.faultInfo := rfl
@[simp] theorem State.setBlk_pos : (s.setBlk v).pos = s.pos := rfl
@[simp] theorem State.setBlk_bitOff : (s.setBlk v).bitOff = s.bitOff := rfl
@[simp] theorem State.setBlk_cur : (s.setBlk v).cur = s.cur := rfl
@[simp] theorem State.setBlk_acc : (s.setBlk v).acc = s.acc := rfl
@[simp] theorem State.setBlk_accLen : (s.setBlk v).accLen = s.accLen := rfl
@[simp] theorem State.setBlk_img : (s.setBlk v).img = s.img := rfl
@[simp] theorem State.setBlk_comp : (s.setBlk v).comp = s.comp := rfl
@[simp] theorem State.setBlk_qt : (s.setBlk v).qt = s.qt := rfl
@[simp] theorem State.setBlk_htDc : (s.setBlk v).htDc = s.htDc := rfl
@[simp] theorem State.setBlk_htAc : (s.setBlk v).htAc = s.htAc := rfl
@[simp] theorem State.setBlk_mstruct : (s.setBlk v).mstruct = s.mstruct := rfl
@[simp] theorem State.setBlk_mcuCols : (s.setBlk v).mcuCols = s.mcuCols := rfl
@[simp] theorem State.setBlk_mcuRows : (s.setBlk v).mcuRows = s.mcuRows := rfl
@[simp] theorem State.setBlk_mcuTotal : (s.setBlk v).mcuTotal = s.mcuTotal := rfl
@[simp] theorem State.setBlk_mcuIdx : (s.setBlk v).mcuIdx = s.mcuIdx := rfl
@[simp] theorem State.setBlk_blkIdx : (s.setBlk v).blkIdx = s.blkIdx := rfl
@[simp] theorem State.setBlk_k : (s.setBlk v).k = s.k := rfl
@[simp] theorem State.setBlk_blk : (s.setBlk v).blk = v := rfl
@[simp] theorem State.setBlk_mcu : (s.setBlk v).mcu = s.mcu := rfl
@[simp] theorem State.setBlk_out : (s.setBlk v).out = s.out := rfl
@[simp] theorem State.setBlk_skiplog : (s.setBlk v).skiplog = s.skiplog := rfl
@[simp] theorem State.setBlk_stage : (s.setBlk v).stage = s.stage := rfl
@[simp] theorem State.setBlk_ret : (s.setBlk v).ret = s.ret := rfl
end setBlk

section setMcu
variable (v : List Block) (s : State)
@[simp] theorem State.setMcu_mem : (s.setMcu v).mem = s.mem := rfl
@[simp] theorem State.setMcu_len : (s.setMcu v).len = s.len := rfl
@[simp] theorem State.setMcu_mode : (s.setMcu v).mode = s.mode := rfl
@[simp] theorem State.setMcu_phase : (s.setMcu v).phase = s.phase := rfl
@[simp] theorem State.setMcu_fault : (s.setMcu v).fault = s.fault := rfl
@[simp] theorem State.setMcu_faultInfo : (s.setMcu v).faultInfo = s.faultInfo := rfl
@[simp] theorem State.setMcu_pos : (s.setMcu v).pos = s.pos := rfl
@[simp] theorem State.setMcu_bitOff : (s.setMcu v).bitOff = s.bitOff := rfl
@[simp] theorem State.setMcu_cur : (s.setMcu v).cur = s.cur := rfl
@[simp] theorem State.setMcu_acc : (s.setMcu v).acc = s.acc := rfl
@[simp] theorem State.setMcu_accLen : (s.setMcu v).accLen = s.accLen := rfl
@[simp] theorem State.setMcu_img : (s.setMcu v).img = s.img := rfl
@[simp] theorem State.setMcu_comp : (s.setMcu v).comp = s.comp := rfl
@[simp] theorem State.setMcu_qt : (s.setMcu v).qt = s.qt := rfl
@[simp] theorem State.setMcu_htDc : (s.setMcu v).htDc = s.htDc := rfl
@[simp] theorem State.setMcu_htAc : (s.setMcu v).htAc = s.htAc := rfl
@[simp] theorem State.setMcu_mstruct : (s.setMcu v).mstruct = s.mstruct := rfl
@[simp] theorem State.setMcu_mcuCols : (s.setMcu v).mcuCols = s.mcuCols := rfl
@[simp] theorem State.setMcu_mcuRows : (s.setMcu v).mcuRows = s.mcuRows := rfl
@[simp] theorem State.setMcu_mcuTotal : (s.setMcu v).mcuTotal = s.mcuTotal := rfl
@[simp] theorem State.setMcu_mcuIdx : (s.setMcu v).mcuIdx = s.mcuIdx := rfl
@[simp] theorem State.setMcu_blkIdx : (s.setMcu v).blkIdx = s.blkIdx := rfl
@[simp] theorem State.setMcu_k : (s.setMcu v).k = s.k := rfl
@[simp] theorem State.setMcu_blk : (s.setMcu v).blk = s.blk := rfl
@[simp] theorem State.setMcu_mcu : (s.setMcu v).mcu = v := rfl
@[simp] theorem State.setMcu_out : (s.setMcu v).out = s.out := rfl
@[simp] theorem State.setMcu_skiplog : (s.setMcu v).skiplog = s.skiplog := rfl
@[simp] theorem State.setMcu_stage : (s.setMcu v).stage = s.stage := rfl
@[simp] theorem State.setMcu_ret : (s.setMcu v).ret = s.ret := rfl
end setMcu

section setOut
variable (v : List (List Block)) (s : State)
@[simp] theorem State.setOut_mem : (s.setOut v).mem = s.mem := rfl
@[simp] theorem State.setOut_len : (s.setOut v).len = s.len := rfl
@[simp] theorem State.setOut_mode : (s.setOut v).mode = s.mode := rfl
@[simp] theorem State.setOut_phase : (s.setOut v).phase = s.phase := rfl
@[simp] theorem State.setOut_fault : (s.setOut v).fault = s.fault := rfl
@[simp] theorem State.setOut_faultInfo : (s.setOut v).faultInfo = s.faultInfo := rfl
@[simp] theorem State.setOut_pos : (s.setOut v).pos = s.pos := rfl
@[simp] theorem State.setOut_bitOff : (s.setOut v).bitOff = s.bitOff := rfl
@[simp] theorem State.setOut_cur : (s.setOut v).cur = s.cur := rfl
@[simp] theorem State.setOut_acc : (s.setOut v).acc = s.acc := rfl
@[simp] theorem State.setOut_accLen : (s.setOut v).accLen = s.accLen := rfl
@[simp] theorem State.setOut_img : (s.setOut v).img = s.img := rfl
@[simp] theorem State.setOut_comp : (s.setOut v).comp = s.comp := rfl
@[simp] theorem State.setOut_qt : (s.setOut v).qt = s.qt := rfl
@[simp] theorem State.setOut_htDc : (s.setOut v).htDc = s.htDc := rfl
@[simp] theorem State.setOut_htAc : (s.setOut v).htAc = s.htAc := rfl
@[simp] theorem State.setOut_mstruct : (s.setOut v).mstruct = s.mstruct := rfl
@[simp] theorem State.setOut_mcuCols : (s.setOut v).mcuCols = s.mcuCols := rfl
@[simp] theorem State.setOut_mcuRows : (s.setOut v).mcuRows = s.mcuRows := rfl
@[simp] theorem State.setOut_mcuTotal : (s.setOut v).mcuTotal = s.mcuTotal := rfl
@[simp] theorem State.setOut_mcuIdx : (s.setOut v).mcuIdx = s.mcuIdx := rfl
@[simp] theorem State.setOut_blkIdx : (s.setOut v).blkIdx = s.blkIdx := rfl
@[simp] theorem State.setOut_k : (s.setOut v).k = s.k := rfl
@[simp] theorem State.setOut_blk : (s.setOut v).blk = s.blk := rfl
@[simp] theorem State.setOut_mcu : (s.setOut v).mcu = s.mcu := rfl
@[simp] theorem State.setOut_out : (s.setOut v).out = v := rfl
@[simp] theorem State.setOut_skiplog : (s.setOut v).skiplog = s.skiplog := rfl
@[simp] theorem State.setOut_stage : (s.setOut v).stage = s.stage := rfl
@[simp] theorem State.setOut_ret : (s.setOut v).ret = s.ret := rfl
end setOut

section setSkiplog
variable (v : List (Byte × List Byte)) (s : State)
@[simp] theorem State.setSkiplog_mem : (s.setSkiplog v).mem = s.mem := rfl
@[simp] theorem State.setSkiplog_len : (s.setSkiplog v).len = s.len := rfl
@[simp] theorem State.setSkiplog_mode : (s.setSkiplog v).mode = s.mode := rfl
@[simp] theorem State.setSkiplog_phase : (s.setSkiplog v).phase = s.phase := rfl
@[simp] theorem State.setSkiplog_fault : (s.setSkiplog v).fault = s.fault := rfl
@[simp] theorem State.setSkiplog_faultInfo : (s.setSkiplog v).faultInfo = s.faultInfo := rfl
@[simp] theorem State.setSkiplog_pos : (s.setSkiplog v).pos = s.pos := rfl
@[simp] theorem State.setSkiplog_bitOff : (s.setSkiplog v).bitOff = s.bitOff := rfl
@[simp] theorem State.setSkiplog_cur : (s.setSkiplog v).cur = s.cur := rfl
@[simp] theorem State.setSkiplog_acc : (s.setSkiplog v).acc = s.acc := rfl
@[simp] theorem State.setSkiplog_accLen : (s.setSkiplog v).accLen = s.accLen := rfl
@[simp] theorem State.setSkiplog_img : (s.setSkiplog v).img = s.img := rfl
@[simp] theorem State.setSkiplog_comp : (s.setSkiplog v).comp = s.comp := rfl
@[simp] theorem State.setSkiplog_qt : (s.setSkiplog v).qt = s.qt := rfl
@[simp] theorem State.setSkiplog_htDc : (s.setSkiplog v).htDc = s.htDc := rfl
@[simp] theorem State.setSkiplog_htAc : (s.setSkiplog v).htAc = s.htAc := rfl
@[simp] theorem State.setSkiplog_mstruct : (s.setSkiplog v).mstruct = s.mstruct := rfl
@[simp] theorem State.setSkiplog_mcuCols : (s.setSkiplog v).mcuCols = s.mcuCols := rfl
@[simp] theorem State.setSkiplog_mcuRows : (s.setSkiplog v).mcuRows = s.mcuRows := rfl
@[simp] theorem State.setSkiplog_mcuTotal : (s.setSkiplog v).mcuTotal = s.mcuTotal := rfl
@[simp] theorem State.setSkiplog_mcuIdx : (s.setSkiplog v).mcuIdx = s.mcuIdx := rfl
@[simp] theorem State.setSkiplog_blkIdx : (s.setSkiplog v).blkIdx = s.blkIdx := rfl
@[simp] theorem State.setSkiplog_k : (s.setSkiplog v).k = s.k := rfl
@[simp] theorem State.setSkiplog_blk : (s.setSkiplog v).blk = s.blk := rfl
@[simp] theorem State.setSkiplog_mcu : (s.setSkiplog v).mcu = s.mcu := rfl
@[simp] theorem State.setSkiplog_out : (s.setSkiplog v).out = s.out := rfl
@[simp] theorem State.setSkiplog_skiplog : (s.setSkiplog v).skiplog = v := rfl
@[simp] theorem State.setSkiplog_stage : (s.setSkiplog v).stage = s.stage := rfl
@[simp] theorem State.setSkiplog_ret : (s.setSkiplog v).ret = s.ret := rfl
end setSkiplog

section setPhase
variable (v : Phase) (s : State)
@[simp] theorem State.setPhase_mem : (s.setPhase v).mem = s.mem := rfl
@[simp] theorem State.setPhase_len : (s.setPhase v).len = s.len := rfl
@[simp] theorem State.setPhase_mode : (s.setPhase v).mode = s.mode := rfl
@[simp] theorem State.setPhase_phase : (s.setPhase v).phase = v := rfl
@[simp] theorem State.setPhase_fault : (s.setPhase v).fault = s.fault := rfl
@[simp] theorem State.setPhase_faultInfo : (s.setPhase v).faultInfo = s.faultInfo := rfl
@[simp] theorem State.setPhase_pos : (s.setPhase v).pos = s.pos := rfl
@[simp] theorem State.setPhase_bitOff : (s.setPhase v).bitOff = s.bitOff := rfl
@[simp] theorem State.setPhase_cur : (s.setPhase v).cur = s.cur := rfl
@[simp] theorem State.setPhase_acc : (s.setPhase v).acc = s.acc := rfl
@[simp] theorem State.setPhase_accLen : (s.setPhase v).accLen = s.accLen := rfl
@[simp] theorem State.setPhase_img : (s.setPhase v).img = s.img := rfl
@[simp] theorem State.setPhase_comp : (s.setPhase v).comp = s.comp := rfl
@[simp] theorem State.setPhase_qt : (s.setPhase v).qt = s.qt := rfl
@[simp] theorem State.setPhase_htDc : (s.setPhase v).htDc = s.htDc := rfl
@[simp] theorem State.setPhase_htAc : (s.setPhase v).htAc = s.htAc := rfl
@[simp] theorem State.setPhase_mstruct : (s.setPhase v).mstruct = s.mstruct := rfl
@[simp] theorem State.setPhase_mcuCols : (s.setPhase v).mcuCols = s.mcuCols := rfl
@[simp] theorem State.setPhase_mcuRows : (s.setPhase v).mcuRows = s.mcuRows := rfl
@[simp] theorem State.setPhase_mcuTotal : (s.setPhase v).mcuTotal = s.mcuTotal := rfl
@[simp] theorem State.setPhase_mcuIdx : (s.setPhase v).mcuIdx = s.mcuIdx := rfl
@[simp] theorem State.setPhase_blkIdx : (s.setPhase v).blkIdx = s.blkIdx := rfl
@[simp] theorem State.setPhase_k : (s.setPhase v).k = s.k := rfl
@[simp] theorem State.setPhase_blk : (s.setPhase v).blk = s.blk := rfl
@[simp] theorem State.setPhase_mcu : (s.setPhase v).mcu = s.mcu := rfl
@[simp] theorem State.setPhase_out : (s.setPhase v).out = s.out := rfl
@[simp] theorem State.setPhase_skiplog : (s.setPhase v).skiplog = s.skiplog := rfl
@[simp] theorem State.setPhase_stage : (s.setPhase v).stage = s.stage := rfl
@[simp] theorem State.setPhase_ret : (s.setPhase v).ret = s.ret := rfl
end setPhase

section setStage
variable (v : Stage) (s : State)
@[simp] theorem State.setStage_mem : (s.setStage v).mem = s.mem := rfl
@[simp] theorem State.setStage_len : (s.setStage v).len = s.len := rfl
@[simp] theorem State.setStage_mode : (s.setStage v).mode = s.mode := rfl
@[simp] theorem State.setStage_phase : (s.setStage v).phase = s.phase := rfl
@[simp] theorem State.setStage_fault : (s.setStage v).fault = s.fault := rfl
@[simp] theorem State.setStage_faultInfo : (s.setStage v).faultInfo = s.faultInfo := rfl
@[simp] theorem State.setStage_pos : (s.setStage v).pos = s.pos := rfl
@[simp] theorem State.setStage_bitOff : (s.setStage v).bitOff = s.bitOff := rfl
@[simp] theorem State.setStage_cur : (s.setStage v).cur = s.cur := rfl
@[simp] theorem State.setStage_acc : (s.setStage v).acc = s.acc := rfl
@[simp] theorem State.setStage_accLen : (s.setStage v).accLen = s.accLen := rfl
@[simp] theorem State.setStage_img : (s.setStage v).img = s.img := rfl
@[simp] theorem State.setStage_comp : (s.setStage v).comp = s.comp := rfl
@[simp] theorem State.setStage_qt : (s.setStage v).qt = s.qt := rfl
@[simp] theorem State.setStage_htDc : (s.setStage v).htDc = s.htDc := rfl
@[simp] theorem State.setStage_htAc : (s.setStage v).htAc = s.htAc := rfl
@[simp] theorem State.setStage_mstruct : (s.setStage v).mstruct = s.mstruct := rfl
@[simp] theorem State.setStage_mcuCols : (s.setStage v).mcuCols = s.mcuCols := rfl
@[simp] theorem State.setStage_mcuRows : (s.setStage v).mcuRows = s.mcuRows := rfl
@[simp] theorem State.setStage_mcuTotal : (s.setStage v).mcuTotal = s.mcuTotal := rfl
@[simp] theorem State.setStage_mcuIdx : (s.setStage v).mcuIdx = s.mcuIdx := rfl
@[simp] theorem State.setStage_blkIdx : (s.setStage v).blkIdx = s.blkIdx := rfl
@[simp] theorem State.setStage_k : (s.setStage v).k = s.k := rfl
@[simp] theorem State.setStage_blk : (s.setStage v).blk = s.blk := rfl
@[simp] theorem State.setStage_mcu : (s.setStage v).mcu = s.mcu := rfl
@[simp] theorem State.setStage_out : (s.setStage v).out = s.out := rfl
@[simp] theorem State.setStage_skiplog : (s.setStage v).skiplog = s.skiplog := rfl
@[simp] theorem State.setStage_stage : (s.setStage v).stage = v := rfl
@[simp] theorem State.setStage_ret : (s.setStage v).ret = s.ret := rfl
end setStage

section setRet
variable (v : Ret) (s : State)
@[simp] theorem State.setRet_mem : (s.setRet v).mem = s.mem := rfl
@[simp] theorem State.setRet_len : (s.setRet v).len = s.len := rfl
@[simp] theorem State.setRet_mode : (s.setRet v).mode = s.mode := rfl
@[simp] theorem State.setRet_phase : (s.setRet v).phase = s.phase := rfl
@[simp] theorem State.setRet_fault : (s.setRet v).fault = s.fault := rfl
@[simp] theorem State.setRet_faultInfo : (s.setRet v).faultInfo = s.faultInfo := rfl
@[simp] theorem State.setRet_pos : (s.setRet v).pos = s.pos := rfl
@[simp] theorem State.setRet_bitOff : (s.setRet v).bitOff = s.bitOff := rfl
@[simp] theorem State.setRet_cur : (s.setRet v).cur = s.cur := rfl
@[simp] theorem State.setRet_acc : (s.setRet v).acc = s.acc := rfl
@[simp] theorem State.setRet_accLen : (s.setRet v).accLen = s.accLen := rfl
@[simp] theorem State.setRet_img : (s.setRet v).img = s.img := rfl
@[simp] theorem State.setRet_comp : (s.setRet v).comp = s.comp := rfl
@[simp] theorem State.setRet_qt : (s.setRet v).qt = s.qt := rfl
@[simp] theorem State.setRet_htDc : (s.setRet v).htDc = s.htDc := rfl
@[simp] theorem State.setRet_htAc : (s.setRet v).htAc = s.htAc := rfl
@[simp] theorem State.setRet_mstruct : (s.setRet v).mstruct = s.mstruct := rfl
@[simp] theorem State.setRet_mcuCols : (s.setRet v).mcuCols = s.mcuCols := rfl
@[simp] theorem State.setRet_mcuRows : (s.setRet v).mcuRows = s.mcuRows := rfl
@[simp] theorem State.setRet_mcuTotal : (s.setRet v).mcuTotal = s.mcuTotal := rfl
@[simp] theorem State.setRet_mcuIdx : (s.setRet v).mcuIdx = s.mcuIdx := rfl
@[simp] theorem State.setRet_blkIdx : (s.setRet v).blkIdx = s.blkIdx := rfl
@[simp] theorem State.setRet_k : (s.setRet v).k = s.k := rfl
@[simp] theorem State.setRet_blk : (s.setRet v).blk = s.blk := rfl
@[simp] theorem State.setRet_mcu : (s.setRet v).mcu = s.mcu := rfl
@[simp] theorem State.setRet_out : (s.setRet v).out = s.out := rfl
@[simp] theorem State.setRet_skiplog : (s.setRet v).skiplog = s.skiplog := rfl
@[simp] theorem State.setRet_stage : (s.setRet v).stage = s.stage := rfl
@[simp] theorem State.setRet_ret : (s.setRet v).ret = v := rfl
end setRet

section setFault
variable (c : BitVec 4) (i : Option FaultInfo) (s : State)
@[simp] theorem State.setFault_mem : (s.setFault c i).mem = s.mem := rfl
@[simp] theorem State.setFault_len : (s.setFault c i).len = s.len := rfl
@[simp] theorem State.setFault_mode : (s.setFault c i).mode = s.mode := rfl
@[simp] theorem State.setFault_phase : (s.setFault c i).phase = s.phase := rfl
@[simp] theorem State.setFault_fault : (s.setFault c i).fault = c := rfl
@[simp] theorem State.setFault_faultInfo : (s.setFault c i).faultInfo = i := rfl
@[simp] theorem State.setFault_pos : (s.setFault c i).pos = s.pos := rfl
@[simp] theorem State.setFault_bitOff : (s.setFault c i).bitOff = s.bitOff := rfl
@[simp] theorem State.setFault_cur : (s.setFault c i).cur = s.cur := rfl
@[simp] theorem State.setFault_acc : (s.setFault c i).acc = s.acc := rfl
@[simp] theorem State.setFault_accLen : (s.setFault c i).accLen = s.accLen := rfl
@[simp] theorem State.setFault_img : (s.setFault c i).img = s.img := rfl
@[simp] theorem State.setFault_comp : (s.setFault c i).comp = s.comp := rfl
@[simp] theorem State.setFault_qt : (s.setFault c i).qt = s.qt := rfl
@[simp] theorem State.setFault_htDc : (s.setFault c i).htDc = s.htDc := rfl
@[simp] theorem State.setFault_htAc : (s.setFault c i).htAc = s.htAc := rfl
@[simp] theorem State.setFault_mstruct : (s.setFault c i).mstruct = s.mstruct := rfl
@[simp] theorem State.setFault_mcuCols : (s.setFault c i).mcuCols = s.mcuCols := rfl
@[simp] theorem State.setFault_mcuRows : (s.setFault c i).mcuRows = s.mcuRows := rfl
@[simp] theorem State.setFault_mcuTotal : (s.setFault c i).mcuTotal = s.mcuTotal := rfl
@[simp] theorem State.setFault_mcuIdx : (s.setFault c i).mcuIdx = s.mcuIdx := rfl
@[simp] theorem State.setFault_blkIdx : (s.setFault c i).blkIdx = s.blkIdx := rfl
@[simp] theorem State.setFault_k : (s.setFault c i).k = s.k := rfl
@[simp] theorem State.setFault_blk : (s.setFault c i).blk = s.blk := rfl
@[simp] theorem State.setFault_mcu : (s.setFault c i).mcu = s.mcu := rfl
@[simp] theorem State.setFault_out : (s.setFault c i).out = s.out := rfl
@[simp] theorem State.setFault_skiplog : (s.setFault c i).skiplog = s.skiplog := rfl
@[simp] theorem State.setFault_stage : (s.setFault c i).stage = s.stage := rfl
@[simp] theorem State.setFault_ret : (s.setFault c i).ret = s.ret := rfl
end setFault

section raise
variable (f : FaultInfo) (s : State)
@[simp] theorem State.raise_mem : (s.raise f).mem = s.mem := rfl
@[simp] theorem State.raise_len : (s.raise f).len = s.len := rfl
@[simp] theorem State.raise_mode : (s.raise f).mode = s.mode := rfl
@[simp] theorem State.raise_phase : (s.raise f).phase = .fault := rfl
@[simp] theorem State.raise_fault : (s.raise f).fault = f.code := rfl
@[simp] theorem State.raise_faultInfo : (s.raise f).faultInfo = some f := rfl
@[simp] theorem State.raise_pos : (s.raise f).pos = s.pos := rfl
@[simp] theorem State.raise_bitOff : (s.raise f).bitOff = s.bitOff := rfl
@[simp] theorem State.raise_cur : (s.raise f).cur = s.cur := rfl
@[simp] theorem State.raise_acc : (s.raise f).acc = s.acc := rfl
@[simp] theorem State.raise_accLen : (s.raise f).accLen = s.accLen := rfl
@[simp] theorem State.raise_img : (s.raise f).img = s.img := rfl
@[simp] theorem State.raise_comp : (s.raise f).comp = s.comp := rfl
@[simp] theorem State.raise_qt : (s.raise f).qt = s.qt := rfl
@[simp] theorem State.raise_htDc : (s.raise f).htDc = s.htDc := rfl
@[simp] theorem State.raise_htAc : (s.raise f).htAc = s.htAc := rfl
@[simp] theorem State.raise_mstruct : (s.raise f).mstruct = s.mstruct := rfl
@[simp] theorem State.raise_mcuCols : (s.raise f).mcuCols = s.mcuCols := rfl
@[simp] theorem State.raise_mcuRows : (s.raise f).mcuRows = s.mcuRows := rfl
@[simp] theorem State.raise_mcuTotal : (s.raise f).mcuTotal = s.mcuTotal := rfl
@[simp] theorem State.raise_mcuIdx : (s.raise f).mcuIdx = s.mcuIdx := rfl
@[simp] theorem State.raise_blkIdx : (s.raise f).blkIdx = s.blkIdx := rfl
@[simp] theorem State.raise_k : (s.raise f).k = s.k := rfl
@[simp] theorem State.raise_blk : (s.raise f).blk = s.blk := rfl
@[simp] theorem State.raise_mcu : (s.raise f).mcu = s.mcu := rfl
@[simp] theorem State.raise_out : (s.raise f).out = s.out := rfl
@[simp] theorem State.raise_skiplog : (s.raise f).skiplog = s.skiplog := rfl
@[simp] theorem State.raise_stage : (s.raise f).stage = s.stage := rfl
@[simp] theorem State.raise_ret : (s.raise f).ret = s.ret := rfl
end raise

end Sys2Proof.Machine
end

