-- ==== Sys2Proof/Laws/Memory.lean ====
section
/-! SUPPORT. The laws of the canonical lists and of memory: a read after a write, and that every operation keeps the
canonical form. -/

namespace Sys2Proof.Machine

section slots
variable {α : Type}

@[simp] theorem Slots.get_nil (k : Nat) : Slots.get k ([] : List (Nat × α)) = none := rfl

theorem Slots.get_put_same (k : Nat) (v : α) (m : List (Nat × α)) : Slots.get k (Slots.put k v m) = some v := by
  induction m with
  | nil => simp [Slots.put, Slots.get]
  | cons e rest ih =>
    obtain ⟨k', v'⟩ := e
    simp only [Slots.put]
    split
    · simp [Slots.get]
    · split
      · simp [Slots.get]
      · rename_i h; simp [Slots.get, h, ih]

theorem Slots.get_put_other {k j : Nat} (h : j ≠ k) (v : α) (m : List (Nat × α)) :
    Slots.get j (Slots.put k v m) = Slots.get j m := by
  induction m with
  | nil => simp [Slots.put, Slots.get, Ne.symm h]
  | cons e rest ih =>
    obtain ⟨k', v'⟩ := e
    simp only [Slots.put]
    split
    · simp [Slots.get, Ne.symm h]
    · split
      · rename_i h2; subst h2; simp [Slots.get, Ne.symm h]
      · simp [Slots.get, ih]

theorem Slots.get_put (k j : Nat) (v : α) (m : List (Nat × α)) :
    Slots.get j (Slots.put k v m) = if j = k then some v else Slots.get j m := by
  split
  · rename_i h; subst h; exact Slots.get_put_same ..
  · rename_i h; exact Slots.get_put_other h ..

theorem Slots.get_del (k j : Nat) (m : List (Nat × α)) :
    Slots.get j (Slots.del k m) = if j = k then none else Slots.get j m := by
  induction m with
  | nil => simp [Slots.del]
  | cons e rest ih =>
    obtain ⟨k', v'⟩ := e
    simp only [Slots.del]
    split
    · rename_i h; subst h; rw [ih]; split
      · rfl
      · rename_i h2; simp [Slots.get, Ne.symm h2]
    · rename_i h
      simp only [Slots.get, ih]
      split
      · rename_i h2; subst h2; simp [h]
      · rfl

/-- What is listed after storing under a key: the new entry, or an entry listed before. -/
theorem Slots.mem_put {k : Nat} {v : α} {m : List (Nat × α)} {e : Nat × α} (h : e ∈ Slots.put k v m) :
    e = (k, v) ∨ e ∈ m := by
  induction m with
  | nil => simpa [Slots.put] using h
  | cons a rest ih =>
    obtain ⟨k', v'⟩ := a
    simp only [Slots.put] at h
    split at h
    · simpa using h
    · split at h
      · rcases List.mem_cons.1 h with h | h
        · exact .inl h
        · exact .inr (List.mem_cons_of_mem _ h)
      · rcases List.mem_cons.1 h with h | h
        · exact .inr (h ▸ List.mem_cons_self ..)
        · rcases ih h with h | h
          · exact .inl h
          · exact .inr (List.mem_cons_of_mem _ h)

theorem Slots.mem_del {k : Nat} {m : List (Nat × α)} {e : Nat × α} (h : e ∈ Slots.del k m) : e ∈ m := by
  induction m with
  | nil => exact h
  | cons a rest ih =>
    obtain ⟨k', v'⟩ := a
    simp only [Slots.del] at h
    split at h
    · exact List.mem_cons_of_mem _ (ih h)
    · rcases List.mem_cons.1 h with h | h
      · exact h ▸ List.mem_cons_self ..
      · exact List.mem_cons_of_mem _ (ih h)

/-- An entry that is found is listed. -/
theorem Slots.get_mem {k : Nat} {v : α} {m : List (Nat × α)} (h : Slots.get k m = some v) : (k, v) ∈ m := by
  induction m with
  | nil => simp at h
  | cons a rest ih =>
    obtain ⟨k', v'⟩ := a
    simp only [Slots.get] at h
    split at h
    · rename_i hk; subst hk; simp at h; subst h; exact List.mem_cons_self ..
    · exact List.mem_cons_of_mem _ (ih h)

theorem Slots.sortedFrom_mono {lo lo' : Nat} {m : List (Nat × α)} (hle : lo' ≤ lo)
    (h : Slots.sortedFrom lo m = true) : Slots.sortedFrom lo' m = true := by
  cases m with
  | nil => rfl
  | cons a rest =>
    obtain ⟨k, v⟩ := a
    simp only [Slots.sortedFrom, Bool.and_eq_true, decide_eq_true_eq] at h ⊢
    exact ⟨by omega, h.2⟩

theorem Slots.sortedFrom_put {lo k : Nat} {m : List (Nat × α)} (v : α) (hk : lo ≤ k)
    (h : Slots.sortedFrom lo m = true) : Slots.sortedFrom lo (Slots.put k v m) = true := by
  induction m generalizing lo with
  | nil => simp [Slots.put, Slots.sortedFrom, hk]
  | cons a rest ih =>
    obtain ⟨k', v'⟩ := a
    simp only [Slots.sortedFrom, Bool.and_eq_true, decide_eq_true_eq] at h
    simp only [Slots.put]
    split
    · rename_i hlt
      simp only [Slots.sortedFrom, Bool.and_eq_true, decide_eq_true_eq]
      exact ⟨hk, by omega, h.2⟩
    · split
      · rename_i hkk; subst hkk
        simp only [Slots.sortedFrom, Bool.and_eq_true, decide_eq_true_eq]
        exact ⟨hk, h.2⟩
      · simp only [Slots.sortedFrom, Bool.and_eq_true, decide_eq_true_eq]
        exact ⟨h.1, ih (by omega) h.2⟩

theorem Slots.sorted_put (k : Nat) (v : α) {m : List (Nat × α)} (h : Slots.sorted m = true) :
    Slots.sorted (Slots.put k v m) = true := Slots.sortedFrom_put v (Nat.zero_le _) h

theorem Slots.sortedFrom_del {lo k : Nat} {m : List (Nat × α)} (h : Slots.sortedFrom lo m = true) :
    Slots.sortedFrom lo (Slots.del k m) = true := by
  induction m generalizing lo with
  | nil => rfl
  | cons a rest ih =>
    obtain ⟨k', v'⟩ := a
    simp only [Slots.sortedFrom, Bool.and_eq_true, decide_eq_true_eq] at h
    simp only [Slots.del]
    split
    · exact ih (Slots.sortedFrom_mono (by omega) h.2)
    · simp only [Slots.sortedFrom, Bool.and_eq_true, decide_eq_true_eq]
      exact ⟨h.1, ih h.2⟩

theorem Slots.sorted_del (k : Nat) {m : List (Nat × α)} (h : Slots.sorted m = true) :
    Slots.sorted (Slots.del k m) = true := Slots.sortedFrom_del h

end slots

/-! ## Memory -/

theorem Memory.read_write_same (m : Memory) (a : Nat) (b : Byte) : Memory.read (Memory.write m a b) a = b := by
  unfold Memory.read Memory.write
  split
  · rename_i h; simp [Slots.get_del, h]
  · simp [Slots.get_put_same]

theorem Memory.read_write_other {m : Memory} {a c : Nat} (b : Byte) (h : c ≠ a) :
    Memory.read (Memory.write m a b) c = Memory.read m c := by
  unfold Memory.read Memory.write
  split
  · simp [Slots.get_del, h]
  · simp [Slots.get_put_other h]

/-- A write keeps the canonical form. -/
theorem Memory.wf_write {m : Memory} (a : Nat) (b : Byte) (h : Memory.wf m = true) :
    Memory.wf (Memory.write m a b) = true := by
  simp only [Memory.wf, Bool.and_eq_true, List.all_eq_true, bne_iff_ne, ne_eq] at h ⊢
  unfold Memory.write
  split
  · exact ⟨Slots.sorted_del _ h.1, fun c hc => h.2 c (Slots.mem_del hc)⟩
  · rename_i hb
    refine ⟨Slots.sorted_put _ _ h.1, fun c hc => ?_⟩
    rcases Slots.mem_put hc with rfl | hc
    · exact hb
    · exact h.2 c hc

/-- Loading bytes keeps the canonical form. -/
theorem Memory.wf_load {m : Memory} (a : Nat) (bs : List Byte) (h : Memory.wf m = true) :
    Memory.wf (Memory.load m a bs) = true := by
  induction bs generalizing m a with
  | nil => exact h
  | cons b rest ih => exact ih _ (Memory.wf_write a b h)

theorem State.reset_mem_wf : Memory.wf State.reset.mem = true := rfl

/-- What is listed after a load lies below the end of the loaded bytes, or was listed before. -/
theorem Memory.load_below {m : Memory} {a n : Nat} (bs : List Byte) (hm : ∀ c ∈ m, c.1 < n)
    (hn : a + bs.length ≤ n) : ∀ c ∈ Memory.load m a bs, c.1 < n := by
  induction bs generalizing m a with
  | nil => exact hm
  | cons b rest ih =>
    simp only [List.length_cons] at hn
    refine ih (fun c hc => ?_) (by omega)
    unfold Memory.write at hc
    split at hc
    · exact hm c (Slots.mem_del hc)
    · rcases Slots.mem_put hc with rfl | hc
      · simp only; omega
      · exact hm c hc

theorem Memory.read_load_other {m : Memory} {a c : Nat} (bs : List Byte) (h : c < a ∨ a + bs.length ≤ c) :
    Memory.read (Memory.load m a bs) c = Memory.read m c := by
  induction bs generalizing m a with
  | nil => rfl
  | cons b rest ih =>
    simp only [List.length_cons] at h
    rw [Memory.load, ih (by omega), Memory.read_write_other _ (by omega)]

/-- A loaded byte reads back. -/
theorem Memory.read_load {m : Memory} {a i : Nat} {bs : List Byte} (h : i < bs.length) :
    Memory.read (Memory.load m a bs) (a + i) = bs[i] := by
  induction bs generalizing m a i with
  | nil => simp at h
  | cons b rest ih =>
    cases i with
    | zero => rw [Memory.load, Memory.read_load_other _ (by omega)]; simp [Memory.read_write_same]
    | succ i =>
      have := ih (m := Memory.write m a b) (a := a + 1) (i := i) (by simpa using h)
      rw [Memory.load, show a + (i + 1) = a + 1 + i by omega, this]; rfl

@[simp] theorem Memory.slice_length (m : Memory) (a n : Nat) : (Memory.slice m a n).length = n := by
  induction n generalizing a with
  | zero => rfl
  | succ n ih => simp [Memory.slice, ih]

theorem Memory.slice_get {m : Memory} {a n i : Nat} (h : i < n) :
    (Memory.slice m a n)[i]? = some (Memory.read m (a + i)) := by
  induction n generalizing a i with
  | zero => omega
  | succ n ih =>
    cases i with
    | zero => simp [Memory.slice]
    | succ i => simp [Memory.slice, ih (show i < n by omega), show a + 1 + i = a + (i + 1) by omega]

theorem Memory.slice_append (m : Memory) (a n k : Nat) :
    Memory.slice m a (n + k) = Memory.slice m a n ++ Memory.slice m (a + n) k := by
  induction n generalizing a with
  | zero => simp [Memory.slice]
  | succ n ih =>
    rw [show n + 1 + k = (n + k) + 1 by omega]
    simp [Memory.slice, ih, show a + 1 + n = a + (n + 1) by omega]

/-- A stream that was loaded holds its bytes. -/
theorem Memory.slice_load (m : Memory) (a : Nat) (bs : List Byte) :
    Memory.slice (Memory.load m a bs) a bs.length = bs := by
  apply List.ext_getElem?
  intro i
  by_cases h : i < bs.length
  · rw [Memory.slice_get h, Memory.read_load h, List.getElem?_eq_getElem h]
  · rw [List.getElem?_eq_none (by simp; omega), List.getElem?_eq_none (by omega)]

end Sys2Proof.Machine
end

