-- ==== Sys2Proof/Laws/Res.lean ====
section
/-! SUPPORT. What sequencing does, in lemmas no later proof unfolds: a procedure is followed through its values
(`Res.bind_ok`), or held to a pair of postconditions (`Res.Ends`), one for its value and one for a raised fault. -/

namespace Sys2Proof.Machine

variable {α β γ : Type}

@[simp] theorem Res.bind_ok (a : α) (s : State) (k : α → State → Res β) : (Res.ok a s).bind k = k a s := rfl
@[simp] theorem Res.bind_raised (s : State) (k : α → State → Res β) : (Res.raised s).bind k = .raised s := rfl
@[simp] theorem Res.bind_stop (f : Fault) (k : α → State → Res β) : (Res.stop f).bind k = .stop f := rfl
@[simp] theorem Res.outcome_ok (a : α) (s : State) : (Res.ok a s).outcome = .next s := rfl
@[simp] theorem Res.outcome_raised (s : State) : (Res.raised s : Res α).outcome = .next s := rfl
@[simp] theorem Res.outcome_stop (f : Fault) : (Res.stop f : Res α).outcome = .fault f := rfl
@[simp] theorem Res.outcomeRet_ok (a : α) (s : State) (f : α → Ret) :
    (Res.ok a s).outcomeRet f = .next (s.setRet (f a)) := rfl
@[simp] theorem Res.outcomeRet_raised (s : State) (f : α → Ret) : (Res.raised s).outcomeRet f = .next s := rfl
@[simp] theorem Res.outcomeRet_stop (g : Fault) (f : α → Ret) : (Res.stop g).outcomeRet f = .fault g := rfl

theorem Res.bind_assoc (r : Res α) (k : α → State → Res β) (l : β → State → Res γ) :
    (r.bind k).bind l = r.bind fun a s => (k a s).bind l := by
  cases r <;> rfl

theorem fail_eq (f : FaultInfo) (s : State) : (fail f s : Res α) = .raised (s.raise f) := rfl

/-! ## Postconditions -/

/-- The procedure does not stop; its value and state satisfy `P`, or it has raised a fault and the state satisfies
`Q`. -/
def Res.Ends (P : α → State → Prop) (Q : State → Prop) (r : Res α) : Prop :=
  match r with
  | .ok a s => P a s
  | .raised s => Q s
  | .stop _ => False

@[simp] theorem Res.ends_ok {P : α → State → Prop} {Q : State → Prop} {a : α} {s : State} :
    (Res.ok a s).Ends P Q ↔ P a s := Iff.rfl
@[simp] theorem Res.ends_raised {P : α → State → Prop} {Q : State → Prop} {s : State} :
    (Res.raised s : Res α).Ends P Q ↔ Q s := Iff.rfl
@[simp] theorem Res.ends_stop {P : α → State → Prop} {Q : State → Prop} {f : Fault} :
    (Res.stop f : Res α).Ends P Q ↔ False := Iff.rfl
@[simp] theorem Res.ends_fail {P : α → State → Prop} {Q : State → Prop} {f : FaultInfo} {s : State} :
    (fail f s : Res α).Ends P Q ↔ Q (s.raise f) := Iff.rfl

theorem Res.Ends.imp {P P' : α → State → Prop} {Q Q' : State → Prop} {r : Res α} (h : r.Ends P Q)
    (hP : ∀ a s, P a s → P' a s) (hQ : ∀ s, Q s → Q' s) : r.Ends P' Q' := by
  cases r with
  | ok a s => exact hP a s h
  | raised s => exact hQ s h
  | stop f => exact h

theorem Res.Ends.bind {P : α → State → Prop} {P' : β → State → Prop} {Q : State → Prop} {r : Res α}
    {k : α → State → Res β} (h : r.Ends P Q) (hk : ∀ a s, P a s → (k a s).Ends P' Q) : (r.bind k).Ends P' Q := by
  cases r with
  | ok a s => exact hk a s h
  | raised s => exact h
  | stop f => exact h.elim

theorem Res.Ends.and {P P' : α → State → Prop} {Q Q' : State → Prop} {r : Res α} (h : r.Ends P Q)
    (h' : r.Ends P' Q') : r.Ends (fun a s => P a s ∧ P' a s) fun s => Q s ∧ Q' s := by
  cases r with
  | ok a s => exact ⟨h, h'⟩
  | raised s => exact ⟨h, h'⟩
  | stop f => exact h

/-- An operation that ends answers a next state. -/
theorem Res.Ends.outcome {P : α → State → Prop} {Q : State → Prop} {r : Res α} (h : r.Ends P Q) :
    ∃ t, r.outcome = .next t ∧ ((∃ a, r = .ok a t ∧ P a t) ∨ (r = .raised t ∧ Q t)) := by
  cases r with
  | ok a s => exact ⟨s, rfl, .inl ⟨a, rfl, h⟩⟩
  | raised s => exact ⟨s, rfl, .inr ⟨rfl, h⟩⟩
  | stop f => exact h.elim

/-- What an operation's next state satisfies. -/
theorem Res.Ends.next {P : α → State → Prop} {Q : State → Prop} {r : Res α} (h : r.Ends P Q) {t : State}
    (e : r.outcome = .next t) : (∃ a, P a t) ∨ Q t := by
  cases r with
  | ok a s => cases e; exact .inl ⟨a, h⟩
  | raised s => cases e; exact .inr h
  | stop f => exact h.elim

/-- What the next state of an operation that returns a value satisfies. -/
theorem Res.Ends.nextRet {P : α → State → Prop} {Q : State → Prop} {r : Res α} (h : r.Ends P Q) {f : α → Ret}
    {t : State} (e : r.outcomeRet f = .next t) : (∃ a s, P a s ∧ t = s.setRet (f a)) ∨ Q t := by
  cases r with
  | ok a s => cases e; exact .inl ⟨a, s, h, rfl⟩
  | raised s => cases e; exact .inr h
  | stop f => exact h.elim

theorem Res.outcome_next {r : Res α} {t : State} (e : r.outcome = .next t) : (∃ a, r = .ok a t) ∨ r = .raised t := by
  cases r with
  | ok a s => cases e; exact .inl ⟨a, rfl⟩
  | raised s => cases e; exact .inr rfl
  | stop f => exact nomatch e

/-! ## Bytes of the stream under updates -/

@[simp] theorem State.raise_byteAt (s : State) (f : FaultInfo) (a : Nat) : (s.raise f).byteAt a = s.byteAt a := rfl
@[simp] theorem State.byteAt_setPos (s : State) (p a : Nat) : (s.setPos p).byteAt a = s.byteAt a := rfl
@[simp] theorem State.bytesFrom_setPos (s : State) (p a n : Nat) : (s.setPos p).bytesFrom a n = s.bytesFrom a n := rfl
@[simp] theorem State.setPos_setPos (s : State) (p q : Nat) : (s.setPos p).setPos q = s.setPos q := rfl
@[simp] theorem State.setPos_self (s : State) : s.setPos s.pos = s := rfl

/-! ## The read primitives (R61 to R65) -/

theorem rd8_ok {s : State} (h : s.pos < s.len) : rd8 s = .ok (s.byteAt s.pos) (s.setPos (s.pos + 1)) := by
  simp [rd8, h]

theorem rd8_end {s : State} (h : s.len ≤ s.pos) : rd8 s = .raised (s.raise (.unexpectedEndOfStream s.pos)) := by
  simp [rd8, h, fail]

theorem rd16_ok {s : State} (h : s.pos + 2 ≤ s.len) :
    rd16 s = .ok (be16 (s.byteAt s.pos) (s.byteAt (s.pos + 1))) (s.setPos (s.pos + 2)) := by
  have h0 : s.pos < s.len := by omega
  have h1 : (s.setPos (s.pos + 1)).pos < (s.setPos (s.pos + 1)).len := by simp; omega
  simp [rd16, rd8_ok h0, rd8_ok h1]

/-- `Rd16` on a stream that ends inside its two bytes. -/
theorem rd16_end {s : State} (h : s.pos ≤ s.len) (h2 : s.len < s.pos + 2) :
    rd16 s = .raised ((s.setPos s.len).raise (.unexpectedEndOfStream s.len)) := by
  rcases (by omega : s.pos = s.len ∨ s.pos + 1 = s.len) with e | e
  · simp [rd16, rd8_end (s := s) (by omega), ← e]
  · have h1 : (s.setPos (s.pos + 1)).len ≤ (s.setPos (s.pos + 1)).pos := by simp; omega
    rw [rd16, rd8_ok (by omega), Res.bind_ok, rd8_end h1]
    simp [e]

/-- `Rd16` past the end of the stream. -/
theorem rd16_past {s : State} (h : s.len ≤ s.pos) : rd16 s = .raised (s.raise (.unexpectedEndOfStream s.pos)) := by
  simp [rd16, rd8_end h]

theorem be16_toNat (hi lo : Byte) : (be16 hi lo).toNat = 256 * hi.toNat + lo.toNat := by
  have h := lo.isLt
  simp only [be16, BitVec.toNat_append]
  rw [← Nat.shiftLeft_add_eq_or_of_lt h, Nat.shiftLeft_eq]
  omega

/-- A 16-bit number is read back from its two bytes. -/
theorem be16_halves (h : Half) : be16 (hiByte h) (loByte h) = h := by
  apply BitVec.eq_of_toNat_eq
  have := h.isLt
  rw [be16_toNat]
  simp only [hiByte, loByte, BitVec.extractLsb'_toNat, Nat.shiftRight_eq_div_pow]
  omega

theorem bytesFrom_length (s : State) (p n : Nat) : (s.bytesFrom p n).length = n := Memory.slice_length ..

theorem bytesFrom_get (s : State) (p : Nat) {n i : Nat} (h : i < n) :
    (s.bytesFrom p n)[i]? = some (s.byteAt (p + i)) := Memory.slice_get h

theorem bytesFrom_getD (s : State) (p : Nat) {n i : Nat} (h : i < n) :
    (s.bytesFrom p n).getD i 0 = s.byteAt (p + i) := by
  rw [List.getD_eq_getElem?_getD, bytesFrom_get s p h]
  rfl

theorem consume_ok {s : State} {n : Nat} (h : s.pos + n ≤ s.len) :
    consume n s = .ok (s.bytesFrom s.pos n) (s.setPos (s.pos + n)) := by
  simp [consume, Nat.not_lt.mpr h]

theorem consume_end {s : State} {n : Nat} (h : s.len < s.pos + n) :
    consume n s = .raised (s.raise (.unexpectedEndOfStream s.len)) := by
  simp [consume, h, fail]

theorem rdBytes_ok {s : State} {n : Nat} (h : s.pos + n ≤ s.len) :
    rdBytes n s = .ok (s.bytesFrom s.pos n) (s.setPos (s.pos + n)) := by
  induction n generalizing s with
  | zero => rfl
  | succ n ih =>
    have h1 : (s.setPos (s.pos + 1)).pos + n ≤ (s.setPos (s.pos + 1)).len := by simp; omega
    have e : s.pos + 1 + n = s.pos + (n + 1) := by omega
    simp [rdBytes, rd8_ok (s := s) (by omega), ih h1, e]
    rfl

/-! The same with the cursor set to an address: a procedure is followed by rewriting with these. -/

theorem rd8_at {s : State} {p : Nat} (h : p + 1 ≤ s.len) :
    rd8 (s.setPos p) = .ok (s.byteAt p) (s.setPos (p + 1)) := rd8_ok (s := s.setPos p) h

theorem rd16_at {s : State} {p : Nat} (h : p + 2 ≤ s.len) :
    rd16 (s.setPos p) = .ok (be16 (s.byteAt p) (s.byteAt (p + 1))) (s.setPos (p + 2)) := rd16_ok (s := s.setPos p) h

theorem consume_at {s : State} {p n : Nat} (h : p + n ≤ s.len) :
    consume n (s.setPos p) = .ok (s.bytesFrom p n) (s.setPos (p + n)) := consume_ok h

theorem consume_at_end {s : State} {p n : Nat} (h : s.len < p + n) :
    consume n (s.setPos p) = .raised ((s.setPos p).raise (.unexpectedEndOfStream s.len)) := consume_end h

theorem rdBytes_at {s : State} {p n : Nat} (h : p + n ≤ s.len) :
    rdBytes n (s.setPos p) = .ok (s.bytesFrom p n) (s.setPos (p + n)) := rdBytes_ok (s := s.setPos p) h

theorem rdBytes_end {s : State} {n : Nat} (h : s.pos ≤ s.len) (hn : s.len < s.pos + n) :
    rdBytes n s = .raised ((s.setPos s.len).raise (.unexpectedEndOfStream s.len)) := by
  induction n generalizing s with
  | zero => omega
  | succ n ih =>
    rcases Nat.lt_or_ge s.pos s.len with hp | hp
    · have h1 : (s.setPos (s.pos + 1)).pos ≤ (s.setPos (s.pos + 1)).len := by simp; omega
      have h2 : (s.setPos (s.pos + 1)).len < (s.setPos (s.pos + 1)).pos + n := by simp; omega
      simp [rdBytes, rd8_ok hp, ih h1 h2]
    · have e : s.pos = s.len := by omega
      simp [rdBytes, rd8_end hp, ← e]

end Sys2Proof.Machine
end

