-- ==== Sys2Proof/Laws/Reader.lean ====
section
/-! SUPPORT. One lemma per operation of the bit reader that says everything it can do: how it ends and what it leaves
unchanged (`…_ends`), and what it answers on the bits the stream delivers (`…_bits`). -/

namespace Sys2Proof.Machine

/-! ## What a fault of the scan phase is (R220) -/

/-- The faults reading entropy bits can raise. -/
def FaultInfo.ofBits : FaultInfo → Bool
  | .unexpectedEndOfStream _ | .invalidByteStuffing _ _ => true
  | _ => false

/-- The faults decoding a block can raise. -/
def FaultInfo.ofBlock : FaultInfo → Bool
  | .unexpectedEndOfStream _ | .invalidByteStuffing _ _ | .huffmanDecodeOverflow _ _ | .categoryOutOfRange _ _
  | .blockOverrun _ _ => true
  | _ => false

theorem FaultInfo.ofBits_ofBlock {f : FaultInfo} (h : f.ofBits = true) : f.ofBlock = true := by
  cases f <;> simp_all [FaultInfo.ofBits, FaultInfo.ofBlock]

/-! ## Frames -/

/-- The cursor did not move back, and stayed in the stream if it was there. -/
def State.Forward (s t : State) : Prop := s.pos ≤ t.pos ∧ (s.pos ≤ s.len → t.pos ≤ s.len)

/-- From `s` to `t` only the bit reader moved. -/
structure State.Read (s t : State) : Prop where
  forward : s.Forward t
  frame : t = { s with pos := t.pos, bitOff := t.bitOff, cur := t.cur }

/-- From `s` to `t` only the bit reader and the code accumulator moved. -/
structure State.ReadAcc (s t : State) : Prop where
  forward : s.Forward t
  frame : t = { s with pos := t.pos, bitOff := t.bitOff, cur := t.cur, acc := t.acc, accLen := t.accLen }

theorem State.Forward.refl (s : State) : s.Forward s := ⟨Nat.le_refl _, id⟩
theorem State.Read.refl (s : State) : s.Read s := ⟨.refl s, rfl⟩
theorem State.ReadAcc.refl (s : State) : s.ReadAcc s := ⟨.refl s, rfl⟩

theorem State.Forward.trans {s t u : State} (h : s.Forward t) (hl : t.len = s.len) (h' : t.Forward u) :
    s.Forward u :=
  ⟨Nat.le_trans h.1 h'.1, fun hs => hl ▸ h'.2 (hl ▸ h.2 hs)⟩

theorem State.Read.len {s t : State} (h : s.Read t) : t.len = s.len := by rw [h.frame]
theorem State.Read.byteAt {s t : State} (h : s.Read t) (a : Nat) : t.byteAt a = s.byteAt a := by
  rw [h.frame]; rfl
theorem State.Read.mode {s t : State} (h : s.Read t) : t.mode = s.mode := by rw [h.frame]
theorem State.ReadAcc.len {s t : State} (h : s.ReadAcc t) : t.len = s.len := by rw [h.frame]
theorem State.ReadAcc.byteAt {s t : State} (h : s.ReadAcc t) (a : Nat) : t.byteAt a = s.byteAt a := by
  rw [h.frame]; rfl
theorem State.ReadAcc.mode {s t : State} (h : s.ReadAcc t) : t.mode = s.mode := by rw [h.frame]

theorem State.Read.trans {s t u : State} (h : s.Read t) (h' : t.Read u) : s.Read u :=
  ⟨h.forward.trans h.len h'.forward, by rw [h'.frame, h.frame]⟩

theorem State.ReadAcc.trans {s t u : State} (h : s.ReadAcc t) (h' : t.ReadAcc u) : s.ReadAcc u :=
  ⟨h.forward.trans h.len h'.forward, by rw [h'.frame, h.frame]⟩

theorem State.Read.acc {s t : State} (h : s.Read t) : s.ReadAcc t := ⟨h.forward, by rw [h.frame]⟩

theorem State.readAcc_setAcc (s : State) (v : BitVec 16) (l : BitVec 5) : s.ReadAcc (s.setAcc v l) :=
  ⟨.refl s, rfl⟩

/-- A fault `f` with `p f` was raised in a state that `R` leads to from `s`. -/
def Raised (R : State → State → Prop) (p : FaultInfo → Bool) (s t : State) : Prop :=
  ∃ u f, R s u ∧ p f = true ∧ t = u.raise f

theorem Raised.imp {R R' : State → State → Prop} {p p' : FaultInfo → Bool} {s s' t : State} (h : Raised R p s t)
    (hR : ∀ u, R s u → R' s' u) (hp : ∀ f, p f = true → p' f = true) : Raised R' p' s' t :=
  let ⟨u, f, h1, h2, h3⟩ := h
  ⟨u, f, hR u h1, hp f h2, h3⟩

theorem State.read_setPos {s : State} {n : Nat} (h : s.pos ≤ n) (h' : s.pos ≤ s.len → n ≤ s.len) :
    s.Read (s.setPos n) := ⟨⟨h, h'⟩, rfl⟩

/-! ## How the reader's operations end -/

theorem rd8_ends (s : State) :
    (rd8 s).Ends (fun b t => b = s.byteAt s.pos ∧ s.pos < s.len ∧ t = s.setPos (s.pos + 1))
      fun t => t = s.raise (.unexpectedEndOfStream s.pos) ∧ s.len ≤ s.pos := by
  rcases Nat.lt_or_ge s.pos s.len with h | h
  · simp [rd8_ok h, h]
  · simp [rd8_end h, h]

theorem fetchByte_ends (s : State) :
    (fetchByte s).Ends (fun _ t => s.Read t ∧ t.bitOff = s.bitOff) (Raised State.Read FaultInfo.ofBits s) := by
  refine ((rd8_ends s).imp (fun _ _ h => h) ?_).bind ?_
  · rintro t ⟨rfl, -⟩
    exact ⟨s, _, .refl s, rfl, rfl⟩
  rintro b t ⟨rfl, hlt, rfl⟩
  have h1 : s.Read (s.setPos (s.pos + 1)) := State.read_setPos (by omega) (by omega)
  split
  · refine ((rd8_ends _).imp (fun _ _ h => h) ?_).bind ?_
    · rintro t ⟨rfl, -⟩
      exact ⟨_, _, h1, rfl, rfl⟩
    rintro z t ⟨rfl, hlt', rfl⟩
    simp only [State.setPos_pos, State.setPos_len] at hlt'
    have h2 : s.Read (s.setPos (s.pos + 1 + 1)) := State.read_setPos (by omega) (by omega)
    split
    · exact ⟨⟨h2.forward, rfl⟩, rfl⟩
    · exact ⟨_, _, h2, rfl, rfl⟩
  · exact ⟨⟨h1.forward, rfl⟩, rfl⟩

theorem nextBit_ends (s : State) :
    (nextBit s).Ends (fun _ t => s.Read t) (Raised State.Read FaultInfo.ofBits s) := by
  rw [nextBit]
  split
  · exact (fetchByte_ends s).bind fun _ t h => ⟨h.1.forward, by rw [h.1.frame]; rfl⟩
  · exact ⟨.refl s, rfl⟩

theorem readBits_ends (n u : Nat) (s : State) :
    (readBits n u s).Ends (fun _ t => s.Read t) (Raised State.Read FaultInfo.ofBits s) := by
  induction n generalizing u s with
  | zero => exact State.Read.refl s
  | succ n ih =>
    refine (nextBit_ends s).bind fun b t h => (ih _ t).imp (fun _ v h' => h.trans h') ?_
    exact fun v hv => hv.imp (fun _ => h.trans) fun _ => id

theorem readMagnitude_ends (n : Nat) (s : State) :
    (readMagnitude n s).Ends (fun _ t => s.Read t) (Raised State.Read FaultInfo.ofBits s) :=
  (readBits_ends n 0 s).bind fun _ _ h => h

theorem readCodeLoop_ends (tb : HuffTable) (n : Nat) (s : State) :
    (readCodeLoop tb n s).Ends (fun _ t => s.ReadAcc t) (Raised State.ReadAcc FaultInfo.ofBlock s) := by
  induction n generalizing s with
  | zero => exact ⟨s, _, .refl s, rfl, rfl⟩
  | succ n ih =>
    refine ((nextBit_ends s).imp (fun _ _ h => h) ?_).bind ?_
    · exact fun t h => h.imp (fun _ => State.Read.acc) fun _ => FaultInfo.ofBits_ofBlock
    · intro b t h
      have h1 := h.acc.trans (t.readAcc_setAcc (BitVec.ofNat 16 (2 * t.acc.toNat + bitVal b)) (t.accLen + 1))
      dsimp only
      split
      · exact h1
      · exact (ih _).imp (fun _ _ h' => h1.trans h') fun v hv => hv.imp (fun _ => h1.trans) fun _ => id

theorem readCode_ends (tb : HuffTable) (s : State) :
    (readCode tb s).Ends (fun _ t => s.ReadAcc t) (Raised State.ReadAcc FaultInfo.ofBlock s) := by
  have h1 := s.readAcc_setAcc 0 0
  exact (readCodeLoop_ends tb _ _).imp (fun _ _ h => h1.trans h) fun v hv => hv.imp (fun _ => h1.trans) fun _ => id

/-! ## The bits the stream delivers -/

theorem nextBits_succ {n : Nat} {s u : State} {bs : List Bool} (h : s.nextBits (n + 1) = some (bs, u)) :
    ∃ b t bs', nextBit s = .ok b t ∧ t.nextBits n = some (bs', u) ∧ bs = b :: bs' := by
  rw [State.nextBits] at h
  split at h
  · rename_i b t e
    split at h
    · rename_i bs' v e'
      cases h
      exact ⟨b, t, bs', e, e', rfl⟩
    · cases h
  · cases h
  · cases h

theorem nextBits_cons {n : Nat} {s t u : State} {b : Bool} {bs : List Bool} (h : nextBit s = .ok b t)
    (h' : t.nextBits n = some (bs, u)) : s.nextBits (n + 1) = some (b :: bs, u) := by
  simp [State.nextBits, h, h']

theorem nextBits_length {n : Nat} {s u : State} {bs : List Bool} (h : s.nextBits n = some (bs, u)) :
    bs.length = n := by
  induction n generalizing s bs with
  | zero => simp [State.nextBits] at h; simp [← h.1]
  | succ n ih =>
    obtain ⟨b, t, bs', -, h2, rfl⟩ := nextBits_succ h
    simp [ih h2]

theorem nextBits_read {n : Nat} {s u : State} {bs : List Bool} (h : s.nextBits n = some (bs, u)) : s.Read u := by
  induction n generalizing s bs with
  | zero => simp [State.nextBits] at h; exact h.2 ▸ .refl s
  | succ n ih =>
    obtain ⟨b, t, bs', h1, h2, rfl⟩ := nextBits_succ h
    have := nextBit_ends s
    rw [h1] at this
    exact State.Read.trans this (ih h2)

/-- A run of bits is taken in two parts. -/
theorem nextBits_split {m n : Nat} {s u : State} {bs : List Bool} (h : s.nextBits (m + n) = some (bs, u)) :
    ∃ t, s.nextBits m = some (bs.take m, t) ∧ t.nextBits n = some (bs.drop m, u) := by
  induction m generalizing s bs with
  | zero => exact ⟨s, by simp [State.nextBits], by simpa using h⟩
  | succ m ih =>
    rw [Nat.add_right_comm] at h
    obtain ⟨b, t, bs', h1, h2, rfl⟩ := nextBits_succ h
    obtain ⟨v, h3, h4⟩ := ih h2
    exact ⟨v, by simpa using nextBits_cons h1 h3, by simpa using h4⟩

theorem nextBits_append {s u : State} {as bs : List Bool}
    (h : s.nextBits (as ++ bs).length = some (as ++ bs, u)) :
    ∃ t, s.nextBits as.length = some (as, t) ∧ t.nextBits bs.length = some (bs, u) := by
  rw [List.length_append] at h
  obtain ⟨t, h1, h2⟩ := nextBits_split h
  exact ⟨t, by simpa using h1, by simpa using h2⟩

theorem nextBits_join {m n : Nat} {s t u : State} {as bs : List Bool} (h : s.nextBits m = some (as, t))
    (h' : t.nextBits n = some (bs, u)) : s.nextBits (m + n) = some (as ++ bs, u) := by
  induction m generalizing s as with
  | zero => simp [State.nextBits] at h; obtain ⟨rfl, rfl⟩ := h; simpa using h'
  | succ m ih =>
    obtain ⟨b, v, as', h1, h2, rfl⟩ := nextBits_succ h
    rw [Nat.add_right_comm]
    exact nextBits_cons h1 (ih h2)

/-! ## What the reader depends on -/

/-- Two runs of one procedure end alike, in states `R` relates. -/
def Res.Alike {α : Type} (R : State → State → Prop) : Res α → Res α → Prop
  | .ok a s, .ok b t => a = b ∧ R s t
  | .raised s, .raised t => R s t
  | .stop f, .stop g => f = g
  | _, _ => False

theorem Res.Alike.bind {α β : Type} {R : State → State → Prop} {r r' : Res α} {k k' : α → State → Res β}
    (h : r.Alike R r') (hk : ∀ a s t, R s t → (k a s).Alike R (k' a t)) : (r.bind k).Alike R (r'.bind k') := by
  cases r <;> cases r' <;> first | exact h.elim | exact h | exact (h.1 ▸ hk _ _ _ h.2)

/-- A relation of states the bit reader cannot tell apart, kept by what the reader writes. -/
structure Inert (R : State → State → Prop) : Prop where
  mem : ∀ {s t}, R s t → t.mem = s.mem
  len : ∀ {s t}, R s t → t.len = s.len
  pos : ∀ {s t}, R s t → t.pos = s.pos
  bitOff : ∀ {s t}, R s t → t.bitOff = s.bitOff
  cur : ∀ {s t}, R s t → t.cur = s.cur
  setPos : ∀ {s t} (p : Nat), R s t → R (s.setPos p) (t.setPos p)
  setBitOff : ∀ {s t} (b : BitVec 3), R s t → R (s.setBitOff b) (t.setBitOff b)
  setCur : ∀ {s t} (b : Byte), R s t → R (s.setCur b) (t.setCur b)
  raise : ∀ {s t} (f : FaultInfo), R s t → R (s.raise f) (t.raise f)

section alike
variable {R : State → State → Prop} {s t : State}

theorem rd8_alike (hR : Inert R) (h : R s t) : (rd8 s).Alike R (rd8 t) := by
  rw [rd8, rd8, hR.len h, hR.pos h]
  split
  · exact hR.raise _ h
  · exact ⟨by rw [State.byteAt, State.byteAt, hR.mem h], hR.setPos _ h⟩

theorem fetchByte_alike (hR : Inert R) (h : R s t) : (fetchByte s).Alike R (fetchByte t) := by
  refine (rd8_alike hR h).bind fun b u v h => ?_
  split
  · refine (rd8_alike hR h).bind fun z u v h => ?_
    split
    · exact ⟨rfl, hR.setCur _ h⟩
    · exact hR.pos h ▸ hR.raise _ h
  · exact ⟨rfl, hR.setCur _ h⟩

theorem nextBit_alike (hR : Inert R) (h : R s t) : (nextBit s).Alike R (nextBit t) := by
  have hs : ∀ {s t}, R s t → (shiftBit s).Alike R (shiftBit t) := fun {s t} h => by
    rw [shiftBit, shiftBit, hR.cur h, hR.bitOff h]
    exact ⟨rfl, hR.setBitOff _ h⟩
  rw [nextBit, nextBit, hR.bitOff h]
  split
  · exact (fetchByte_alike hR h).bind fun _ _ _ => hs
  · exact hs h

theorem readBits_alike (hR : Inert R) (h : R s t) (n u : Nat) : (readBits n u s).Alike R (readBits n u t) := by
  induction n generalizing u s t with
  | zero => exact ⟨rfl, h⟩
  | succ n ih => exact (nextBit_alike hR h).bind fun b u v h => ih h _

theorem nextBits_alike (hR : Inert R) (h : R s t) {n : Nat} {bs : List Bool} {u : State}
    (e : s.nextBits n = some (bs, u)) : ∃ v, t.nextBits n = some (bs, v) ∧ R u v := by
  induction n generalizing s t bs with
  | zero => simp [State.nextBits] at e ⊢; exact ⟨e.1, e.2 ▸ h⟩
  | succ n ih =>
    obtain ⟨b, s', bs', h1, h2, rfl⟩ := nextBits_succ e
    have h3 := nextBit_alike hR h
    rw [h1] at h3
    cases h4 : nextBit t with
    | ok b' t' =>
      rw [h4] at h3
      obtain ⟨rfl, h5⟩ := h3
      obtain ⟨v, h6, h7⟩ := ih h5 h2
      exact ⟨v, nextBits_cons h4 h6, h7⟩
    | raised t' => rw [h4] at h3; exact h3.elim
    | stop f => rw [h4] at h3; exact h3.elim

end alike

/-- The bit reader does not read the code accumulator. -/
theorem inert_setAcc (v : BitVec 16) (l : BitVec 5) : Inert fun s t => t = s.setAcc v l := by
  constructor <;> (intros; subst_vars; rfl)

/-- The bit reader does not read the block or its counter. -/
theorem inert_setK (k : Nat) : Inert fun s t => t = s.setK k := by
  constructor <;> (intros; subst_vars; rfl)

theorem inert_setBlk (b : Block) : Inert fun s t => t = s.setBlk b := by
  constructor <;> (intros; subst_vars; rfl)

/-- The bit reader does not read the result of the last operation. -/
theorem inert_setRet (r : Ret) : Inert fun s t => t = s.setRet r := by
  constructor <;> (intros; subst_vars; rfl)

theorem nextBit_setAcc {s t : State} {b : Bool} (v : BitVec 16) (l : BitVec 5) (h : nextBit s = .ok b t) :
    nextBit (s.setAcc v l) = .ok b (t.setAcc v l) := by
  have h1 := nextBit_alike (inert_setAcc v l) (s := s) rfl
  rw [h] at h1
  cases h2 : nextBit (s.setAcc v l) <;> rw [h2] at h1
  · rw [← h1.1, ← h1.2]
  · exact h1.elim
  · exact h1.elim

theorem nextBits_setAcc {n : Nat} {s u : State} {bs : List Bool} (v : BitVec 16) (l : BitVec 5)
    (h : s.nextBits n = some (bs, u)) : (s.setAcc v l).nextBits n = some (bs, u.setAcc v l) := by
  obtain ⟨_, h1, rfl⟩ := nextBits_alike (inert_setAcc v l) rfl h
  exact h1

theorem nextBits_setK {n : Nat} {s u : State} {bs : List Bool} (k : Nat)
    (h : s.nextBits n = some (bs, u)) : (s.setK k).nextBits n = some (bs, u.setK k) := by
  obtain ⟨_, h1, rfl⟩ := nextBits_alike (inert_setK k) rfl h
  exact h1

theorem nextBits_setBlk {n : Nat} {s u : State} {bs : List Bool} (b : Block)
    (h : s.nextBits n = some (bs, u)) : (s.setBlk b).nextBits n = some (bs, u.setBlk b) := by
  obtain ⟨_, h1, rfl⟩ := nextBits_alike (inert_setBlk b) rfl h
  exact h1

/-! ## Fields and codes on the bits the stream delivers -/

theorem bitVal_le (b : Bool) : bitVal b ≤ 1 := by cases b <;> simp [bitVal]

theorem bitsVal_concat (bs : List Bool) (b : Bool) : bitsVal (bs ++ [b]) = 2 * bitsVal bs + bitVal b := by
  simp [bitsVal]

theorem bitsVal_lt (bs : List Bool) : bitsVal bs < 2 ^ bs.length := by
  induction bs using List.reverseRecOn with
  | nil => simp [bitsVal]
  | append_singleton bs b ih =>
    have := bitVal_le b
    rw [bitsVal_concat, List.length_append, List.length_singleton, Nat.pow_succ]
    omega

/-- Bits of one length are told apart by their number. -/
theorem bitsVal_inj {as bs : List Bool} (hl : as.length = bs.length) (h : bitsVal as = bitsVal bs) : as = bs := by
  induction as using List.reverseRecOn generalizing bs with
  | nil => exact (List.length_eq_zero_iff.mp hl.symm).symm
  | append_singleton as a ih =>
    induction bs using List.reverseRecOn with
    | nil => simp at hl
    | append_singleton bs b =>
      rw [bitsVal_concat, bitsVal_concat] at h
      have := bitVal_le a
      have := bitVal_le b
      have h1 : as = bs := ih (by simpa using hl) (by omega)
      have h2 : bitVal a = bitVal b := by omega
      have h3 : a = b := by cases a <;> cases b <;> simp_all [bitVal]
      rw [h1, h3]

theorem bitsVal_foldl (u : Nat) (bs : List Bool) :
    bs.foldl (fun u b => 2 * u + bitVal b) u = u * 2 ^ bs.length + bitsVal bs := by
  induction bs using List.reverseRecOn with
  | nil => simp [bitsVal]
  | append_singleton bs b ih =>
    rw [List.foldl_append, ih, bitsVal_concat, List.length_append, List.length_singleton, Nat.pow_succ]
    simp only [List.foldl_cons, List.foldl_nil]
    ring

theorem bitsVal_cons (b : Bool) (bs : List Bool) : bitsVal (b :: bs) = bitVal b * 2 ^ bs.length + bitsVal bs := by
  rw [bitsVal, List.foldl_cons, bitsVal_foldl]
  simp

/-- `n` bits read as a number: what `readBits` answers on the bits the stream delivers. -/
theorem readBits_bits {n u : Nat} {s t : State} {bs : List Bool} (h : s.nextBits n = some (bs, t)) :
    readBits n u s = .ok (u * 2 ^ n + bitsVal bs) t := by
  induction n generalizing u s bs with
  | zero => simp [State.nextBits] at h; simp [readBits, h, bitsVal]
  | succ n ih =>
    obtain ⟨b, v, bs', h1, h2, rfl⟩ := nextBits_succ h
    simp only [readBits, h1, Res.bind_ok, ih h2]
    rw [bitsVal_cons, nextBits_length h2, Nat.pow_succ]
    congr 1
    ring

theorem readMagnitude_bits {n : Nat} {s t : State} {bs : List Bool} (h : s.nextBits n = some (bs, t)) :
    readMagnitude n s = .ok (magnitude s.mode n (bitsVal bs)) t := by
  have := (nextBits_read h).mode
  simp [readMagnitude, readBits_bits h, this]

theorem entryBits_length (e : HuffEntry) : e.bits.length = e.len := by simp [HuffEntry.bits]

/-- The first `m` bits of a code, as a number. -/
theorem entryBits_take {e : HuffEntry} (he : e.code < 2 ^ e.len) {m : Nat} (hm : m ≤ e.len) :
    bitsVal (e.bits.take m) = e.code / 2 ^ (e.len - m) := by
  induction m with
  | zero => simp [bitsVal, Nat.div_eq_of_lt he]
  | succ m ih =>
    have hlt : m < e.bits.length := by rw [entryBits_length]; omega
    rw [List.take_succ_eq_append_getElem hlt, bitsVal_concat, ih (by omega)]
    simp only [HuffEntry.bits, List.getElem_map, List.getElem_range]
    have e1 : e.len - m = (e.len - (m + 1)) + 1 := by omega
    have e2 : e.len - 1 - m = e.len - (m + 1) := by omega
    rw [e1, e2, Nat.pow_succ, ← Nat.div_div_eq_div_mul, Nat.testBit_eq_decide_div_mod_eq]
    generalize e.code / 2 ^ (e.len - (m + 1)) = c
    by_cases hc : c % 2 = 1 <;> simp [bitVal, hc] <;> omega

theorem bitsVal_entryBits {e : HuffEntry} (he : e.code < 2 ^ e.len) : bitsVal e.bits = e.code := by
  have := entryBits_take he (Nat.le_refl e.len)
  rwa [List.take_of_length_le (by rw [entryBits_length]), Nat.sub_self, Nat.pow_zero, Nat.div_one] at this

theorem lookup_some {h : HuffTable} {len code : Nat} {sym : Byte} (e : h.lookup len code = some sym) :
    ∃ f ∈ h.map, f.len = len ∧ f.code = code ∧ f.sym = sym := by
  rw [HuffTable.lookup, Option.map_eq_some_iff] at e
  obtain ⟨f, hf, rfl⟩ := e
  have := List.find?_some hf
  simp only [Bool.and_eq_true, beq_iff_eq] at this
  exact ⟨f, List.mem_of_find?_eq_some hf, this.1, this.2, rfl⟩

theorem lookup_none {h : HuffTable} {len code : Nat} :
    h.lookup len code = none ↔ ∀ f ∈ h.map, f.len = len → f.code ≠ code := by
  rw [HuffTable.lookup, Option.map_eq_none_iff, List.find?_eq_none]
  simp

/-- In a valid table one entry only can be a beginning of another: itself. -/
theorem HuffTable.Valid.unique {h : HuffTable} (hv : h.Valid) {e f : HuffEntry} (he : e ∈ h.map) (hf : f ∈ h.map)
    (hp : e.prefixOf f) : e = f := by
  by_contra hne
  have hs : Std.Symm fun e f : HuffEntry => ¬ e.prefixOf f ∧ ¬ f.prefixOf e := ⟨fun _ _ h => ⟨h.2, h.1⟩⟩
  exact (hv.prefixFree.forall he hf hne).1 hp

/-- A key is found under its own length and code. -/
theorem lookup_entry {h : HuffTable} (hv : h.Valid) {e : HuffEntry} (he : e ∈ h.map) :
    h.lookup e.len e.code = some e.sym := by
  cases hl : h.lookup e.len e.code with
  | none => exact absurd rfl (lookup_none.mp hl e he rfl)
  | some sym =>
    obtain ⟨f, hf, h1, h2, rfl⟩ := lookup_some hl
    rw [hv.unique hf he ⟨h1.le, by simp [h1, h2]⟩]

/-- Nothing is found under a proper beginning of a key. -/
theorem lookup_beginning {h : HuffTable} (hv : h.Valid) {e : HuffEntry} (he : e ∈ h.map) {m : Nat} (hm : m < e.len) :
    h.lookup m (e.code / 2 ^ (e.len - m)) = none := by
  refine lookup_none.mpr fun f hf h1 h2 => ?_
  have := hv.unique hf he ⟨by omega, by rw [h1, h2]⟩
  subst this
  omega

/-- The loop of `ReadCode` goes on as long as the bits taken are no key. -/
theorem readCodeLoop_skip {h : HuffTable} {bs : List Bool} {n a m : Nat} {s u : State}
    (hs : s.nextBits bs.length = some (bs, u)) (ha : a < 2 ^ m) (hm : m + bs.length ≤ 16)
    (hn : ∀ j, 1 ≤ j → j ≤ bs.length → h.lookup (m + j) (a * 2 ^ j + bitsVal (bs.take j)) = none) :
    readCodeLoop h (n + bs.length) (s.setAcc (BitVec.ofNat 16 a) (BitVec.ofNat 5 m)) =
      readCodeLoop h n (u.setAcc (BitVec.ofNat 16 (a * 2 ^ bs.length + bitsVal bs))
        (BitVec.ofNat 5 (m + bs.length))) := by
  induction bs generalizing s a m with
  | nil => simp [State.nextBits] at hs; simp [hs, bitsVal]
  | cons b bs ih =>
    simp only [List.length_cons] at hs hm hn ⊢
    obtain ⟨b', t, bs', h1, h2, h3⟩ := nextBits_succ hs
    cases h3
    have hb := bitVal_le b
    have e1 : a % 2 ^ 16 = a := Nat.mod_eq_of_lt (Nat.lt_of_lt_of_le ha (Nat.pow_le_pow_right (by omega) (by omega)))
    have e2 : 2 * a + bitVal b < 2 ^ (m + 1) := by rw [Nat.pow_succ]; omega
    have e3 : 2 ^ (m + 1) ≤ 2 ^ 16 := Nat.pow_le_pow_right (by omega) (by omega)
    have e4 : (2 * a + bitVal b) % 2 ^ 16 = 2 * a + bitVal b := Nat.mod_eq_of_lt (by omega)
    have e6 : BitVec.ofNat 5 m + 1 = BitVec.ofNat 5 (m + 1) := (BitVec.ofNat_add m 1).symm
    have e5 : (BitVec.ofNat 5 m + 1).toNat = m + 1 := by
      rw [e6, BitVec.toNat_ofNat]
      omega
    have e7 := hn 1 (by omega) (by omega)
    simp only [Nat.pow_one, List.take_succ_cons, List.take_zero, bitsVal_cons, List.length_nil, Nat.pow_zero,
      Nat.mul_one] at e7
    have e8 : a * 2 + (bitVal b + bitsVal []) = 2 * a + bitVal b := by simp [bitsVal]; omega
    rw [e8] at e7
    rw [← Nat.add_assoc, readCodeLoop, nextBit_setAcc _ _ h1]
    simp only [Res.bind_ok, State.setAcc_acc, State.setAcc_accLen, BitVec.toNat_ofNat, e1, e4, e5, e7]
    have e9 : (t.setAcc (BitVec.ofNat 16 a) (BitVec.ofNat 5 m)).setAcc (BitVec.ofNat 16 (2 * a + bitVal b))
        (BitVec.ofNat 5 m + 1) = t.setAcc (BitVec.ofNat 16 (2 * a + bitVal b)) (BitVec.ofNat 5 (m + 1)) := by
      rw [e6]; rfl
    rw [e9, ih h2 e2 (by omega)]
    · rw [bitsVal_cons]
      congr 3
      · rw [Nat.pow_succ]; ring_nf
      · omega
    · intro j hj hj'
      have := hn (j + 1) (by omega) (by omega)
      rw [List.take_succ_cons, bitsVal_cons, List.length_take, Nat.min_eq_left hj'] at this
      rw [← this]
      congr 1
      · omega
      · rw [Nat.pow_succ]; ring

/-- The loop of `ReadCode` ends at the first key. -/
theorem readCodeLoop_hit {h : HuffTable} {b : Bool} {n a m : Nat} {s t : State} {sym : Byte} (hs : nextBit s = .ok b t)
    (ha : a < 2 ^ m) (hm : m < 16) (hl : h.lookup (m + 1) (2 * a + bitVal b) = some sym) :
    readCodeLoop h (n + 1) (s.setAcc (BitVec.ofNat 16 a) (BitVec.ofNat 5 m)) =
      .ok sym (t.setAcc (BitVec.ofNat 16 (2 * a + bitVal b)) (BitVec.ofNat 5 (m + 1))) := by
  have hb := bitVal_le b
  have e3 : 2 ^ (m + 1) ≤ 2 ^ 16 := Nat.pow_le_pow_right (by omega) (by omega)
  rw [Nat.pow_succ] at e3
  have e1 : a % 2 ^ 16 = a := Nat.mod_eq_of_lt (by omega)
  have e4 : (2 * a + bitVal b) % 2 ^ 16 = 2 * a + bitVal b := Nat.mod_eq_of_lt (by omega)
  have e6 : BitVec.ofNat 5 m + 1 = BitVec.ofNat 5 (m + 1) := (BitVec.ofNat_add m 1).symm
  have e5 : (BitVec.ofNat 5 (m + 1)).toNat = m + 1 := by
    rw [BitVec.toNat_ofNat]
    omega
  rw [readCodeLoop, nextBit_setAcc _ _ hs]
  simp only [Res.bind_ok, State.setAcc_acc, State.setAcc_accLen, BitVec.toNat_ofNat, e1, e4, e6, e5, hl]
  rfl

/-- What `ReadCode` answers when the next bits are the code of a key. -/
theorem readCode_bits {h : HuffTable} (hv : h.Valid) {e : HuffEntry} (he : e ∈ h.map) {s u : State}
    (hs : s.nextBits e.len = some (e.bits, u)) :
    readCode h s = .ok e.sym (u.setAcc (BitVec.ofNat 16 e.code) (BitVec.ofNat 5 e.len)) := by
  obtain ⟨h1, h2, h3⟩ := hv.keys e he
  have h2 : e.len ≤ 16 := h2
  obtain ⟨m, hm⟩ : ∃ m, e.len = m + 1 := ⟨e.len - 1, by omega⟩
  have hs' : s.nextBits (m + 1) = some (e.bits, u) := hm ▸ hs
  obtain ⟨t, h4, h5⟩ := nextBits_split hs'
  obtain ⟨b, u', bs', h6, h7, h8⟩ := nextBits_succ h5
  simp only [State.nextBits, Option.some.injEq, Prod.mk.injEq] at h7
  obtain ⟨rfl, rfl⟩ := h7
  have e1 : (e.bits.take m).length = m := by rw [List.length_take, entryBits_length]; omega
  have e2 : 16 = (15 - m) + 1 + m := by omega
  have e3 : bitsVal (e.bits.take m) < 2 ^ m := by have := bitsVal_lt (e.bits.take m); rwa [e1] at this
  have e4 : 2 * bitsVal (e.bits.take m) + bitVal b = e.code := by
    rw [← bitsVal_concat, ← h8, List.take_append_drop, bitsVal_entryBits h3]
  have h9 := readCodeLoop_skip (h := h) (bs := e.bits.take m) (n := 15 - m + 1) (a := 0) (m := 0) (s := s) (u := t)
    (by rw [e1]; exact h4) (by omega) (by omega) (fun j hj hj' => by
      rw [e1] at hj'
      rw [List.take_take, Nat.min_eq_left hj', entryBits_take h3 (by omega), Nat.zero_mul, Nat.zero_add, Nat.zero_add]
      exact lookup_beginning hv he (by omega))
  rw [e1, Nat.zero_mul, Nat.zero_add, Nat.zero_add] at h9
  have e5 : readCode h s = readCodeLoop h (15 - m + 1 + m) (s.setAcc (BitVec.ofNat 16 0) (BitVec.ofNat 5 0)) := by
    rw [← e2]; rfl
  rw [e5, h9, readCodeLoop_hit h6 e3 (by omega) (sym := e.sym), e4, hm]
  rw [e4, ← hm]
  exact lookup_entry hv he

/-- What `ReadCode` answers when no key begins the next 16 bits. -/
theorem readCode_overflow {h : HuffTable} (hv : h.Valid) {s u : State} {bs : List Bool}
    (hs : s.nextBits 16 = some (bs, u)) (hn : ∀ e ∈ h.map, bs.take e.len ≠ e.bits) :
    readCode h s = .raised ((u.setAcc (BitVec.ofNat 16 (bitsVal bs)) 16).raise
      (.huffmanDecodeOverflow u.pos (BitVec.ofNat 16 (bitsVal bs)))) := by
  have e1 : bs.length = 16 := nextBits_length hs
  have h9 := readCodeLoop_skip (h := h) (bs := bs) (n := 0) (a := 0) (m := 0) (s := s) (u := u)
    (by rw [e1]; exact hs) (by omega) (by omega) (fun j hj hj' => by
      rw [Nat.zero_mul, Nat.zero_add, Nat.zero_add]
      refine lookup_none.mpr fun f hf h1 h2 => hn f hf ?_
      have h3 := (hv.keys f hf).2.2
      have h4 : (bs.take f.len).length = f.bits.length := by rw [List.length_take, entryBits_length]; omega
      rw [← h1, ← bitsVal_entryBits h3] at h2
      exact bitsVal_inj h4 h2.symm)
  rw [e1, Nat.zero_mul, Nat.zero_add, Nat.zero_add] at h9
  exact h9

end Sys2Proof.Machine
end

