-- ==== Sys2Proof/Laws/Block.lean ====
section
/-! SUPPORT. One lemma per operation of the block assembler that says everything it can do, and what the symbol
operations answer on the bits the stream delivers. -/

namespace Sys2Proof.Machine

/-- From `s` to `t` only the bit reader, the code accumulator and the block under assembly changed. -/
structure State.Assembled (s t : State) : Prop where
  forward : s.Forward t
  frame : t = { s with
    pos := t.pos, bitOff := t.bitOff, cur := t.cur, acc := t.acc, accLen := t.accLen, k := t.k, blk := t.blk }

theorem State.Assembled.refl (s : State) : s.Assembled s := ⟨.refl s, rfl⟩
theorem State.Assembled.len {s t : State} (h : s.Assembled t) : t.len = s.len := by rw [h.frame]
theorem State.Assembled.mode {s t : State} (h : s.Assembled t) : t.mode = s.mode := by rw [h.frame]
theorem State.Assembled.byteAt {s t : State} (h : s.Assembled t) (a : Nat) : t.byteAt a = s.byteAt a := by
  rw [h.frame]; rfl
theorem State.Assembled.trans {s t u : State} (h : s.Assembled t) (h' : t.Assembled u) : s.Assembled u :=
  ⟨h.forward.trans h.len h'.forward, by rw [h'.frame, h.frame]⟩
theorem State.Read.assembled {s t : State} (h : s.Read t) : s.Assembled t := ⟨h.forward, by rw [h.frame]⟩
theorem State.ReadAcc.assembled {s t : State} (h : s.ReadAcc t) : s.Assembled t := ⟨h.forward, by rw [h.frame]⟩
theorem State.assembled_setK (s : State) (k : Nat) : s.Assembled (s.setK k) := ⟨.refl s, rfl⟩
theorem State.assembled_setBlk (s : State) (b : Block) : s.Assembled (s.setBlk b) := ⟨.refl s, rfl⟩
theorem State.assembled_putCoef (s : State) (j : Nat) (v : Int) : s.Assembled (s.putCoef j v) := ⟨.refl s, rfl⟩

theorem Raised.assembled {s t u : State} (h : s.Assembled t) (hu : Raised State.Assembled FaultInfo.ofBlock t u) :
    Raised State.Assembled FaultInfo.ofBlock s u := hu.imp (fun _ => h.trans) fun _ => id

theorem readMagnitude_assembled (n : Nat) (s : State) :
    (readMagnitude n s).Ends (fun _ t => s.Assembled t ∧ t.k = s.k)
      (Raised (fun s u => s.Assembled u ∧ u.k = s.k) FaultInfo.ofBlock s) :=
  (readMagnitude_ends n s).imp (fun _ _ h => ⟨h.assembled, by rw [h.frame]⟩) fun _ h =>
    h.imp (fun _ h => ⟨h.assembled, by rw [h.frame]⟩) fun _ => FaultInfo.ofBits_ofBlock

theorem readCode_assembled (tb : HuffTable) (s : State) :
    (readCode tb s).Ends (fun _ t => s.Assembled t ∧ t.k = s.k)
      (Raised (fun s u => s.Assembled u ∧ u.k = s.k) FaultInfo.ofBlock s) :=
  (readCode_ends tb s).imp (fun _ _ h => ⟨h.assembled, by rw [h.frame]⟩) fun _ h =>
    h.imp (fun _ h => ⟨h.assembled, by rw [h.frame]⟩) fun _ => id

/-- In a fault of the assembler `k` is at most 63 if it was. -/
def State.AssembledK (s t : State) : Prop := s.Assembled t ∧ (s.k ≤ 63 → t.k ≤ 63)

theorem State.AssembledK.refl (s : State) : s.AssembledK s := ⟨.refl s, id⟩

theorem State.AssembledK.trans {s t u : State} (h : s.AssembledK t) (h' : t.AssembledK u) : s.AssembledK u :=
  ⟨h.1.trans h'.1, fun hk => h'.2 (h.2 hk)⟩

theorem raisedK {s t u : State} (h : s.AssembledK t)
    (hu : Raised (fun s u => s.Assembled u ∧ u.k = s.k) FaultInfo.ofBlock t u) :
    Raised State.AssembledK FaultInfo.ofBlock s u :=
  hu.imp (fun _ h' => h.trans ⟨h'.1, fun hk => h'.2 ▸ hk⟩) fun _ => id

/-! ## DC -/

/-- The DC part writes entry 0 of `blk` and leaves `k`. -/
theorem dcSymbol_ends (n : Byte) (s : State) :
    (dcSymbol n s).Ends (fun _ t => s.Assembled t ∧ t.k = s.k) (Raised State.AssembledK FaultInfo.ofBlock s) := by
  rw [dcSymbol]
  split
  · exact ⟨s.assembled_putCoef 0 0, rfl⟩
  split
  · refine ((readMagnitude_assembled _ s).imp (fun _ _ h => h) fun _ => raisedK (.refl s)).bind ?_
    exact fun v t h => ⟨h.1.trans (t.assembled_putCoef 0 v), h.2⟩
  · exact ⟨s, _, .refl s, rfl, rfl⟩

/-! ## AC -/

theorem acZeros_ends {z : Nat} (sym : Byte) (s : State) (hz : 1 ≤ z) :
    (acZeros z sym s).Ends (fun _ t => s.Assembled t ∧ s.k < t.k ∧ t.k ≤ 63)
      (Raised State.AssembledK FaultInfo.ofBlock s) := by
  rw [acZeros]
  split
  · exact ⟨s, _, .refl s, rfl, rfl⟩
  · rename_i h
    simp only [Config.acValues] at h
    refine ⟨s.assembled_setK _, ?_, ?_⟩
    · show s.k < s.k + z; omega
    · show s.k + z ≤ 63; omega

theorem acCoefOp_ends (r sz : Nibble) (s : State) :
    (acCoefOp r sz s).Ends (fun _ t => s.Assembled t ∧ s.k < t.k ∧ t.k ≤ 63)
      (Raised State.AssembledK FaultInfo.ofBlock s) := by
  rw [acCoefOp]
  split
  · exact ⟨s, _, .refl s, rfl, rfl⟩
  · rename_i h
    simp only [Config.acValues] at h
    have h1 : s.AssembledK (s.setK (s.k + r.toNat)) :=
      ⟨s.assembled_setK _, fun _ => by show s.k + r.toNat ≤ 63; omega⟩
    refine ((readMagnitude_assembled _ _).imp (fun _ _ h => h) fun _ => raisedK h1).bind fun v t h2 => ?_
    have h3 : t.k = s.k + r.toNat := h2.2
    refine ⟨(h1.1.trans h2.1).trans ⟨.refl t, rfl⟩, ?_, ?_⟩
    · show s.k < t.k + 1; omega
    · show t.k + 1 ≤ 63; omega

theorem byte_nibbles (b : Byte) : ofNibbles (hiNibble b) (loNibble b) = b := by
  revert b; decide

theorem hiNibble_ne_zero {b : Byte} (h : b ≠ 0) (h' : loNibble b = 0) : hiNibble b ≠ 0 := by
  intro h2
  rw [← byte_nibbles b, h', h2] at h
  exact h rfl

/-- An AC symbol moves `k` forward, at most to 63. -/
theorem acSymbol_ends (sym : Byte) (s : State) (hk : s.k < 63) :
    (acSymbol sym s).Ends (fun _ t => s.Assembled t ∧ s.k < t.k ∧ t.k ≤ 63)
      (Raised State.AssembledK FaultInfo.ofBlock s) := by
  rw [acSymbol]
  split
  · exact ⟨s.assembled_setK 63, hk, Nat.le_refl _⟩
  rename_i h0
  split
  · rename_i h1
    split
    · exact acZeros_ends _ s (by omega)
    · refine acZeros_ends _ s ?_
      have := hiNibble_ne_zero h0 h1
      rcases Nat.eq_zero_or_pos (hiNibble sym).toNat with h2 | h2
      · exact absurd (BitVec.eq_of_toNat_eq h2) this
      · exact h2
  split
  · exact acCoefOp_ends _ _ s
  · exact ⟨s, _, .refl s, rfl, rfl⟩

/-- The AC loop ends with 63 values. -/
theorem acLoop_ends (act : HuffTable) (n : Nat) (s : State) (hn : 63 - s.k < n) (hk : s.k ≤ 63) :
    (acLoop act n s).Ends (fun _ t => s.Assembled t ∧ t.k = 63) (Raised State.AssembledK FaultInfo.ofBlock s) := by
  induction n generalizing s with
  | zero => omega
  | succ n ih =>
    rw [acLoop]
    split
    · rename_i h
      simp only [Config.acValues] at h
      refine ((readCode_assembled act s).imp (fun _ _ h => h) fun _ => raisedK (.refl s)).bind fun sym t h1 => ?_
      have k1 : s.AssembledK t := ⟨h1.1, fun h => h1.2 ▸ h⟩
      refine ((acSymbol_ends sym t (h1.2 ▸ h)).imp (fun _ _ h => h) fun _ hu =>
        hu.imp (fun _ => k1.trans) fun _ => id).bind fun _ u h2 => ?_
      obtain ⟨h3, h4, h5⟩ := h2
      have e : t.k = s.k := h1.2
      have k2 : s.AssembledK u := k1.trans ⟨h3, fun _ => h5⟩
      exact (ih u (by omega) h5).imp (fun _ _ h => ⟨k2.1.trans h.1, h.2⟩) fun _ hu => hu.imp (fun _ => k2.trans) fun _ => id
    · rename_i h
      simp only [Config.acValues] at h
      exact ⟨.refl s, by omega⟩

/-- A block is assembled in full, or a fault of the scan phase was raised. -/
theorem decodeBlockWith_ends (dct act : HuffTable) (s : State) :
    (decodeBlockWith dct act s).Ends (fun b t => s.Assembled t ∧ t.k = 63 ∧ b = t.blk)
      (Raised State.AssembledK FaultInfo.ofBlock s) := by
  have k0 : s.AssembledK (s.setBlk Block.zero) := ⟨s.assembled_setBlk _, id⟩
  refine ((readCode_assembled dct _).imp (fun _ _ h => h) fun _ => raisedK k0).bind fun n t h1 => ?_
  have k1 : s.AssembledK t := k0.trans ⟨h1.1, fun h => h1.2 ▸ h⟩
  refine ((dcSymbol_ends n t).imp (fun _ _ h => h) fun _ hu => hu.imp (fun _ => k1.trans) fun _ => id).bind
    fun _ u h2 => ?_
  have k2 : s.AssembledK (u.setK 0) :=
    (k1.trans ⟨h2.1, fun h => h2.2 ▸ h⟩).trans ⟨u.assembled_setK 0, fun _ => by show (0 : Nat) ≤ 63; omega⟩
  refine ((acLoop_ends act _ (u.setK 0) ?_ ?_).imp (fun _ _ h => h) fun _ hu =>
    hu.imp (fun _ => k2.trans) fun _ => id).bind fun _ v h3 => ?_
  · show 63 - 0 < 63 + 1; omega
  · show (0 : Nat) ≤ 63; omega
  · exact ⟨k2.1.trans h3.1, h3.2, rfl⟩

theorem decodeBlockOp_ends {id : Byte} {s : State} (h : (s.tablesOf id).isSome = true) :
    (decodeBlockOp id s).Ends (fun b t => s.Assembled t ∧ t.k = 63 ∧ b = t.blk)
      (Raised State.AssembledK FaultInfo.ofBlock s) := by
  rw [decodeBlockOp]
  split
  · rename_i h'
    rw [h'] at h
    exact nomatch h
  · exact decodeBlockWith_ends _ _ s

/-! ## Symbols as rows of the opcode table -/

/-- The row a DC symbol decodes to does what DECODE_BLOCK does with the symbol. -/
theorem exec_decodeDcSymbol (n : Byte) (s : State) : exec (decodeDcSymbol n) s = (dcSymbol n s).outcome := by
  rw [decodeDcSymbol, dcSymbol]
  split
  · rfl
  split
  · rename_i h
    have e : (loNibble n).toNat = n.toNat := by
      simp only [Config.dcCategoryLimit] at h
      simp only [loNibble, BitVec.extractLsb'_toNat, Nat.shiftRight_zero]
      omega
    show (dcMagOp (loNibble n).toNat s).outcome = _
    rw [e]
  · rfl

/-- The row an AC symbol decodes to does what DECODE_BLOCK does with the symbol. -/
theorem exec_decodeAcSymbol (sym : Byte) (s : State) : exec (decodeAcSymbol sym) s = (acSymbol sym s).outcome := by
  rw [decodeAcSymbol, acSymbol]
  repeat' split
  all_goals rfl

end Sys2Proof.Machine
end

