-- ==== Sys2Proof/Laws/Codes.lean ====
section
/-! SUPPORT. What code construction does (spec/43_dht.md R146), one length at a time and over all lengths. -/

namespace Sys2Proof.Machine

/-- The codes of one length, when they are not oversubscribed. -/
theorem assignCodes_ok {len code count : Nat} (h : count = 0 ∨ code + count ≤ 2 ^ len) :
    assignCodes len code count = .ok ((List.range count).map fun j => (len, code + j)) := by
  induction count generalizing code with
  | zero => rfl
  | succ count ih =>
    rw [assignCodes, if_neg (by omega), ih (by omega), List.range_succ_eq_map]
    simp [Function.comp_def, Nat.add_comm, Nat.add_left_comm]

/-- An oversubscribed length is the error. -/
theorem assignCodes_error {len code count : Nat} (h : count ≠ 0) (h' : 2 ^ len < code + count) :
    assignCodes len code count = .error len := by
  induction count generalizing code with
  | zero => exact absurd rfl h
  | succ count ih =>
    rw [assignCodes]
    split
    · rfl
    · rcases Nat.eq_zero_or_pos count with h0 | h0
      · omega
      · rw [ih (by omega) (by omega)]

/-- Construction over a length: its codes first, those of the longer ones after them. -/
theorem assignLengths_cons {len code count : Nat} {counts : List Nat} {keys : List CodeKey}
    (h : assignLengths len code (count :: counts) = .ok keys) :
    ∃ more, (count = 0 ∨ code + count ≤ 2 ^ len) ∧ assignLengths (len + 1) (2 * (code + count)) counts = .ok more ∧
      keys = ((List.range count).map fun j => (len, code + j)) ++ more := by
  by_cases hc : count = 0 ∨ code + count ≤ 2 ^ len
  · rw [assignLengths, assignCodes_ok hc] at h
    cases hm : assignLengths (len + 1) (2 * (code + count)) counts with
    | ok more => rw [hm] at h; cases h; exact ⟨more, hc, rfl, rfl⟩
    | error l => rw [hm] at h; cases h
  · rw [not_or] at hc
    rw [assignLengths, assignCodes_error hc.1 (by omega)] at h
    cases h

theorem assignLengths_cons_ok {len code count : Nat} {counts : List Nat} {more : List CodeKey}
    (hc : count = 0 ∨ code + count ≤ 2 ^ len)
    (h : assignLengths (len + 1) (2 * (code + count)) counts = .ok more) :
    assignLengths len code (count :: counts) = .ok (((List.range count).map fun j => (len, code + j)) ++ more) := by
  rw [assignLengths, assignCodes_ok hc, h]

/-- Where the keys of the lengths from `len` on lie: not before the running code. -/
theorem assignLengths_bounds {len code : Nat} {counts : List Nat} {keys : List CodeKey}
    (h : assignLengths len code counts = .ok keys) :
    ∀ key ∈ keys, len ≤ key.1 ∧ key.1 < len + counts.length ∧ code * 2 ^ (key.1 - len) ≤ key.2 ∧
      key.2 < 2 ^ key.1 := by
  induction counts generalizing len code keys with
  | nil => cases h; simp
  | cons count counts ih =>
    obtain ⟨more, hc, hm, rfl⟩ := assignLengths_cons h
    intro key hk
    rcases List.mem_append.mp hk with hk | hk
    · obtain ⟨j, hj, rfl⟩ := List.mem_map.mp hk
      have hj := List.mem_range.mp hj
      refine ⟨Nat.le_refl _, by simp, by simp, ?_⟩
      show code + j < 2 ^ len
      omega
    · obtain ⟨h1, h2, h3, h4⟩ := ih hm key hk
      refine ⟨by omega, by simp only [List.length_cons]; omega, ?_, h4⟩
      have e : key.1 - len = (key.1 - (len + 1)) + 1 := by omega
      rw [e, Nat.pow_succ]
      refine Nat.le_trans ?_ h3
      have := Nat.zero_le (count * 2 ^ (key.1 - (len + 1)))
      generalize 2 ^ (key.1 - (len + 1)) = p at *
      nlinarith

/-- Of two keys neither is a beginning of the other. -/
theorem assignLengths_pairwise {len code : Nat} {counts : List Nat} {keys : List CodeKey}
    (h : assignLengths len code counts = .ok keys) :
    keys.Pairwise fun e f => e.1 ≤ f.1 ∧ e.2 < f.2 / 2 ^ (f.1 - e.1) := by
  induction counts generalizing len code keys with
  | nil => cases h; exact List.Pairwise.nil
  | cons count counts ih =>
    obtain ⟨more, hc, hm, rfl⟩ := assignLengths_cons h
    refine List.pairwise_append.mpr ⟨?_, ih hm, ?_⟩
    · refine List.pairwise_map.mpr (List.pairwise_lt_range.imp fun hab => ?_)
      simpa using hab
    · intro e he f hf
      obtain ⟨j, hj, rfl⟩ := List.mem_map.mp he
      have hj := List.mem_range.mp hj
      obtain ⟨h1, -, h3, -⟩ := assignLengths_bounds hm f hf
      refine ⟨by show len ≤ f.1; omega, ?_⟩
      show code + j < f.2 / 2 ^ (f.1 - len)
      rw [← Nat.succ_le_iff, Nat.le_div_iff_mul_le (by positivity)]
      refine Nat.le_trans ?_ h3
      have e : f.1 - len = (f.1 - (len + 1)) + 1 := by omega
      rw [e, Nat.pow_succ, Nat.mul_comm _ 2, ← Nat.mul_assoc]
      exact Nat.mul_le_mul_right _ (by omega)

/-- There is one key for each symbol a histogram counts. -/
theorem assignLengths_length {len code : Nat} {counts : List Nat} {keys : List CodeKey}
    (h : assignLengths len code counts = .ok keys) : keys.length = counts.sum := by
  induction counts generalizing len code keys with
  | nil => cases h; rfl
  | cons count counts ih =>
    obtain ⟨more, hc, hm, rfl⟩ := assignLengths_cons h
    simp [ih hm]

theorem buildCodes_ok {counts syms : List Byte} {map : List HuffEntry} (h : buildCodes counts syms = .ok map) :
    ∃ keys, assignLengths 1 0 (counts.map BitVec.toNat) = .ok keys ∧
      map = keys.zipWith (fun key v => ⟨key.1, key.2, v⟩) syms := by
  rw [buildCodes] at h
  split at h
  · cases h
  · rename_i keys hk
    cases h
    exact ⟨keys, hk, rfl⟩

end Sys2Proof.Machine
end

