-- ==== Sys2Proof/Laws/Moves.lean ====
section
/-! SUPPORT. Moving on after an operation (log entry 5), field by field, and the shapes `step` can take. -/

namespace Sys2Proof.Machine

section startBlock
variable (s : State)
@[simp] theorem startBlock_mem : (startBlock s).mem = s.mem := rfl
@[simp] theorem startBlock_len : (startBlock s).len = s.len := rfl
@[simp] theorem startBlock_mode : (startBlock s).mode = s.mode := rfl
@[simp] theorem startBlock_phase : (startBlock s).phase = s.phase := rfl
@[simp] theorem startBlock_fault : (startBlock s).fault = s.fault := rfl
@[simp] theorem startBlock_faultInfo : (startBlock s).faultInfo = s.faultInfo := rfl
@[simp] theorem startBlock_pos : (startBlock s).pos = s.pos := rfl
@[simp] theorem startBlock_bitOff : (startBlock s).bitOff = s.bitOff := rfl
@[simp] theorem startBlock_cur : (startBlock s).cur = s.cur := rfl
@[simp] theorem startBlock_acc : (startBlock s).acc = s.acc := rfl
@[simp] theorem startBlock_accLen : (startBlock s).accLen = s.accLen := rfl
@[simp] theorem startBlock_img : (startBlock s).img = s.img := rfl
@[simp] theorem startBlock_comp : (startBlock s).comp = s.comp := rfl
@[simp] theorem startBlock_qt : (startBlock s).qt = s.qt := rfl
@[simp] theorem startBlock_htDc : (startBlock s).htDc = s.htDc := rfl
@[simp] theorem startBlock_htAc : (startBlock s).htAc = s.htAc := rfl
@[simp] theorem startBlock_mstruct : (startBlock s).mstruct = s.mstruct := rfl
@[simp] theorem startBlock_mcuCols : (startBlock s).mcuCols = s.mcuCols := rfl
@[simp] theorem startBlock_mcuRows : (startBlock s).mcuRows = s.mcuRows := rfl
@[simp] theorem startBlock_mcuTotal : (startBlock s).mcuTotal = s.mcuTotal := rfl
@[simp] theorem startBlock_mcuIdx : (startBlock s).mcuIdx = s.mcuIdx := rfl
@[simp] theorem startBlock_blkIdx : (startBlock s).blkIdx = s.blkIdx := rfl
@[simp] theorem startBlock_k : (startBlock s).k = s.k := rfl
@[simp] theorem startBlock_blk : (startBlock s).blk = Block.zero := rfl
@[simp] theorem startBlock_mcu : (startBlock s).mcu = s.mcu := rfl
@[simp] theorem startBlock_out : (startBlock s).out = s.out := rfl
@[simp] theorem startBlock_skiplog : (startBlock s).skiplog = s.skiplog := rfl
@[simp] theorem startBlock_stage : (startBlock s).stage = .dc := rfl
@[simp] theorem startBlock_ret : (startBlock s).ret = s.ret := rfl
end startBlock

section enterScan
variable (s : State)
@[simp] theorem enterScan_mem : (enterScan s).mem = s.mem := rfl
@[simp] theorem enterScan_len : (enterScan s).len = s.len := rfl
@[simp] theorem enterScan_mode : (enterScan s).mode = s.mode := rfl
@[simp] theorem enterScan_phase : (enterScan s).phase = .scan := rfl
@[simp] theorem enterScan_fault : (enterScan s).fault = s.fault := rfl
@[simp] theorem enterScan_faultInfo : (enterScan s).faultInfo = s.faultInfo := rfl
@[simp] theorem enterScan_pos : (enterScan s).pos = s.pos := rfl
@[simp] theorem enterScan_bitOff : (enterScan s).bitOff = s.bitOff := rfl
@[simp] theorem enterScan_cur : (enterScan s).cur = s.cur := rfl
@[simp] theorem enterScan_acc : (enterScan s).acc = s.acc := rfl
@[simp] theorem enterScan_accLen : (enterScan s).accLen = s.accLen := rfl
@[simp] theorem enterScan_img : (enterScan s).img = s.img := rfl
@[simp] theorem enterScan_comp : (enterScan s).comp = s.comp := rfl
@[simp] theorem enterScan_qt : (enterScan s).qt = s.qt := rfl
@[simp] theorem enterScan_htDc : (enterScan s).htDc = s.htDc := rfl
@[simp] theorem enterScan_htAc : (enterScan s).htAc = s.htAc := rfl
@[simp] theorem enterScan_mstruct : (enterScan s).mstruct = s.mstruct := rfl
@[simp] theorem enterScan_mcuCols : (enterScan s).mcuCols = s.mcuCols := rfl
@[simp] theorem enterScan_mcuRows : (enterScan s).mcuRows = s.mcuRows := rfl
@[simp] theorem enterScan_mcuTotal : (enterScan s).mcuTotal = s.mcuTotal := rfl
@[simp] theorem enterScan_mcuIdx : (enterScan s).mcuIdx = s.mcuIdx := rfl
@[simp] theorem enterScan_blkIdx : (enterScan s).blkIdx = s.blkIdx := rfl
@[simp] theorem enterScan_k : (enterScan s).k = s.k := rfl
@[simp] theorem enterScan_blk : (enterScan s).blk = s.blk := rfl
@[simp] theorem enterScan_mcu : (enterScan s).mcu = s.mcu := rfl
@[simp] theorem enterScan_out : (enterScan s).out = s.out := rfl
@[simp] theorem enterScan_skiplog : (enterScan s).skiplog = s.skiplog := rfl
@[simp] theorem enterScan_stage : (enterScan s).stage = .check := rfl
@[simp] theorem enterScan_ret : (enterScan s).ret = s.ret := rfl
end enterScan

/-- The head of the MCU loop writes `mcu`, `blk_idx`, `mcu_idx`, `blk`, `out` and the stage alone. -/
theorem nextMcu_frame (s : State) :
    nextMcu s = { s with
      mcu := (nextMcu s).mcu, blkIdx := (nextMcu s).blkIdx, mcuIdx := (nextMcu s).mcuIdx, blk := (nextMcu s).blk,
      out := (nextMcu s).out, stage := (nextMcu s).stage } := by
  rw [nextMcu]
  split
  · split <;> (apply State.ext <;> simp)
  · rfl

section nextMcu
variable (s : State)
@[simp] theorem nextMcu_mem : (nextMcu s).mem = s.mem := by rw [nextMcu_frame]
@[simp] theorem nextMcu_len : (nextMcu s).len = s.len := by rw [nextMcu_frame]
@[simp] theorem nextMcu_mode : (nextMcu s).mode = s.mode := by rw [nextMcu_frame]
@[simp] theorem nextMcu_phase : (nextMcu s).phase = s.phase := by rw [nextMcu_frame]
@[simp] theorem nextMcu_fault : (nextMcu s).fault = s.fault := by rw [nextMcu_frame]
@[simp] theorem nextMcu_faultInfo : (nextMcu s).faultInfo = s.faultInfo := by rw [nextMcu_frame]
@[simp] theorem nextMcu_pos : (nextMcu s).pos = s.pos := by rw [nextMcu_frame]
@[simp] theorem nextMcu_bitOff : (nextMcu s).bitOff = s.bitOff := by rw [nextMcu_frame]
@[simp] theorem nextMcu_cur : (nextMcu s).cur = s.cur := by rw [nextMcu_frame]
@[simp] theorem nextMcu_acc : (nextMcu s).acc = s.acc := by rw [nextMcu_frame]
@[simp] theorem nextMcu_accLen : (nextMcu s).accLen = s.accLen := by rw [nextMcu_frame]
@[simp] theorem nextMcu_img : (nextMcu s).img = s.img := by rw [nextMcu_frame]
@[simp] theorem nextMcu_comp : (nextMcu s).comp = s.comp := by rw [nextMcu_frame]
@[simp] theorem nextMcu_qt : (nextMcu s).qt = s.qt := by rw [nextMcu_frame]
@[simp] theorem nextMcu_htDc : (nextMcu s).htDc = s.htDc := by rw [nextMcu_frame]
@[simp] theorem nextMcu_htAc : (nextMcu s).htAc = s.htAc := by rw [nextMcu_frame]
@[simp] theorem nextMcu_mstruct : (nextMcu s).mstruct = s.mstruct := by rw [nextMcu_frame]
@[simp] theorem nextMcu_mcuCols : (nextMcu s).mcuCols = s.mcuCols := by rw [nextMcu_frame]
@[simp] theorem nextMcu_mcuRows : (nextMcu s).mcuRows = s.mcuRows := by rw [nextMcu_frame]
@[simp] theorem nextMcu_mcuTotal : (nextMcu s).mcuTotal = s.mcuTotal := by rw [nextMcu_frame]
@[simp] theorem nextMcu_k : (nextMcu s).k = s.k := by rw [nextMcu_frame]
@[simp] theorem nextMcu_skiplog : (nextMcu s).skiplog = s.skiplog := by rw [nextMcu_frame]
@[simp] theorem nextMcu_ret : (nextMcu s).ret = s.ret := by rw [nextMcu_frame]
end nextMcu

/-- After a block the same fields alone are written. -/
theorem nextBlock_frame (s : State) :
    nextBlock s = { s with
      mcu := (nextBlock s).mcu, blkIdx := (nextBlock s).blkIdx, mcuIdx := (nextBlock s).mcuIdx,
      blk := (nextBlock s).blk, out := (nextBlock s).out, stage := (nextBlock s).stage } := by
  rw [nextBlock]
  split
  · apply State.ext <;> simp
  · apply State.ext <;> simp

section nextBlock
variable (s : State)
@[simp] theorem nextBlock_mem : (nextBlock s).mem = s.mem := by rw [nextBlock_frame]
@[simp] theorem nextBlock_len : (nextBlock s).len = s.len := by rw [nextBlock_frame]
@[simp] theorem nextBlock_mode : (nextBlock s).mode = s.mode := by rw [nextBlock_frame]
@[simp] theorem nextBlock_phase : (nextBlock s).phase = s.phase := by rw [nextBlock_frame]
@[simp] theorem nextBlock_fault : (nextBlock s).fault = s.fault := by rw [nextBlock_frame]
@[simp] theorem nextBlock_faultInfo : (nextBlock s).faultInfo = s.faultInfo := by rw [nextBlock_frame]
@[simp] theorem nextBlock_pos : (nextBlock s).pos = s.pos := by rw [nextBlock_frame]
@[simp] theorem nextBlock_bitOff : (nextBlock s).bitOff = s.bitOff := by rw [nextBlock_frame]
@[simp] theorem nextBlock_cur : (nextBlock s).cur = s.cur := by rw [nextBlock_frame]
@[simp] theorem nextBlock_acc : (nextBlock s).acc = s.acc := by rw [nextBlock_frame]
@[simp] theorem nextBlock_accLen : (nextBlock s).accLen = s.accLen := by rw [nextBlock_frame]
@[simp] theorem nextBlock_img : (nextBlock s).img = s.img := by rw [nextBlock_frame]
@[simp] theorem nextBlock_comp : (nextBlock s).comp = s.comp := by rw [nextBlock_frame]
@[simp] theorem nextBlock_qt : (nextBlock s).qt = s.qt := by rw [nextBlock_frame]
@[simp] theorem nextBlock_htDc : (nextBlock s).htDc = s.htDc := by rw [nextBlock_frame]
@[simp] theorem nextBlock_htAc : (nextBlock s).htAc = s.htAc := by rw [nextBlock_frame]
@[simp] theorem nextBlock_mstruct : (nextBlock s).mstruct = s.mstruct := by rw [nextBlock_frame]
@[simp] theorem nextBlock_mcuCols : (nextBlock s).mcuCols = s.mcuCols := by rw [nextBlock_frame]
@[simp] theorem nextBlock_mcuRows : (nextBlock s).mcuRows = s.mcuRows := by rw [nextBlock_frame]
@[simp] theorem nextBlock_mcuTotal : (nextBlock s).mcuTotal = s.mcuTotal := by rw [nextBlock_frame]
@[simp] theorem nextBlock_k : (nextBlock s).k = s.k := by rw [nextBlock_frame]
@[simp] theorem nextBlock_skiplog : (nextBlock s).skiplog = s.skiplog := by rw [nextBlock_frame]
@[simp] theorem nextBlock_ret : (nextBlock s).ret = s.ret := by rw [nextBlock_frame]
end nextBlock

/-- Once a session has ended, or before it begins, nothing moves on. -/
theorem advance_idle {i : Instr} {s : State} (h : s.phase ≠ .header) (h' : s.phase ≠ .scan) : advance i s = s := by
  rw [advance]
  split <;> first | rfl | contradiction

theorem advance_header {i : Instr} {s : State} (h : s.phase = .header) :
    advance i s = if endsHeader i then enterScan s else s := by
  rw [advance, h]

theorem advance_scan {i : Instr} {s : State} (h : s.phase = .scan) : advance i s = advanceScan s := by
  rw [advance, h]

/-- A step in which an operation is fetched. -/
theorem step_ok {s t : State} {i : Instr} (h : fetch s = .ok (some i) t) :
    step s = match exec i t with
      | .next u => .next (advance i u)
      | .fault f => .fault f
      | .refused r => .refused r := by
  cases he : exec i t <;> simp only [step, h, he]

/-- A step in which the fetch raises a fault. -/
theorem step_raised {s t : State} (h : fetch s = .raised t) : step s = .next t := by rw [step, h]

/-- What a step that answers a next state did. -/
theorem step_next {s t : State} (h : step s = .next t) :
    fetch s = .raised t ∨ fetch s = .ok none t ∨
      ∃ i u v, fetch s = .ok (some i) u ∧ exec i u = .next v ∧ t = advance i v := by
  rw [step] at h
  split at h
  · cases h
  · rename_i hf; cases h; exact .inl hf
  · rename_i hf; cases h; exact .inr (.inl hf)
  · rename_i i u hf
    split at h
    · rename_i v hv; cases h; exact .inr (.inr ⟨i, u, v, hf, hv, rfl⟩)
    · cases h
    · cases h

end Sys2Proof.Machine
end

