-- ==== Sys2Proof/Laws/PerInstr.lean ====
section
/-! SUPPORT. A family of facts about the operations as syntax, one lemma per constructor of Instr. -/

namespace Sys2Proof.Laws.EncodingShape

/-- An operation has a pattern exactly when it belongs to a pattern space, and a pattern is one byte or two (R80). -/
def Statement (i : Instr) : Prop := (encode i).length ≤ 2 ∧ (encode i = [] ↔ i.level = none)

theorem soi : Statement .soi := by simp [Statement, encode, Instr.level]
theorem dqt : Statement .dqt := by simp [Statement, encode, Instr.level]
theorem sof0 : Statement .sof0 := by simp [Statement, encode, Instr.level]
theorem dht : Statement .dht := by simp [Statement, encode, Instr.level]
theorem sos : Statement .sos := by simp [Statement, encode, Instr.level]
theorem skip (m : Byte) : Statement (.skip m) := by simp [Statement, encode, Instr.level]
theorem badmarker (lead : Byte) : Statement (.badmarker lead) := by simp [Statement, encode, Instr.level]
theorem data (b : Byte) : Statement (.data b) := by simp [Statement, encode, Instr.level]
theorem stuff : Statement .stuff := by simp [Statement, encode, Instr.level]
theorem badstuff (x : Byte) : Statement (.badstuff x) := by simp [Statement, encode, Instr.level]
theorem dcZero : Statement .dcZero := by simp [Statement, encode, Instr.level]
theorem dcMag (n : Nibble) : Statement (.dcMag n) := by simp [Statement, encode, Instr.level]
theorem dcBad (n : Byte) : Statement (.dcBad n) := by simp [Statement, encode, Instr.level]
theorem acEob : Statement .acEob := by simp [Statement, encode, Instr.level]
theorem acZrl : Statement .acZrl := by simp [Statement, encode, Instr.level]
theorem acRun (r : Nibble) : Statement (.acRun r) := by simp [Statement, encode, Instr.level]
theorem acCoef (r s : Nibble) : Statement (.acCoef r s) := by simp [Statement, encode, Instr.level]
theorem acBad (r s : Nibble) : Statement (.acBad r s) := by simp [Statement, encode, Instr.level]
theorem reset : Statement .reset := by simp [Statement, encode, Instr.level]
theorem start (stream : List Byte) (mode : MagnitudeMode) : Statement (.start stream mode) := by simp [Statement, encode, Instr.level]
theorem header : Statement .header := by simp [Statement, encode, Instr.level]
theorem markerFetch : Statement .markerFetch := by simp [Statement, encode, Instr.level]
theorem dispatch (m : Byte) : Statement (.dispatch m) := by simp [Statement, encode, Instr.level]
theorem fetchbyte : Statement .fetchbyte := by simp [Statement, encode, Instr.level]
theorem nextbit : Statement .nextbit := by simp [Statement, encode, Instr.level]
theorem readcode (c : HuffClass) (t : Nibble) : Statement (.readcode c t) := by simp [Statement, encode, Instr.level]
theorem readmag (n : Nibble) : Statement (.readmag n) := by simp [Statement, encode, Instr.level]
theorem checkConfig : Statement .checkConfig := by simp [Statement, encode, Instr.level]
theorem buildMstruct : Statement .buildMstruct := by simp [Statement, encode, Instr.level]
theorem grid : Statement .grid := by simp [Statement, encode, Instr.level]
theorem scan : Statement .scan := by simp [Statement, encode, Instr.level]
theorem decodeBlock (id : Byte) : Statement (.decodeBlock id) := by simp [Statement, encode, Instr.level]
theorem scanDone : Statement .scanDone := by simp [Statement, encode, Instr.level]

end Sys2Proof.Laws.EncodingShape
end

