-- ==== Sys2Proof/Laws/Scan.lean ====
section
/-! SUPPORT. What the scan-start check, the MCU structure and the grid computation say, and how the loops over them
end. -/

namespace Sys2Proof.Machine

variable {α : Type}

/-! ## Entries of a canonical list -/

theorem Slots.sortedFrom_le {lo k : Nat} {v : α} {m : List (Nat × α)} (h : Slots.sortedFrom lo m = true)
    (hm : (k, v) ∈ m) : lo ≤ k := by
  induction m generalizing lo with
  | nil => simp at hm
  | cons e m ih =>
    obtain ⟨j, w⟩ := e
    simp only [Slots.sortedFrom, Bool.and_eq_true, decide_eq_true_eq] at h
    rcases List.mem_cons.mp hm with e | e
    · cases e; exact h.1
    · have := ih h.2 e; omega

/-- In a canonical list an entry is found under its key. -/
theorem Slots.get_of_mem {lo k : Nat} {v : α} {m : List (Nat × α)} (h : Slots.sortedFrom lo m = true)
    (hm : (k, v) ∈ m) : Slots.get k m = some v := by
  induction m generalizing lo with
  | nil => simp at hm
  | cons e m ih =>
    obtain ⟨j, w⟩ := e
    simp only [Slots.sortedFrom, Bool.and_eq_true, decide_eq_true_eq] at h
    rcases List.mem_cons.mp hm with e | e
    · cases e; simp [Slots.get]
    · have := Slots.sortedFrom_le h.2 e
      rw [Slots.get, if_neg (by omega)]
      exact ih h.2 e

/-! ## CHECK_CONFIG -/

theorem samplingOk_iff (f : Nibble) : samplingOk f = true ↔ 1 ≤ f.toNat ∧ f.toNat ≤ 4 := by
  rw [samplingOk, decide_eq_true_iff]
  rfl

theorem componentError_none (s : State) (c : Component) : componentError s c = none ↔ c.Good s := by
  rw [componentError]
  constructor
  · intro h
    split at h
    · cases h
    rename_i hs
    split at h
    · cases h
    rename_i sel hsel
    split at h
    · cases h
    rename_i hq
    split at h
    · cases h
    rename_i hd
    split at h
    · cases h
    rename_i ha
    simp only [Bool.not_eq_true', Bool.not_eq_false, Bool.and_eq_true, samplingOk_iff] at hs
    simp only [Bool.or_eq_true, not_or, Bool.not_eq_true, Option.isNone_eq_false_iff,
      Config.lastQuantSlot] at hq hd ha
    exact ⟨⟨hs.1.1, hs.1.2, hs.2.1, hs.2.2⟩, ⟨Nat.le_of_not_lt (of_decide_eq_false hq.1), hq.2⟩, sel, hsel, hd, ha⟩
  · rintro ⟨⟨h1, h2, h3, h4⟩, ⟨h5, h6⟩, sel, h7, h8, h9⟩
    have hs : samplingOk c.H = true ∧ samplingOk c.V = true :=
      ⟨(samplingOk_iff _).mpr ⟨h1, h2⟩, (samplingOk_iff _).mpr ⟨h3, h4⟩⟩
    have h5' : ¬ 15 < c.tq.toNat := by omega
    simp [hs, h7, Config.lastQuantSlot, h5', Option.isSome_iff_ne_none.mp h6, Option.isSome_iff_ne_none.mp h8,
      Option.isSome_iff_ne_none.mp h9]

theorem componentsError_none (s : State) (l : List (Nat × Component)) :
    componentsError s l = none ↔ ∀ e ∈ l, e.2.Good s := by
  induction l with
  | nil => simp [componentsError]
  | cons e l ih =>
    rw [componentsError, List.forall_mem_cons, ← ih, ← componentError_none]
    cases h : componentError s e.2 <;> simp

/-- The scan-start check finds nothing in a good configuration. -/
theorem configError_none (s : State) : configError s = none ↔ s.ConfigGood := by
  rw [configError, State.ConfigGood, ← componentsError_none]
  cases h : s.compAt 1 <;> simp

/-- The scan-start check reads the descriptor and table stores alone. -/
theorem configError_congr {s t : State} (h1 : t.comp = s.comp) (h2 : t.qt = s.qt) (h3 : t.htDc = s.htDc)
    (h4 : t.htAc = s.htAc) : configError t = configError s := by
  have hc (c : Component) : componentError t c = componentError s c := by
    have hq (n : Nat) : t.qtAt n = s.qtAt n := by rw [State.qtAt, State.qtAt, h2]
    have hh (c : HuffClass) (n : Nibble) : t.htAt c n = s.htAt c n := by
      cases c
      · exact congrArg (Slots.get n.toNat) h3
      · exact congrArg (Slots.get n.toNat) h4
    simp only [componentError, hq, hh]
  have hl (l : List (Nat × Component)) : componentsError t l = componentsError s l := by
    induction l with
    | nil => rfl
    | cons e l ih => rw [componentsError, componentsError, hc, ih]
  rw [configError, configError, State.compAt, State.compAt, h1, hl]

theorem checkConfigOp_ends (s : State) :
    (checkConfigOp s).Ends (fun _ t => configError s = none ∧ t = s)
      fun t => ∃ r id, configError s = some (r, id) ∧ t = s.raise (.invalidConfiguration r id) := by
  rw [checkConfigOp]
  cases h : configError s with
  | none => exact ⟨rfl, rfl⟩
  | some e => exact ⟨e.1, e.2, rfl, rfl⟩

theorem componentError_reason {s : State} {c : Component} {r : ConfigReason} (h : componentError s c = some r) :
    r ≠ .huffOversubscribed := by
  rintro rfl
  rw [componentError] at h
  repeat' split at h
  all_goals cases h

/-- The reasons the scan-start check can find. -/
theorem configError_reason {s : State} {r : ConfigReason} {id : Nat} (h : configError s = some (r, id)) :
    r ≠ .huffOversubscribed := by
  rw [configError] at h
  split at h
  · cases h; exact nofun
  · generalize s.comp = l at h
    induction l with
    | nil => cases h
    | cons e l ih =>
      rw [componentsError] at h
      split at h
      · rename_i hr
        cases h
        exact componentError_reason hr
      · exact ih h

/-! ## The MCU structure -/

/-- Every entry of the MCU structure is a declared component. -/
theorem mem_mstructOf {s : State} (hs : s.StoresOk) {id : Byte} (h : id ∈ mstructOf s.comp) :
    ∃ c, (id.toNat, c) ∈ s.comp ∧ s.compAt id.toNat = some c := by
  obtain ⟨e, he, h1⟩ := List.mem_flatMap.mp h
  have h2 := (List.mem_replicate.mp h1).2
  have h3 : id.toNat = e.1 := by
    rw [h2, BitVec.toNat_ofNat]
    exact Nat.mod_eq_of_lt (hs.compIds e he)
  exact ⟨e.2, h3 ▸ he, h3 ▸ Slots.get_of_mem hs.comp he⟩

/-- In a good configuration the tables of every entry of the MCU structure are loaded. -/
theorem tablesOf_good {s : State} (hs : s.StoresOk) (hg : s.ConfigGood) {id : Byte} (h : id ∈ mstructOf s.comp) :
    (s.tablesOf id).isSome = true := by
  obtain ⟨c, h1, h2⟩ := mem_mstructOf hs h
  obtain ⟨-, -, sel, h3, h4, h5⟩ := hg.2 _ h1
  obtain ⟨dct, hd⟩ := Option.isSome_iff_exists.mp h4
  obtain ⟨act, ha⟩ := Option.isSome_iff_exists.mp h5
  simp only at h3
  simp [State.tablesOf, h2, h3, hd, ha]

/-- In a good configuration the MCU structure has an entry. -/
theorem mstructOf_ne_nil {s : State} (hg : s.ConfigGood) : mstructOf s.comp ≠ [] := by
  obtain ⟨c, hc⟩ := Option.isSome_iff_exists.mp hg.1
  have h1 := Slots.get_mem hc
  obtain ⟨⟨h2, -, h3, -⟩, -⟩ := hg.2 _ h1
  intro h
  have h4 : c.H.toNat * c.V.toNat = 0 := by
    have := List.flatMap_eq_nil_iff.mp h _ h1
    rw [List.replicate_eq_nil_iff] at this
    exact this
  rcases Nat.mul_eq_zero.mp h4 with h5 | h5
  · simp only at h2; omega
  · simp only at h3; omega

/-! ## The loops -/

/-- From `s` to `t` the assembler ran over blocks and MCUs. -/
structure State.Scanned (s t : State) : Prop where
  forward : s.Forward t
  frame : t = { s with
    pos := t.pos, bitOff := t.bitOff, cur := t.cur, acc := t.acc, accLen := t.accLen, k := t.k, blk := t.blk,
    mcu := t.mcu, blkIdx := t.blkIdx, out := t.out, mcuIdx := t.mcuIdx }

theorem State.Scanned.refl (s : State) : s.Scanned s := ⟨.refl s, rfl⟩
theorem State.Scanned.len {s t : State} (h : s.Scanned t) : t.len = s.len := by rw [h.frame]
theorem State.Scanned.trans {s t u : State} (h : s.Scanned t) (h' : t.Scanned u) : s.Scanned u :=
  ⟨h.forward.trans h.len h'.forward, by rw [h'.frame, h.frame]⟩
theorem State.Assembled.scanned {s t : State} (h : s.Assembled t) : s.Scanned t := ⟨h.forward, by rw [h.frame]⟩
theorem State.Scanned.tablesOf {s t : State} (h : s.Scanned t) (id : Byte) : t.tablesOf id = s.tablesOf id := by
  rw [h.frame]; rfl
theorem State.Scanned.mstruct {s t : State} (h : s.Scanned t) : t.mstruct = s.mstruct := by rw [h.frame]
theorem State.Scanned.mcuTotal {s t : State} (h : s.Scanned t) : t.mcuTotal = s.mcuTotal := by rw [h.frame]

theorem scanBlocks_ends (ids : List Byte) (s : State) (hi : ∀ id ∈ ids, (s.tablesOf id).isSome = true) :
    (scanBlocks ids s).Ends
      (fun _ t => s.Scanned t ∧ t.out = s.out ∧ t.mcuIdx = s.mcuIdx ∧ t.mcu.length = s.mcu.length + ids.length)
      (Raised State.Scanned FaultInfo.ofBlock s) := by
  induction ids generalizing s with
  | nil => exact ⟨.refl s, rfl, rfl, rfl⟩
  | cons cid ids ih =>
    refine ((decodeBlockOp_ends (hi cid (List.mem_cons_self ..))).imp (fun _ _ h => h) fun _ h =>
      h.imp (fun _ h => h.1.scanned) fun _ => id).bind fun b t h1 => ?_
    have k1 : s.Scanned ((t.setMcu (t.mcu ++ [b])).setBlkIdx (t.blkIdx + 1)) := h1.1.scanned.trans ⟨.refl t, rfl⟩
    refine (ih _ fun i h => ?_).imp ?_ fun _ h => h.imp (fun _ => k1.trans) fun _ => id
    · rw [k1.tablesOf]; exact hi i (List.mem_cons_of_mem _ h)
    · rintro _ u ⟨h2, h3, h4, h5⟩
      refine ⟨k1.trans h2, h3.trans (by rw [State.setBlkIdx_out, State.setMcu_out, h1.1.frame]), h4.trans
        (by rw [State.setBlkIdx_mcuIdx, State.setMcu_mcuIdx, h1.1.frame]), ?_⟩
      rw [h5, State.setBlkIdx_mcu, State.setMcu_mcu, h1.1.frame, List.length_append, List.length_cons,
        List.length_cons, List.length_nil]
      show s.mcu.length + (0 + 1) + ids.length = _
      omega

theorem scanMcus_ends (n : Nat) (s : State) (hi : ∀ id ∈ s.mstruct, (s.tablesOf id).isSome = true) :
    (scanMcus n s).Ends
      (fun _ t => s.Scanned t ∧ t.mcuIdx = s.mcuIdx + n ∧ ∃ more : List (List Block), t.out = s.out ++ more ∧
        more.length = n ∧ ∀ m ∈ more, m.length = s.mlen)
      (Raised State.Scanned FaultInfo.ofBlock s) := by
  induction n generalizing s with
  | zero => exact ⟨.refl s, rfl, [], by simp, rfl, by simp⟩
  | succ n ih =>
    have k0 : s.Scanned ((s.setMcu []).setBlkIdx 0) := ⟨.refl s, rfl⟩
    refine ((scanBlocks_ends s.mstruct ((s.setMcu []).setBlkIdx 0) fun id h => by
      rw [k0.tablesOf]; exact hi id h).imp (fun _ _ h => h) fun _ h =>
        h.imp (fun _ => k0.trans) fun _ => id).bind fun _ t h1 => ?_
    obtain ⟨h1, h2, h3, h4⟩ := h1
    have k1 : s.Scanned ((t.setOut (t.out ++ [t.mcu])).setMcuIdx (t.mcuIdx + 1)) :=
      (k0.trans h1).trans ⟨.refl t, rfl⟩
    refine (ih _ fun id h => ?_).imp ?_ fun _ h => h.imp (fun _ => k1.trans) fun _ => id
    · rw [k1.mstruct] at h
      rw [k1.tablesOf]
      exact hi id h
    · rintro _ u ⟨h5, h6, more, h7, h8, h9⟩
      have e2 : t.out = s.out := h2
      have e3 : t.mcuIdx = s.mcuIdx := h3
      have e4 : t.mcu.length = s.mlen := by rw [h4]; simp [State.mlen]
      refine ⟨k1.trans h5, ?_, t.mcu :: more, ?_, by simp [h8], ?_⟩
      · rw [h6, State.setMcuIdx_mcuIdx, e3]; omega
      · rw [h7, State.setMcuIdx_out, State.setOut_out, e2]; simp
      · intro m hm
        rcases List.mem_cons.mp hm with rfl | hm
        · exact e4
        · rw [h9 m hm, State.mlen, State.mlen, k1.mstruct]

end Sys2Proof.Machine
end

