-- ==== Sys2Proof/Laws/Segments.lean ====
section
/-! SUPPORT. One lemma per operation of the header phase that says everything it can do: the read primitives, the
segment handlers, the marker fetch and SKIP. -/

namespace Sys2Proof.Machine

/-- The faults of the header phase (R220). -/
def FaultInfo.ofHeader : FaultInfo → Bool
  | .malformedMarker _ _ | .unexpectedEndOfStream _ | .invalidSegmentLength _ _ | .componentCountMismatch _ _ _
  | .symbolCountMismatch _ _ _ | .unknownComponent _ _ | .invalidConfiguration .huffOversubscribed _ => true
  | _ => false

/-- From `s` to `t` only the cursor moved. -/
structure State.Moved (s t : State) : Prop where
  forward : s.Forward t
  frame : t = s.setPos t.pos

theorem State.Moved.refl (s : State) : s.Moved s := ⟨.refl s, rfl⟩

theorem State.Moved.trans {s t u : State} (h : s.Moved t) (h' : t.Moved u) : s.Moved u :=
  ⟨h.forward.trans (by rw [h.frame]; rfl) h'.forward, by rw [h'.frame, h.frame]; rfl⟩

theorem State.moved_setPos {s : State} {n : Nat} (h : s.pos ≤ n) (h' : s.pos ≤ s.len → n ≤ s.len) :
    s.Moved (s.setPos n) := ⟨⟨h, h'⟩, rfl⟩

theorem Raised.moved {s t u : State} {p : FaultInfo → Bool} (h : s.Moved t) (hu : Raised State.Moved p t u) :
    Raised State.Moved p s u := hu.imp (fun _ => h.trans) fun _ => id

/-! ## Read primitives -/

theorem rd8_moved (s : State) :
    (rd8 s).Ends (fun b t => b = s.byteAt s.pos ∧ s.pos + 1 ≤ s.len ∧ t = s.setPos (s.pos + 1))
      (Raised State.Moved FaultInfo.ofHeader s) :=
  (rd8_ends s).imp (fun _ _ h => h) fun _ h => h.1 ▸ ⟨s, _, .refl s, rfl, rfl⟩

theorem rd16_moved (s : State) :
    (rd16 s).Ends
      (fun h t => h = be16 (s.byteAt s.pos) (s.byteAt (s.pos + 1)) ∧ s.pos + 2 ≤ s.len ∧ t = s.setPos (s.pos + 2))
      (Raised State.Moved FaultInfo.ofHeader s) := by
  refine (rd8_moved s).bind ?_
  rintro b t ⟨rfl, hlt, rfl⟩
  refine ((rd8_moved _).imp (fun _ _ h => h) fun u hu =>
    Raised.moved (s.moved_setPos (by omega) fun _ => hlt) hu).bind ?_
  rintro c t ⟨rfl, hlt', rfl⟩
  exact ⟨rfl, hlt', rfl⟩

theorem consume_moved (n : Nat) (s : State) :
    (consume n s).Ends
      (fun d t => d = s.bytesFrom s.pos n ∧ s.pos + n ≤ s.len ∧ t = s.setPos (s.pos + n))
      (Raised State.Moved FaultInfo.ofHeader s) := by
  rcases Nat.lt_or_ge s.len (s.pos + n) with h | h
  · rw [consume_end h]; exact ⟨s, _, .refl s, rfl, rfl⟩
  · rw [consume_ok h]; exact ⟨rfl, h, rfl⟩

theorem rdBytes_moved (n : Nat) (s : State) :
    (rdBytes n s).Ends
      (fun d t => d = s.bytesFrom s.pos n ∧ (n = 0 ∨ s.pos + n ≤ s.len) ∧ t = s.setPos (s.pos + n))
      (Raised State.Moved FaultInfo.ofHeader s) := by
  rcases Nat.lt_or_ge s.len (s.pos + n) with h | h
  · rcases Nat.lt_or_ge s.len s.pos with h' | h'
    · cases n with
      | zero => exact ⟨rfl, .inl rfl, rfl⟩
      | succ n => rw [rdBytes, rd8_end (by omega)]; exact ⟨s, _, .refl s, rfl, rfl⟩
    · rw [rdBytes_end h' h]
      exact ⟨_, _, s.moved_setPos h' fun _ => Nat.le_refl _, rfl, rfl⟩
  · rw [rdBytes_ok h]; exact ⟨rfl, .inr h, rfl⟩

/-! ## DQT -/

theorem bePairs_length (d : List Byte) : (bePairs d).length = d.length / 2 := by
  induction d using bePairs.induct with
  | case1 hi lo rest ih => simp [bePairs, ih]; omega
  | case2 d h =>
    cases d with
    | nil => rfl
    | cons a d =>
      cases d with
      | nil => simp [bePairs]
      | cons b d => exact absurd rfl (h a b d)

theorem bePairs_get (d : List Byte) (i : Nat) (h : 2 * i + 1 < d.length) :
    (bePairs d)[i]? = some (be16 (d.getD (2 * i) 0) (d.getD (2 * i + 1) 0)) := by
  induction d using bePairs.induct generalizing i with
  | case1 hi lo rest ih =>
    cases i with
    | zero => rfl
    | succ i =>
      have e : 2 * (i + 1) = 2 * i + 1 + 1 := by omega
      rw [bePairs, List.getElem?_cons_succ, ih i (by simp only [List.length_cons] at h; omega), e]
      rfl
  | case2 d h' =>
    cases d with
    | nil => simp at h
    | cons a d =>
      cases d with
      | nil => simp at h
      | cons b d => exact absurd rfl (h' a b d)

theorem quantValid_bytes {d : List Byte} (h : d.length = Config.quantEntries) :
    (⟨false, d.map ofByte⟩ : QuantTable).Valid := by
  refine ⟨by simpa using h, fun _ x hx => ?_⟩
  obtain ⟨b, -, rfl⟩ := List.mem_map.mp hx
  have := b.isLt
  simp only [ofByte, BitVec.zeroExtend, BitVec.toNat_setWidth]
  omega

theorem quantValid_pairs {d : List Byte} (h : d.length = 2 * Config.quantEntries) :
    (⟨true, bePairs d⟩ : QuantTable).Valid := by
  refine ⟨?_, fun h => nomatch h⟩
  show (bePairs d).length = _
  rw [bePairs_length, h]
  rfl

/-- DQT loads one valid table, into the slot its second byte names, or raises with nothing but the cursor moved. -/
theorem dqtOp_ends (s : State) :
    (dqtOp s).Ends
      (fun _ t => s.Forward t ∧ ∃ q : QuantTable, q.Valid ∧
        t = (s.putQt (loNibble (s.byteAt (s.pos + 2))) q).setPos t.pos)
      (Raised State.Moved FaultInfo.ofHeader s) := by
  refine (rd16_moved s).bind ?_
  rintro lq t ⟨rfl, h1, rfl⟩
  have m1 := s.moved_setPos (n := s.pos + 2) (by omega) fun _ => h1
  refine ((rd8_moved _).imp (fun _ _ h => h) fun u => Raised.moved m1).bind ?_
  rintro pt t ⟨hpt, h2, rfl⟩
  simp only [State.setPos_pos, State.setPos_len, State.byteAt_setPos, State.setPos_setPos, Nat.add_assoc,
    Nat.reduceAdd] at h2 hpt ⊢
  have m2 := s.moved_setPos (n := s.pos + 3) (by omega) fun _ => h2
  generalize be16 (s.byteAt s.pos) (s.byteAt (s.pos + 1)) = lq
  split
  · exact ⟨_, _, m2, rfl, rfl⟩
  refine ((consume_moved _ _).imp (fun _ _ h => h) fun u => Raised.moved m2).bind ?_
  rintro d t ⟨rfl, h3, rfl⟩
  simp only [State.setPos_pos, State.setPos_len, State.bytesFrom_setPos, State.setPos_setPos] at h3 ⊢
  have m3 := s.moved_setPos (n := s.pos + 3 + (lq.toNat - 3)) (by omega) fun _ => h3
  rw [← hpt]
  by_cases hp : hiNibble pt = 0
  · rw [if_pos hp]
    by_cases hn : lq.toNat - 3 ≠ Config.quantEntries
    · rw [if_pos hn]
      exact ⟨_, _, m3, rfl, rfl⟩
    · rw [if_neg hn]
      refine ⟨m3.forward, _, quantValid_bytes ?_, rfl⟩
      rw [State.bytesFrom, Memory.slice_length]
      exact not_not.mp hn
  · rw [if_neg hp]
    by_cases hn : lq.toNat - 3 ≠ 2 * Config.quantEntries
    · rw [if_pos hn]
      exact ⟨_, _, m3, rfl, rfl⟩
    · rw [if_neg hn]
      refine ⟨m3.forward, _, quantValid_pairs ?_, rfl⟩
      rw [State.bytesFrom, Memory.slice_length]
      exact not_not.mp hn

/-! ## SOF0 -/

/-- From `s` to `t` the cursor moved and SOF0's entries declared components. -/
def State.Declared (s t : State) : Prop :=
  s.Forward t ∧ ∃ es : List (Byte × Byte × Byte),
    t = (es.foldl (fun s e => s.declare e.1 e.2.1 e.2.2) s).setPos t.pos

theorem declare_fold_setPos (es : List (Byte × Byte × Byte)) (s : State) (p : Nat) :
    es.foldl (fun s e => s.declare e.1 e.2.1 e.2.2) (s.setPos p) =
      (es.foldl (fun s e => s.declare e.1 e.2.1 e.2.2) s).setPos p := by
  induction es generalizing s with
  | nil => rfl
  | cons e es ih => rw [List.foldl_cons, List.foldl_cons, ← ih]; rfl

theorem declare_fold_moved (es : List (Byte × Byte × Byte)) (s : State) (p q : Nat) :
    (es.foldl (fun s e => s.declare e.1 e.2.1 e.2.2) (s.setPos p)).setPos q =
      (es.foldl (fun s e => s.declare e.1 e.2.1 e.2.2) s).setPos q := by
  rw [declare_fold_setPos]
  rfl

theorem declare_fold_len (es : List (Byte × Byte × Byte)) (s : State) :
    (es.foldl (fun s e => s.declare e.1 e.2.1 e.2.2) s).len = s.len := by
  induction es generalizing s with
  | nil => rfl
  | cons e es ih => exact ih _

theorem State.Moved.declared {s t : State} (h : s.Moved t) : s.Declared t := ⟨h.forward, [], h.frame⟩

theorem sof0Entries_ends (n : Nat) (s : State) :
    (sof0Entries n s).Ends (fun _ t => s.Declared t) (Raised State.Declared FaultInfo.ofHeader s) := by
  induction n generalizing s with
  | zero => exact (State.Moved.refl s).declared
  | succ n ih =>
    have hr {t u : State} (h : s.Moved t) (hu : Raised State.Moved FaultInfo.ofHeader t u) :
        Raised State.Declared FaultInfo.ofHeader s u :=
      hu.imp (fun _ h' => (h.trans h').declared) fun _ => id
    refine ((rd8_moved s).imp (fun _ _ h => h) fun u => hr (.refl s)).bind ?_
    rintro c t ⟨rfl, h1, rfl⟩
    refine ((rd8_moved _).imp (fun _ _ h => h) fun u => hr (s.moved_setPos (by omega) fun _ => h1)).bind ?_
    rintro hv t ⟨rfl, h2, rfl⟩
    refine ((rd8_moved _).imp (fun _ _ h => h) fun u => hr (s.moved_setPos (by simp only [State.setPos_pos]; omega) fun _ => h2)).bind ?_
    rintro tq t ⟨rfl, h3, rfl⟩
    simp only [State.setPos_pos, State.setPos_len, State.byteAt_setPos, State.setPos_setPos, Nat.add_assoc,
      Nat.reduceAdd] at h3 ⊢
    have key : ∀ u, ((s.setPos (s.pos + 3)).declare (s.byteAt s.pos) (s.byteAt (s.pos + 1))
        (s.byteAt (s.pos + 2))).Declared u → s.Declared u := by
      rintro u ⟨hf, es, he⟩
      refine ⟨⟨by have := hf.1; change s.pos + 3 ≤ u.pos at this; omega, fun _ => hf.2 h3⟩,
        (s.byteAt s.pos, s.byteAt (s.pos + 1), s.byteAt (s.pos + 2)) :: es, ?_⟩
      rw [List.foldl_cons, he]
      exact declare_fold_moved es (s.declare (s.byteAt s.pos) (s.byteAt (s.pos + 1)) (s.byteAt (s.pos + 2)))
        (s.pos + 3) u.pos
    exact (ih _).imp (fun _ u => key u) fun u hu => hu.imp key fun _ => id

/-- SOF0 sets the image size and declares components, or raises: before the size is written with only the cursor
moved, after it among the entries. -/
theorem sof0Op_ends (s : State) :
    (sof0Op s).Ends (fun _ t => ∃ im, (s.setImg (some im)).Declared t)
      fun t => Raised State.Moved FaultInfo.ofHeader s t ∨
        ∃ im, Raised State.Declared FaultInfo.ofHeader (s.setImg (some im)) t := by
  refine ((rd16_moved s).imp (fun _ _ h => h) fun u => .inl).bind ?_
  rintro lf t ⟨rfl, h1, rfl⟩
  refine ((rd8_moved _).imp (fun _ _ h => h) fun u hu =>
    .inl (hu.moved (s.moved_setPos (by omega) fun _ => h1))).bind ?_
  rintro p t ⟨-, h2, rfl⟩
  refine ((rd16_moved _).imp (fun _ _ h => h) fun u hu =>
    .inl (hu.moved (s.moved_setPos (by simp only [State.setPos_pos]; omega) fun _ => h2))).bind ?_
  rintro y t ⟨rfl, h3, rfl⟩
  refine ((rd16_moved _).imp (fun _ _ h => h) fun u hu =>
    .inl (hu.moved (s.moved_setPos (by simp; omega) fun _ => h3))).bind ?_
  rintro x t ⟨rfl, h4, rfl⟩
  refine ((rd8_moved _).imp (fun _ _ h => h) fun u hu =>
    .inl (hu.moved (s.moved_setPos (by simp; omega) fun _ => h4))).bind ?_
  rintro nf t ⟨rfl, h5, rfl⟩
  simp only [State.setPos_pos, State.setPos_len, State.byteAt_setPos, State.setPos_setPos, Nat.add_assoc,
    Nat.reduceAdd] at h5 ⊢
  split
  · exact .inl ⟨_, _, s.moved_setPos (by omega) fun _ => h5, rfl, rfl⟩
  · generalize (⟨_, _⟩ : Image) = im
    have key : ∀ u, ((s.setPos (s.pos + 8)).setImg (some im)).Declared u → (s.setImg (some im)).Declared u := by
      rintro u ⟨hf, es, he⟩
      refine ⟨⟨by have := hf.1; change s.pos + 8 ≤ u.pos at this; show s.pos ≤ u.pos; omega, fun _ => hf.2 h5⟩,
        es, ?_⟩
      rw [he]
      exact declare_fold_moved es (s.setImg (some im)) (s.pos + 8) u.pos
    exact (sof0Entries_ends _ _).imp (fun _ u hu => ⟨im, key u hu⟩) fun u hu => .inr ⟨im, hu.imp key fun _ => id⟩

/-! ## DHT -/

/-- DHT stores a table built from its histogram, or raises with nothing but the cursor moved. -/
theorem dhtOp_ends (s : State) :
    (dhtOp s).Ends
      (fun _ t => s.Forward t ∧ ∃ (counts syms : List Byte) (map : List HuffEntry), counts.length = 16 ∧
        syms.length = countsTotal counts ∧ buildCodes counts syms = .ok map ∧
        t = (s.putHt (classBit (s.byteAt (s.pos + 2))) (loNibble (s.byteAt (s.pos + 2)))
          ⟨countsTotal counts, map⟩).setPos t.pos)
      (Raised State.Moved FaultInfo.ofHeader s) := by
  refine (rd16_moved s).bind ?_
  rintro lh t ⟨-, h1, rfl⟩
  refine ((rd8_moved _).imp (fun _ _ h => h) fun u => Raised.moved (s.moved_setPos (by omega) fun _ => h1)).bind ?_
  rintro tb t ⟨rfl, h2, rfl⟩
  simp only [State.setPos_pos, State.setPos_len, State.byteAt_setPos, State.setPos_setPos, Nat.add_assoc,
    Nat.reduceAdd] at h2 ⊢
  refine ((rdBytes_moved _ _).imp (fun _ _ h => h) fun u =>
    Raised.moved (s.moved_setPos (by omega) fun _ => h2)).bind ?_
  rintro counts t ⟨hc, h3, rfl⟩
  have hl : counts.length = 16 := by rw [hc, State.bytesFrom, Memory.slice_length]
  simp only [State.setPos_pos, State.setPos_len, State.setPos_setPos, Nat.add_assoc, Nat.reduceAdd] at h3 ⊢
  have h3 : s.pos + 19 ≤ s.len := by omega
  have m3 := s.moved_setPos (n := s.pos + 19) (by omega) fun _ => h3
  split
  · exact ⟨_, _, m3, rfl, rfl⟩
  refine ((consume_moved _ _).imp (fun _ _ h => h) fun u => Raised.moved m3).bind ?_
  rintro syms t ⟨hsy, h4, rfl⟩
  have hl' : syms.length = countsTotal counts := by rw [hsy, State.bytesFrom, Memory.slice_length]
  simp only [State.setPos_pos, State.setPos_len, State.setPos_setPos] at h4 ⊢
  have m4 := s.moved_setPos (n := s.pos + 19 + countsTotal counts) (by omega) fun _ => h4
  split
  · exact ⟨_, _, m4, rfl, rfl⟩
  · rename_i map hm
    refine ⟨?_, counts, syms, map, hl, hl', hm, ?_⟩
    · cases classBit (s.byteAt (s.pos + 2)) <;> exact m4.forward
    · cases classBit (s.byteAt (s.pos + 2)) <;> rfl

/-! ## SOS -/

/-- From `s` to `t` the cursor moved and SOS's entries bound selectors. -/
def State.Selected (s t : State) : Prop :=
  s.Forward t ∧ ∃ es : List ScanEntry, t = (es.foldl (fun s e => s.select e) s).setPos t.pos

theorem select_setPos (e : ScanEntry) (s : State) (p : Nat) : (s.setPos p).select e = (s.select e).setPos p := by
  rw [State.select, State.select]
  show (match s.compAt e.id.toNat with | some c => _ | none => _) = _
  cases s.compAt e.id.toNat <;> rfl

theorem select_fold_setPos (es : List ScanEntry) (s : State) (p : Nat) :
    es.foldl (fun s e => s.select e) (s.setPos p) = (es.foldl (fun s e => s.select e) s).setPos p := by
  induction es generalizing s with
  | nil => rfl
  | cons e es ih => rw [List.foldl_cons, select_setPos, ih, List.foldl_cons]

theorem select_fold_moved (es : List ScanEntry) (s : State) (p q : Nat) :
    (es.foldl (fun s e => s.select e) (s.setPos p)).setPos q = (es.foldl (fun s e => s.select e) s).setPos q := by
  rw [select_fold_setPos]
  rfl

theorem State.Moved.selected {s t : State} (h : s.Moved t) : s.Selected t := ⟨h.forward, [], h.frame⟩

theorem State.Selected.len {s t : State} (h : s.Selected t) : t.len = s.len := by
  obtain ⟨-, es, he⟩ := h
  rw [he]
  clear he
  show (es.foldl (fun s e => s.select e) s).len = s.len
  induction es generalizing s with
  | nil => rfl
  | cons e es ih =>
    rw [List.foldl_cons, ih, State.select]
    split <;> rfl

theorem State.Selected.moved {s t u : State} (h : s.Selected t) (h' : t.Moved u) : s.Selected u := by
  obtain ⟨es, he⟩ := h.2
  refine ⟨h.1.trans h.len h'.forward, es, ?_⟩
  rw [h'.frame, he]
  rfl

theorem sosEntries_ends (n : Nat) (s : State) :
    (sosEntries n s).Ends (fun _ t => s.Selected t) (Raised State.Selected FaultInfo.ofHeader s) := by
  induction n generalizing s with
  | zero => exact (State.Moved.refl s).selected
  | succ n ih =>
    have hr {t u : State} (h : s.Moved t) (hu : Raised State.Moved FaultInfo.ofHeader t u) :
        Raised State.Selected FaultInfo.ofHeader s u :=
      hu.imp (fun _ h' => (h.trans h').selected) fun _ => id
    refine ((rd8_moved s).imp (fun _ _ h => h) fun u => hr (.refl s)).bind ?_
    rintro c t ⟨rfl, h1, rfl⟩
    refine ((rd8_moved _).imp (fun _ _ h => h) fun u => hr (s.moved_setPos (by omega) fun _ => h1)).bind ?_
    rintro sel t ⟨rfl, h2, rfl⟩
    simp only [State.setPos_pos, State.setPos_len, State.byteAt_setPos, State.setPos_setPos, Nat.add_assoc,
      Nat.reduceAdd] at h2 ⊢
    have m2 := s.moved_setPos (n := s.pos + 2) (by omega) fun _ => h2
    split
    · exact ⟨_, _, m2.selected, rfl, rfl⟩
    rename_i c hc
    have key : ∀ u, (State.putComp (s.byteAt s.pos)
        ⟨c.H, c.V, c.tq, some ⟨hiNibble (s.byteAt (s.pos + 1)), loNibble (s.byteAt (s.pos + 1))⟩⟩
        (s.setPos (s.pos + 2))).Selected u → s.Selected u := by
      rintro u ⟨hf, es, he⟩
      refine ⟨⟨by have := hf.1; change s.pos + 2 ≤ u.pos at this; omega, fun _ => hf.2 h2⟩,
        ⟨s.byteAt s.pos, hiNibble (s.byteAt (s.pos + 1)), loNibble (s.byteAt (s.pos + 1))⟩ :: es, ?_⟩
      have e1 : s.compAt (s.byteAt s.pos).toNat = some c := hc
      rw [List.foldl_cons, he, State.select]
      simp only [e1]
      exact select_fold_moved es (s.putComp (s.byteAt s.pos)
        ⟨c.H, c.V, c.tq, some ⟨hiNibble (s.byteAt (s.pos + 1)), loNibble (s.byteAt (s.pos + 1))⟩⟩) (s.pos + 2) u.pos
    exact (ih _).imp (fun _ u => key u) fun u hu => hu.imp key fun _ => id

/-- SOS binds selectors of declared components, or raises with the selectors bound until then. -/
theorem sosOp_ends (s : State) :
    (sosOp s).Ends (fun _ t => s.Selected t) (Raised State.Selected FaultInfo.ofHeader s) := by
  have hr {t u : State} (h : s.Moved t) (hu : Raised State.Moved FaultInfo.ofHeader t u) :
      Raised State.Selected FaultInfo.ofHeader s u :=
    hu.imp (fun _ h' => (h.trans h').selected) fun _ => id
  refine ((rd16_moved s).imp (fun _ _ h => h) fun u => hr (.refl s)).bind ?_
  rintro ls t ⟨-, h1, rfl⟩
  refine ((rd8_moved _).imp (fun _ _ h => h) fun u => hr (s.moved_setPos (by omega) fun _ => h1)).bind ?_
  rintro ns t ⟨-, h2, rfl⟩
  simp only [State.setPos_pos, State.setPos_len, State.setPos_setPos, Nat.add_assoc,
    Nat.reduceAdd] at h2 ⊢
  have key : ∀ u, (s.setPos (s.pos + 3)).Selected u → s.Selected u := by
    rintro u ⟨hf, es, he⟩
    refine ⟨⟨by have := hf.1; change s.pos + 3 ≤ u.pos at this; omega, fun _ => hf.2 h2⟩, es, ?_⟩
    rw [he]
    exact select_fold_moved es s (s.pos + 3) u.pos
  refine ((sosEntries_ends _ _).imp (fun _ u => key u) fun u hu => hu.imp key fun _ => id).bind ?_
  intro _ t ht
  by_cases hl : ls.toNat < 3 + 2 * ns.toNat
  · rw [if_pos hl]
    exact ⟨t, _, ht, rfl, rfl⟩
  · rw [if_neg hl]
    refine ((consume_moved _ t).imp (fun _ _ h => h) fun u hu => hu.imp (fun _ => ht.moved) fun _ => id).bind ?_
    rintro d v ⟨-, h3, rfl⟩
    exact ht.moved (t.moved_setPos (by omega) fun _ => h3)

/-! ## The marker dispatcher -/

theorem soiOp_ends (s : State) :
    (soiOp s).Ends (fun _ t => s.pos + 2 ≤ s.len ∧ t = s.setPos (s.pos + 2))
      (Raised State.Moved FaultInfo.ofHeader s) := by
  refine (rd8_moved s).bind ?_
  rintro b t ⟨rfl, h1, rfl⟩
  have m1 := s.moved_setPos (n := s.pos + 1) (by omega) fun _ => h1
  split
  · exact ⟨_, _, m1, rfl, rfl⟩
  refine ((rd8_moved _).imp (fun _ _ h => h) fun u => Raised.moved m1).bind ?_
  rintro c t ⟨rfl, h2, rfl⟩
  split
  · exact ⟨_, _, s.moved_setPos (by simp only [State.setPos_pos]; omega) fun _ => h2, rfl, rfl⟩
  · exact ⟨h2, rfl⟩

theorem markerFetchOp_ends (s : State) :
    (markerFetchOp s).Ends
      (fun m t => m = s.byteAt (s.pos + 1) ∧ s.byteAt s.pos = 0xFF ∧ s.pos + 2 ≤ s.len ∧ t = s.setPos (s.pos + 2))
      (Raised State.Moved FaultInfo.ofHeader s) := by
  refine (rd8_moved s).bind ?_
  rintro b t ⟨rfl, h1, rfl⟩
  have m1 := s.moved_setPos (n := s.pos + 1) (by omega) fun _ => h1
  split
  · exact ⟨_, _, m1, rfl, rfl⟩
  rename_i hb
  refine (rd8_moved _).imp ?_ fun u => Raised.moved m1
  rintro c t ⟨rfl, h2, rfl⟩
  exact ⟨rfl, not_not.mp hb, h2, rfl⟩

/-- Where SKIP stops: at the first `FF` from `a` on, or at the end of the search. -/
theorem skipEnd_spec (m : Memory) (n a : Nat) :
    a ≤ skipEnd m n a ∧ skipEnd m n a ≤ a + n ∧ (∀ x, a ≤ x → x < skipEnd m n a → Memory.read m x ≠ 0xFF) ∧
      (skipEnd m n a < a + n → Memory.read m (skipEnd m n a) = 0xFF) := by
  induction n generalizing a with
  | zero => exact ⟨Nat.le_refl _, Nat.le_refl _, fun x h h' => absurd h' (by simp only [skipEnd]; omega),
      fun h => absurd h (by simp [skipEnd])⟩
  | succ n ih =>
    rw [skipEnd]
    split
    · rename_i h
      exact ⟨Nat.le_refl _, by omega, fun x h h' => by omega, fun _ => h⟩
    · rename_i h
      obtain ⟨h1, h2, h3, h4⟩ := ih (a + 1)
      refine ⟨by omega, by omega, fun x hx hx' => ?_, fun hlt => h4 (by omega)⟩
      rcases Nat.eq_or_lt_of_le hx with rfl | hx
      · exact h
      · exact h3 x hx hx'

end Sys2Proof.Machine
end

