-- ==== Sys2Proof/Laws/Stores.lean ====
section
/-! SUPPORT. What the block's writes to its descriptor and table stores keep (spec/10_state.md R27 to R29, R40). -/

namespace Sys2Proof.Machine

/-- The stores of two states are the same. -/
theorem State.StoresOk.of_eq {s t : State} (h : s.StoresOk) (h1 : t.comp = s.comp) (h2 : t.qt = s.qt)
    (h3 : t.htDc = s.htDc) (h4 : t.htAc = s.htAc) : t.StoresOk :=
  ⟨h1 ▸ h.comp, h2 ▸ h.qt, h3 ▸ h.htDc, h4 ▸ h.htAc, h1 ▸ h.compIds, h2 ▸ h.qtIds, h3 ▸ h.htDcIds,
    h4 ▸ h.htAcIds, h2 ▸ h.quant, h3 ▸ h.huffDc, h4 ▸ h.huffAc⟩

theorem State.StatusOk.of_eq {s t : State} (h : s.StatusOk) (h1 : t.phase = s.phase) (h2 : t.fault = s.fault)
    (h3 : t.faultInfo = s.faultInfo) : t.StatusOk := by
  rw [State.StatusOk, h1, h2, h3]
  exact h

theorem State.StreamOk.of_eq {s t : State} (h : s.StreamOk) (h1 : t.mem = s.mem) (h2 : t.len = s.len)
    (h3 : t.pos ≤ s.len) : t.StreamOk :=
  ⟨h1 ▸ h.wf, h1 ▸ h2 ▸ h.below, h2 ▸ h3⟩

theorem State.StoresOk.putComp {s : State} (h : s.StoresOk) (id : Byte) (c : Component) :
    (s.putComp id c).StoresOk :=
  { h with
    comp := Slots.sorted_put _ _ h.comp
    compIds := fun e he => by
      rcases Slots.mem_put he with rfl | he
      · exact id.isLt
      · exact h.compIds e he }

theorem State.StoresOk.putQt {s : State} (h : s.StoresOk) (t : Nibble) {q : QuantTable} (hq : q.Valid) :
    (s.putQt t q).StoresOk :=
  { h with
    qt := Slots.sorted_put _ _ h.qt
    qtIds := fun e he => by
      rcases Slots.mem_put he with rfl | he
      · exact t.isLt
      · exact h.qtIds e he
    quant := fun e he => by
      rcases Slots.mem_put he with rfl | he
      · exact hq
      · exact h.quant e he }

theorem State.StoresOk.putHt {s : State} (h : s.StoresOk) (c : HuffClass) (t : Nibble) {tb : HuffTable}
    (ht : tb.Valid) : (s.putHt c t tb).StoresOk := by
  cases c
  · exact
      { h with
        htDc := Slots.sorted_put _ _ h.htDc
        htDcIds := fun e he => by
          rcases Slots.mem_put he with rfl | he
          · exact t.isLt
          · exact h.htDcIds e he
        huffDc := fun e he => by
          rcases Slots.mem_put he with rfl | he
          · exact ht
          · exact h.huffDc e he }
  · exact
      { h with
        htAc := Slots.sorted_put _ _ h.htAc
        htAcIds := fun e he => by
          rcases Slots.mem_put he with rfl | he
          · exact t.isLt
          · exact h.htAcIds e he
        huffAc := fun e he => by
          rcases Slots.mem_put he with rfl | he
          · exact ht
          · exact h.huffAc e he }

/-- A run of the entries of SOF0 writes `comp` alone. -/
theorem declare_fold_frame (es : List (Byte × Byte × Byte)) (s : State) :
    es.foldl (fun s e => s.declare e.1 e.2.1 e.2.2) s =
      s.setComp (es.foldl (fun s e => s.declare e.1 e.2.1 e.2.2) s).comp := by
  induction es generalizing s with
  | nil => rfl
  | cons e es ih => rw [List.foldl_cons, ih]; rfl

/-- A run of the entries of SOS writes `comp` alone. -/
theorem select_fold_frame (es : List ScanEntry) (s : State) :
    es.foldl (fun s e => s.select e) s = s.setComp (es.foldl (fun s e => s.select e) s).comp := by
  induction es generalizing s with
  | nil => rfl
  | cons e es ih =>
    rw [List.foldl_cons, ih, State.select]
    split <;> rfl

theorem State.StoresOk.declare_fold {s : State} (h : s.StoresOk) (es : List (Byte × Byte × Byte)) :
    (es.foldl (fun s e => s.declare e.1 e.2.1 e.2.2) s).StoresOk := by
  induction es generalizing s with
  | nil => exact h
  | cons e es ih => exact ih (h.putComp _ _)

theorem State.StoresOk.select_fold {s : State} (h : s.StoresOk) (es : List ScanEntry) :
    (es.foldl (fun s e => s.select e) s).StoresOk := by
  induction es generalizing s with
  | nil => exact h
  | cons e es ih =>
    refine ih ?_
    show (s.select e).StoresOk
    rw [State.select]
    split
    · exact h.putComp _ _
    · exact h

theorem State.compAt_putComp (s : State) (id : Byte) (c : Component) (j : Nat) :
    (s.putComp id c).compAt j = if j = id.toNat then some c else s.compAt j := by
  simp [State.compAt, State.putComp, Slots.get_put]

theorem State.qtAt_putQt (s : State) (t : Nibble) (q : QuantTable) (u : Nat) :
    (s.putQt t q).qtAt u = if u = t.toNat then some q else s.qtAt u := by
  simp [State.qtAt, State.putQt, Slots.get_put]

/-- The slots of the two classes are apart (R151). -/
theorem State.htAt_putHt (s : State) (c c' : HuffClass) (t u : Nibble) (h : HuffTable) :
    (s.putHt c t h).htAt c' u = if (c', u) = (c, t) then some h else s.htAt c' u := by
  have : ∀ a b : Nibble, a.toNat = b.toNat ↔ a = b := fun a b => ⟨BitVec.eq_of_toNat_eq, congrArg _⟩
  cases c <;> cases c' <;> simp [State.putHt, State.htAt, Slots.get_put, this]

/-- SOS declares no component and drops none. -/
theorem compAt_select_fold_isSome (es : List ScanEntry) (s : State) (j : Nat) :
    ((es.foldl (fun s e => s.select e) s).compAt j).isSome = (s.compAt j).isSome := by
  induction es generalizing s with
  | nil => rfl
  | cons e es ih =>
    rw [List.foldl_cons, ih, State.select]
    split
    · rename_i c hc
      rw [State.compAt_putComp]
      split
      · rename_i hj
        rw [hj, hc]; rfl
      · rfl
    · rfl

/-! ## What a stream holds -/

theorem State.holds_append {s : State} {a : Nat} {x y : List Byte} (h : s.holds a (x ++ y)) :
    s.holds a x ∧ s.holds (a + x.length) y := by
  obtain ⟨h1, h2⟩ := h
  rw [List.length_append] at h1 h2
  have h3 := Memory.slice_append s.mem a x.length y.length
  change s.bytesFrom _ _ = s.bytesFrom _ _ ++ s.bytesFrom _ _ at h3
  rw [h3] at h2
  have := List.append_inj h2 (by rw [bytesFrom_length])
  exact ⟨⟨by omega, this.1⟩, ⟨by omega, this.2⟩⟩

theorem State.holds_cons {s : State} {a : Nat} {b : Byte} {y : List Byte} (h : s.holds a (b :: y)) :
    a + 1 ≤ s.len ∧ s.byteAt a = b ∧ s.holds (a + 1) y := by
  obtain ⟨⟨h1, h2⟩, h3⟩ := State.holds_append (x := [b]) (y := y) h
  simp only [State.bytesFrom, List.length_singleton, Memory.slice, List.cons.injEq, and_true] at h2
  exact ⟨h1, h2, h3⟩

end Sys2Proof.Machine
end

