-- ==== Sys2Proof/Tests/Slice0.lean ====
section
/-! SUPPORT. Tests of the model, their expected results taken from spec/, and for every obligation with hypotheses a
witness that meets them. Numbers such as M7 or K4 are the vectors of spec/95_test_vectors.md. -/

namespace Sys2Proof.Tests

open Sys2Proof Sys2Proof.Machine

set_option Elab.async false

/-! ## Helpers -/

/-- A session over a stream, the cursor at an address. -/
def at_ (bs : List Byte) (p : Nat) : State := { State.launch bs .observed with pos := p }

/-- An outcome is a next state with a property. -/
def gives (o : Host.Outcome State Fault Refusal) (p : State → Bool) : Bool :=
  match o with
  | .next t => p t
  | .fault _ => false
  | .refused _ => false

/-- A fault was raised, the cursor at `p`. -/
def faulted (f : FaultInfo) (p : Nat) (t : State) : Bool :=
  t.phase == .fault && t.fault == f.code && t.faultInfo == some f && t.pos == p

def zeros (n : Nat) : List Byte := List.replicate n 0

/-- `DQT0` of spec/95 after its marker. -/
def dqt0 : List Byte := [0x00, 0x43, 0x00] ++ (List.range 64).map fun i => BitVec.ofNat 8 (i + 1)

/-- `SOF_G` after its marker. -/
def sofG : List Byte := [0x00, 0x0B, 0x08, 0x00, 0x08, 0x00, 0x08, 0x01, 0x01, 0x11, 0x00]

/-- `SOS_G` after its marker. -/
def sosG : List Byte := [0x00, 0x08, 0x01, 0x01, 0x00, 0x00, 0x3F, 0x00]

def dcCounts : List Byte := [0x00, 0x03] ++ zeros 14
def acCounts : List Byte := [0x00, 0x02, 0x02, 0x02] ++ zeros 12

/-- The tables `DHT_DC` and `DHT_AC` build (spec/95 section 1). -/
def dcTable : HuffTable := ⟨3, [⟨2, 0, 0x00⟩, ⟨2, 1, 0x02⟩, ⟨2, 2, 0x03⟩]⟩
def acTable : HuffTable :=
  ⟨6, [⟨2, 0, 0x00⟩, ⟨2, 1, 0x01⟩, ⟨3, 4, 0x12⟩, ⟨3, 5, 0xF0⟩, ⟨4, 12, 0x30⟩, ⟨4, 13, 0x23⟩]⟩

def quant : QuantTable := ⟨false, List.replicate 64 1⟩

/-- The scan phase over entropy bytes, configured as `BASE` configures it: an 8 by 8 image of one component. -/
def ready (bs : List Byte) : State :=
  { State.launch bs .observed with
    phase := .scan
    img := some ⟨8, 8⟩
    comp := [(1, ⟨1, 1, 0, some ⟨0, 0⟩⟩)]
    qt := [(0, quant)]
    htDc := [(0, dcTable)]
    htAc := [(0, acTable)] }

/-- A block of component 1 under assembly, `k` AC values in. -/
def inBlock (bs : List Byte) (st : Stage) (k : Nat) : State :=
  { ready bs with stage := st, mstruct := [1], mcuCols := 1, mcuRows := 1, mcuTotal := 1, k := k }

/-! ## WellFormed: one ill-formed term for each check -/

theorem test_wf_refuses :
    (Instr.skip 0xDB).wf = false ∧ (Instr.skip 0xC0).wf = false ∧ (Instr.skip 0xC4).wf = false ∧
    (Instr.skip 0xDA).wf = false ∧ (Instr.badmarker 0xFF).wf = false ∧ (Instr.data 0xFF).wf = false ∧
    (Instr.badstuff 0x00).wf = false ∧ (Instr.dcMag 0).wf = false ∧ (Instr.dcMag 12).wf = false ∧
    (Instr.dcBad 11).wf = false ∧ (Instr.acRun 0).wf = false ∧ (Instr.acRun 15).wf = false ∧
    (Instr.acCoef 3 0).wf = false ∧ (Instr.acCoef 3 11).wf = false ∧ (Instr.acBad 3 10).wf = false ∧
    (Instr.readmag 12).wf = false := by decide

theorem test_wf_accepts :
    (Instr.skip 0xFF).wf = true ∧ (Instr.skip 0x00).wf = true ∧ (Instr.dcMag 1).wf = true ∧
    (Instr.dcMag 11).wf = true ∧ (Instr.dcBad 12).wf = true ∧ (Instr.acRun 14).wf = true ∧
    (Instr.acCoef 15 10).wf = true ∧ (Instr.acBad 0 11).wf = true ∧ (Instr.readmag 0).wf = true := by decide

/-! ## Decode: words written out from R82, R90, R92, R93, every row -/

theorem test_decode_start : decode .start [0xFF, 0xD8] = .instr .soi [] ∧
    decode .start [0xFF, 0xC0] = .reject .notSoi ∧ decode .start [0x00, 0xD8] = .reject .notSoi ∧
    decode .start [0xFF] = .reject .truncated := by decide

theorem test_decode_marker :
    decode .marker [0xFF, 0b11011011] = .instr .dqt [] ∧ decode .marker [0xFF, 0b11000000] = .instr .sof0 [] ∧
    decode .marker [0xFF, 0b11000100] = .instr .dht [] ∧ decode .marker [0xFF, 0b11011010] = .instr .sos [] ∧
    decode .marker [0xFF, 0b11011000] = .instr (.skip 0xD8) [] ∧
    decode .marker [0xFF, 0xFF, 0xD9] = .instr (.skip 0xFF) [0xD9] ∧
    decode .marker [0xFF, 0x00] = .instr (.skip 0x00) [] ∧
    decode .marker [0b11111110] = .instr (.badmarker 0xFE) [] ∧
    decode .marker [0xFF] = .reject .truncated := by decide

theorem test_decode_entropy :
    decode .entropy [0b11111110] = .instr (.data 0xFE) [] ∧ decode .entropy [0xFF, 0x00, 0x3C] = .instr .stuff [0x3C] ∧
    decode .entropy [0xFF, 0xFF] = .instr (.badstuff 0xFF) [] ∧ decode .entropy [0xFF] = .reject .truncated := by
  decide

theorem test_decode_dc :
    decode .dc [0b00000000] = .instr .dcZero [] ∧ decode .dc [0b00000001] = .instr (.dcMag 1) [] ∧
    decode .dc [0b00001011] = .instr (.dcMag 11) [] ∧ decode .dc [0b00001100] = .instr (.dcBad 12) [] ∧
    decode .dc [0b11111111] = .instr (.dcBad 255) [] := by decide

theorem test_decode_ac :
    decode .ac [0b00000000] = .instr .acEob [] ∧ decode .ac [0b11110000] = .instr .acZrl [] ∧
    decode .ac [0b00010000] = .instr (.acRun 1) [] ∧ decode .ac [0b11100000] = .instr (.acRun 14) [] ∧
    decode .ac [0b00000001] = .instr (.acCoef 0 1) [] ∧ decode .ac [0b11111010] = .instr (.acCoef 15 10) [] ∧
    decode .ac [0b00001011] = .instr (.acBad 0 11) [] ∧ decode .ac [0b11111111] = .instr (.acBad 15 15) [] := by decide

/-- Table words in the table's numbering. -/
theorem test_table_words :
    decodeTableWord 16 0xFFD8 = some .soi ∧ decodeTableWord 16 0xFFDB = some .dqt ∧
    decodeTableWord 16 0xFF00 = some .stuff ∧ decodeTableWord 16 0x1234 = some (.badmarker 0x12) ∧
    decodeTableWord 8 0x05 = some (.dcMag 5) ∧ decodeTableWord 8 0xF0 = some .acZrl ∧
    decodeTableWord 0 0 = none := by decide

/-- A placed word is what the next step runs. -/
theorem test_placed_words :
    gives (step (State.reset.withFetchWord 16 0xFFD8)) (fun t => t.phase == .header && t.pos == 2) = true ∧
    gives (step (State.reset.withFetchWord 16 0xFFE0)) (fun t => t.skiplog == [(0xE0, zeros 64)]) = true ∧
    gives (step (State.reset.withFetchWord 16 0x1234)) (faulted (.malformedMarker 2 0x12) 3) = true ∧
    gives (step (State.reset.withFetchWord 16 0xFF00)) (fun t => t.cur == 0xFF && t.pos == 2) = true ∧
    gives (step (State.reset.withFetchWord 8 0x05)) (fun t => t.stage == .ac && t.blk[0] == -16) = true ∧
    gives (step (State.reset.withFetchWord 8 0xF0)) (fun t => t.k == 16) = true := by decide +kernel

/-! ## The marker dispatcher -/

/-- M3, and the start of every other vector. -/
theorem test_soi :
    gives (exec .soi (at_ [0x00, 0xD8] 0)) (faulted (.malformedMarker 0 0x00) 1) = true ∧
    gives (exec .soi (at_ [0xFF, 0xD8] 0)) (fun t => t.pos == 2 && t.phase == .header) = true := by decide +kernel

/-- M7. -/
theorem test_badmarker :
    gives (exec (.badmarker 0x12) (at_ [0xFF, 0xD8, 0x12] 3)) (faulted (.malformedMarker 2 0x12) 3) = true := by
  decide +kernel

/-- M13: a payload is cut at an `FF` in it. -/
theorem test_skip :
    gives (exec (.skip 0xE1) (at_ [0xFF, 0xD8, 0xFF, 0xE1, 0x00, 0x04, 0x41, 0xFF, 0x00, 0xAA, 0xFF, 0xD9] 4))
      (fun t => t.pos == 7 && t.skiplog == [(0xE1, [0x00, 0x04, 0x41])]) = true := by decide +kernel

/-- M8. -/
theorem test_markerFetch :
    gives (exec .markerFetch (at_ [0xFF, 0xD8, 0xFF] 2)) (faulted (.unexpectedEndOfStream 3) 3) = true ∧
    gives (exec .markerFetch (at_ [0xFF, 0xD8, 0xFF, 0xD9] 2)) (fun t => t.pos == 4 && t.ret == .marker 0xD9) = true := by
  decide +kernel

/-- M9, and SOS as the marker that ends the header. -/
theorem test_dispatch :
    gives (exec (.dispatch 0xD9) (at_ [0xFF, 0xD8, 0xFF, 0xD9] 4))
      (fun t => t.skiplog == [(0xD9, [])] && t.ret == .flag false) = true ∧
    gives (exec (.dispatch 0xDA) (at_ [0x00, 0x03, 0x00] 0)) (fun t => t.pos == 3 && t.ret == .flag true) = true := by
  decide +kernel

/-- M11: a second SOI is skipped; and a header of SOI and an SOS that binds nothing. -/
theorem test_header :
    gives (exec .header (at_ [0xFF, 0xD8, 0xFF, 0xD8, 0xFF, 0xD9] 0))
      (fun t => faulted (.unexpectedEndOfStream 6) 6 t && t.skiplog == [(0xD8, []), (0xD9, [])]) = true ∧
    gives (exec .header (at_ [0xFF, 0xD8, 0xFF, 0xDA, 0x00, 0x03, 0x00] 0)) (fun t => t.pos == 7 && t.phase == .header) =
      true := by decide +kernel

/-! ## Segments -/

/-- Q1 and Q8. -/
theorem test_dqt :
    gives (exec .dqt (at_ dqt0 0)) (fun t => t.pos == 67 &&
      t.qt == [(0, ⟨false, (List.range 64).map fun i => BitVec.ofNat 16 (i + 1)⟩)]) = true ∧
    gives (exec .dqt (at_ ([0x00, 0x43, 0x10] ++ zeros 64) 0)) (faulted (.invalidSegmentLength 67 67) 67) = true := by
  decide +kernel

/-- F8 and F3. -/
theorem test_sof0 :
    gives (exec .sof0 (at_ [0x00, 0x0E, 0x08, 0x00, 0x08, 0x00, 0x10, 0x02, 0x01, 0x11, 0x00, 0x01, 0x22, 0x01] 0))
      (fun t => t.pos == 14 && t.img == some ⟨16, 8⟩ && t.comp == [(1, ⟨2, 2, 1, none⟩)]) = true ∧
    gives (exec .sof0 (at_ [0x00, 0x0C, 0x08, 0x00, 0x08, 0x00, 0x08, 0x01, 0x01, 0x11, 0x00] 0))
      (fun t => faulted (.componentCountMismatch 8 12 1) 8 t && t.img == none) = true := by decide +kernel

/-- T2 and T9. -/
theorem test_dht :
    gives (exec .dht (at_ ([0x00, 0x19, 0x10] ++ acCounts ++ [0x00, 0x01, 0x12, 0xF0, 0x30, 0x23]) 0))
      (fun t => t.pos == 25 && t.htAc == [(0, acTable)] && t.htDc == []) = true ∧
    gives (exec .dht (at_ ([0x00, 0x16, 0x00, 0x02, 0x01] ++ zeros 14 ++ [0x00, 0x02, 0x03]) 0))
      (faulted (.invalidConfiguration .huffOversubscribed 2) 22) = true := by decide +kernel

/-- S5 and S4. -/
theorem test_sos :
    gives (exec .sos { at_ [0x00, 0x05, 0x01, 0x01, 0x2B] 0 with comp := [(1, ⟨1, 1, 0, none⟩)] })
      (fun t => t.pos == 5 && t.comp == [(1, ⟨1, 1, 0, some ⟨2, 11⟩⟩)]) = true ∧
    gives (exec .sos { at_ [0x00, 0x04, 0x01, 0x01, 0x00] 0 with comp := [(1, ⟨1, 1, 0, none⟩)] })
      (fun t => faulted (.invalidSegmentLength 5 4) 5 t && t.comp == [(1, ⟨1, 1, 0, some ⟨0, 0⟩⟩)]) = true := by
  decide +kernel

/-! ## The bit reader (spec/95 section 3.6) -/

theorem test_entropy_rows :
    gives (exec (.data 0xA5) (ready [0xA5])) (fun t => t.cur == 0xA5) = true ∧
    gives (exec .stuff (ready [0xFF, 0x00])) (fun t => t.cur == 0xFF) = true ∧
    gives (exec (.badstuff 0xD0) { ready [0xFF, 0xD0] with pos := 2 }) (faulted (.invalidByteStuffing 1 0xD0) 2) =
      true := by decide +kernel

theorem test_fetchbyte :
    gives (exec .fetchbyte (ready [0xFF, 0x00, 0x3C])) (fun t => t.cur == 0xFF && t.pos == 2) = true ∧
    gives (exec .fetchbyte (ready [0xFF, 0xFF])) (faulted (.invalidByteStuffing 1 0xFF) 2) = true := by decide +kernel

theorem test_nextbit :
    gives (exec .nextbit (ready [0xA5])) (fun t => t.ret == .bit true && t.bitOff == 1 && t.pos == 1) = true ∧
    gives (exec .nextbit { ready [0x80] with pos := 1, bitOff := 7, cur := 0xFE })
      (fun t => t.ret == .bit false && t.bitOff == 0) = true := by decide +kernel

/-- `1101` gives `23`, and `1110 0000 0000 0000` overflows with `acc = E000`. -/
theorem test_readcode :
    gives (exec (.readcode .ac 0) (ready [0xD0])) (fun t => t.ret == .symbol 0x23 && t.bitOff == 4) = true ∧
    gives (exec (.readcode .ac 0) (ready [0xE0, 0x00, 0x00])) (faulted (.huffmanDecodeOverflow 2 0xE000) 2) = true := by
  decide +kernel

/-- `n = 3`, bits `011`: -1 in OBSERVED mode, -4 in STANDARD. -/
theorem test_readmag :
    gives (exec (.readmag 3) (ready [0x60])) (fun t => t.ret == .value (-1)) = true ∧
    gives (exec (.readmag 3) { ready [0x60] with mode := .standard }) (fun t => t.ret == .value (-4)) = true := by
  decide +kernel

/-! ## The block assembler (spec/95 section 3.7) -/

/-- `n = 3`, bits `101`: 5; `n = 11`, bits all 0: -1024. -/
theorem test_dc :
    gives (exec .dcZero { ready [] with blk := Vector.replicate 64 7 }) (fun t => t.blk[0] == 0 && t.blk[1] == 7) = true ∧
    gives (exec (.dcMag 3) (ready [0xA0])) (fun t => t.blk[0] == 5 && t.bitOff == 3) = true ∧
    gives (exec (.dcMag 11) (ready [0x00, 0x00])) (fun t => t.blk[0] == BitVec.ofInt 16 (-1024)) = true ∧
    gives (exec (.dcBad 0x0C) (ready [])) (faulted (.categoryOutOfRange .dc 0x0C) 0) = true := by decide +kernel

/-- E3, E4, K4, K9. -/
theorem test_ac_runs :
    gives (exec .acEob (inBlock [] .ac 10)) (fun t => t.k == 63) = true ∧
    gives (exec .acZrl (inBlock [] .ac 3)) (fun t => t.k == 19) = true ∧
    gives (exec .acZrl (inBlock [] .ac 48)) (fun t => faulted (.blockOverrun 48 0xF0) 0 t && t.k == 48) = true ∧
    gives (exec (.acRun 3) (inBlock [] .ac 60)) (fun t => t.k == 63) = true ∧
    gives (exec (.acRun 3) (inBlock [] .ac 62)) (faulted (.blockOverrun 62 0x30) 0) = true := by decide +kernel

/-- P1's `COEF r=2 s=3` at `k = 19`, bits `110`; K8; K16. -/
theorem test_ac_coef :
    gives (exec (.acCoef 2 3) (inBlock [0xC0] .ac 19)) (fun t => t.k == 22 && t.blk[22] == 6) = true ∧
    gives (exec (.acCoef 2 3) (inBlock [0x7F] .ac 61)) (faulted (.blockOverrun 61 0x23) 0) = true ∧
    gives (exec (.acBad 15 11) (inBlock [] .ac 48)) (faulted (.categoryOutOfRange .ac 0xFB) 0) = true := by decide +kernel

/-- K2, and K6 at its last coefficient: `63: -1` in OBSERVED mode. -/
theorem test_decodeBlock :
    gives (exec (.decodeBlock 1) (ready [0xA8])) (fun t => t.blk[0] == 5 && t.k == 63 && t.bitOff == 7 && t.pos == 1) =
      true ∧
    gives (exec (.decodeBlock 1) (ready [0x2D, 0xB9, 0x99, 0x9A, 0xFF, 0x00]))
      (fun t => t.blk[63] == BitVec.ofInt 16 (-1) && t.pos == 6 && t.bitOff == 2) = true := by decide +kernel

/-! ## Scan start and scan -/

/-- C6 and C8. -/
theorem test_checkConfig :
    gives (exec .checkConfig { ready [] with comp := [(1, ⟨1, 0, 0, some ⟨0, 0⟩⟩)] })
      (faulted (.invalidConfiguration .sampling 1) 0) = true ∧
    gives (exec .checkConfig { ready [] with comp := [(1, ⟨1, 1, 16, some ⟨0, 0⟩⟩)] })
      (faulted (.invalidConfiguration .noQuantTable 1) 0) = true := by decide +kernel

/-- P5's structure: components 1 (2 by 2), 2 and 3. -/
theorem test_buildMstruct :
    gives (exec .buildMstruct { ready [] with comp := [(1, ⟨2, 2, 0, none⟩), (2, ⟨1, 1, 0, none⟩), (3, ⟨1, 1, 0, none⟩)] })
      (fun t => t.mstruct == [1, 1, 1, 1, 2, 3] && t.mlen == 6) = true := by decide +kernel

/-- `(17, 8, 2, 1)` gives 2 MCUs, `(16, 8, 2, 1)` one. -/
theorem test_grid :
    gives (exec .grid { ready [] with img := some ⟨17, 8⟩, comp := [(1, ⟨2, 1, 0, none⟩)] })
      (fun t => t.mcuCols == 2 && t.mcuRows == 1 && t.mcuTotal == 2) = true ∧
    gives (exec .grid { ready [] with img := some ⟨16, 8⟩, comp := [(1, ⟨2, 1, 0, none⟩)] })
      (fun t => t.mcuCols == 1 && t.mcuTotal == 1) = true := by decide +kernel

/-- K1, and the two MCUs of P3. -/
theorem test_scan :
    gives (exec .scan (ready [0x0F]))
      (fun t => t.phase == .done && t.out == [[Block.zero]] && t.pos == 1 && t.bitOff == 4) = true ∧
    gives (exec .scan { ready [0xA9, 0x56, 0x7F] with img := some ⟨9, 8⟩ })
      (fun t => t.phase == .done && t.out == [[Block.zero.set 0 5], [(Block.zero.set 0 5).set 1 1]] && t.pos == 3) =
      true := by decide +kernel

theorem test_scanDone : gives (exec .scanDone (ready [])) (fun t => t.phase == .done) = true := by decide +kernel

/-! ## The host's actions -/

theorem test_reset :
    exec .reset (ready [0x01]) = .next State.reset := rfl

/-- M6: a stream of SOI alone; and a session that may not be started on top of another. -/
theorem test_start :
    gives (exec (.start [0xFF, 0xD8] .observed) State.reset) (faulted (.unexpectedEndOfStream 2) 2) = true ∧
    exec (.start [] .observed) (ready []) = .refused .sessionRunning := ⟨by decide +kernel, rfl⟩

/-! ## Steps -/

/-- X2: a restart marker in the entropy data, met by the symbol fetch; and SOS hands over to the scan. -/
theorem test_step :
    gives (step (inBlock [0xFF, 0xD0] .dc 0)) (faulted (.invalidByteStuffing 1 0xD0) 2) = true ∧
    gives (step (at_ [0xFF, 0xD8, 0xFF, 0xDA, 0x00, 0x03, 0x00] 2))
      (fun t => t.phase == .scan && t.stage == .check && t.pos == 7) = true := by decide +kernel

/-- What is not there is not read. -/
theorem test_invalid_entries :
    exec (.readcode .dc 3) (ready []) = .fault .entryNotValid ∧
    exec (.decodeBlock 2) (ready []) = .fault .entryNotValid ∧
    exec .grid { ready [] with img := none } = .fault .entryNotValid := ⟨rfl, rfl, rfl⟩

/-! ## Witnesses: for each obligation with hypotheses, a state and operands that meet them -/

theorem next_of_gives {o : Host.Outcome State Fault Refusal} {p : State → Bool} (h : gives o p = true) :
    ∃ t, o = .next t ∧ p t = true := by
  cases o with
  | next t => exact ⟨t, rfl, h⟩
  | fault _ => simp [gives] at h
  | refused _ => simp [gives] at h

theorem bits_of_map {s : State} {n : Nat} {bs : List Bool} (h : (s.nextBits n).map Prod.fst = some bs) :
    ∃ u, s.nextBits n = some (bs, u) := by
  cases hn : s.nextBits n with
  | none => rw [hn] at h; simp at h
  | some r =>
    rw [hn] at h
    obtain ⟨bs', u⟩ := r
    exact ⟨u, by simpa using h⟩

theorem dcTable_valid : dcTable.Valid :=
  ⟨rfl, by decide +kernel, by decide +kernel, by decide +kernel⟩
theorem acTable_valid : acTable.Valid :=
  ⟨rfl, by decide +kernel, by decide +kernel, by decide +kernel⟩
theorem quant_valid : quant.Valid :=
  ⟨rfl, fun _ h hh => by rw [List.eq_of_mem_replicate hh]; decide⟩

theorem ready_stores (bs : List Byte) : (ready bs).StoresOk where
  comp := by simp only [ready]; decide
  qt := by simp only [ready]; decide
  htDc := by simp only [ready]; decide
  htAc := by simp only [ready]; decide
  compIds := by simp only [ready]; decide
  qtIds := by simp only [ready]; decide
  htDcIds := by simp only [ready]; decide
  htAcIds := by simp only [ready]; decide
  quant := by simpa [ready] using quant_valid
  huffDc := by simpa [ready] using dcTable_valid
  huffAc := by simpa [ready] using acTable_valid

theorem ready_good (bs : List Byte) : (ready bs).ConfigGood := (configError_none _).mp rfl

/-- `K2`'s block: DC 5, EOB; its bits are the first 7 of `A8`. -/
def k2 : BlockCode := ⟨⟨⟨2, 2, 0x03⟩, [true, false, true]⟩, [], some ⟨⟨2, 0, 0x00⟩, []⟩⟩

theorem k2_ok (m : MagnitudeMode) : BlockCode.Ok dcTable acTable m k2 where
  dc := by decide
  ac := by simp [k2]
  eobItem := by
    intro c h
    obtain rfl : c = ⟨⟨2, 0, 0x00⟩, []⟩ := by simpa [k2] using h.symm
    decide
  full := by simp [k2]
  short := by simp [k2, BlockCode.emitted, Config.acValues]

theorem witness_DecodeEncodeAgree :
    Instr.soi.wf = true ∧ Instr.soi.level = some .start ∧
    (Instr.skip 0xFF).wf = true ∧ (Instr.skip 0xFF).level = some .marker ∧
    (Instr.badstuff 0xFF).wf = true ∧ (Instr.badstuff 0xFF).level = some .entropy ∧
    (Instr.dcMag 11).wf = true ∧ (Instr.dcMag 11).level = some .dc ∧
    (Instr.acCoef 15 10).wf = true ∧ (Instr.acCoef 15 10).level = some .ac := by decide

theorem witness_DecodedWordIsItsPattern :
    decode .marker [0xFE, 0xD8] = .instr (.badmarker 0xFE) [0xD8] ∧
    decode .entropy [0xFF, 0x00, 0x01] = .instr .stuff [0x01] := by decide

/-- The clauses where they meet: one, two and no bytes left. -/
theorem witness_ReadPrimitives :
    ((at_ [0x12, 0x34] 1).pos < (at_ [0x12, 0x34] 1).len) ∧
    ((at_ [0x12, 0x34] 2).len ≤ (at_ [0x12, 0x34] 2).pos) ∧
    ((at_ [0x12, 0x34] 0).pos + 2 ≤ (at_ [0x12, 0x34] 0).len) ∧
    ((at_ [0x12, 0x34] 1).pos + 1 = (at_ [0x12, 0x34] 1).len) ∧
    ((at_ [0x12, 0x34] 1).pos + 1 ≤ (at_ [0x12, 0x34] 1).len) ∧
    ((at_ [0x12, 0x34] 1).len < (at_ [0x12, 0x34] 1).pos + 2) := by decide

theorem witness_SoiCheckCases :
    (at_ [] 0).pos = 0 ∧ (at_ [] 0).len = 0 ∧
    (1 ≤ (at_ [0xFE] 0).len ∧ (at_ [0xFE] 0).byteAt 0 ≠ 0xFF) ∧
    ((at_ [0xFF] 0).len = 1 ∧ (at_ [0xFF] 0).byteAt 0 = 0xFF) ∧
    (2 ≤ (at_ [0xFF, 0xD9] 0).len ∧ (at_ [0xFF, 0xD9] 0).byteAt 0 = 0xFF ∧ (at_ [0xFF, 0xD9] 0).byteAt 1 ≠ 0xD8) ∧
    (2 ≤ (at_ [0xFF, 0xD8] 0).len ∧ (at_ [0xFF, 0xD8] 0).byteAt 0 = 0xFF ∧ (at_ [0xFF, 0xD8] 0).byteAt 1 = 0xD8) := by
  decide

theorem witness_MarkerFetchCases :
    (at_ [0xFF] 1).len ≤ (at_ [0xFF] 1).pos ∧
    ((at_ [0xFE] 0).pos < (at_ [0xFE] 0).len ∧ (at_ [0xFE] 0).byteAt (at_ [0xFE] 0).pos ≠ 0xFF) ∧
    ((at_ [0xFF] 0).pos + 1 = (at_ [0xFF] 0).len ∧ (at_ [0xFF] 0).byteAt (at_ [0xFF] 0).pos = 0xFF) ∧
    ((at_ [0xFF, 0xD9] 0).pos + 2 ≤ (at_ [0xFF, 0xD9] 0).len ∧
      (at_ [0xFF, 0xD9] 0).byteAt (at_ [0xFF, 0xD9] 0).pos = 0xFF) ∧
    1 ≤ (at_ [0xFE] 1).pos := by decide

/-- At the end of the stream, and before an `FF`: the next `FF` is met, or there is none. -/
theorem witness_SkipStopsAtNextMarker :
    (at_ [0x01] 1).pos ≤ (at_ [0x01] 1).len ∧ (at_ [0x01, 0xFF] 0).pos ≤ (at_ [0x01, 0xFF] 0).len := by decide

theorem witness_DispatchRunsTheHandler :
    ((at_ [0x00, 0x03, 0x00] 0).phase ≠ .fault ∧
      (∃ t, exec (decodeMarkerByte 0xDA) (at_ [0x00, 0x03, 0x00] 0) = .next t ∧ (t.phase != .fault) = true) ∧
      ∃ t, exec (decodeMarkerByte 0xDB) (at_ [] 0) = .next t ∧ (t.phase == .fault) = true) ∧
    (0xD9 : Byte) ≠ 0xDB ∧ (0xD9 : Byte) ≠ 0xC0 ∧ (0xD9 : Byte) ≠ 0xC4 ∧ (0xD9 : Byte) ≠ 0xDA :=
  ⟨⟨by decide, next_of_gives (by decide +kernel), next_of_gives (by decide +kernel)⟩, by decide⟩

/-- `BASE` of spec/95 as a listing. -/
def base : List Item :=
  [.dqt 0 0 ((List.range 64).map fun i => BitVec.ofNat 16 (i + 1)), .sof0 8 8 8 [⟨1, 1, 1, 0⟩],
   .dht .dc 0 dcCounts [0x00, 0x02, 0x03], .dht .ac 0 acCounts [0x00, 0x01, 0x12, 0xF0, 0x30, 0x23]]

theorem base_segments : ∀ it ∈ base, it.Segment := by
  intro it h
  simp only [base, List.mem_cons, List.not_mem_nil, or_false] at h
  rcases h with rfl | rfl | rfl | rfl
  · show Item.wf _ = true
    decide
  · show Item.wf _ = true
    decide
  · exact ⟨by decide, dcTable.map, by rfl⟩
  · exact ⟨by decide, acTable.map, by rfl⟩

/-- `BASE` and the entropy byte of K2. -/
def baseStream : List Byte := headerBytes base [⟨1, 0, 0⟩] [0x00, 0x3F, 0x00] ++ [0xA8]

theorem witness_HeaderRunsTheListing :
    (∀ it ∈ base, it.Segment) ∧ (Item.sos [⟨1, 0, 0⟩] [0x00, 0x3F, 0x00]).wf = true ∧
    (∀ e ∈ [(⟨1, 0, 0⟩ : ScanEntry)],
      (afterSegments base (State.launch baseStream .observed)).compValid e.id = true) ∧
    (State.launch baseStream .observed).holds (State.launch baseStream .observed).pos
      (headerBytes base [⟨1, 0, 0⟩] [0x00, 0x3F, 0x00]) :=
  ⟨base_segments, by decide, by decide +kernel, by decide +kernel⟩

/-! ### Segments -/

def dqt8 : State := at_ dqt0 0
def dqt16 : State := at_ ([0x00, 0x83, 0x1F] ++ zeros 128) 0

theorem witness_DqtLoadsATable :
    (hiNibble (dqt8.byteAt 2) = 0 ∧ dqt8.byteAt 0 = 0 ∧ dqt8.byteAt 1 = 67 ∧ dqt8.pos + 67 ≤ dqt8.len) ∧
    (hiNibble (dqt16.byteAt 2) ≠ 0 ∧ dqt16.byteAt 0 = 0 ∧ dqt16.byteAt 1 = 131 ∧ dqt16.pos + 131 ≤ dqt16.len) := by
  decide +kernel

/-- Two bytes only; a length of 2; a length of 3 that is read whole, and one of 66 the stream ends inside; 68 for 67. -/
theorem witness_DqtFaultOrder :
    ((at_ [0x00, 0x43] 0).pos ≤ (at_ [0x00, 0x43] 0).len ∧ (at_ [0x00, 0x43] 0).len < (at_ [0x00, 0x43] 0).pos + 3) ∧
    ((at_ [0x00, 0x02, 0x00] 0).pos + 3 ≤ (at_ [0x00, 0x02, 0x00] 0).len ∧
      2 = 256 * ((at_ [0x00, 0x02, 0x00] 0).byteAt 0).toNat + ((at_ [0x00, 0x02, 0x00] 0).byteAt 1).toNat) ∧
    ((at_ [0x00, 0x42, 0x00] 0).pos + 3 ≤ (at_ [0x00, 0x42, 0x00] 0).len ∧
      66 = 256 * ((at_ [0x00, 0x42, 0x00] 0).byteAt 0).toNat + ((at_ [0x00, 0x42, 0x00] 0).byteAt 1).toNat ∧
      (at_ [0x00, 0x42, 0x00] 0).len < (at_ [0x00, 0x42, 0x00] 0).pos + 66) ∧
    ((at_ [0x00, 0x03, 0x00] 0).pos + 3 ≤ (at_ [0x00, 0x03, 0x00] 0).len ∧
      3 = 256 * ((at_ [0x00, 0x03, 0x00] 0).byteAt 0).toNat + ((at_ [0x00, 0x03, 0x00] 0).byteAt 1).toNat ∧
      3 ≠ (if hiNibble ((at_ [0x00, 0x03, 0x00] 0).byteAt 2) = 0 then 67 else 131)) ∧
    ((at_ ([0x00, 0x44, 0x00] ++ zeros 65) 0).pos + 68 ≤ (at_ ([0x00, 0x44, 0x00] ++ zeros 65) 0).len ∧
      (at_ ([0x00, 0x44, 0x00] ++ zeros 65) 0).byteAt 1 = 68) := by decide +kernel

/-- `SOF_G`, and a segment of no component. -/
theorem witness_SofDeclaresComponents :
    (((at_ sofG 0).byteAt 7).toNat = 1 ∧
      256 * ((at_ sofG 0).byteAt 0).toNat + ((at_ sofG 0).byteAt 1).toNat = 8 + 3 * 1 ∧
      (at_ sofG 0).pos + 8 + 3 * 1 ≤ (at_ sofG 0).len) ∧
    (((at_ [0, 8, 8, 0, 8, 0, 8, 0] 0).byteAt 7).toNat = 0 ∧
      256 * ((at_ [0, 8, 8, 0, 8, 0, 8, 0] 0).byteAt 0).toNat + ((at_ [0, 8, 8, 0, 8, 0, 8, 0] 0).byteAt 1).toNat = 8 ∧
      (at_ [0, 8, 8, 0, 8, 0, 8, 0] 0).pos + 8 ≤ (at_ [0, 8, 8, 0, 8, 0, 8, 0] 0).len) := by decide +kernel

/-- F8: the second entry of id 1 is the last; the first is not. -/
theorem witness_SofDeclaresComponents_twice :
    let s := at_ [0x00, 0x0E, 0x08, 0x00, 0x08, 0x00, 0x10, 0x02, 0x01, 0x11, 0x00, 0x01, 0x22, 0x01] 0
    (∀ j, 1 < j → j < 2 → s.byteAt (s.pos + 8 + 3 * j) ≠ s.byteAt (s.pos + 8 + 3 * 1)) ∧
    s.byteAt (s.pos + 8 + 3 * 1) = s.byteAt (s.pos + 8 + 3 * 0) ∧
    (∀ i, i < 2 → (s.byteAt (s.pos + 8 + 3 * i)).toNat ≠ 2) := by
  refine ⟨fun j h1 h2 => by omega, by decide +kernel, by decide +kernel⟩

theorem witness_SofCountMismatch :
    (256 * ((at_ [0, 12, 8, 0, 8, 0, 8, 1] 0).byteAt 0).toNat + ((at_ [0, 12, 8, 0, 8, 0, 8, 1] 0).byteAt 1).toNat = 12 ∧
      ((at_ [0, 12, 8, 0, 8, 0, 8, 1] 0).byteAt 7).toNat = 1 ∧
      (at_ [0, 12, 8, 0, 8, 0, 8, 1] 0).pos + 8 ≤ (at_ [0, 12, 8, 0, 8, 0, 8, 1] 0).len ∧ 12 ≠ 8 + 3 * 1) := by
  decide +kernel

/-- T13's leading byte `E0` among them: bits 7:5 do not count. -/
theorem witness_DhtStoresTheBuiltTable :
    dcCounts.length = 16 ∧ [0x00, 0x02, (0x03 : Byte)].length = countsTotal dcCounts ∧
    (at_ (halfBytes 22 ++ 0xE0 :: (dcCounts ++ [0x00, 0x02, 0x03])) 0).holds 0
      (halfBytes (BitVec.ofNat 16 (19 + countsTotal dcCounts)) ++ 0xE0 :: (dcCounts ++ [0x00, 0x02, 0x03])) ∧
    buildCodes dcCounts [0x00, 0x02, 0x03] = .ok dcTable.map :=
  ⟨by decide, by decide, by decide +kernel, rfl⟩

/-- A payload cut before its counts, a length that does not fit them, one the stream ends before, and T9's. -/
theorem witness_DhtFaultOrder :
    ((at_ (zeros 18) 0).pos ≤ (at_ (zeros 18) 0).len ∧ (at_ (zeros 18) 0).len < (at_ (zeros 18) 0).pos + 19) ∧
    ((at_ ([0x00, 0x14] ++ zeros 17) 0).pos + 19 ≤ (at_ ([0x00, 0x14] ++ zeros 17) 0).len ∧
      20 ≠ 19 + countsTotal ((at_ ([0x00, 0x14] ++ zeros 17) 0).bytesFrom 3 16)) ∧
    ((at_ ([0x00, 0x14, 0x00, 0x01] ++ zeros 15) 0).pos + 19 ≤ (at_ ([0x00, 0x14, 0x00, 0x01] ++ zeros 15) 0).len ∧
      20 = 19 + countsTotal ((at_ ([0x00, 0x14, 0x00, 0x01] ++ zeros 15) 0).bytesFrom 3 16) ∧
      (at_ ([0x00, 0x14, 0x00, 0x01] ++ zeros 15) 0).len < (at_ ([0x00, 0x14, 0x00, 0x01] ++ zeros 15) 0).pos + 20) ∧
    (22 = 19 + countsTotal ((at_ ([0x00, 0x16, 0x00, 0x03] ++ zeros 18) 0).bytesFrom 3 16) ∧
      (at_ ([0x00, 0x16, 0x00, 0x03] ++ zeros 18) 0).pos + 22 ≤ (at_ ([0x00, 0x16, 0x00, 0x03] ++ zeros 18) 0).len ∧
      buildCodes (0x03 :: zeros 15) (zeros 3) = .error 1) :=
  ⟨by decide, by decide +kernel, by decide +kernel, by decide +kernel, by decide +kernel, rfl⟩

/-- A table of `DHT_DC`, and the empty table. -/
theorem witness_CodesAreCanonical :
    dcCounts.length = 16 ∧ buildCodes dcCounts [0x00, 0x02, 0x03] = .ok dcTable.map ∧
    (zeros 16).length = 16 ∧ buildCodes (zeros 16) [] = .ok [] := ⟨by decide, rfl, by decide, rfl⟩

theorem witness_BuiltTablesArePrefixFree :
    acCounts.length = 16 ∧ buildCodes acCounts [0x00, 0x01, 0x12, 0xF0, 0x30, 0x23] = .ok acTable.map :=
  ⟨by decide, rfl⟩

/-- A Kraft sum of exactly 1, and one above it. -/
theorem witness_BuiltExactlyUnderKraft :
    (0x02 :: zeros 15).length = 16 ∧ kraftSum (0x02 :: zeros 15) = 2 ^ 16 ∧
    (0x03 :: zeros 15).length = 16 ∧ 2 ^ 16 < kraftSum (0x03 :: zeros 15) := by decide

def sos1 (bs : List Byte) : State := { at_ bs 0 with comp := [(1, ⟨1, 1, 0, none⟩)] }

/-- `SOS_G`, and a segment of no component. -/
theorem witness_SosBindsSelectors :
    (256 * ((sos1 sosG).byteAt 0).toNat + ((sos1 sosG).byteAt 1).toNat = 8 ∧ ((sos1 sosG).byteAt 2).toNat = 1 ∧
      3 + 2 * 1 ≤ 8 ∧ (sos1 sosG).pos + 8 ≤ (sos1 sosG).len ∧
      (∀ i, i < 1 → (sos1 sosG).compValid ((sos1 sosG).byteAt (3 + 2 * i)) = true) ∧
      ((sos1 sosG).compAt ((sos1 sosG).byteAt 3).toNat).isSome = true) ∧
    (256 * ((sos1 [0, 3, 0]).byteAt 0).toNat + ((sos1 [0, 3, 0]).byteAt 1).toNat = 3 + 2 * 0 ∧
      ((sos1 [0, 3, 0]).byteAt 2).toNat = 0 ∧ (sos1 [0, 3, 0]).pos + 3 ≤ (sos1 [0, 3, 0]).len) := by decide +kernel

/-- The second listed id is the first unknown one; a length of 4 over one declared entry. -/
theorem witness_SosFaultOrder :
    (((sos1 [0, 7, 2, 1, 0, 9, 0]).byteAt 2).toNat = 2 ∧
      (sos1 [0, 7, 2, 1, 0, 9, 0]).pos + 5 + 2 * 1 ≤ (sos1 [0, 7, 2, 1, 0, 9, 0]).len ∧
      (∀ j, j < 1 →
        (sos1 [0, 7, 2, 1, 0, 9, 0]).compValid ((sos1 [0, 7, 2, 1, 0, 9, 0]).byteAt (3 + 2 * j)) = true) ∧
      (sos1 [0, 7, 2, 1, 0, 9, 0]).compValid ((sos1 [0, 7, 2, 1, 0, 9, 0]).byteAt (3 + 2 * 1)) = false) ∧
    (((sos1 [0, 4, 1, 1, 0]).byteAt 2).toNat = 1 ∧ (sos1 [0, 4, 1, 1, 0]).pos + 3 + 2 * 1 ≤ (sos1 [0, 4, 1, 1, 0]).len ∧
      256 * ((sos1 [0, 4, 1, 1, 0]).byteAt 0).toNat + ((sos1 [0, 4, 1, 1, 0]).byteAt 1).toNat < 3 + 2 * 1 ∧
      ∀ i, i < 1 → (sos1 [0, 4, 1, 1, 0]).compValid ((sos1 [0, 4, 1, 1, 0]).byteAt (3 + 2 * i)) = true) := by
  decide +kernel

/-- Each handler, in success and in fault. -/
theorem witness_SegmentHandlersFrame :
    (∃ t, exec .dqt dqt8 = .next t ∧ (t.phase == .header) = true) ∧
    (∃ t, exec .dqt (at_ [] 0) = .next t ∧ (t.phase == .fault) = true) ∧
    (∃ t, exec .sof0 (at_ sofG 0) = .next t ∧ (t.phase == .header) = true) ∧
    (∃ t, exec .sof0 (at_ [] 0) = .next t ∧ (t.phase == .fault) = true) ∧
    (∃ t, exec .dht (at_ ([0x00, 0x13] ++ zeros 17) 0) = .next t ∧ (t.phase == .header) = true) ∧
    (∃ t, exec .dht (at_ [] 0) = .next t ∧ (t.phase == .fault) = true) ∧
    (∃ t, exec .sos (sos1 sosG) = .next t ∧ (t.phase == .header) = true) ∧
    (∃ t, exec .sos (at_ [] 0) = .next t ∧ (t.phase == .fault) = true) := by
  refine ⟨?_, ?_, ?_, ?_, ?_, ?_, ?_, ?_⟩ <;> exact next_of_gives (by decide +kernel)

/-! ### The bit reader -/

theorem witness_EntropyRowsEffect : 1 ≤ (at_ [0xFF, 0xD0] 1).pos := by decide

theorem witness_FetchByteCases :
    (ready []).len ≤ (ready []).pos ∧
    ((ready [0xFE]).pos < (ready [0xFE]).len ∧ (ready [0xFE]).byteAt (ready [0xFE]).pos ≠ 0xFF) ∧
    ((ready [0xFF]).pos + 1 = (ready [0xFF]).len ∧ (ready [0xFF]).byteAt (ready [0xFF]).pos = 0xFF) ∧
    ((ready [0xFF, 0x00]).pos + 2 ≤ (ready [0xFF, 0x00]).len ∧ (ready [0xFF, 0x00]).byteAt 0 = 0xFF ∧
      (ready [0xFF, 0x00]).byteAt 1 = 0) ∧
    ((ready [0xFF, 0x01]).pos + 2 ≤ (ready [0xFF, 0x01]).len ∧ (ready [0xFF, 0x01]).byteAt 0 = 0xFF ∧
      (ready [0xFF, 0x01]).byteAt 1 ≠ 0) := by decide

theorem witness_FetchByteRunsItsRow :
    decode .entropy (ready [0xA5]).window = .instr (.data 0xA5) [] ∧
    decode .entropy (ready [0xA5, 0xFF]).window = .instr (.data 0xA5) [0xFF] ∧
    decode .entropy (ready [0xFF, 0x00]).window = .instr .stuff [] ∧
    decode .entropy (ready [0xFF, 0xD0]).window = .instr (.badstuff 0xD0) [] := by decide +kernel

theorem witness_NextBitCases :
    ({ ready [] with bitOff := 7 } : State).bitOff ≠ 0 ∧
    ((ready [0xFE]).bitOff = 0 ∧ (ready [0xFE]).pos < (ready [0xFE]).len ∧ (ready [0xFE]).byteAt 0 ≠ 0xFF) ∧
    ((ready [0xFF, 0x00]).bitOff = 0 ∧ (ready [0xFF, 0x00]).pos + 2 ≤ (ready [0xFF, 0x00]).len ∧
      (ready [0xFF, 0x00]).byteAt 0 = 0xFF ∧ (ready [0xFF, 0x00]).byteAt 1 = 0) ∧
    ((ready [0xFF]).bitOff = 0 ∧ (ready [0xFF]).phase ≠ .fault ∧
      ∃ t, exec .fetchbyte (ready [0xFF]) = .next t ∧ (t.phase == .fault) = true) :=
  ⟨by decide, by decide, by decide, by decide, by decide, next_of_gives (by decide +kernel)⟩

theorem witness_StuffingIsTransparent :
    (ready [0xFF, 0x00, 0x3C]).bitOff = 0 ∧
    (ready [0xFF, 0x00, 0x3C]).holds (ready [0xFF, 0x00, 0x3C]).pos (stuffed [0xFF, 0x3C]) := by decide +kernel

/-- `1101` is the code of `23` in the table of `DHT_AC`. -/
theorem witness_ReadCodeReturnsTheSymbol :
    (ready [0xD0]).htAt .ac 0 = some acTable ∧ acTable.Valid ∧ (⟨4, 13, 0x23⟩ : HuffEntry) ∈ acTable.map ∧
    ∃ u, (ready [0xD0]).nextBits 4 = some ((⟨4, 13, 0x23⟩ : HuffEntry).bits, u) :=
  ⟨rfl, acTable_valid, by decide, bits_of_map (by decide +kernel)⟩

def overflowBits : List Bool := [true, true, true] ++ List.replicate 13 false

theorem witness_ReadCodeOverflows :
    (ready [0xE0, 0x00]).htAt .ac 0 = some acTable ∧ acTable.Valid ∧
    (∃ u, (ready [0xE0, 0x00]).nextBits 16 = some (overflowBits, u)) ∧
    ∀ e ∈ acTable.map, overflowBits.take e.len ≠ e.bits :=
  ⟨rfl, acTable_valid, bits_of_map (by decide +kernel), by decide⟩

/-- `n = 0`, and `n = 11` with either first bit. -/
theorem witness_ReadMagReturnsTheValue :
    (∃ u, (ready []).nextBits (0 : Nibble).toNat = some ([], u)) ∧
    (∃ u, (ready [0x00, 0x00]).nextBits (11 : Nibble).toNat = some (List.replicate 11 false, u)) ∧
    (∃ u, (ready [0xFF, 0x00, 0xFF, 0x00]).nextBits (11 : Nibble).toNat = some (List.replicate 11 true, u)) := by
  refine ⟨?_, ?_, ?_⟩ <;> exact bits_of_map (by decide +kernel)

/-- Both ends of both halves for `n = 1` and `n = 11`. -/
theorem witness_MagnitudeRanges :
    (1 ≤ 1 ∧ 1 ≤ 11 ∧ 1 < 2 ^ 1 ∧ 2 ^ (1 - 1) ≤ 1) ∧ (0 < 2 ^ 1 ∧ 0 < 2 ^ (1 - 1)) ∧
    (11 ≤ 11 ∧ 1024 < 2 ^ 11 ∧ 2 ^ (11 - 1) ≤ 1024) ∧ (1023 < 2 ^ 11 ∧ 1023 < 2 ^ (11 - 1)) := by decide

/-- `v = 1` and `-1` for `n = 1`; `-1024` and `-2047` for `n = 11`. -/
theorem witness_MagnitudeRoundTrip :
    ((2 : Int) ^ (1 - 1) ≤ 1 ∧ (1 : Int) ≤ 2 ^ 1 - 1) ∧ (-((2 : Int) ^ 1 - 1) ≤ -1 ∧ (-1 : Int) ≤ -(2 ^ (1 - 1))) ∧
    (-((2 : Int) ^ 11 - 1) ≤ -1024 ∧ (-1024 : Int) ≤ -(2 ^ (11 - 1))) ∧
    (-((2 : Int) ^ 11 - 1) ≤ -2047 ∧ (-2047 : Int) ≤ -(2 ^ (11 - 1))) := by decide

/-! ### The block assembler -/

theorem witness_DcOperationsEffect :
    (1 ≤ (1 : Nibble).toNat ∧ ∃ u, (ready [0x80]).nextBits (1 : Nibble).toNat = some ([true], u)) ∧
    ((11 : Nibble).toNat ≤ 11 ∧
      ∃ u, (ready [0x00, 0x00]).nextBits (11 : Nibble).toNat = some (List.replicate 11 false, u)) :=
  ⟨⟨by decide, bits_of_map (by decide +kernel)⟩, by decide, bits_of_map (by decide +kernel)⟩

/-- ZRL at 47 and 48; a run that reaches 63, and one that passes it. -/
theorem witness_AcRunOperationsEffect :
    (inBlock [] .ac 47).k ≤ 47 ∧ 48 ≤ (inBlock [] .ac 48).k ∧
    (inBlock [] .ac 60).k + (3 : Nibble).toNat ≤ 63 ∧ 63 < (inBlock [] .ac 61).k + (3 : Nibble).toNat := by decide

/-- The last coefficient, and one past it. -/
theorem witness_AcCoefOperationsEffect :
    (1 ≤ (1 : Nibble).toNat ∧ (∃ u, (inBlock [0x00] .ac 62).nextBits (1 : Nibble).toNat = some ([false], u)) ∧
      (inBlock [0x00] .ac 62).k + (0 : Nibble).toNat + 1 ≤ 63) ∧
    ((10 : Nibble).toNat ≤ 10 ∧
      (∃ u, (inBlock [0x00, 0x00] .ac 47).nextBits (10 : Nibble).toNat = some (List.replicate 10 false, u)) ∧
      (inBlock [0x00, 0x00] .ac 47).k + (15 : Nibble).toNat + 1 ≤ 63) ∧
    63 < (inBlock [] .ac 48).k + (15 : Nibble).toNat + 1 :=
  ⟨⟨by decide, bits_of_map (by decide +kernel), by decide⟩, ⟨by decide, bits_of_map (by decide +kernel), by decide⟩,
    by decide⟩

theorem witness_BitOperationsFrame :
    (∃ t, exec .nextbit (ready [0xA8]) = .next t ∧ (t.phase == .scan) = true) ∧
    (∃ t, exec (.readmag 3) (ready []) = .next t ∧ (t.phase == .fault) = true) ∧
    (∃ t, exec (.readcode .ac 0) (ready [0xA8]) = .next t ∧ (t.phase == .scan) = true) ∧
    (∃ t, exec (.dcMag 3) (ready [0xA8]) = .next t ∧ (t.phase == .scan) = true) ∧
    (∃ t, exec (.acCoef 2 3) (inBlock [0xA8] .ac 60) = .next t ∧ (t.phase == .scan) = true) ∧
    (∃ t, exec (.decodeBlock 1) (ready [0xA8]) = .next t ∧ (t.phase == .scan) = true) ∧
    (∃ t, exec (.decodeBlock 1) (ready []) = .next t ∧ (t.phase == .fault) = true) := by
  refine ⟨?_, ?_, ?_, ?_, ?_, ?_, ?_⟩ <;> exact next_of_gives (by decide +kernel)

theorem witness_DecodeBlockInvertsTheListing :
    (ready [0xA8]).tablesOf 1 = some (dcTable, acTable) ∧ dcTable.Valid ∧ acTable.Valid ∧
    BlockCode.Ok dcTable acTable (ready [0xA8]).mode k2 ∧
    ∃ u, (ready [0xA8]).nextBits k2.stream.length = some (k2.stream, u) :=
  ⟨rfl, dcTable_valid, acTable_valid, k2_ok _, bits_of_map (by decide +kernel)⟩

/-- Two states that differ in the block, the counters and the output. -/
theorem witness_BlocksAreIndependent :
    let s := ready [0xA8]
    let s' := { ready [0xA8] with blk := Vector.replicate 64 9, k := 5, out := [[]], mcuIdx := 1 }
    s'.tablesOf 1 = s.tablesOf 1 ∧ s'.mem = s.mem ∧ s'.len = s.len ∧ s'.mode = s.mode ∧ s'.pos = s.pos ∧
    s'.bitOff = s.bitOff ∧ s'.cur = s.cur ∧ s.phase ≠ .fault ∧ s'.phase ≠ .fault ∧
    ∃ t, exec (.decodeBlock 1) s = .next t ∧ (t.blk[0] == 5) = true := by
  refine ⟨rfl, rfl, rfl, rfl, rfl, rfl, rfl, by decide, by decide, next_of_gives (by decide +kernel)⟩

/-! ### Scan start and scan -/

def comps2 (c : Component) : List (Nat × Component) := [(1, ⟨1, 1, 0, some ⟨0, 0⟩⟩), (2, c)]
def ready2 (c : Component) : State := { ready [] with comp := comps2 c }

/-- The second component is the first bad one, in each way. -/
theorem witness_CheckConfigCases :
    (ready []).ConfigGood ∧ ({ ready [] with comp := [(2, ⟨1, 1, 0, none⟩)] } : State).compAt 1 = none ∧
    (∀ c : Component, ((ready2 c).compAt 1).isSome = true ∧
      (ready2 c).comp = [(1, ⟨1, 1, 0, some ⟨0, 0⟩⟩)] ++ (2, c) :: [] ∧
      ∀ e ∈ [(1, (⟨1, 1, 0, some ⟨0, 0⟩⟩ : Component))], e.2.Good (ready2 c)) ∧
    ¬ (⟨5, 1, 0, none⟩ : Component).SamplingGood ∧ (⟨4, 4, 0, none⟩ : Component).SamplingGood ∧
    ¬ (⟨1, 1, 16, some ⟨0, 0⟩⟩ : Component).QuantGood (ready2 ⟨1, 1, 16, some ⟨0, 0⟩⟩) ∧
    ((⟨1, 1, 0, some ⟨1, 0⟩⟩ : Component).QuantGood (ready2 ⟨1, 1, 0, some ⟨1, 0⟩⟩) ∧
      (ready2 ⟨1, 1, 0, some ⟨1, 0⟩⟩).htAt .dc 1 = none) ∧
    ((⟨1, 1, 0, some ⟨0, 15⟩⟩ : Component).QuantGood (ready2 ⟨1, 1, 0, some ⟨0, 15⟩⟩) ∧
      ((ready2 ⟨1, 1, 0, some ⟨0, 15⟩⟩).htAt .dc 0).isSome = true ∧
      (ready2 ⟨1, 1, 0, some ⟨0, 15⟩⟩).htAt .ac 15 = none) := by
  refine ⟨ready_good _, rfl, fun c => ⟨rfl, rfl, ?_⟩, by decide, by decide, by decide, ⟨by decide, rfl⟩,
    ⟨by decide, rfl, rfl⟩⟩
  intro e h
  obtain rfl : e = (1, ⟨1, 1, 0, some ⟨0, 0⟩⟩) := by simpa using h
  exact ⟨by decide, ⟨by decide, rfl⟩, ⟨0, 0⟩, rfl, rfl, rfl⟩

theorem witness_BuildMstructOrder : (ready []).StoresOk := ready_stores _

theorem witness_GridCoversTheImage :
    (ready []).img = some ⟨8, 8⟩ ∧ (ready []).compAt 1 = some ⟨1, 1, 0, some ⟨0, 0⟩⟩ ∧ 1 ≤ (1 : Nibble).toNat :=
  ⟨rfl, rfl, by decide⟩

theorem witness_ScanOfAnEmptyImage :
    ({ ready [] with img := some ⟨0, 8⟩ } : State).ConfigGood ∧
    ({ ready [] with img := some ⟨0, 8⟩ } : State).img = some ⟨0, 8⟩ ∧
    ((⟨0, 8⟩ : Image).width = 0 ∨ (⟨0, 8⟩ : Image).height = 0) :=
  ⟨(configError_none _).mp rfl, rfl, .inl rfl⟩

theorem witness_ScanInvertsTheListing :
    (ready [0xA8]).StoresOk ∧ (ready [0xA8]).ConfigGood ∧ (ready [0xA8]).bitOff = 0 ∧
    (∃ g, exec .grid { ready [0xA8] with mstruct := mstructOf (ready [0xA8]).comp } = .next g ∧
      [[k2]].length = g.mcuTotal ∧
      ∀ m ∈ [[k2]], m.length = g.mlen ∧ ∀ (i : Nat) (b : BlockCode), m[i]? = some b →
        ∃ id dct act, g.mstruct[i]? = some id ∧ (ready [0xA8]).tablesOf id = some (dct, act) ∧
          BlockCode.Ok dct act (ready [0xA8]).mode b) ∧
    ∃ u, (ready [0xA8]).nextBits ([[k2]].flatMap fun m => m.flatMap BlockCode.stream).length =
      some ([[k2]].flatMap fun m => m.flatMap BlockCode.stream, u) := by
  refine ⟨ready_stores _, ready_good _, rfl, ?_, bits_of_map (by decide +kernel)⟩
  obtain ⟨g, hg, hp⟩ := next_of_gives
    (o := exec .grid { ready [0xA8] with mstruct := mstructOf (ready [0xA8]).comp })
    (p := fun g => g.mstruct == [1] && g.mcuTotal == 1) (by decide +kernel)
  obtain ⟨h1, h2⟩ : g.mstruct = [1] ∧ g.mcuTotal = 1 := by simpa using hp
  refine ⟨g, hg, h2.symm, fun m hm => ?_⟩
  obtain rfl : m = [k2] := by simpa using hm
  refine ⟨by simp [State.mlen, h1], fun i b hb => ?_⟩
  obtain ⟨rfl, rfl⟩ : i = 0 ∧ k2 = b := by
    cases i with
    | zero => simpa using hb
    | succ i => simp at hb
  exact ⟨1, dcTable, acTable, by simp [h1], rfl, k2_ok _⟩

theorem witness_ScanAlwaysEnds :
    (ready []).StoresOk ∧ ((ready []).comp ≠ [] → (ready []).img.isSome = true) := ⟨ready_stores _, fun _ => rfl⟩

/-- Each of the three, in success and in fault. -/
theorem witness_PhaseOperationsFrame :
    (∃ t, exec .header (at_ [0xFF, 0xD8, 0xFF, 0xDA, 0x00, 0x03, 0x00] 0) = .next t ∧ (t.phase == .header) = true) ∧
    (∃ t, exec .header (at_ [] 0) = .next t ∧ (t.phase == .fault) = true) ∧
    (∃ t, exec (.dispatch 0xD9) (at_ [0xFF, 0xD8, 0xFF, 0xD9] 4) = .next t ∧ (t.ret == .flag false) = true) ∧
    (∃ t, exec (.dispatch 0xDB) (at_ [] 0) = .next t ∧ (t.phase == .fault) = true) ∧
    (∃ t, exec .scan (ready [0xA8]) = .next t ∧ (t.phase == .done) = true) ∧
    (∃ t, exec .scan (ready []) = .next t ∧ (t.phase == .fault) = true) := by
  refine ⟨?_, ?_, ?_, ?_, ?_, ?_⟩ <;> exact next_of_gives (by decide +kernel)

/-! ### Faults, sessions, steps -/

/-- A fault of the header phase, one of the scan phase, and the end of the stream in each. -/
theorem witness_FaultsArriveInTheirPhase :
    (∃ t, step (at_ [0xFF, 0xD8, 0x12] 2) = .next t ∧ faulted (.malformedMarker 2 0x12) 3 t = true) ∧
    (∃ t, step (at_ ([0xFF, 0xD8, 0xFF, 0xC4, 0x00, 0x16, 0x00, 0x03] ++ zeros 18) 2) = .next t ∧
      faulted (.invalidConfiguration .huffOversubscribed 1) 26 t = true) ∧
    (∃ t, step (inBlock [] .ac 63) = .next t ∧ faulted (.unexpectedEndOfStream 0) 0 t = true) ∧
    (∃ t, step (at_ [0xFF, 0xD8] 2) = .next t ∧ faulted (.unexpectedEndOfStream 2) 2 t = true) ∧
    (∃ t, step { ready [] with comp := [] } = .next t ∧
      faulted (.invalidConfiguration .noComponent1 1) 0 t = true) ∧
    (∃ t, step (inBlock [0xE0, 0x00] .ac 0) = .next t ∧ faulted (.huffmanDecodeOverflow 2 0xE000) 2 t = true) := by
  refine ⟨?_, ?_, ?_, ?_, ?_, ?_⟩ <;> exact next_of_gives (by decide +kernel)

theorem witness_StartWhileRunningIsRefused :
    ((at_ [] 0).phase = .header ∨ (at_ [] 0).phase = .scan) ∧ ((ready []).phase = .header ∨ (ready []).phase = .scan) :=
  ⟨.inl rfl, .inr rfl⟩

theorem witness_EverySessionEnds :
    (State.reset.phase ≠ .header ∧ State.reset.phase ≠ .scan) ∧
    (({ ready [] with phase := .done } : State).phase ≠ .header ∧
      ({ ready [] with phase := .done } : State).phase ≠ .scan) := by decide

theorem witness_StartDecodesTheListing :
    let s0 := State.launch baseStream .observed
    let h := afterHeader base [⟨1, 0, 0⟩] [0x00, 0x3F, 0x00] s0
    State.reset.phase ≠ .header ∧ State.reset.phase ≠ .scan ∧ (∀ it ∈ base, it.Segment) ∧
    (Item.sos [⟨1, 0, 0⟩] [0x00, 0x3F, 0x00]).wf = true ∧
    (∀ e ∈ [(⟨1, 0, 0⟩ : ScanEntry)], (afterSegments base s0).compValid e.id = true) ∧ h.ConfigGood ∧
    (∃ g, exec .grid { h with mstruct := mstructOf h.comp } = .next g ∧ [[k2]].length = g.mcuTotal ∧
      ∀ m' ∈ [[k2]], m'.length = g.mlen ∧ ∀ (i : Nat) (b : BlockCode), m'[i]? = some b →
        ∃ id dct act, g.mstruct[i]? = some id ∧ h.tablesOf id = some (dct, act) ∧ BlockCode.Ok dct act .observed b) ∧
    ∃ u, h.nextBits ([[k2]].flatMap fun m' => m'.flatMap BlockCode.stream).length =
      some ([[k2]].flatMap fun m' => m'.flatMap BlockCode.stream, u) := by
  intro s0 h
  refine ⟨by decide, by decide, base_segments, by decide, by decide +kernel,
    (configError_none _).mp (by decide +kernel), ?_, bits_of_map (by decide +kernel)⟩
  obtain ⟨g, hg, hp⟩ := next_of_gives (o := exec .grid { h with mstruct := mstructOf h.comp })
    (p := fun g => g.mstruct == [1] && g.mcuTotal == 1) (by decide +kernel)
  obtain ⟨h1, h2⟩ : g.mstruct = [1] ∧ g.mcuTotal = 1 := by simpa using hp
  refine ⟨g, hg, h2.symm, fun m hm => ?_⟩
  obtain rfl : m = [k2] := by simpa using hm
  refine ⟨by simp [State.mlen, h1], fun i b hb => ?_⟩
  obtain ⟨rfl, rfl⟩ : i = 0 ∧ k2 = b := by
    cases i with
    | zero => simpa using hb
    | succ i => simp at hb
  exact ⟨1, dcTable, acTable, by simp [h1], by decide +kernel, k2_ok _⟩

/-- The end-of-header clause, SOI, a marker word, a DC and an AC symbol, and the scan-start operations. -/
theorem witness_StepRunsTheDecodedOperation :
    ((at_ [0xFF, 0xD8] 0).phase = .header ∧ (at_ [0xFF, 0xD8] 0).pos = 0 ∧
      ∃ t, exec .soi (at_ [0xFF, 0xD8] 0) = .next t ∧ (t.phase == .header) = true) ∧
    ((at_ [0xFF, 0xD8, 0xFF, 0xD9] 2).pos ≠ 0 ∧
      decode .marker (at_ [0xFF, 0xD8, 0xFF, 0xD9] 2).window = .instr (.skip 0xD9) [] ∧
      ∃ t, exec (.skip 0xD9) { at_ [0xFF, 0xD8, 0xFF, 0xD9] 2 with pos := 4 } = .next t ∧
        (t.skiplog == [(0xD9, [])]) = true) ∧
    ((inBlock [0xA8] .dc 0).mstruct[0]? = some 1 ∧ (inBlock [0xA8] .dc 0).tablesOf 1 = some (dcTable, acTable) ∧
      (∃ u, readCode dcTable (inBlock [0xA8] .dc 0) = .ok 0x03 u) ∧ decode .dc [0x03] = .instr (.dcMag 3) []) ∧
    ((inBlock [0x00] .ac 0).tablesOf 1 = some (dcTable, acTable) ∧
      (∃ u, readCode acTable (inBlock [0x00] .ac 0) = .ok 0x00 u) ∧ decode .ac [0x00] = .instr .acEob []) ∧
    ((ready []).phase = .scan ∧ (ready []).stage = .check ∧
      ∃ t, exec .checkConfig (ready []) = .next t ∧ (t.phase == .scan) = true) := by
  refine ⟨⟨rfl, rfl, next_of_gives (by decide +kernel)⟩,
    ⟨by decide, by decide +kernel, next_of_gives (by decide +kernel)⟩, ⟨rfl, rfl, ⟨_, rfl⟩, by decide⟩,
    ⟨rfl, ⟨_, rfl⟩, by decide⟩, ⟨rfl, rfl, next_of_gives (by decide +kernel)⟩⟩

theorem witness_EndedSessionsStay :
    ({ ready [] with phase := .fault } : State).phase ≠ .header ∧
    ({ ready [] with phase := .fault } : State).phase ≠ .scan := by decide

theorem inBlock_inv : (inBlock [0xA8] .dc 0).Inv where
  stream := ⟨by decide +kernel, by decide +kernel, by decide +kernel⟩
  stores := (ready_stores [0xA8]).of_eq rfl rfl rfl rfl
  status := by decide
  aligned := by decide
  scan := ⟨fun _ _ => rfl, fun _ => rfl, fun _ _ _ => rfl⟩
  output := ⟨by decide, by decide, by decide, by decide, by decide, by decide, by decide⟩

/-- A state inside a block, which a step leaves. -/
theorem witness_StepKeepsTheInvariant :
    (inBlock [0xA8] .dc 0).Inv ∧ ∃ t, step (inBlock [0xA8] .dc 0) = .next t ∧ (t.stage == .ac) = true :=
  ⟨inBlock_inv, next_of_gives (by decide +kernel)⟩

theorem witness_StepNeverStops : (inBlock [0xA8] .dc 0).Inv := inBlock_inv

theorem witness_OnlyTheHostWritesTheStream :
    (Instr.skip 0xD9 ≠ .reset ∧ (∀ bs m, Instr.skip 0xD9 ≠ .start bs m) ∧
      ∃ t, exec (.skip 0xD9) (at_ [0x01, 0xFF] 0) = .next t ∧ (t.pos == 1) = true) ∧
    ∃ t, step (at_ [0xFF, 0xD8] 0) = .next t ∧ (t.pos == 2) = true :=
  ⟨⟨by decide, fun _ _ => by simp, next_of_gives (by decide +kernel)⟩, next_of_gives (by decide +kernel)⟩

theorem witness_PhasesWriteTheirOwnState :
    (∃ t, step (at_ [0xFF, 0xD8] 0) = .next t ∧ (t.phase == .header) = true) ∧
    (∃ t, step (inBlock [0x00] .ac 0) = .next t ∧ (t.out == [[Block.zero]]) = true) :=
  ⟨next_of_gives (by decide +kernel), next_of_gives (by decide +kernel)⟩

theorem witness_SkiplogIsNeverRead :
    ∃ t, step (at_ [0xFF, 0xD8, 0xFF, 0xD9] 2) = .next t ∧ (t.skiplog == [(0xD9, [])]) = true :=
  next_of_gives (by decide +kernel)

end Sys2Proof.Tests
end

section
/-! SUPPORT. The header phase as one relation: what SOI, the segment handlers, SKIP and the marker fetch may write, and
that they keep the stores valid (spec/10_state.md R37, R40, R73). -/

namespace Sys2Proof.Machine

/-! ## Built tables are valid (R29, R146, R149) -/

theorem countsTotal_le (counts : List Byte) : countsTotal counts ≤ counts.length * 255 := by
  have h := List.sum_le_card_nsmul (counts.map BitVec.toNat) 255 fun x hx => by
    obtain ⟨b, -, rfl⟩ := List.mem_map.mp hx
    have := b.isLt
    omega
  simpa [countsTotal] using h

/-- A table built from 16 counts and the symbols they count is what R29 and R149 say of a stored one. -/
theorem buildCodes_valid {counts syms : List Byte} {map : List HuffEntry} (hc : counts.length = 16)
    (hs : syms.length = countsTotal counts) (h : buildCodes counts syms = .ok map) :
    (⟨countsTotal counts, map⟩ : HuffTable).Valid := by
  obtain ⟨keys, hk, rfl⟩ := buildCodes_ok h
  have hl : keys.length = syms.length := (assignLengths_length hk).trans hs.symm
  have hz : (keys.zip syms).map Prod.fst = keys := List.map_fst_zip hl.le
  rw [← List.map_uncurry_zip_eq_zipWith]
  constructor
  case size => simp [hl, hs]
  case bound => exact (countsTotal_le counts).trans_eq (by rw [hc])
  case keys =>
    intro e he
    obtain ⟨p, hp, rfl⟩ := List.mem_map.mp he
    obtain ⟨h1, h2, -, h3⟩ := assignLengths_bounds hk p.1 (hz ▸ List.mem_map_of_mem hp)
    rw [List.length_map, hc] at h2
    exact ⟨h1, Nat.lt_succ_iff.mp h2, h3⟩
  case prefixFree =>
    have hp := assignLengths_pairwise hk
    rw [← hz, List.pairwise_map] at hp
    refine List.pairwise_map.mpr (hp.imp fun {p q} hpq => ?_)
    obtain ⟨hle, hlt⟩ := hpq
    refine ⟨fun hpre => hlt.ne' hpre.2, fun hpre => ?_⟩
    have hlen : p.1.1 = q.1.1 := Nat.le_antisymm hle hpre.1
    have hcode : p.1.2 / 2 ^ (p.1.1 - q.1.1) = q.1.2 := hpre.2
    rw [hlen, Nat.sub_self, Nat.pow_zero, Nat.div_one] at hlt hcode
    omega

/-! ## What the header phase may write -/

/-- Components are declared only once the image size is set (SOF0 writes both, R135). -/
abbrev State.ImageOk (s : State) : Prop := s.comp ≠ [] → s.img.isSome = true

/-- From `s` to `t` only what the header phase configures changed, in valid form. -/
structure State.Configured (s t : State) : Prop where
  forward : s.Forward t
  frame : t = { s with
    pos := t.pos, img := t.img, comp := t.comp, qt := t.qt, htDc := t.htDc, htAc := t.htAc, skiplog := t.skiplog }
  stores : s.StoresOk → t.StoresOk
  image : s.ImageOk → t.ImageOk

theorem State.Configured.refl (s : State) : s.Configured s := ⟨.refl s, rfl, id, id⟩
theorem State.Configured.len {s t : State} (h : s.Configured t) : t.len = s.len := by rw [h.frame]
theorem State.Configured.phase {s t : State} (h : s.Configured t) : t.phase = s.phase := by rw [h.frame]
theorem State.Configured.trans {s t u : State} (h : s.Configured t) (h' : t.Configured u) : s.Configured u :=
  ⟨h.forward.trans h.len h'.forward, by rw [h'.frame, h.frame], h'.stores ∘ h.stores, h'.image ∘ h.image⟩

theorem State.Moved.configured {s t : State} (h : s.Moved t) : s.Configured t := by
  refine ⟨h.forward, ?_, ?_, ?_⟩ <;> rw [h.frame]
  · rfl
  · exact fun hs => hs.of_eq rfl rfl rfl rfl
  · exact id

theorem Raised.configured {s t u : State} {p : FaultInfo → Bool} (h : s.Configured t)
    (hu : Raised State.Configured p t u) : Raised State.Configured p s u := hu.imp (fun _ => h.trans) fun _ => id

/-- Run from `s`, the procedure ends with the header configured, or raises a fault of the header phase on the way. -/
abbrev Res.Configures {α : Type} (s : State) (r : Res α) : Prop :=
  r.Ends (fun _ t => s.Configured t) (Raised State.Configured FaultInfo.ofHeader s)

theorem State.Configured.configures {α : Type} {s t : State} {r : Res α} (h : s.Configured t) (hr : r.Configures t) :
    r.Configures s := hr.imp (fun _ _ => h.trans) fun _ => Raised.configured h

/-- A fault met with only the cursor moved. -/
theorem Raised.moved_configured {s u : State} {p : FaultInfo → Bool} (hu : Raised State.Moved p s u) :
    Raised State.Configured p s u := hu.imp (fun _ => State.Moved.configured) fun _ => id

/-! ### SOF0 -/

theorem State.configured_setImg (s : State) (im : Image) : s.Configured (s.setImg (some im)) :=
  ⟨.refl s, rfl, fun hs => hs.of_eq rfl rfl rfl rfl, fun _ _ => rfl⟩

/-- With an image size set, declaring components is configuring. -/
theorem State.Declared.configured {s t : State} (h : s.Declared t) (hi : s.img.isSome = true) : s.Configured t := by
  obtain ⟨hf, es, he⟩ := h
  refine ⟨hf, ?_, fun hs => ?_, fun _ _ => ?_⟩
  · rw [he, declare_fold_frame]; rfl
  · rw [he]; exact (hs.declare_fold es).of_eq rfl rfl rfl rfl
  · rw [he, declare_fold_frame]; exact hi

theorem sof0Op_configured (s : State) : (sof0Op s).Configures s := by
  refine (sof0Op_ends s).imp ?_ ?_
  · rintro _ t ⟨im, h⟩
    exact (s.configured_setImg im).trans (h.configured rfl)
  · rintro t (h | ⟨im, h⟩)
    · exact h.moved_configured
    · exact h.imp (fun _ hu => (s.configured_setImg im).trans (hu.configured rfl)) fun _ => id

/-! ### DQT and DHT -/

theorem dqtOp_configured (s : State) : (dqtOp s).Configures s := by
  refine (dqtOp_ends s).imp ?_ fun _ => Raised.moved_configured
  rintro _ t ⟨hf, q, hq, ht⟩
  refine ⟨hf, ?_, fun hs => ?_, fun hi => ?_⟩ <;> rw [ht]
  · rfl
  · exact (hs.putQt _ hq).of_eq rfl rfl rfl rfl
  · exact hi

theorem State.putHt_frame (c : HuffClass) (u : Nibble) (h : HuffTable) (s : State) :
    s.putHt c u h = { s with htDc := (s.putHt c u h).htDc, htAc := (s.putHt c u h).htAc } := by
  cases c <;> rfl

theorem dhtOp_configured (s : State) : (dhtOp s).Configures s := by
  refine (dhtOp_ends s).imp ?_ fun _ => Raised.moved_configured
  rintro _ t ⟨hf, counts, syms, map, hc, hl, hb, ht⟩
  refine ⟨hf, ?_, fun hs => ?_, fun hi => ?_⟩ <;> rw [ht]
  · rw [State.putHt_frame]; rfl
  · exact (hs.putHt _ _ (buildCodes_valid hc hl hb)).of_eq rfl rfl rfl rfl
  · rw [State.putHt_frame]; exact hi

/-! ### SOS -/

/-- Where no component is declared, SOS's entries bind nothing. -/
theorem select_fold_nil {s : State} (h : s.comp = []) (es : List ScanEntry) :
    es.foldl (fun s e => s.select e) s = s := by
  induction es with
  | nil => rfl
  | cons e es ih =>
    have hs : s.select e = s := by simp [State.select, State.compAt, h]
    rw [List.foldl_cons, hs, ih]

theorem State.Selected.configured {s t : State} (h : s.Selected t) : s.Configured t := by
  obtain ⟨hf, es, he⟩ := h
  refine ⟨hf, ?_, fun hs => ?_, fun hi hc => ?_⟩
  · rw [he, select_fold_frame]; rfl
  · rw [he]; exact (hs.select_fold es).of_eq rfl rfl rfl rfl
  · rw [he] at hc ⊢
    have h0 : s.comp ≠ [] := fun h0 => hc (by rw [select_fold_nil h0]; exact h0)
    rw [select_fold_frame]
    exact hi h0

theorem sosOp_configured (s : State) : (sosOp s).Configures s :=
  (sosOp_ends s).imp (fun _ _ => State.Selected.configured) fun _ hu =>
    hu.imp (fun _ => State.Selected.configured) fun _ => id

/-! ### Markers -/

theorem soiOp_configured (s : State) :
    (soiOp s).Ends (fun _ t => s.Configured t ∧ t.pos ≤ s.len) (Raised State.Configured FaultInfo.ofHeader s) := by
  refine (soiOp_ends s).imp ?_ fun _ => Raised.moved_configured
  rintro _ t ⟨hl, rfl⟩
  exact ⟨(State.moved_setPos (by omega) fun _ => hl).configured, hl⟩

theorem skipOp_configured (m : Byte) (s : State) : (skipOp m s).Configures s := by
  obtain ⟨h1, h2, -, -⟩ := skipEnd_spec s.mem (s.len - s.pos) s.pos
  refine ⟨⟨h1, fun hs => ?_⟩, rfl, fun hs => hs.of_eq rfl rfl rfl rfl, id⟩
  simp only [State.setPos_pos]
  omega

theorem markerFetchOp_configured (s : State) :
    (markerFetchOp s).Ends (fun _ t => s.Configured t ∧ s.pos + 2 ≤ t.pos ∧ t.pos ≤ s.len)
      (Raised State.Configured FaultInfo.ofHeader s) := by
  refine (markerFetchOp_ends s).imp ?_ fun _ => Raised.moved_configured
  rintro m t ⟨-, -, hl, rfl⟩
  exact ⟨(State.moved_setPos (by omega) fun _ => hl).configured, Nat.le_refl _, hl⟩

theorem dispatchOp_configured (m : Byte) (s : State) : (dispatchOp m s).Configures s := by
  have hr {r : Res Unit} (d : Bool) (h : r.Configures s) : (r.bind fun _ s => .ok d s).Configures s :=
    h.bind fun _ _ ht => ht
  rw [dispatchOp]
  split
  · exact hr _ (dqtOp_configured s)
  split
  · exact hr _ (sof0Op_configured s)
  split
  · exact hr _ (dhtOp_configured s)
  split
  · exact hr _ (sosOp_configured s)
  · exact hr _ (skipOp_configured m s)

/-- Each round takes two bytes, so a bound above the bytes left is never met (R262). -/
theorem markerLoop_configured (n : Nat) (s : State) (hn : s.len - s.pos < n) : (markerLoop n s).Configures s := by
  induction n generalizing s with
  | zero => omega
  | succ n ih =>
    refine (markerFetchOp_configured s).bind fun m t ht => ?_
    obtain ⟨hst, h2, hl⟩ := ht
    refine ((dispatchOp_configured m t).imp (fun _ _ h => h) fun _ => Raised.configured hst).bind fun d u htu => ?_
    have hsu := hst.trans htu
    split
    · exact hsu
    · have hpos : t.pos ≤ u.pos := htu.forward.1
      exact hsu.configures (ih u (by rw [hsu.len]; omega))

theorem headerOp_configured (s : State) : (headerOp s).Configures s :=
  (soiOp_configured s).bind fun _ t ⟨ht, hl⟩ =>
    ht.configures (markerLoop_configured _ t (by rw [ht.len]; omega))

end Sys2Proof.Machine
end

section
/-! SUPPORT. What a step does, phase by phase (log entry 5): how its fetch and its operation end, put together once. -/

namespace Sys2Proof.Machine

/-- A step follows from how its fetch ends and what the fetched operation answers. -/
theorem step_of_fetch {P : Instr → State → Prop} {Q G : State → Prop} {s : State}
    (hf : (fetch s).Ends (fun o t => ∃ i, o = some i ∧ P i t) Q) (hq : ∀ t, Q t → G t)
    (hi : ∀ i t, P i t → ∃ u, exec i t = .next u ∧ G (advance i u)) : ∃ t, step s = .next t ∧ G t := by
  cases h : fetch s with
  | ok o t =>
    rw [h] at hf
    obtain ⟨i, rfl, hp⟩ := hf
    obtain ⟨u, hu, hg⟩ := hi i t hp
    exact ⟨_, by rw [step_ok h, hu], hg⟩
  | raised t =>
    rw [h] at hf
    exact ⟨t, step_raised h, hq t hf⟩
  | stop f =>
    rw [h] at hf
    exact hf.elim

/-- The same where the operation that is due takes no pattern from the stream. -/
theorem step_of_due {G : State → Prop} {s u : State} {i : Instr} (hf : fetch s = .ok (some i) s)
    (hu : exec i s = .next u) (hg : G (advance i u)) : ∃ t, step s = .next t ∧ G t :=
  ⟨_, by rw [step_ok hf, hu], hg⟩

/-- In IDLE, DONE and FAULT no operation is due (R235). -/
theorem fetch_idle {s : State} (h : s.phase ≠ .header) (h' : s.phase ≠ .scan) : fetch s = .ok none s := by
  cases hp : s.phase with
  | header => exact absurd hp h
  | scan => exact absurd hp h'
  | idle | done | fault => simp only [fetch, hp]

/-- In IDLE, DONE and FAULT a step changes nothing (R235). -/
theorem step_idle {s : State} (h : s.phase ≠ .header) (h' : s.phase ≠ .scan) : step s = .next s := by
  rw [step, fetch_idle h h']

theorem advance_raise (i : Instr) (f : FaultInfo) (s : State) : advance i (s.raise f) = s.raise f :=
  advance_idle (by simp) (by simp)

/-- A fault that was raised stays when the step moves on. -/
theorem Raised.advance {R : State → State → Prop} {p : FaultInfo → Bool} {s t : State} (h : Raised R p s t)
    (i : Instr) : Raised R p s (advance i t) := by
  obtain ⟨u, f, hu, hf, rfl⟩ := h
  exact ⟨u, f, hu, hf, advance_raise i f u⟩

/-! ## The header phase -/

/-- The operations fetched in the header phase (R82). -/
def HeaderRow (i : Instr) : Prop :=
  i = .soi ∨ (∃ m, i = decodeMarkerByte m) ∨ ∃ b, i = .badmarker b

/-- The row a marker byte decodes to does what DISPATCH does with the byte. -/
theorem exec_decodeMarkerByte (m : Byte) (s : State) : exec (decodeMarkerByte m) s = (dispatchOp m s).outcome := by
  have hr (r : Res Unit) (d : Bool) : r.outcome = (r.bind fun _ s => .ok d s).outcome := by cases r <;> rfl
  rw [decodeMarkerByte, dispatchOp]
  split
  · exact hr (dqtOp s) false
  split
  · exact hr (sof0Op s) false
  split
  · exact hr (dhtOp s) false
  split
  · exact hr (sosOp s) true
  · exact hr (skipOp m s) false

theorem decodeMarker_headerRow {bs rest : List Byte} {i : Instr} (h : decode .marker bs = .instr i rest) :
    HeaderRow i := by
  rw [decode, decodeMarker.eq_def] at h
  split at h
  · cases h
  split at h
  · split at h
    · cases h
    · cases h; exact .inr (.inl ⟨_, rfl⟩)
  · cases h; exact .inr (.inr ⟨_, rfl⟩)

theorem exec_headerRow {i : Instr} (h : HeaderRow i) (s : State) :
    ∃ t, exec i s = .next t ∧ (s.Configured t ∨ Raised State.Configured FaultInfo.ofHeader s t) := by
  rcases h with rfl | ⟨m, rfl⟩ | ⟨b, rfl⟩
  · obtain ⟨t, ht, ⟨_, -, hs, -⟩ | ⟨-, hs⟩⟩ := (soiOp_configured s).outcome
    · exact ⟨t, ht, .inl hs⟩
    · exact ⟨t, ht, .inr hs⟩
  · rw [exec_decodeMarkerByte]
    obtain ⟨t, ht, ⟨_, -, hs⟩ | ⟨-, hs⟩⟩ := (dispatchOp_configured m s).outcome
    · exact ⟨t, ht, .inl hs⟩
    · exact ⟨t, ht, .inr hs⟩
  · exact ⟨_, rfl, .inr ⟨s, _, .refl s, rfl, rfl⟩⟩

theorem window_length_le (s : State) : s.window.length ≤ s.len - s.pos := by
  rw [State.window, bytesFrom_length]
  exact Nat.min_le_right ..

theorem fetch_header {s : State} (h : s.phase = .header) :
    (fetch s).Ends (fun o t => ∃ i, o = some i ∧ HeaderRow i ∧ s.Configured t)
      (Raised State.Configured FaultInfo.ofHeader s) := by
  have hm {n : Nat} (hn : n ≤ s.window.length) : s.Moved (s.setPos (s.pos + n)) := by
    have := window_length_le s
    exact State.moved_setPos (by omega) (by omega)
  simp only [fetch, h]
  split
  · exact ⟨_, rfl, .inl rfl, .refl s⟩
  rw [fetchPattern]
  split
  · rename_i i rest hd
    exact ⟨i, rfl, decodeMarker_headerRow hd, (hm (Nat.sub_le ..)).configured⟩
  · exact ⟨_, _, (hm (Nat.le_refl _)).configured, rfl, rfl⟩

/-- What a step of the header phase comes to: a fault, a configured state, or the hand-over to the scan (R115). -/
def State.HeaderStep (s t : State) : Prop :=
  Raised State.Configured FaultInfo.ofHeader s t ∨ s.Configured t ∨ ∃ u, s.Configured u ∧ t = enterScan u

theorem step_header {s : State} (h : s.phase = .header) : ∃ t, step s = .next t ∧ s.HeaderStep t := by
  refine step_of_fetch (fetch_header h) (fun t => .inl) fun i t ⟨hi, hst⟩ => ?_
  obtain ⟨u, hu, hc | hr⟩ := exec_headerRow hi t
  · have hsu := hst.trans hc
    refine ⟨u, hu, .inr ?_⟩
    rw [advance_header (hsu.phase.trans h)]
    split
    · exact .inr ⟨u, hsu, rfl⟩
    · exact .inl hsu
  · exact ⟨u, hu, .inl ((hr.configured hst).advance i)⟩

/-! ## The scan phase -/

theorem fetch_check {s : State} (h : s.phase = .scan) (hs : s.stage = .check) :
    fetch s = .ok (some .checkConfig) s := by simp only [fetch, h, hs]
theorem fetch_mstruct {s : State} (h : s.phase = .scan) (hs : s.stage = .mstruct) :
    fetch s = .ok (some .buildMstruct) s := by simp only [fetch, h, hs]
theorem fetch_grid {s : State} (h : s.phase = .scan) (hs : s.stage = .grid) :
    fetch s = .ok (some .grid) s := by simp only [fetch, h, hs]
theorem fetch_done {s : State} (h : s.phase = .scan) (hs : s.stage = .done) :
    fetch s = .ok (some .scanDone) s := by simp only [fetch, h, hs]
theorem fetch_dc {s : State} (h : s.phase = .scan) (hs : s.stage = .dc) : fetch s = fetchSymbol .dc s := by
  simp only [fetch, h, hs]
theorem fetch_ac {s : State} (h : s.phase = .scan) (hs : s.stage = .ac) : fetch s = fetchSymbol .ac s := by
  simp only [fetch, h, hs]

section advance
variable {s : State} (i : Instr) (h : s.phase = .scan)
include h

theorem advance_check (hs : s.stage = .check) : advance i s = s.setStage .mstruct := by
  rw [advance_scan h, advanceScan, hs]
theorem advance_mstruct (hs : s.stage = .mstruct) : advance i s = s.setStage .grid := by
  rw [advance_scan h, advanceScan, hs]
theorem advance_grid (hs : s.stage = .grid) : advance i s = nextMcu ((s.setBitOff 0).setMcuIdx 0) := by
  rw [advance_scan h, advanceScan, hs]
theorem advance_dc (hs : s.stage = .dc) : advance i s = (s.setK 0).setStage .ac := by
  rw [advance_scan h, advanceScan, hs]
theorem advance_ac (hs : s.stage = .ac) :
    advance i s = if s.k < Config.acValues then s else nextBlock s := by
  rw [advance_scan h, advanceScan, hs]

end advance

/-- The row a symbol of a class decodes to (R92, R93). -/
def decodeSymbol : HuffClass → Byte → Instr
  | .dc => decodeDcSymbol
  | .ac => decodeAcSymbol

/-- When the tables of the block under assembly are loaded, its symbol is read with one of them. -/
theorem fetchSymbol_ends {c : HuffClass} {s : State} {id : Byte} (hid : s.mstruct[s.blkIdx]? = some id)
    (ht : (s.tablesOf id).isSome = true) :
    (fetchSymbol c s).Ends (fun o t => ∃ i, o = some i ∧ (∃ sym, i = decodeSymbol c sym) ∧ s.Assembled t ∧ t.k = s.k)
      (Raised State.AssembledK FaultInfo.ofBlock s) := by
  obtain ⟨⟨dct, act⟩, ht⟩ := Option.isSome_iff_exists.mp ht
  have hr (tb : HuffTable) : (readCode tb s).Ends (fun _ t => s.Assembled t ∧ t.k = s.k)
      (Raised State.AssembledK FaultInfo.ofBlock s) :=
    (readCode_assembled tb s).imp (fun _ _ h => h) fun _ => raisedK (.refl s)
  cases c <;> simp only [fetchSymbol, hid, ht]
  · exact (hr dct).bind fun sym t h => ⟨_, rfl, ⟨sym, rfl⟩, h⟩
  · exact (hr act).bind fun sym t h => ⟨_, rfl, ⟨sym, rfl⟩, h⟩

end Sys2Proof.Machine
end

section
/-! SUPPORT. The invariants of spec/10_state.md R40 along a session: at its beginning, and over a step of each phase and
of each stage of the scan. The invariant splits into what holds in every phase (`State.Sound`) and what the scan loop
rests on (`State.Scanning`). -/

namespace Sys2Proof.Machine

/-! ## Reset values (R41, R250) -/

/-- The reset state with a stream, a mode and a phase of the host's: what RESET and START begin with. -/
def State.initial (m : Memory) (l : Nat) (md : MagnitudeMode) (p : Phase) : State :=
  { State.reset with mem := m, len := l, mode := md, phase := p }

theorem State.reset_eq_initial : State.reset = State.initial [] 0 Config.defaultMode .idle := rfl

theorem State.launch_eq_initial (bs : List Byte) (md : MagnitudeMode) :
    State.launch bs md = State.initial (Memory.load [] 0 bs) bs.length md .header := rfl

section initial
variable (m : Memory) (l : Nat) (md : MagnitudeMode) (p : Phase)

theorem State.initial_fresh : (State.initial m l md p).Fresh where
  fault := rfl
  pos := rfl
  bitOff := rfl
  cur := rfl
  acc := rfl
  accLen := rfl
  imgValid := rfl
  compValid _ := ⟨rfl, rfl⟩
  qtValid _ := rfl
  htValid c _ := by cases c <;> rfl
  mstruct := ⟨rfl, rfl⟩
  grid := ⟨rfl, rfl, rfl⟩
  counters := ⟨rfl, rfl, rfl⟩
  blk j := by simp [State.initial, State.reset, Block.zero]
  out := rfl
  skiplog := rfl

theorem State.initial_stores : (State.initial m l md p).StoresOk where
  comp := rfl
  qt := rfl
  htDc := rfl
  htAc := rfl
  compIds := nofun
  qtIds := nofun
  htDcIds := nofun
  htAcIds := nofun
  quant := nofun
  huffDc := nofun
  huffAc := nofun

variable {m l p}

theorem State.initial_inv (hm : Memory.wf m = true) (hb : ∀ c ∈ m, c.1 < l) (hp : p = .idle ∨ p = .header) :
    (State.initial m l md p).Inv := by
  have hf : p ≠ .fault ∧ p ≠ .scan ∧ p ≠ .done := by rcases hp with rfl | rfl <;> decide
  obtain ⟨hfault, hscan, hdone⟩ := hf
  exact
    { stream := ⟨hm, hb, Nat.zero_le _⟩
      stores := State.initial_stores ..
      status := ⟨fun h => absurd h hfault, fun _ => ⟨rfl, rfl⟩⟩
      aligned := fun _ => rfl
      scan := ⟨fun h => absurd h hscan, fun h => absurd rfl h, fun h => absurd h hscan⟩
      output :=
        { kLe := Nat.zero_le _
          outCount := rfl
          outSizes := nofun
          fresh := fun _ => rfl
          inBlock := fun h => absurd h hscan
          acOpen := fun h => absurd h hscan
          complete := fun _ => rfl } }

end initial

/-! ## What holds in every phase -/

/-- The part of the invariant that speaks of no phase and no stage. -/
structure State.Sound (s : State) : Prop where
  stream : s.StreamOk
  stores : s.StoresOk
  image : s.ImageOk
  kLe : s.k ≤ Config.acValues
  outCount : s.out.length = s.mcuIdx
  outSizes : ∀ m ∈ s.out, m.length = s.mlen

/-- No fault is recorded. -/
abbrev State.Clear (s : State) : Prop := s.faultInfo = none ∧ s.fault = 0

theorem State.Inv.sound {s : State} (h : s.Inv) : s.Sound :=
  ⟨h.stream, h.stores, h.scan.image, h.output.kLe, h.output.outCount, h.output.outSizes⟩

/-- In phase FAULT nothing more than soundness is asked. -/
theorem State.Sound.raise_inv {s : State} (h : s.Sound) (f : FaultInfo) : (s.raise f).Inv where
  stream := h.stream.of_eq rfl rfl h.stream.cursor
  stores := h.stores.of_eq rfl rfl rfl rfl
  status := ⟨fun _ => ⟨f, rfl, rfl⟩, fun hp => absurd rfl hp⟩
  aligned := nofun
  scan := ⟨nofun, h.image, nofun⟩
  output := ⟨h.kLe, h.outCount, h.outSizes, by simp, nofun, nofun, by simp⟩

theorem State.Sound.configured {s t : State} (h : s.Sound) (hc : s.Configured t) : t.Sound where
  stream := h.stream.of_eq (by rw [hc.frame]) hc.len (hc.forward.2 h.stream.cursor)
  stores := hc.stores h.stores
  image := hc.image h.image
  kLe := by rw [hc.frame]; exact h.kLe
  outCount := by rw [hc.frame]; exact h.outCount
  outSizes := by rw [hc.frame]; exact h.outSizes

/-! ## The header phase -/

/-- What the header phase adds: no bit is held and nothing is decoded. -/
structure State.InHeader (s : State) : Prop where
  sound : s.Sound
  phase : s.phase = .header
  clear : s.Clear
  aligned : s.bitOff = 0
  fresh : s.out = []

theorem State.Inv.inHeader {s : State} (h : s.Inv) (hp : s.phase = .header) : s.InHeader :=
  ⟨h.sound, hp, h.status.2 (by simp [hp]), h.aligned hp, h.output.fresh (.inl hp)⟩

theorem State.InHeader.inv {s : State} (h : s.InHeader) : s.Inv where
  stream := h.sound.stream
  stores := h.sound.stores
  status := ⟨by simp [h.phase], fun _ => h.clear⟩
  aligned _ := h.aligned
  scan := ⟨by simp [h.phase], h.sound.image, by simp [h.phase]⟩
  output := ⟨h.sound.kLe, h.sound.outCount, h.sound.outSizes, fun _ => h.fresh, by simp [h.phase], by simp [h.phase],
    by simp [h.phase]⟩

theorem State.InHeader.configured {s t : State} (h : s.InHeader) (hc : s.Configured t) : t.InHeader where
  sound := h.sound.configured hc
  phase := hc.phase.trans h.phase
  clear := by rw [hc.frame]; exact h.clear
  aligned := by rw [hc.frame]; exact h.aligned
  fresh := by rw [hc.frame]; exact h.fresh

/-- The hand-over to the scan (R115). -/
theorem State.InHeader.enterScan_inv {s : State} (h : s.InHeader) : (enterScan s).Inv where
  stream := h.sound.stream.of_eq rfl rfl h.sound.stream.cursor
  stores := h.sound.stores.of_eq rfl rfl rfl rfl
  status := ⟨nofun, fun _ => h.clear⟩
  aligned := nofun
  scan := ⟨fun _ hs => absurd rfl hs, h.sound.image, fun _ hs => absurd rfl hs⟩
  output := ⟨h.sound.kLe, h.sound.outCount, h.sound.outSizes, fun _ => h.fresh, by simp, by simp, by simp⟩

theorem step_header_inv {s : State} (h : s.Inv) (hp : s.phase = .header) : ∃ t, step s = .next t ∧ t.Inv := by
  have hh := h.inHeader hp
  obtain ⟨t, ht, ⟨u, f, hu, -, rfl⟩ | hc | ⟨u, hu, rfl⟩⟩ := step_header hp
  · exact ⟨_, ht, (hh.sound.configured hu).raise_inv f⟩
  · exact ⟨_, ht, (hh.configured hc).inv⟩
  · exact ⟨_, ht, (hh.configured hu).enterScan_inv⟩

/-! ## The scan loop -/

/-- What the scan loop rests on: a checked configuration and the MCU structure built from it (R190, R191). -/
structure State.Scanning (s : State) : Prop where
  sound : s.Sound
  phase : s.phase = .scan
  clear : s.Clear
  good : s.ConfigGood
  built : s.mstruct = mstructOf s.comp

theorem State.Inv.scanning {s : State} (h : s.Inv) (hp : s.phase = .scan) (h1 : s.stage ≠ .check)
    (h2 : s.stage ≠ .mstruct) : s.Scanning :=
  ⟨h.sound, hp, h.status.2 (by simp [hp]), (configError_none s).mp (h.scan.config hp h1),
    h.scan.structureBuilt hp h1 h2⟩

/-- What the scan loop may write: the reader, the block and MCU under assembly, the grid, the counters, `out`, and the
model's stage. -/
abbrev State.LoopFrame (s t : State) : Prop :=
  t = { s with
    pos := t.pos, bitOff := t.bitOff, cur := t.cur, acc := t.acc, accLen := t.accLen, mcuCols := t.mcuCols,
    mcuRows := t.mcuRows, mcuTotal := t.mcuTotal, mcuIdx := t.mcuIdx, blkIdx := t.blkIdx, k := t.k, blk := t.blk,
    mcu := t.mcu, out := t.out, stage := t.stage }

theorem State.Scanning.of_frame {s t : State} (h : s.Scanning) (ht : s.LoopFrame t) (hpos : t.pos ≤ s.len)
    (hk : t.k ≤ Config.acValues) (hc : t.out.length = t.mcuIdx) (hz : ∀ m ∈ t.out, m.length = s.mlen) :
    t.Scanning where
  sound :=
    { stream := h.sound.stream.of_eq (by rw [ht]) (by rw [ht]) hpos
      stores := h.sound.stores.of_eq (by rw [ht]) (by rw [ht]) (by rw [ht]) (by rw [ht])
      image := by rw [ht]; exact h.sound.image
      kLe := hk
      outCount := hc
      outSizes := fun m hm => (hz m hm).trans (by rw [ht]; rfl) }
  phase := by rw [ht]; exact h.phase
  clear := by rw [ht]; exact h.clear
  good := by
    rw [← configError_none, configError_congr (by rw [ht]) (by rw [ht]) (by rw [ht]) (by rw [ht]), configError_none]
    exact h.good
  built := by rw [ht]; exact h.built

/-- The same where no MCU is completed. -/
theorem State.Scanning.of_frame_same {s t : State} (h : s.Scanning) (ht : s.LoopFrame t) (hpos : t.pos ≤ s.len)
    (hk : t.k ≤ Config.acValues) (ho : t.out = s.out) (hi : t.mcuIdx = s.mcuIdx) : t.Scanning :=
  h.of_frame ht hpos hk (by rw [ho, hi]; exact h.sound.outCount) (by rw [ho]; exact h.sound.outSizes)

theorem State.Scanning.assembled {s t : State} (h : s.Scanning) (ha : s.Assembled t) (hk : t.k ≤ Config.acValues) :
    t.Scanning :=
  h.of_frame_same (by rw [State.LoopFrame, ha.frame]) (ha.forward.2 h.sound.stream.cursor) hk (by rw [ha.frame])
    (by rw [ha.frame])

/-- A fault of the assembler ends the session in a state that keeps the invariant. -/
theorem State.Scanning.raised_inv {s t : State} (h : s.Scanning)
    (hr : Raised State.AssembledK FaultInfo.ofBlock s t) : t.Inv := by
  obtain ⟨u, f, hu, -, rfl⟩ := hr
  exact (h.assembled hu.1 (hu.2 h.sound.kLe)).sound.raise_inv f

/-- The invariant in the loop: what each of its stages adds. -/
theorem State.Scanning.inv {s : State} (h : s.Scanning) (hs : s.stage = .dc ∨ s.stage = .ac ∨ s.stage = .done)
    (hb : s.stage = .dc ∨ s.stage = .ac → s.mcuIdx < s.mcuTotal ∧ s.blkIdx < s.mlen ∧ s.mcu.length = s.blkIdx)
    (ha : s.stage = .ac → s.k < Config.acValues) (hd : s.stage = .done → s.mcuIdx = s.mcuTotal) : s.Inv where
  stream := h.sound.stream
  stores := h.sound.stores
  status := ⟨by simp [h.phase], fun _ => h.clear⟩
  aligned := by simp [h.phase]
  scan := ⟨fun _ _ => (configError_none s).mpr h.good, h.sound.image, fun _ _ _ => h.built⟩
  output :=
    { kLe := h.sound.kLe
      outCount := h.sound.outCount
      outSizes := h.sound.outSizes
      fresh := by rcases hs with hs | hs | hs <;> simp [h.phase, hs]
      inBlock := fun _ => hb
      acOpen := fun _ => ha
      complete := by simpa [h.phase] using hd }

theorem State.Scanning.mlen_pos {s : State} (h : s.Scanning) : 0 < s.mlen := by
  rw [State.mlen, h.built]
  exact List.length_pos_iff.mpr (mstructOf_ne_nil h.good)

/-- A block begins (R194). -/
theorem State.Scanning.startBlock_inv {s : State} (h : s.Scanning) (hi : s.mcuIdx < s.mcuTotal)
    (hb : s.blkIdx < s.mlen) (hm : s.mcu.length = s.blkIdx) : (startBlock s).Inv := by
  have hs : (startBlock s).Scanning :=
    h.of_frame_same rfl (by simpa using h.sound.stream.cursor) (by simpa using h.sound.kLe) (by simp) (by simp)
  refine hs.inv (.inl rfl) (fun _ => ?_) (by simp) (by simp)
  rw [State.mlen, startBlock_mcuIdx, startBlock_mcuTotal, startBlock_blkIdx, startBlock_mstruct, startBlock_mcu]
  exact ⟨hi, hb, hm⟩

/-- The head of the MCU loop (R193). -/
theorem State.Scanning.nextMcu_inv {s : State} (h : s.Scanning) (hle : s.mcuIdx ≤ s.mcuTotal) : (nextMcu s).Inv := by
  have hpos := h.sound.stream.cursor
  have hlen := h.mlen_pos
  rw [nextMcu]
  split
  · rename_i hlt
    rw [if_neg (by omega)]
    have hb : ((s.setMcu []).setBlkIdx 0).Scanning := h.of_frame_same rfl hpos h.sound.kLe rfl rfl
    exact hb.startBlock_inv hlt hlen rfl
  · have hd : (s.setStage .done).Scanning := h.of_frame_same rfl hpos h.sound.kLe (by simp) (by simp)
    refine hd.inv (.inr (.inr rfl)) (by simp) (by simp) fun _ => ?_
    show s.mcuIdx = s.mcuTotal
    omega

theorem nextBlock_eq (s : State) :
    nextBlock s =
      if s.blkIdx + 1 < s.mlen then startBlock ((s.setMcu (s.mcu ++ [s.blk])).setBlkIdx (s.blkIdx + 1))
      else nextMcu ((((s.setMcu (s.mcu ++ [s.blk])).setBlkIdx (s.blkIdx + 1)).setOut
        (s.out ++ [s.mcu ++ [s.blk]])).setMcuIdx (s.mcuIdx + 1)) := rfl

/-- The end of a block: the next one begins, or its MCU is complete (R193, R74). -/
theorem State.Scanning.nextBlock_inv {s : State} (h : s.Scanning) (hi : s.mcuIdx < s.mcuTotal)
    (hb : s.blkIdx < s.mlen) (hm : s.mcu.length = s.blkIdx) : (nextBlock s).Inv := by
  have hl : (s.mcu ++ [s.blk]).length = s.blkIdx + 1 := by simp [hm]
  have hn : ((s.setMcu (s.mcu ++ [s.blk])).setBlkIdx (s.blkIdx + 1)).Scanning :=
    h.of_frame_same rfl h.sound.stream.cursor h.sound.kLe rfl rfl
  rw [nextBlock_eq]
  split
  · rename_i hlt
    exact hn.startBlock_inv hi hlt hl
  · rename_i hge
    have hsz : ∀ m ∈ s.out ++ [s.mcu ++ [s.blk]], m.length = s.mlen := by
      rw [List.forall_mem_append, List.forall_mem_singleton]
      exact ⟨h.sound.outSizes, by omega⟩
    refine State.Scanning.nextMcu_inv (hn.of_frame rfl hn.sound.stream.cursor hn.sound.kLe ?_ ?_) ?_
    · simp [h.sound.outCount]
    · rw [State.setMcuIdx_out, State.setOut_out]
      exact hsz
    · simpa using hi

/-! ## A step of each stage -/

@[simp] theorem configError_setStage (v : Stage) (s : State) : configError (s.setStage v) = configError s :=
  configError_congr rfl rfl rfl rfl
@[simp] theorem configError_setMstruct (v : List Byte) (s : State) : configError (s.setMstruct v) = configError s :=
  configError_congr rfl rfl rfl rfl

/-- In a good configuration the grid is computed. -/
theorem gridOp_good {s : State} (hg : s.ConfigGood) (hi : s.ImageOk) :
    ∃ c r, gridOp s = .ok () (s.setGrid c r (c * r)) := by
  obtain ⟨c, hc⟩ := Option.isSome_iff_exists.mp hg.1
  have hne : s.comp ≠ [] := fun h => by simp [State.compAt, h] at hc
  obtain ⟨im, him⟩ := Option.isSome_iff_exists.mp (hi hne)
  exact ⟨_, _, by rw [gridOp, him, hc]⟩

section stages
variable {s : State} (h : s.Inv) (hp : s.phase = .scan)
include h hp

theorem step_check_inv (hs : s.stage = .check) : ∃ t, step s = .next t ∧ t.Inv := by
  have hclear : s.Clear := h.status.2 (by simp [hp])
  have hout : s.out = [] := h.output.fresh (.inr ⟨hp, .inl hs⟩)
  obtain ⟨u, hu, ⟨_, -, he, rfl⟩ | ⟨-, r, id, -, rfl⟩⟩ := (checkConfigOp_ends s).outcome
  · refine step_of_due (fetch_check hp hs) hu ?_
    rw [advance_check _ hp hs]
    exact
      { stream := h.stream.of_eq rfl rfl h.stream.cursor
        stores := h.stores.of_eq rfl rfl rfl rfl
        status := ⟨by simp [hp], fun _ => hclear⟩
        aligned := by simp [hp]
        scan := ⟨fun _ _ => (configError_setStage ..).trans he, h.scan.image, fun _ _ h2 => absurd rfl h2⟩
        output := ⟨h.output.kLe, h.output.outCount, h.output.outSizes, fun _ => hout, by simp, by simp, by simp [hp]⟩ }
  · refine step_of_due (fetch_check hp hs) hu ?_
    rw [advance_raise]
    exact h.sound.raise_inv _

theorem step_mstruct_inv (hs : s.stage = .mstruct) : ∃ t, step s = .next t ∧ t.Inv := by
  have hclear : s.Clear := h.status.2 (by simp [hp])
  have hout : s.out = [] := h.output.fresh (.inr ⟨hp, .inr (.inl hs)⟩)
  refine step_of_due (u := s.setMstruct (mstructOf s.comp)) (fetch_mstruct hp hs) rfl ?_
  rw [advance_mstruct _ (s := s.setMstruct (mstructOf s.comp)) hp hs]
  exact
    { stream := h.stream.of_eq rfl rfl h.stream.cursor
      stores := h.stores.of_eq rfl rfl rfl rfl
      status := ⟨by simp [hp], fun _ => hclear⟩
      aligned := by simp [hp]
      scan := ⟨fun _ _ => by
          simpa using h.scan.config hp (by simp [hs]), h.scan.image,
        fun _ _ _ => rfl⟩
      output := ⟨h.output.kLe, h.output.outCount, by simp [hout], fun _ => hout, by simp, by simp, by simp [hp]⟩ }

theorem step_grid_inv (hs : s.stage = .grid) : ∃ t, step s = .next t ∧ t.Inv := by
  have hl := h.scanning hp (by simp [hs]) (by simp [hs])
  have hout : s.out = [] := h.output.fresh (.inr ⟨hp, .inr (.inr hs)⟩)
  obtain ⟨c, r, hg⟩ := gridOp_good hl.good hl.sound.image
  refine step_of_due (fetch_grid hp hs) (congrArg Res.outcome hg) ?_
  rw [advance_grid _ (s := s.setGrid c r (c * r)) hp hs]
  refine State.Scanning.nextMcu_inv (hl.of_frame rfl hl.sound.stream.cursor hl.sound.kLe ?_ ?_) (Nat.zero_le _)
  · simp [hout]
  · simp [hout]

/-- The symbol of the block under assembly can be fetched. -/
theorem fetchSymbol_inv (c : HuffClass) (hs : s.stage = .dc ∨ s.stage = .ac) :
    (fetchSymbol c s).Ends (fun o t => ∃ i, o = some i ∧ (∃ sym, i = decodeSymbol c sym) ∧ s.Assembled t ∧ t.k = s.k)
      (Raised State.AssembledK FaultInfo.ofBlock s) := by
  have hl := h.scanning hp (by rintro h; simp [h] at hs) (by rintro h; simp [h] at hs)
  obtain ⟨-, hlt, -⟩ := h.output.inBlock hp hs
  have hid := List.getElem?_eq_getElem hlt
  exact fetchSymbol_ends hid (tablesOf_good hl.sound.stores hl.good (hl.built ▸ List.getElem_mem hlt))

theorem step_dc_inv (hs : s.stage = .dc) : ∃ t, step s = .next t ∧ t.Inv := by
  have hl := h.scanning hp (by simp [hs]) (by simp [hs])
  refine step_of_fetch (by rw [fetch_dc hp hs]; exact fetchSymbol_inv h hp .dc (.inl hs)) (fun _ => hl.raised_inv) ?_
  rintro _ t ⟨⟨sym, rfl⟩, hst, hk⟩
  have ht := hl.assembled hst (hk ▸ hl.sound.kLe)
  obtain ⟨u, hu, ⟨_, -, htu, hku⟩ | ⟨-, hr⟩⟩ := (dcSymbol_ends sym t).outcome
  · refine ⟨u, (exec_decodeDcSymbol sym t).trans hu, ?_⟩
    have hul := ht.assembled htu (hku ▸ ht.sound.kLe)
    have hf := hst.trans htu
    have hus : u.stage = .dc := by rw [hf.frame]; exact hs
    rw [advance_dc _ hul.phase hus]
    have hn : ((u.setK 0).setStage .ac).Scanning :=
      hul.of_frame_same rfl hul.sound.stream.cursor (Nat.zero_le _) (by simp) (by simp)
    refine hn.inv (.inr (.inl rfl)) (fun _ => ?_) (by simp [Config.acValues]) (by simp)
    rw [hf.frame]
    exact h.output.inBlock hp (.inl hs)
  · refine ⟨u, (exec_decodeDcSymbol sym t).trans hu, ht.raised_inv (hr.advance _)⟩

theorem step_ac_inv (hs : s.stage = .ac) : ∃ t, step s = .next t ∧ t.Inv := by
  have hl := h.scanning hp (by simp [hs]) (by simp [hs])
  refine step_of_fetch (by rw [fetch_ac hp hs]; exact fetchSymbol_inv h hp .ac (.inr hs)) (fun _ => hl.raised_inv) ?_
  rintro _ t ⟨⟨sym, rfl⟩, hst, hk⟩
  have ht := hl.assembled hst (hk ▸ hl.sound.kLe)
  have hopen := h.output.acOpen hp hs
  obtain ⟨u, hu, ⟨_, -, htu, -, hku⟩ | ⟨-, hr⟩⟩ := (acSymbol_ends sym t (hk ▸ hopen)).outcome
  · refine ⟨u, (exec_decodeAcSymbol sym t).trans hu, ?_⟩
    have hul := ht.assembled htu hku
    have hf := hst.trans htu
    have hus : u.stage = .ac := by rw [hf.frame]; exact hs
    obtain ⟨hi, hb, hm⟩ : u.mcuIdx < u.mcuTotal ∧ u.blkIdx < u.mlen ∧ u.mcu.length = u.blkIdx := by
      rw [hf.frame]
      exact h.output.inBlock hp (.inr hs)
    rw [advance_ac _ hul.phase hus]
    split
    · rename_i hlt
      exact hul.inv (.inr (.inl hus)) (fun _ => ⟨hi, hb, hm⟩) (fun _ => hlt) (by simp [hus])
    · exact hul.nextBlock_inv hi hb hm
  · refine ⟨u, (exec_decodeAcSymbol sym t).trans hu, ht.raised_inv (hr.advance _)⟩

theorem step_done_inv (hs : s.stage = .done) : ∃ t, step s = .next t ∧ t.Inv := by
  have hclear : s.Clear := h.status.2 (by simp [hp])
  refine step_of_due (u := s.setPhase .done) (fetch_done hp hs) rfl ?_
  rw [advance_idle (by simp) (by simp)]
  exact
    { stream := h.stream.of_eq rfl rfl h.stream.cursor
      stores := h.stores.of_eq rfl rfl rfl rfl
      status := ⟨nofun, fun _ => hclear⟩
      aligned := nofun
      scan := ⟨nofun, h.scan.image, nofun⟩
      output := ⟨h.output.kLe, h.output.outCount, h.output.outSizes, by simp, nofun, nofun,
        fun _ => h.output.complete (.inr ⟨hp, hs⟩)⟩ }

theorem step_scan_inv : ∃ t, step s = .next t ∧ t.Inv := by
  cases hs : s.stage with
  | check => exact step_check_inv h hp hs
  | mstruct => exact step_mstruct_inv h hp hs
  | grid => exact step_grid_inv h hp hs
  | dc => exact step_dc_inv h hp hs
  | ac => exact step_ac_inv h hp hs
  | done => exact step_done_inv h hp hs

end stages

/-- From a state with the invariant a step answers a next state, which has it too. -/
theorem step_inv {s : State} (h : s.Inv) : ∃ t, step s = .next t ∧ t.Inv := by
  by_cases hh : s.phase = .header
  · exact step_header_inv h hh
  by_cases hp : s.phase = .scan
  · exact step_scan_inv h hp
  · exact ⟨s, step_idle hh hp, h⟩

/-- Settles O55: the invariant is split by phase and stage, and a step of each keeps its part. -/
theorem stepKeepsTheInvariant : Obligations.StepKeepsTheInvariant := by
  intro s t h ht
  obtain ⟨u, hu, hi⟩ := step_inv h
  cases hu.symm.trans ht
  exact hi

/-- Settles O56: the same step lemma, read for its answer. -/
theorem stepNeverStops : Obligations.StepNeverStops := fun _ h => (step_inv h).imp fun _ => And.left

/-- Settles O54: both states are the reset values with a canonical stream. -/
theorem invariantAtResetAndLaunch : Obligations.InvariantAtResetAndLaunch := by
  refine ⟨?_, fun bs md => ?_⟩
  · rw [State.reset_eq_initial]
    exact State.initial_inv _ rfl nofun (.inl rfl)
  · rw [State.launch_eq_initial]
    exact State.initial_inv _ (Memory.wf_load 0 bs rfl) (Memory.load_below bs nofun (by simp)) (.inr rfl)

/-- Settles O48: a launch changes only the stream, the mode and the phase of the reset values. -/
theorem resetValues : Obligations.ResetValues := by
  have hr : State.reset.Fresh := State.reset_eq_initial ▸ State.initial_fresh ..
  exact ⟨fun _ => ⟨State.reset, rfl, rfl, hr⟩, ⟨rfl, hr⟩, fun bs md =>
    ⟨rfl, State.launch_eq_initial bs md ▸ State.initial_fresh ..⟩⟩

end Sys2Proof.Machine
end

section
/-! SUPPORT. Frames of the operations on their own, in success and in fault (spec/10_state.md R37, R73): the segment
handlers, the operations that read bits, and the header phase as a whole. -/

namespace Sys2Proof.Machine

theorem State.statusFrame_raise (s u : State) (f : FaultInfo) : s.StatusFrame (u.raise f) := .inr ⟨f, rfl, rfl, rfl⟩

/-! ## The segment handlers -/

theorem State.Moved.eq_setPos {s t : State} (h : s.Moved t) : ∃ p, t = s.setPos p := ⟨_, h.frame⟩

theorem State.Declared.eq_setComp {s t : State} (h : s.Declared t) : ∃ c p, t = { s with comp := c, pos := p } := by
  obtain ⟨-, es, he⟩ := h
  rw [declare_fold_frame] at he
  exact ⟨_, _, he⟩

theorem State.Selected.eq_setComp {s t : State} (h : s.Selected t) : ∃ c p, t = { s with comp := c, pos := p } := by
  obtain ⟨-, es, he⟩ := h
  rw [select_fold_frame] at he
  exact ⟨_, _, he⟩

/-- SOS declares no component and drops none (R160). -/
theorem State.Selected.compAt_isSome {s t : State} (h : s.Selected t) (id : Nat) :
    (t.compAt id).isSome = (s.compAt id).isSome := by
  obtain ⟨-, es, he⟩ := h
  rw [he]
  exact compAt_select_fold_isSome es s id

theorem execDqt_frame {s t : State} (h : exec .dqt s = .next t) :
    s.StatusFrame t ∧
      t = { s with pos := t.pos, phase := t.phase, fault := t.fault, faultInfo := t.faultInfo, qt := t.qt } ∧
      (∀ u, u ≠ (loNibble (s.byteAt (s.pos + 2))).toNat → t.qtAt u = s.qtAt u) ∧ ∀ a, t.byteAt a = s.byteAt a := by
  obtain ⟨_, -, q, -, ht⟩ | ⟨u, f, hu, -, rfl⟩ := (dqtOp_ends s).next h
  · obtain ⟨p, rfl⟩ : ∃ p, t = (s.putQt (loNibble (s.byteAt (s.pos + 2))) q).setPos p := ⟨_, ht⟩
    exact ⟨.inl ⟨rfl, rfl, rfl⟩, rfl, fun u hu => (s.qtAt_putQt _ q u).trans (if_neg hu), fun _ => rfl⟩
  · obtain ⟨p, rfl⟩ := hu.eq_setPos
    exact ⟨s.statusFrame_raise .., rfl, fun _ _ => rfl, fun _ => rfl⟩

theorem execSof0_frame {s t : State} (h : exec .sof0 s = .next t) :
    s.StatusFrame t ∧
      t = { s with
        pos := t.pos, phase := t.phase, fault := t.fault, faultInfo := t.faultInfo, img := t.img, comp := t.comp } ∧
      ∀ a, t.byteAt a = s.byteAt a := by
  obtain ⟨_, im, ht⟩ | ⟨u, f, hu, -, rfl⟩ | ⟨im, u, f, hu, -, rfl⟩ := (sof0Op_ends s).next h
  · obtain ⟨c, p, rfl⟩ := ht.eq_setComp
    exact ⟨.inl ⟨rfl, rfl, rfl⟩, rfl, fun _ => rfl⟩
  · obtain ⟨p, rfl⟩ := hu.eq_setPos
    exact ⟨s.statusFrame_raise .., rfl, fun _ => rfl⟩
  · obtain ⟨c, p, rfl⟩ := hu.eq_setComp
    exact ⟨s.statusFrame_raise .., rfl, fun _ => rfl⟩

theorem execDht_frame {s t : State} (h : exec .dht s = .next t) :
    s.StatusFrame t ∧
      t = { s with
        pos := t.pos, phase := t.phase, fault := t.fault, faultInfo := t.faultInfo, htDc := t.htDc, htAc := t.htAc } ∧
      ∀ a, t.byteAt a = s.byteAt a := by
  obtain ⟨_, -, counts, syms, map, -, -, -, ht⟩ | ⟨u, f, hu, -, rfl⟩ := (dhtOp_ends s).next h
  · rw [State.putHt_frame] at ht
    rw [ht]
    exact ⟨.inl ⟨rfl, rfl, rfl⟩, rfl, fun _ => rfl⟩
  · obtain ⟨p, rfl⟩ := hu.eq_setPos
    exact ⟨s.statusFrame_raise .., rfl, fun _ => rfl⟩

theorem execSos_frame {s t : State} (h : exec .sos s = .next t) :
    s.StatusFrame t ∧
      t = { s with pos := t.pos, phase := t.phase, fault := t.fault, faultInfo := t.faultInfo, comp := t.comp } ∧
      (∀ id, (t.compAt id).isSome = (s.compAt id).isSome) ∧ ∀ a, t.byteAt a = s.byteAt a := by
  obtain ⟨_, ht⟩ | ⟨u, f, hu, -, rfl⟩ := (sosOp_ends s).next h
  · have hid := ht.compAt_isSome
    obtain ⟨c, p, rfl⟩ := ht.eq_setComp
    exact ⟨.inl ⟨rfl, rfl, rfl⟩, rfl, hid, fun _ => rfl⟩
  · have hid := hu.compAt_isSome
    obtain ⟨c, p, rfl⟩ := hu.eq_setComp
    exact ⟨s.statusFrame_raise .., rfl, hid, fun _ => rfl⟩

/-- Settles O22, one frame lemma per handler. -/
theorem segmentHandlersFrame : Obligations.SegmentHandlersFrame := fun _ _ =>
  ⟨execDqt_frame, execSof0_frame, execDht_frame, execSos_frame⟩

/-! ## The operations that read bits -/

theorem State.Read.eq_set {s t : State} (h : s.Read t) : ∃ p b c, t = { s with pos := p, bitOff := b, cur := c } :=
  ⟨_, _, _, h.frame⟩

theorem State.ReadAcc.eq_set {s t : State} (h : s.ReadAcc t) :
    ∃ p b c v l, t = { s with pos := p, bitOff := b, cur := c, acc := v, accLen := l } :=
  ⟨_, _, _, _, _, h.frame⟩

theorem State.Assembled.eq_set {s t : State} (h : s.Assembled t) :
    ∃ p b c v l k m, t = { s with pos := p, bitOff := b, cur := c, acc := v, accLen := l, k := k, blk := m } :=
  ⟨_, _, _, _, _, _, _, h.frame⟩

/-- An operation that reads bits and returns a value writes the bit reader, the status and the result. -/
theorem outcomeRet_read_frame {α : Type} {s t : State} {r : Res α} {f : α → Ret} {p : FaultInfo → Bool}
    (hr : r.Ends (fun _ t => s.Read t) (Raised State.Read p s)) (h : r.outcomeRet f = .next t) :
    s.StatusFrame t ∧
      t = { s with
        pos := t.pos, bitOff := t.bitOff, cur := t.cur, phase := t.phase, fault := t.fault, faultInfo := t.faultInfo,
        ret := t.ret } ∧
      ∀ a, t.byteAt a = s.byteAt a := by
  obtain ⟨a, u, hu, rfl⟩ | ⟨u, g, hu, -, rfl⟩ := hr.nextRet h
  · obtain ⟨p, b, c, rfl⟩ := hu.eq_set
    exact ⟨.inl ⟨rfl, rfl, rfl⟩, rfl, fun _ => rfl⟩
  · obtain ⟨p, b, c, rfl⟩ := hu.eq_set
    exact ⟨s.statusFrame_raise .., rfl, fun _ => rfl⟩

theorem execReadcode_frame {c : HuffClass} {u : Nibble} {s t : State} (h : exec (.readcode c u) s = .next t) :
    s.StatusFrame t ∧
      t = { s with
        pos := t.pos, bitOff := t.bitOff, cur := t.cur, phase := t.phase, fault := t.fault, faultInfo := t.faultInfo,
        acc := t.acc, accLen := t.accLen, ret := t.ret } ∧
      ∀ a, t.byteAt a = s.byteAt a := by
  change (readCodeOf c u s).outcomeRet Ret.symbol = .next t at h
  rw [readCodeOf] at h
  split at h
  · cases h
  · rename_i tb _
    obtain ⟨a, u, hu, rfl⟩ | ⟨u, g, hu, -, rfl⟩ := (readCode_ends tb s).nextRet h
    · obtain ⟨p, b, c, v, l, rfl⟩ := hu.eq_set
      exact ⟨.inl ⟨rfl, rfl, rfl⟩, rfl, fun _ => rfl⟩
    · obtain ⟨p, b, c, v, l, rfl⟩ := hu.eq_set
      exact ⟨s.statusFrame_raise .., rfl, fun _ => rfl⟩

theorem State.putCoef_blk_other {i j : Nat} (h : j ≠ i) (v : Int) (s : State) :
    (s.putCoef i v).blk[j]? = s.blk[j]? := Vector.getElem?_setIfInBounds_ne h.symm

theorem dcMagOp_ends (n : Nat) (s : State) :
    (dcMagOp n s).Ends (fun _ t => ∃ u v, s.Read u ∧ t = u.putCoef 0 v) (Raised State.Read FaultInfo.ofBits s) :=
  (readMagnitude_ends n s).bind fun v u h => ⟨u, v, h, rfl⟩

theorem execDcMag_frame {n : Nibble} {s t : State} (h : exec (.dcMag n) s = .next t) :
    s.StatusFrame t ∧
      t = { s with
        pos := t.pos, bitOff := t.bitOff, cur := t.cur, phase := t.phase, fault := t.fault, faultInfo := t.faultInfo,
        blk := t.blk } ∧
      (∀ j, j ≠ 0 → t.blk[j]? = s.blk[j]?) ∧ ∀ a, t.byteAt a = s.byteAt a := by
  obtain ⟨_, u, v, hu, rfl⟩ | ⟨u, g, hu, -, rfl⟩ := (dcMagOp_ends n.toNat s).next h
  · obtain ⟨p, b, c, rfl⟩ := hu.eq_set
    exact ⟨.inl ⟨rfl, rfl, rfl⟩, rfl, fun j hj => State.putCoef_blk_other hj v _, fun _ => rfl⟩
  · obtain ⟨p, b, c, rfl⟩ := hu.eq_set
    exact ⟨s.statusFrame_raise .., rfl, fun _ _ => rfl, fun _ => rfl⟩

/-- AC_COEF raises the overrun at once, or reads its field with `k` past the run of zeros and stores it there (R203,
R204). -/
theorem acCoefOp_read_ends (r sz : Nibble) (s : State) :
    (acCoefOp r sz s).Ends
      (fun _ t => ∃ u v, (s.setK (s.k + r.toNat)).Read u ∧
        t = (u.putCoef (1 + (s.k + r.toNat)) v).setK (s.k + r.toNat + 1))
      fun t => (∃ f, t = s.raise f) ∨ Raised State.Read FaultInfo.ofBits (s.setK (s.k + r.toNat)) t := by
  rw [acCoefOp]
  split
  · exact .inl ⟨_, rfl⟩
  · refine ((readMagnitude_ends _ _).imp (fun _ _ h => h) fun _ => .inr).bind fun v u hu => ⟨u, v, hu, ?_⟩
    have hk : u.k = s.k + r.toNat := by rw [hu.frame]; rfl
    rw [hk]

theorem execAcCoef_frame {r sz : Nibble} {s t : State} (h : exec (.acCoef r sz) s = .next t) :
    s.StatusFrame t ∧
      t = { s with
        pos := t.pos, bitOff := t.bitOff, cur := t.cur, phase := t.phase, fault := t.fault, faultInfo := t.faultInfo,
        k := t.k, blk := t.blk } ∧
      (∀ j, j ≠ 1 + s.k + r.toNat → t.blk[j]? = s.blk[j]?) ∧ ∀ a, t.byteAt a = s.byteAt a := by
  obtain ⟨_, u, v, hu, rfl⟩ | ⟨f, rfl⟩ | ⟨u, g, hu, -, rfl⟩ := (acCoefOp_read_ends r sz s).next h
  · obtain ⟨p, b, c, rfl⟩ := hu.eq_set
    exact ⟨.inl ⟨rfl, rfl, rfl⟩, rfl, fun j hj => State.putCoef_blk_other (by omega) v _, fun _ => rfl⟩
  · exact ⟨s.statusFrame_raise .., rfl, fun _ _ => rfl, fun _ => rfl⟩
  · obtain ⟨p, b, c, rfl⟩ := hu.eq_set
    exact ⟨s.statusFrame_raise .., rfl, fun _ _ => rfl, fun _ => rfl⟩

theorem execDecodeBlock_frame {id : Byte} {s t : State} (h : exec (.decodeBlock id) s = .next t) :
    s.StatusFrame t ∧
      t = { s with
        pos := t.pos, bitOff := t.bitOff, cur := t.cur, phase := t.phase, fault := t.fault, faultInfo := t.faultInfo,
        acc := t.acc, accLen := t.accLen, k := t.k, blk := t.blk, ret := t.ret } ∧
      ∀ a, t.byteAt a = s.byteAt a := by
  change (decodeBlockOp id s).outcomeRet Ret.block = .next t at h
  rw [decodeBlockOp] at h
  split at h
  · cases h
  · rename_i dct act _
    obtain ⟨a, u, ⟨hu, -, -⟩, rfl⟩ | ⟨u, g, ⟨hu, -⟩, -, rfl⟩ := (decodeBlockWith_ends dct act s).nextRet h
    · obtain ⟨p, b, c, v, l, k, m, rfl⟩ := hu.eq_set
      exact ⟨.inl ⟨rfl, rfl, rfl⟩, rfl, fun _ => rfl⟩
    · obtain ⟨p, b, c, v, l, k, m, rfl⟩ := hu.eq_set
      exact ⟨s.statusFrame_raise .., rfl, fun _ => rfl⟩

/-- Settles O36, one frame lemma per operation; NEXTBIT and READMAG share theirs. -/
theorem bitOperationsFrame : Obligations.BitOperationsFrame := by
  refine fun s t => ⟨?_, fun _ _ => execReadcode_frame, fun _ => execDcMag_frame, fun _ _ => execAcCoef_frame,
    fun _ => execDecodeBlock_frame⟩
  rintro i (rfl | ⟨n, rfl⟩) h
  · exact outcomeRet_read_frame (nextBit_ends s) h
  · exact outcomeRet_read_frame (readMagnitude_ends n.toNat s) h

end Sys2Proof.Machine
end

section
/-! SUPPORT. What the header phase, DISPATCH and the scan write, as whole operations and step by step
(spec/10_state.md R35, R37, R73, R74). No premise is made here, so an operation may also stop on an entry that is not
valid: what it answers is held to a postcondition by `Res.Answers`, which asks nothing of a stop. -/

namespace Sys2Proof.Machine

/-! ## Postconditions that ask nothing of a stop -/

/-- The value and state of a procedure satisfy `P`, the state in which it has raised a fault `Q`. -/
def Res.Answers {α : Type} (P : α → State → Prop) (Q : State → Prop) : Res α → Prop
  | .ok a s => P a s
  | .raised s => Q s
  | .stop _ => True

section answers
variable {α β : Type} {P P' : α → State → Prop} {Q Q' : State → Prop} {r : Res α}

theorem Res.Ends.answers (h : r.Ends P Q) (hP : ∀ a s, P a s → P' a s) (hQ : ∀ s, Q s → Q' s) :
    r.Answers P' Q' := by
  cases r with
  | ok a s => exact hP a s h
  | raised s => exact hQ s h
  | stop f => trivial

theorem Res.Answers.imp (h : r.Answers P Q) (hP : ∀ a s, P a s → P' a s) (hQ : ∀ s, Q s → Q' s) :
    r.Answers P' Q' := by
  cases r with
  | ok a s => exact hP a s h
  | raised s => exact hQ s h
  | stop f => trivial

theorem Res.Answers.bind {P' : β → State → Prop} {k : α → State → Res β} (h : r.Answers P Q)
    (hk : ∀ a s, P a s → (k a s).Answers P' Q) : (r.bind k).Answers P' Q := by
  cases r with
  | ok a s => exact hk a s h
  | raised s => exact h
  | stop f => trivial

theorem Res.Answers.next (h : r.Answers (fun _ => Q) Q) {t : State} (e : r.outcome = .next t) : Q t := by
  cases r with
  | ok a s => cases e; exact h
  | raised s => cases e; exact h
  | stop f => exact nomatch e

end answers

/-! ## HEADER and DISPATCH -/

theorem State.Configured.byteAt {s t : State} (h : s.Configured t) (a : Nat) : t.byteAt a = s.byteAt a := by
  rw [h.frame]; rfl

theorem State.Configured.statusFrame {s t : State} (h : s.Configured t) : s.StatusFrame t := by
  rw [h.frame]; exact .inl ⟨rfl, rfl, rfl⟩

theorem execHeader_frame {s t : State} (h : exec .header s = .next t) :
    s.StatusFrame t ∧
      t = { s with
        pos := t.pos, phase := t.phase, fault := t.fault, faultInfo := t.faultInfo, img := t.img, comp := t.comp,
        qt := t.qt, htDc := t.htDc, htAc := t.htAc, skiplog := t.skiplog } ∧
      ∀ a, t.byteAt a = s.byteAt a := by
  obtain ⟨_, ht⟩ | ⟨u, f, hu, -, rfl⟩ := (headerOp_configured s).next h
  · exact ⟨ht.statusFrame, by rw [ht.frame], ht.byteAt⟩
  · exact ⟨s.statusFrame_raise .., by rw [hu.frame]; rfl, hu.byteAt⟩

theorem execDispatch_frame {m : Byte} {s t : State} (h : exec (.dispatch m) s = .next t) :
    s.StatusFrame t ∧
      t = { s with
        pos := t.pos, phase := t.phase, fault := t.fault, faultInfo := t.faultInfo, img := t.img, comp := t.comp,
        qt := t.qt, htDc := t.htDc, htAc := t.htAc, skiplog := t.skiplog, ret := t.ret } ∧
      ∀ a, t.byteAt a = s.byteAt a := by
  obtain ⟨d, u, hu, rfl⟩ | ⟨u, f, hu, -, rfl⟩ := (dispatchOp_configured m s).nextRet h
  · exact ⟨hu.statusFrame, by rw [hu.frame]; rfl, hu.byteAt⟩
  · exact ⟨s.statusFrame_raise .., by rw [hu.frame]; rfl, hu.byteAt⟩

/-! ## SCAN -/

/-- From `s` to `t` only what the scan phase writes changed. -/
abbrev State.ScanFrame (s t : State) : Prop :=
  t = { s with
    pos := t.pos, bitOff := t.bitOff, cur := t.cur, acc := t.acc, accLen := t.accLen, phase := t.phase,
    fault := t.fault, faultInfo := t.faultInfo, mstruct := t.mstruct, mcuCols := t.mcuCols, mcuRows := t.mcuRows,
    mcuTotal := t.mcuTotal, mcuIdx := t.mcuIdx, blkIdx := t.blkIdx, k := t.k, blk := t.blk, mcu := t.mcu,
    out := t.out }

/-- And `out` was only appended to (R35). -/
structure State.ScanWrites (s t : State) : Prop where
  frame : s.ScanFrame t
  out : ∃ more, t.out = s.out ++ more

section scanWrites
variable {s t u : State}

theorem State.ScanWrites.of_out_eq (hf : s.ScanFrame t) (ho : t.out = s.out) : s.ScanWrites t :=
  ⟨hf, [], by rw [ho, List.append_nil]⟩

theorem State.ScanWrites.refl (s : State) : s.ScanWrites s := .of_out_eq rfl rfl

theorem State.ScanWrites.trans (h : s.ScanWrites t) (h' : t.ScanWrites u) : s.ScanWrites u := by
  obtain ⟨more, ho⟩ := h.out
  obtain ⟨more', ho'⟩ := h'.out
  exact ⟨by rw [State.ScanFrame, h'.frame, h.frame], more ++ more', by rw [ho', ho, List.append_assoc]⟩

theorem State.ScanWrites.raise (h : s.ScanWrites t) (f : FaultInfo) : s.ScanWrites (t.raise f) :=
  h.trans (.of_out_eq rfl rfl)

theorem State.Assembled.scanWrites (h : s.Assembled t) : s.ScanWrites t :=
  .of_out_eq (by rw [State.ScanFrame, h.frame]) (by rw [h.frame])

theorem Raised.scanWrites {p : FaultInfo → Bool} (h : Raised State.AssembledK p s t) : s.ScanWrites t := by
  obtain ⟨u, f, hu, -, rfl⟩ := h
  exact hu.1.scanWrites.raise f

end scanWrites

/-- Whatever state the procedure answers from `s`, only what the scan phase writes changed. -/
abbrev Res.Writes {α : Type} (s : State) (r : Res α) : Prop := r.Answers (fun _ => s.ScanWrites) s.ScanWrites

theorem State.ScanWrites.writes {α : Type} {s t : State} {r : Res α} (h : s.ScanWrites t) (hr : r.Writes t) :
    r.Writes s := hr.imp (fun _ _ => h.trans) fun _ => h.trans

theorem checkConfigOp_writes (s : State) : (checkConfigOp s).Writes s := by
  refine (checkConfigOp_ends s).answers ?_ ?_
  · rintro _ t ⟨-, rfl⟩
    exact .refl _
  · rintro t ⟨r, id, -, rfl⟩
    exact (State.ScanWrites.refl s).raise _

theorem buildMstructOp_writes (s : State) : (buildMstructOp s).Writes s :=
  State.ScanWrites.of_out_eq rfl rfl

theorem gridOp_writes (s : State) : (gridOp s).Writes s := by
  rw [gridOp]
  split
  · exact State.ScanWrites.of_out_eq rfl rfl
  · trivial

theorem scanDoneOp_writes (s : State) : (scanDoneOp s).Writes s :=
  State.ScanWrites.of_out_eq rfl rfl

theorem decodeBlockOp_writes (id : Byte) (s : State) : (decodeBlockOp id s).Writes s := by
  cases h : s.tablesOf id with
  | none => rw [decodeBlockOp, h]; trivial
  | some tb =>
    exact (decodeBlockOp_ends (by rw [h]; rfl)).answers (fun _ _ h => h.1.scanWrites) fun _ => Raised.scanWrites

theorem scanBlocks_writes (ids : List Byte) (s : State) : (scanBlocks ids s).Writes s := by
  induction ids generalizing s with
  | nil => exact State.ScanWrites.refl s
  | cons id ids ih =>
    refine (decodeBlockOp_writes id s).bind fun b t h => ?_
    have h1 := h.trans (u := (t.setMcu (t.mcu ++ [b])).setBlkIdx (t.blkIdx + 1)) (.of_out_eq rfl rfl)
    exact h1.writes (ih _)

theorem scanMcus_writes (n : Nat) (s : State) : (scanMcus n s).Writes s := by
  induction n generalizing s with
  | zero => exact State.ScanWrites.refl s
  | succ n ih =>
    have h0 : s.ScanWrites ((s.setMcu []).setBlkIdx 0) := .of_out_eq rfl rfl
    refine (h0.writes (scanBlocks_writes _ _)).bind fun _ t h => ?_
    have h1 := h.trans (u := (t.setOut (t.out ++ [t.mcu])).setMcuIdx (t.mcuIdx + 1)) ⟨rfl, [t.mcu], rfl⟩
    exact h1.writes (ih _)

theorem scanOp_writes (s : State) : (scanOp s).Writes s := by
  refine (checkConfigOp_writes s).bind fun _ t h => ?_
  refine (h.writes (buildMstructOp_writes t)).bind fun _ t h => ?_
  refine (h.writes (gridOp_writes t)).bind fun _ t h => ?_
  have h1 := h.trans (u := (t.setBitOff 0).setMcuIdx 0) (.of_out_eq rfl rfl)
  refine (h1.writes (scanMcus_writes _ _)).bind fun _ t h => ?_
  exact h.writes (scanDoneOp_writes t)

/-- Settles O45: HEADER and DISPATCH only configure, SCAN only writes what the scan phase writes. -/
theorem phaseOperationsFrame : Obligations.PhaseOperationsFrame := by
  refine fun s t => ⟨execHeader_frame, fun _ => execDispatch_frame, fun h => ?_⟩
  have hw := (scanOp_writes s).next h
  exact ⟨hw.frame, hw.out, fun a => by rw [hw.frame]; rfl⟩

/-! ## A step of the scan phase -/

/-- `out` is extended; the descriptors, the tables and the skip log stay (R35, R73, R74). -/
def State.KeepsTables (s t : State) : Prop :=
  (∃ more, t.out = s.out ++ more) ∧ t.img = s.img ∧ t.comp = s.comp ∧ t.qt = s.qt ∧ t.htDc = s.htDc ∧
    t.htAc = s.htAc ∧ t.skiplog = s.skiplog

section keepsTables
variable {s t u : State}

theorem State.KeepsTables.refl (s : State) : s.KeepsTables s :=
  ⟨⟨[], by rw [List.append_nil]⟩, rfl, rfl, rfl, rfl, rfl, rfl⟩

theorem State.KeepsTables.trans (h : s.KeepsTables t) (h' : t.KeepsTables u) : s.KeepsTables u := by
  obtain ⟨⟨more, ho⟩, h1, h2, h3, h4, h5, h6⟩ := h
  obtain ⟨⟨more', ho'⟩, h1', h2', h3', h4', h5', h6'⟩ := h'
  exact ⟨⟨more ++ more', by rw [ho', ho, List.append_assoc]⟩, h1'.trans h1, h2'.trans h2, h3'.trans h3,
    h4'.trans h4, h5'.trans h5, h6'.trans h6⟩

theorem State.ScanWrites.keepsTables (h : s.ScanWrites t) : s.KeepsTables t := by
  refine ⟨h.out, ?_⟩
  rw [h.frame]
  exact ⟨rfl, rfl, rfl, rfl, rfl, rfl⟩

end keepsTables

theorem nextMcu_keepsTables (s : State) : s.KeepsTables (nextMcu s) := by
  refine ⟨?_, nextMcu_img s, nextMcu_comp s, nextMcu_qt s, nextMcu_htDc s, nextMcu_htAc s, nextMcu_skiplog s⟩
  rw [nextMcu]
  split
  · split
    · exact ⟨_, rfl⟩
    · exact ⟨[], by simp⟩
  · exact ⟨[], by simp⟩

theorem startBlock_keepsTables (s : State) : s.KeepsTables (startBlock s) :=
  ⟨⟨[], by simp⟩, startBlock_img s, startBlock_comp s, startBlock_qt s, startBlock_htDc s, startBlock_htAc s,
    startBlock_skiplog s⟩

theorem nextBlock_keepsTables (s : State) : s.KeepsTables (nextBlock s) := by
  have hb : s.KeepsTables ((s.setMcu (s.mcu ++ [s.blk])).setBlkIdx (s.blkIdx + 1)) :=
    ⟨⟨[], by simp⟩, rfl, rfl, rfl, rfl, rfl, rfl⟩
  rw [nextBlock_eq]
  split
  · exact hb.trans (startBlock_keepsTables _)
  · refine hb.trans (State.KeepsTables.trans ?_ (nextMcu_keepsTables _))
    exact ⟨⟨[s.mcu ++ [s.blk]], rfl⟩, rfl, rfl, rfl, rfl, rfl, rfl⟩

theorem advanceScan_keepsTables (s : State) : s.KeepsTables (advanceScan s) := by
  have hset (v : Stage) : s.KeepsTables (s.setStage v) := .refl s
  rw [advanceScan]
  split
  · exact hset _
  · exact hset _
  · exact State.KeepsTables.trans (.refl s) (nextMcu_keepsTables _)
  · exact .refl s
  · split
    · exact .refl s
    · exact nextBlock_keepsTables s
  · exact .refl s

/-- Moving on writes no descriptor, no table and no skip log, and only appends to `out`. -/
theorem advance_keepsTables (i : Instr) (s : State) : s.KeepsTables (advance i s) := by
  cases hp : s.phase with
  | header => rw [advance_header hp]; split <;> exact .refl s
  | scan => rw [advance_scan hp]; exact advanceScan_keepsTables s
  | idle | done | fault => rw [advance_idle (by simp [hp]) (by simp [hp])]; exact .refl s

/-- The operations fetched in the scan phase (R92, R93, R190 to R193, R208). -/
def ScanRow (i : Instr) : Prop :=
  i = .checkConfig ∨ i = .buildMstruct ∨ i = .grid ∨ i = .scanDone ∨ ∃ c sym, i = decodeSymbol c sym

theorem fetchSymbol_writes (c : HuffClass) (s : State) :
    (fetchSymbol c s).Answers (fun o t => ∃ i, o = some i ∧ ScanRow i ∧ s.ScanWrites t) s.ScanWrites := by
  cases hid : s.mstruct[s.blkIdx]? with
  | none => rw [fetchSymbol, hid]; trivial
  | some id =>
    cases ht : s.tablesOf id with
    | none => simp only [fetchSymbol, hid, ht]; trivial
    | some tb =>
      refine (fetchSymbol_ends hid (by rw [ht]; rfl)).answers ?_ fun _ => Raised.scanWrites
      rintro _ t ⟨i, rfl, ⟨sym, rfl⟩, hst, -⟩
      exact ⟨_, rfl, .inr (.inr (.inr (.inr ⟨c, sym, rfl⟩))), hst.scanWrites⟩

theorem fetch_scan_writes {s : State} (h : s.phase = .scan) :
    (fetch s).Answers (fun o t => ∃ i, o = some i ∧ ScanRow i ∧ s.ScanWrites t) s.ScanWrites := by
  cases hs : s.stage with
  | check => rw [fetch_check h hs]; exact ⟨_, rfl, .inl rfl, .refl s⟩
  | mstruct => rw [fetch_mstruct h hs]; exact ⟨_, rfl, .inr (.inl rfl), .refl s⟩
  | grid => rw [fetch_grid h hs]; exact ⟨_, rfl, .inr (.inr (.inl rfl)), .refl s⟩
  | dc => rw [fetch_dc h hs]; exact fetchSymbol_writes .dc s
  | ac => rw [fetch_ac h hs]; exact fetchSymbol_writes .ac s
  | done => rw [fetch_done h hs]; exact ⟨_, rfl, .inr (.inr (.inr (.inl rfl))), .refl s⟩

theorem acZeros_writes (z : Nat) (sym : Byte) (s : State) : (acZeros z sym s).Writes s := by
  rw [acZeros]
  split
  · exact (State.ScanWrites.refl s).raise _
  · exact (s.assembled_setK _).scanWrites

/-- An AC symbol at any `k`: what `acSymbol_ends` says for `k` below 63. -/
theorem acSymbol_writes (sym : Byte) (s : State) : (acSymbol sym s).Writes s := by
  rw [acSymbol]
  split
  · exact (s.assembled_setK _).scanWrites
  split
  · split <;> exact acZeros_writes ..
  split
  · exact (acCoefOp_ends _ _ s).answers (fun _ _ h => h.1.scanWrites) fun _ => Raised.scanWrites
  · exact (State.ScanWrites.refl s).raise _

theorem exec_scanRow_writes {i : Instr} (hi : ScanRow i) {s t : State} (h : exec i s = .next t) : s.ScanWrites t := by
  obtain rfl | rfl | rfl | rfl | ⟨c, sym, rfl⟩ := hi
  · exact (checkConfigOp_writes s).next h
  · exact (buildMstructOp_writes s).next h
  · exact (gridOp_writes s).next h
  · exact (scanDoneOp_writes s).next h
  · cases c with
    | dc =>
      have hd : (dcSymbol sym s).Writes s :=
        (dcSymbol_ends sym s).answers (fun _ _ h => h.1.scanWrites) fun _ => Raised.scanWrites
      exact hd.next ((exec_decodeDcSymbol sym s).symm.trans h)
    | ac => exact (acSymbol_writes sym s).next ((exec_decodeAcSymbol sym s).symm.trans h)

theorem step_scan_keepsTables {s t : State} (hp : s.phase = .scan) (h : step s = .next t) : s.KeepsTables t := by
  have hf := fetch_scan_writes hp
  obtain e | e | ⟨i, u, v, e, hv, rfl⟩ := step_next h <;> rw [e] at hf
  · exact hf.keepsTables
  · obtain ⟨i, hi, -⟩ := hf
    cases hi
  · obtain ⟨_, hi, hrow, hu⟩ := hf
    cases hi
    exact (hu.trans (exec_scanRow_writes hrow hv)).keepsTables.trans (advance_keepsTables i v)

/-! ## A step of the header phase -/

/-- The bit reader, the MCU structure, the grid, the counters, the block and MCU under assembly and `out` are the
same. -/
def State.KeepsScan (s t : State) : Prop :=
  t.bitOff = s.bitOff ∧ t.cur = s.cur ∧ t.acc = s.acc ∧ t.accLen = s.accLen ∧ t.mstruct = s.mstruct ∧
    t.mcuCols = s.mcuCols ∧ t.mcuRows = s.mcuRows ∧ t.mcuTotal = s.mcuTotal ∧ t.mcuIdx = s.mcuIdx ∧
    t.blkIdx = s.blkIdx ∧ t.k = s.k ∧ t.blk = s.blk ∧ t.mcu = s.mcu ∧ t.out = s.out

theorem State.Configured.keepsScan {s t : State} (h : s.Configured t) : s.KeepsScan t := by
  rw [h.frame]
  exact ⟨rfl, rfl, rfl, rfl, rfl, rfl, rfl, rfl, rfl, rfl, rfl, rfl, rfl, rfl⟩

theorem State.HeaderStep.keepsScan {s t : State} (h : s.HeaderStep t) : s.KeepsScan t := by
  obtain ⟨u, f, hu, -, rfl⟩ | hc | ⟨u, hu, rfl⟩ := h
  · exact hu.keepsScan
  · exact hc.keepsScan
  · exact hu.keepsScan

theorem step_header_keepsScan {s t : State} (hp : s.phase = .header) (h : step s = .next t) : s.KeepsScan t := by
  obtain ⟨u, hu, hs⟩ := step_header hp
  cases hu.symm.trans h
  exact hs.keepsScan

/-- A step only appends to `out` (R35). -/
theorem step_out {s t : State} (h : step s = .next t) : ∃ more, t.out = s.out ++ more := by
  by_cases hh : s.phase = .header
  · obtain ⟨-, -, -, -, -, -, -, -, -, -, -, -, -, ho⟩ := step_header_keepsScan hh h
    exact ⟨[], by rw [ho, List.append_nil]⟩
  by_cases hp : s.phase = .scan
  · exact (step_scan_keepsTables hp h).1
  · cases (step_idle hh hp).symm.trans h
    exact ⟨[], by rw [List.append_nil]⟩

/-- Settles O58: a step of each phase, from how its fetch, its operation and its moving on write. -/
theorem phasesWriteTheirOwnState : Obligations.PhasesWriteTheirOwnState := fun _ _ h =>
  ⟨step_out h, fun hp => (step_scan_keepsTables hp h).2, fun hp => step_header_keepsScan hp h⟩

end Sys2Proof.Machine
end

section
/-! SUPPORT. Nothing reads the skip log (spec/10_state.md R36): run from two states that differ in it alone, every
operation a step fetches ends alike, in two states that differ in it alone. -/

namespace Sys2Proof.Machine

/-- The two states differ in the skip log alone. -/
def State.LogApart (s t : State) : Prop := ∃ l, t = s.setSkiplog l

theorem inert_logApart : Inert State.LogApart := by
  constructor
  case mem | len | pos | bitOff | cur => rintro s _ ⟨l, rfl⟩; rfl
  case setPos | setBitOff | setCur | raise => rintro s _ v ⟨l, rfl⟩; exact ⟨l, rfl⟩

/-! ## Ending alike -/

theorem Res.Alike.of_ok {α : Type} {R : State → State → Prop} {r r' : Res α} {a : α} {s : State} (h : r.Alike R r')
    (e : r = .ok a s) : ∃ t, r' = .ok a t ∧ R s t := by
  subst e
  cases r' with
  | ok b t => obtain ⟨rfl, hR⟩ := h; exact ⟨t, rfl, hR⟩
  | raised t => exact h.elim
  | stop f => exact h.elim

theorem Res.Alike.of_raised {α : Type} {R : State → State → Prop} {r r' : Res α} {s : State} (h : r.Alike R r')
    (e : r = .raised s) : ∃ t, r' = .raised t ∧ R s t := by
  subst e
  cases r' with
  | ok b t => exact h.elim
  | raised t => exact ⟨t, rfl, h⟩
  | stop f => exact h.elim

theorem Res.Alike.next {α : Type} {R : State → State → Prop} {r r' : Res α} {s : State} (h : r.Alike R r')
    (e : r.outcome = .next s) : ∃ t, r'.outcome = .next t ∧ R s t := by
  rcases Res.outcome_next e with ⟨a, e⟩ | e
  · obtain ⟨t, rfl, hR⟩ := h.of_ok e
    exact ⟨t, rfl, hR⟩
  · obtain ⟨t, rfl, hR⟩ := h.of_raised e
    exact ⟨t, rfl, hR⟩

section operations
variable {s t : State} (h : s.LogApart t)
include h

/-! ## The read primitives -/

theorem rd8_logAlike : (rd8 s).Alike State.LogApart (rd8 t) := rd8_alike inert_logApart h

theorem rd16_logAlike : (rd16 s).Alike State.LogApart (rd16 t) :=
  (rd8_logAlike h).bind fun _ _ _ h => (rd8_logAlike h).bind fun _ _ _ h => ⟨rfl, h⟩

theorem consume_logAlike (n : Nat) : (consume n s).Alike State.LogApart (consume n t) := by
  obtain ⟨l, rfl⟩ := h
  rw [consume, consume, State.setSkiplog_len, State.setSkiplog_pos]
  split
  · exact ⟨l, rfl⟩
  · exact ⟨rfl, l, rfl⟩

theorem rdBytes_logAlike (n : Nat) : (rdBytes n s).Alike State.LogApart (rdBytes n t) := by
  induction n generalizing s t with
  | zero => exact ⟨rfl, h⟩
  | succ n ih => exact (rd8_logAlike h).bind fun _ _ _ h => (ih h).bind fun _ _ _ h => ⟨rfl, h⟩

/-! ## The header phase -/

theorem dqtOp_logAlike : (dqtOp s).Alike State.LogApart (dqtOp t) := by
  refine (rd16_logAlike h).bind fun lq s t h => (rd8_logAlike h).bind fun pt s t h => ?_
  split
  · obtain ⟨l, rfl⟩ := h; exact ⟨l, rfl⟩
  refine (consume_logAlike h _).bind fun d s t h => ?_
  obtain ⟨l, rfl⟩ := h
  split
  · split
    · exact ⟨l, rfl⟩
    · exact ⟨rfl, l, rfl⟩
  split
  · exact ⟨l, rfl⟩
  · exact ⟨rfl, l, rfl⟩

theorem sof0Entries_logAlike (n : Nat) : (sof0Entries n s).Alike State.LogApart (sof0Entries n t) := by
  induction n generalizing s t with
  | zero => exact ⟨rfl, h⟩
  | succ n ih =>
    refine (rd8_logAlike h).bind fun c s t h => (rd8_logAlike h).bind fun hv s t h =>
      (rd8_logAlike h).bind fun tq s t h => ih ?_
    obtain ⟨l, rfl⟩ := h
    exact ⟨l, rfl⟩

theorem sof0Op_logAlike : (sof0Op s).Alike State.LogApart (sof0Op t) := by
  refine (rd16_logAlike h).bind fun lf s t h => (rd8_logAlike h).bind fun _ s t h =>
    (rd16_logAlike h).bind fun y s t h => (rd16_logAlike h).bind fun x s t h =>
    (rd8_logAlike h).bind fun nf s t h => ?_
  obtain ⟨l, rfl⟩ := h
  split
  · exact ⟨l, rfl⟩
  · exact sof0Entries_logAlike ⟨l, rfl⟩ _

theorem dhtOp_logAlike : (dhtOp s).Alike State.LogApart (dhtOp t) := by
  refine (rd16_logAlike h).bind fun lh s t h => (rd8_logAlike h).bind fun tb s t h =>
    (rdBytes_logAlike h 16).bind fun counts s t h => ?_
  split
  · obtain ⟨l, rfl⟩ := h; exact ⟨l, rfl⟩
  refine (consume_logAlike h _).bind fun syms s t h => ?_
  obtain ⟨l, rfl⟩ := h
  split
  · exact ⟨l, rfl⟩
  · exact ⟨rfl, l, by cases classBit tb <;> rfl⟩

theorem sosEntries_logAlike (n : Nat) : (sosEntries n s).Alike State.LogApart (sosEntries n t) := by
  induction n generalizing s t with
  | zero => exact ⟨rfl, h⟩
  | succ n ih =>
    refine (rd8_logAlike h).bind fun c s t h => (rd8_logAlike h).bind fun sel s t h => ?_
    obtain ⟨l, rfl⟩ := h
    have hc : (s.setSkiplog l).compAt c.toNat = s.compAt c.toNat := rfl
    rw [hc]
    split
    · exact ⟨l, rfl⟩
    · exact ih ⟨l, rfl⟩

theorem sosOp_logAlike : (sosOp s).Alike State.LogApart (sosOp t) := by
  refine (rd16_logAlike h).bind fun ls s t h => (rd8_logAlike h).bind fun ns s t h =>
    (sosEntries_logAlike h _).bind fun _ s t h => ?_
  split
  · obtain ⟨l, rfl⟩ := h; exact ⟨l, rfl⟩
  · exact (consume_logAlike h _).bind fun _ _ _ h => ⟨rfl, h⟩

theorem soiOp_logAlike : (soiOp s).Alike State.LogApart (soiOp t) := by
  refine (rd8_logAlike h).bind fun b s t h => ?_
  split
  · obtain ⟨l, rfl⟩ := h; exact ⟨l, rfl⟩
  refine (rd8_logAlike h).bind fun c s t h => ?_
  obtain ⟨l, rfl⟩ := h
  split
  · exact ⟨l, rfl⟩
  · exact ⟨rfl, l, rfl⟩

/-- SKIP writes the log, each state its own. -/
theorem skipOp_logAlike (m : Byte) : (skipOp m s).Alike State.LogApart (skipOp m t) := by
  obtain ⟨l, rfl⟩ := h
  exact ⟨rfl, _, rfl⟩

theorem badmarkerOp_logAlike (b : Byte) : (badmarkerOp b s).Alike State.LogApart (badmarkerOp b t) := by
  obtain ⟨l, rfl⟩ := h
  exact ⟨l, rfl⟩

theorem dispatchOp_logAlike (m : Byte) : (dispatchOp m s).Alike State.LogApart (dispatchOp m t) := by
  have hd {r r' : Res Unit} (d : Bool) (hr : r.Alike State.LogApart r') :
      (r.bind fun _ s => .ok d s).Alike State.LogApart (r'.bind fun _ s => .ok d s) :=
    hr.bind fun _ _ _ h => ⟨rfl, h⟩
  rw [dispatchOp, dispatchOp]
  split
  · exact hd _ (dqtOp_logAlike h)
  split
  · exact hd _ (sof0Op_logAlike h)
  split
  · exact hd _ (dhtOp_logAlike h)
  split
  · exact hd _ (sosOp_logAlike h)
  · exact hd _ (skipOp_logAlike h m)

/-! ## The scan phase -/

theorem readCodeLoop_logAlike (tb : HuffTable) (n : Nat) :
    (readCodeLoop tb n s).Alike State.LogApart (readCodeLoop tb n t) := by
  induction n generalizing s t with
  | zero => obtain ⟨l, rfl⟩ := h; exact ⟨l, rfl⟩
  | succ n ih =>
    refine (nextBit_alike inert_logApart h).bind fun b s t h => ?_
    obtain ⟨l, rfl⟩ := h
    simp only [State.setAcc_accLen, State.setAcc_acc, State.setSkiplog_accLen, State.setSkiplog_acc]
    split
    · exact ⟨rfl, l, rfl⟩
    · exact ih ⟨l, rfl⟩

theorem readCode_logAlike (tb : HuffTable) : (readCode tb s).Alike State.LogApart (readCode tb t) := by
  obtain ⟨l, rfl⟩ := h
  exact readCodeLoop_logAlike ⟨l, rfl⟩ tb _

theorem readMagnitude_logAlike (n : Nat) : (readMagnitude n s).Alike State.LogApart (readMagnitude n t) := by
  refine (readBits_alike inert_logApart h n 0).bind fun u s t h => ?_
  obtain ⟨l, rfl⟩ := h
  exact ⟨rfl, l, rfl⟩

theorem dcSymbol_logAlike (n : Byte) : (dcSymbol n s).Alike State.LogApart (dcSymbol n t) := by
  rw [dcSymbol, dcSymbol]
  split
  · obtain ⟨l, rfl⟩ := h; exact ⟨rfl, l, rfl⟩
  split
  · refine (readMagnitude_logAlike h _).bind fun v s t h => ?_
    obtain ⟨l, rfl⟩ := h
    exact ⟨rfl, l, rfl⟩
  · obtain ⟨l, rfl⟩ := h; exact ⟨l, rfl⟩

theorem acZeros_logAlike (z : Nat) (sym : Byte) : (acZeros z sym s).Alike State.LogApart (acZeros z sym t) := by
  obtain ⟨l, rfl⟩ := h
  rw [acZeros, acZeros, State.setSkiplog_k]
  split
  · exact ⟨l, rfl⟩
  · exact ⟨rfl, l, rfl⟩

theorem acCoefOp_logAlike (r sz : Nibble) : (acCoefOp r sz s).Alike State.LogApart (acCoefOp r sz t) := by
  obtain ⟨l, rfl⟩ := h
  rw [acCoefOp, acCoefOp, State.setSkiplog_k]
  split
  · exact ⟨l, rfl⟩
  · refine (readMagnitude_logAlike (s := s.setK (s.k + r.toNat)) ⟨l, rfl⟩ _).bind fun v s t h => ?_
    obtain ⟨l, rfl⟩ := h
    exact ⟨rfl, l, rfl⟩

theorem acSymbol_logAlike (sym : Byte) : (acSymbol sym s).Alike State.LogApart (acSymbol sym t) := by
  rw [acSymbol, acSymbol]
  split
  · obtain ⟨l, rfl⟩ := h; exact ⟨rfl, l, rfl⟩
  split
  · split <;> exact acZeros_logAlike h ..
  split
  · exact acCoefOp_logAlike h ..
  · obtain ⟨l, rfl⟩ := h; exact ⟨l, rfl⟩

theorem checkConfigOp_logAlike : (checkConfigOp s).Alike State.LogApart (checkConfigOp t) := by
  obtain ⟨l, rfl⟩ := h
  have hc : configError (s.setSkiplog l) = configError s := configError_congr rfl rfl rfl rfl
  rw [checkConfigOp, checkConfigOp, hc]
  split
  · exact ⟨l, rfl⟩
  · exact ⟨rfl, l, rfl⟩

theorem gridOp_logAlike : (gridOp s).Alike State.LogApart (gridOp t) := by
  obtain ⟨l, rfl⟩ := h
  have hc : (s.setSkiplog l).compAt 1 = s.compAt 1 := rfl
  rw [gridOp, gridOp, hc, State.setSkiplog_img]
  split
  · exact ⟨rfl, l, rfl⟩
  · rfl

/-! ## A step -/

theorem fetchSymbol_logAlike (c : HuffClass) : (fetchSymbol c s).Alike State.LogApart (fetchSymbol c t) := by
  have hr (tb : HuffTable) (dec : Byte → Instr) :
      ((readCode tb s).bind fun sym s => .ok (some (dec sym)) s).Alike State.LogApart
        ((readCode tb t).bind fun sym s => .ok (some (dec sym)) s) :=
    (readCode_logAlike h tb).bind fun _ _ _ h => ⟨rfl, h⟩
  have hm : t.mstruct[t.blkIdx]? = s.mstruct[s.blkIdx]? := by obtain ⟨l, rfl⟩ := h; rfl
  have ht (id : Byte) : t.tablesOf id = s.tablesOf id := by obtain ⟨l, rfl⟩ := h; rfl
  rw [fetchSymbol, fetchSymbol, hm]
  split
  · rfl
  rw [ht]
  split
  · rfl
  cases c
  · exact hr _ decodeDcSymbol
  · exact hr _ decodeAcSymbol

theorem fetchPattern_logAlike (lv : Level) : (fetchPattern lv s).Alike State.LogApart (fetchPattern lv t) := by
  obtain ⟨l, rfl⟩ := h
  have hw : (s.setSkiplog l).window = s.window := rfl
  rw [fetchPattern, fetchPattern, hw]
  split
  · exact ⟨rfl, l, rfl⟩
  · exact ⟨l, rfl⟩

theorem fetch_logAlike : (fetch s).Alike State.LogApart (fetch t) := by
  have hp : t.phase = s.phase := by obtain ⟨l, rfl⟩ := h; rfl
  have hs : t.stage = s.stage := by obtain ⟨l, rfl⟩ := h; rfl
  have hpos : t.pos = s.pos := by obtain ⟨l, rfl⟩ := h; rfl
  rw [fetch, fetch, hp, hs, hpos]
  split
  · exact ⟨rfl, h⟩
  · split
    · exact ⟨rfl, h⟩
    · exact fetchPattern_logAlike h .marker
  · split
    · exact ⟨rfl, h⟩
    · exact ⟨rfl, h⟩
    · exact ⟨rfl, h⟩
    · exact fetchSymbol_logAlike h .dc
    · exact fetchSymbol_logAlike h .ac
    · exact ⟨rfl, h⟩
  · exact ⟨rfl, h⟩
  · exact ⟨rfl, h⟩

/-- Every operation a step fetches. -/
theorem exec_logAlike {i : Instr} (hi : HeaderRow i ∨ ScanRow i) {u : State} (e : exec i s = .next u) :
    ∃ v, exec i t = .next v ∧ u.LogApart v := by
  obtain (rfl | ⟨m, rfl⟩ | ⟨b, rfl⟩) | rfl | rfl | rfl | rfl | ⟨c, sym, rfl⟩ := hi
  · exact (soiOp_logAlike h).next e
  · rw [exec_decodeMarkerByte] at e ⊢
    exact (dispatchOp_logAlike h m).next e
  · exact (badmarkerOp_logAlike h b).next e
  · exact (checkConfigOp_logAlike h).next e
  · obtain ⟨l, rfl⟩ := h
    cases e
    exact ⟨_, rfl, l, rfl⟩
  · exact (gridOp_logAlike h).next e
  · obtain ⟨l, rfl⟩ := h
    cases e
    exact ⟨_, rfl, l, rfl⟩
  · cases c
    · rw [decodeSymbol, exec_decodeDcSymbol] at e ⊢
      exact (dcSymbol_logAlike h sym).next e
    · rw [decodeSymbol, exec_decodeAcSymbol] at e ⊢
      exact (acSymbol_logAlike h sym).next e

theorem nextMcu_logApart : (nextMcu s).LogApart (nextMcu t) := by
  obtain ⟨l, rfl⟩ := h
  have hm : (s.setSkiplog l).mlen = s.mlen := rfl
  rw [nextMcu, nextMcu, hm, State.setSkiplog_mcuIdx, State.setSkiplog_mcuTotal]
  split
  · split <;> exact ⟨l, rfl⟩
  · exact ⟨l, rfl⟩

theorem nextBlock_logApart : (nextBlock s).LogApart (nextBlock t) := by
  obtain ⟨l, rfl⟩ := h
  have hm : (s.setSkiplog l).mlen = s.mlen := rfl
  rw [nextBlock_eq, nextBlock_eq, hm, State.setSkiplog_blkIdx]
  split
  · exact ⟨l, rfl⟩
  · exact nextMcu_logApart ⟨l, rfl⟩

theorem advanceScan_logApart : (advanceScan s).LogApart (advanceScan t) := by
  obtain ⟨l, rfl⟩ := h
  rw [advanceScan, advanceScan, State.setSkiplog_stage, State.setSkiplog_k]
  split
  · exact ⟨l, rfl⟩
  · exact ⟨l, rfl⟩
  · exact nextMcu_logApart ⟨l, rfl⟩
  · exact ⟨l, rfl⟩
  · split
    · exact ⟨l, rfl⟩
    · exact nextBlock_logApart ⟨l, rfl⟩
  · exact ⟨l, rfl⟩

theorem advance_logApart (i : Instr) : (advance i s).LogApart (advance i t) := by
  have hp : t.phase = s.phase := by obtain ⟨l, rfl⟩ := h; rfl
  rw [advance, advance, hp]
  split
  · split
    · obtain ⟨l, rfl⟩ := h; exact ⟨l, rfl⟩
    · exact h
  · exact advanceScan_logApart h
  · exact h
  · exact h
  · exact h

end operations

/-- What can be fetched. -/
theorem fetch_row {s u : State} {i : Instr} (e : fetch s = .ok (some i) u) : HeaderRow i ∨ ScanRow i := by
  by_cases hh : s.phase = .header
  · have hf := fetch_header hh
    rw [e] at hf
    obtain ⟨_, hi, hrow, -⟩ := hf
    cases hi
    exact .inl hrow
  by_cases hp : s.phase = .scan
  · have hf := fetch_scan_writes hp
    rw [e] at hf
    obtain ⟨_, hi, hrow, -⟩ := hf
    cases hi
    exact .inr hrow
  · rw [fetch_idle hh hp] at e
    cases e

/-- Steps from states that differ in the skip log alone answer states that do. -/
theorem step_logApart {s s' t : State} (h : s.LogApart s') (e : step s = .next t) :
    ∃ t', step s' = .next t' ∧ t.LogApart t' := by
  have hf := fetch_logAlike h
  obtain e | e | ⟨i, u, v, hu, hv, rfl⟩ := step_next e
  · obtain ⟨t', e', ht⟩ := hf.of_raised e
    exact ⟨t', step_raised e', ht⟩
  · obtain ⟨t', e', ht⟩ := hf.of_ok e
    exact ⟨t', by rw [step, e'], ht⟩
  · obtain ⟨u', hu', huu⟩ := hf.of_ok hu
    obtain ⟨v', hv', hvv⟩ := exec_logAlike huu (fetch_row hu) hv
    exact ⟨_, by rw [step_ok hu', hv'], advance_logApart hvv i⟩

/-- Settles O59: the other skip log is one more pair of states apart in the log alone. -/
theorem skiplogIsNeverRead : Obligations.SkiplogIsNeverRead := by
  intro s t l h
  obtain ⟨t', e, l', rfl⟩ := step_logApart (s' := s.setSkiplog l) ⟨l, rfl⟩ h
  exact ⟨l', e⟩

end Sys2Proof.Machine
end

section
/-! SUPPORT. The stream under the block's operations (spec/20_memory.md R61 to R64, R69, R72): what the read primitives
return, and that only the host's RESET and START write the stream or the mode or move the cursor back. -/

namespace Sys2Proof.Machine

/-! ## The read primitives -/

/-- Settles O4: the laws of `rd8`, `rd16` and `consume` inside the stream, across its end and past it. -/
theorem readPrimitives : Obligations.ReadPrimitives := by
  intro s
  refine ⟨rd8_ok, rd8_end, fun h => ⟨_, rd16_ok h, be16_toNat _ _⟩, fun h => rd16_end (by omega) (by omega), rd16_past,
    fun n => ⟨fun h => ⟨_, consume_ok h, bytesFrom_length .., fun i hi => bytesFrom_get s s.pos hi⟩, consume_end⟩⟩

/-! ## Onward through the stream -/

/-- The cursor has not moved back; the length, the mode and every byte of the stream are the same. -/
def State.Onward (s t : State) : Prop :=
  s.pos ≤ t.pos ∧ t.len = s.len ∧ t.mode = s.mode ∧ ∀ a, t.byteAt a = s.byteAt a

section onward
variable {s t u : State}

theorem State.Onward.refl (s : State) : s.Onward s := ⟨Nat.le_refl _, rfl, rfl, fun _ => rfl⟩

theorem State.Onward.trans (h : s.Onward t) (h' : t.Onward u) : s.Onward u := by
  obtain ⟨hpos, hlen, hmode, hmem⟩ := h
  obtain ⟨hpos', hlen', hmode', hmem'⟩ := h'
  exact ⟨hpos.trans hpos', hlen'.trans hlen, hmode'.trans hmode, fun a => (hmem' a).trans (hmem a)⟩

theorem State.onward_raise (s : State) (f : FaultInfo) : s.Onward (s.raise f) := .refl s

theorem State.Read.onward (h : s.Read t) : s.Onward t := ⟨h.forward.1, h.len, h.mode, h.byteAt⟩

theorem State.ReadAcc.onward (h : s.ReadAcc t) : s.Onward t := ⟨h.forward.1, h.len, h.mode, h.byteAt⟩

theorem State.Assembled.onward (h : s.Assembled t) : s.Onward t := ⟨h.forward.1, h.len, h.mode, h.byteAt⟩

theorem State.AssembledK.onward (h : s.AssembledK t) : s.Onward t := h.1.onward

theorem State.Configured.onward (h : s.Configured t) : s.Onward t :=
  ⟨h.forward.1, h.len, by rw [h.frame], h.byteAt⟩

theorem Raised.onward {R : State → State → Prop} {p : FaultInfo → Bool} (h : Raised R p s t)
    (hR : ∀ u, R s u → s.Onward u) : s.Onward t := by
  obtain ⟨u, f, hu, -, rfl⟩ := h
  exact (hR u hu).trans (u.onward_raise f)

end onward

/-- Whatever state the procedure answers from `s` is onward of `s`. -/
abbrev Res.Onward {α : Type} (s : State) (r : Res α) : Prop := r.Answers (fun _ => s.Onward) s.Onward

section res
variable {α : Type} {s t : State} {r : Res α}

theorem Res.Ends.onward {P : α → State → Prop} {R : State → State → Prop} {p : FaultInfo → Bool}
    (h : r.Ends P (Raised R p s)) (hP : ∀ a u, P a u → s.Onward u) (hR : ∀ u, R s u → s.Onward u) : r.Onward s :=
  h.answers hP fun _ hu => hu.onward hR

theorem Res.Configures.onward (h : r.Configures s) : r.Onward s :=
  Res.Ends.onward h (fun _ _ => State.Configured.onward) fun _ => State.Configured.onward

theorem State.Onward.trans_res (h : s.Onward t) (hr : r.Onward t) : r.Onward s :=
  hr.imp (fun _ _ => h.trans) fun _ => h.trans

/-- Keeping the value in `ret` moves nothing. -/
theorem Res.Answers.onward_nextRet (h : r.Onward s) {f : α → Ret} (e : r.outcomeRet f = .next t) : s.Onward t := by
  refine Res.Answers.next (h.bind fun a u hu => ?_) e
  exact hu.trans (u := u.setRet (f a)) (.refl u)

end res

/-! ## The operations -/

theorem soiOp_onward (s : State) : (soiOp s).Onward s :=
  (soiOp_configured s).onward (fun _ _ h => h.1.onward) fun _ => State.Configured.onward

theorem markerFetchOp_onward (s : State) : (markerFetchOp s).Onward s :=
  (markerFetchOp_configured s).onward (fun _ _ h => h.1.onward) fun _ => State.Configured.onward

theorem fetchByte_onward (s : State) : (fetchByte s).Onward s :=
  (fetchByte_ends s).onward (fun _ _ h => h.1.onward) fun _ => State.Read.onward

theorem nextBit_onward (s : State) : (nextBit s).Onward s :=
  (nextBit_ends s).onward (fun _ _ => State.Read.onward) fun _ => State.Read.onward

theorem readMagnitude_onward (n : Nat) (s : State) : (readMagnitude n s).Onward s :=
  (readMagnitude_ends n s).onward (fun _ _ => State.Read.onward) fun _ => State.Read.onward

theorem readCode_onward (tb : HuffTable) (s : State) : (readCode tb s).Onward s :=
  (readCode_ends tb s).onward (fun _ _ => State.ReadAcc.onward) fun _ => State.ReadAcc.onward

theorem readCodeOf_onward (c : HuffClass) (t : Nibble) (s : State) : (readCodeOf c t s).Onward s := by
  rw [readCodeOf]
  split
  · trivial
  · exact readCode_onward _ s

theorem dcMagOp_onward (n : Nat) (s : State) : (dcMagOp n s).Onward s :=
  (readMagnitude_onward n s).bind fun _ _ h => h

theorem acZeros_onward (z : Nat) (sym : Byte) (s : State) : (acZeros z sym s).Onward s := by
  rw [acZeros]
  split
  · exact s.onward_raise _
  · exact State.Onward.refl s

theorem acCoefOp_onward (r sz : Nibble) (s : State) : (acCoefOp r sz s).Onward s :=
  (acCoefOp_ends r sz s).onward (fun _ _ h => h.1.onward) fun _ => State.AssembledK.onward

theorem decodeBlockOp_onward (id : Byte) (s : State) : (decodeBlockOp id s).Onward s := by
  rw [decodeBlockOp]
  split
  · trivial
  · exact (decodeBlockWith_ends _ _ s).onward (fun _ _ h => h.1.onward) fun _ => State.AssembledK.onward

theorem checkConfigOp_onward (s : State) : (checkConfigOp s).Onward s := by
  rw [checkConfigOp]
  split
  · exact s.onward_raise _
  · exact State.Onward.refl s

theorem gridOp_onward (s : State) : (gridOp s).Onward s := by
  rw [gridOp]
  split
  · exact State.Onward.refl s
  · trivial

theorem scanBlocks_onward (ids : List Byte) (s : State) : (scanBlocks ids s).Onward s := by
  induction ids generalizing s with
  | nil => exact State.Onward.refl s
  | cons id ids ih => exact (decodeBlockOp_onward id s).bind fun b t h => h.trans_res (ih _)

theorem scanMcus_onward (n : Nat) (s : State) : (scanMcus n s).Onward s := by
  induction n generalizing s with
  | zero => exact State.Onward.refl s
  | succ n ih => exact Res.Answers.bind (scanBlocks_onward _ _) fun _ t h => State.Onward.trans_res h (ih _)

theorem scanOp_onward (s : State) : (scanOp s).Onward s := by
  refine (checkConfigOp_onward s).bind fun _ t h => ?_
  refine (h.trans_res (gridOp_onward (t.setMstruct (mstructOf t.comp)))).bind fun _ u h => ?_
  exact (h.trans_res (scanMcus_onward u.mcuTotal ((u.setBitOff 0).setMcuIdx 0))).bind fun _ v h => h

/-- Every operation but the host's two. -/
theorem exec_onward {i : Instr} {s t : State} (hr : i ≠ .reset) (hs : ∀ bs m, i ≠ .start bs m)
    (h : exec i s = .next t) : s.Onward t := by
  cases i with
  | reset => exact absurd rfl hr
  | start bs m => exact absurd rfl (hs bs m)
  | soi => exact (soiOp_onward s).next h
  | dqt => exact (dqtOp_configured s).onward.next h
  | sof0 => exact (sof0Op_configured s).onward.next h
  | dht => exact (dhtOp_configured s).onward.next h
  | sos => exact (sosOp_configured s).onward.next h
  | skip m => exact (skipOp_configured m s).onward.next h
  | header => exact (headerOp_configured s).onward.next h
  | markerFetch => exact (markerFetchOp_onward s).onward_nextRet h
  | dispatch m => exact (dispatchOp_configured m s).onward.onward_nextRet h
  | fetchbyte => exact (fetchByte_onward s).next h
  | nextbit => exact (nextBit_onward s).onward_nextRet h
  | readcode c tb => exact (readCodeOf_onward c tb s).onward_nextRet h
  | readmag n => exact (readMagnitude_onward n.toNat s).onward_nextRet h
  | dcMag n => exact (dcMagOp_onward n.toNat s).next h
  | acZrl => exact (acZeros_onward 16 0xF0 s).next h
  | acRun r => exact (acZeros_onward r.toNat (ofNibbles r 0) s).next h
  | acCoef r sz => exact (acCoefOp_onward r sz s).next h
  | decodeBlock id => exact (decodeBlockOp_onward id s).onward_nextRet h
  | checkConfig => exact (checkConfigOp_onward s).next h
  | grid => exact (gridOp_onward s).next h
  | scan => exact (scanOp_onward s).next h
  | data b | stuff | dcZero | acEob | buildMstruct | scanDone => cases h; exact .refl s
  | badmarker b | badstuff x | dcBad n | acBad r sz => cases h; exact s.onward_raise _

/-! ## A step -/

theorem State.HeaderStep.onward {s t : State} (h : s.HeaderStep t) : s.Onward t := by
  obtain hr | hc | ⟨u, hu, rfl⟩ := h
  · exact hr.onward fun _ => State.Configured.onward
  · exact hc.onward
  · exact hu.onward

theorem decodeSymbol_not_host (c : HuffClass) (sym : Byte) :
    decodeSymbol c sym ≠ .reset ∧ ∀ bs m, decodeSymbol c sym ≠ .start bs m := by
  cases c with
  | dc =>
    rw [decodeSymbol, decodeDcSymbol]
    repeat' split
    all_goals exact ⟨nofun, nofun⟩
  | ac =>
    rw [decodeSymbol, decodeAcSymbol]
    repeat' split
    all_goals exact ⟨nofun, nofun⟩

/-- No row of the scan phase is an action of the host. -/
theorem ScanRow.not_host {i : Instr} (h : ScanRow i) : i ≠ .reset ∧ ∀ bs m, i ≠ .start bs m := by
  obtain rfl | rfl | rfl | rfl | ⟨c, sym, rfl⟩ := h
  · exact ⟨nofun, nofun⟩
  · exact ⟨nofun, nofun⟩
  · exact ⟨nofun, nofun⟩
  · exact ⟨nofun, nofun⟩
  · exact decodeSymbol_not_host c sym

theorem fetchSymbol_onward (c : HuffClass) (s : State) : (fetchSymbol c s).Onward s := by
  rw [fetchSymbol]
  split
  · trivial
  split
  · trivial
  cases c
  · exact (readCode_onward _ s).bind fun _ _ h => h
  · exact (readCode_onward _ s).bind fun _ _ h => h

theorem fetch_scan_onward {s : State} (h : s.phase = .scan) : (fetch s).Onward s := by
  cases hs : s.stage with
  | check => rw [fetch_check h hs]; exact State.Onward.refl s
  | mstruct => rw [fetch_mstruct h hs]; exact State.Onward.refl s
  | grid => rw [fetch_grid h hs]; exact State.Onward.refl s
  | dc => rw [fetch_dc h hs]; exact fetchSymbol_onward .dc s
  | ac => rw [fetch_ac h hs]; exact fetchSymbol_onward .ac s
  | done => rw [fetch_done h hs]; exact State.Onward.refl s

theorem nextMcu_onward (s : State) : s.Onward (nextMcu s) := by rw [nextMcu_frame]; exact .refl s

theorem nextBlock_onward (s : State) : s.Onward (nextBlock s) := by rw [nextBlock_frame]; exact .refl s

theorem advanceScan_onward (s : State) : s.Onward (advanceScan s) := by
  cases hs : s.stage with
  | check | mstruct | dc | done => rw [advanceScan, hs]; exact .refl s
  | grid => rw [advanceScan, hs]; exact nextMcu_onward ((s.setBitOff 0).setMcuIdx 0)
  | ac =>
    simp only [advanceScan, hs]
    split
    · exact .refl s
    · exact nextBlock_onward s

theorem advance_onward (i : Instr) (s : State) : s.Onward (advance i s) := by
  cases hp : s.phase with
  | header => rw [advance_header hp]; split <;> exact .refl s
  | scan => rw [advance_scan hp]; exact advanceScan_onward s
  | idle | done | fault => rw [advance_idle (by simp [hp]) (by simp [hp])]; exact .refl s

theorem step_scan_onward {s t : State} (hp : s.phase = .scan) (h : step s = .next t) : s.Onward t := by
  have hf := fetch_scan_onward hp
  obtain e | e | ⟨i, u, v, e, hv, rfl⟩ := step_next h <;> rw [e] at hf
  · exact hf
  · exact hf
  · have hrow := fetch_scan_writes hp
    rw [e] at hrow
    obtain ⟨_, hi, hrow, -⟩ := hrow
    cases hi
    obtain ⟨hr, hs⟩ := hrow.not_host
    exact (State.Onward.trans hf (exec_onward hr hs hv)).trans (advance_onward i v)

theorem step_onward {s t : State} (h : step s = .next t) : s.Onward t := by
  by_cases hh : s.phase = .header
  · obtain ⟨u, hu, hs⟩ := step_header hh
    cases hu.symm.trans h
    exact hs.onward
  by_cases hp : s.phase = .scan
  · exact step_scan_onward hp h
  · cases (step_idle hh hp).symm.trans h
    exact .refl s

/-- Settles O57: each operation but the host's two is onward, and so are the fetch and the moving on of a step. -/
theorem onlyTheHostWritesTheStream : Obligations.OnlyTheHostWritesTheStream :=
  ⟨fun _ _ _ => exec_onward, fun _ _ => step_onward⟩

end Sys2Proof.Machine
end

section
/-! SUPPORT. The encodings of spec/30_encoding.md: the nibbles of a byte, what each map from a byte to a row gives and on
which bytes it gives a row back (R82, R90, R92, R93), and what each pattern space accepts. -/

namespace Sys2Proof

/-! ## Split bytes (R88) -/

theorem hiNibble_toNat (b : Byte) : (hiNibble b).toNat = b.toNat / 16 := by
  have := b.isLt
  simp only [hiNibble, BitVec.extractLsb'_toNat, Nat.shiftRight_eq_div_pow]
  omega

theorem loNibble_toNat (b : Byte) : (loNibble b).toNat = b.toNat % 16 := by
  simp [loNibble, BitVec.extractLsb'_toNat]

theorem ofNibbles_toNat (h l : Nibble) : (ofNibbles h l).toNat = 16 * h.toNat + l.toNat := by
  rw [ofNibbles, BitVec.toNat_append, ← Nat.shiftLeft_add_eq_or_of_lt l.isLt, Nat.shiftLeft_eq]
  omega

@[simp] theorem hiNibble_ofNibbles (h l : Nibble) : hiNibble (ofNibbles h l) = h := by
  apply BitVec.eq_of_toNat_eq
  rw [hiNibble_toNat, ofNibbles_toNat]
  omega

@[simp] theorem loNibble_ofNibbles (h l : Nibble) : loNibble (ofNibbles h l) = l := by
  apply BitVec.eq_of_toNat_eq
  rw [loNibble_toNat, ofNibbles_toNat]
  omega

theorem ofNibbles_eq_zero {h l : Nibble} : ofNibbles h l = 0 ↔ h = 0 ∧ l = 0 := by
  constructor
  · intro e
    have hh := hiNibble_ofNibbles h l
    have hl := loNibble_ofNibbles h l
    rw [e] at hh hl
    exact ⟨hh.symm, hl.symm⟩
  · rintro ⟨rfl, rfl⟩
    rfl

/-- A byte below 16 is its low nibble. -/
theorem ofNibbles_zero_loNibble {b : Byte} (h : b.toNat < 16) : ofNibbles 0 (loNibble b) = b := by
  apply BitVec.eq_of_toNat_eq
  have h0 : (0 : Nibble).toNat = 0 := rfl
  rw [ofNibbles_toNat, loNibble_toNat]
  omega

theorem nibble_ne_zero {n : Nibble} : n ≠ 0 ↔ 1 ≤ n.toNat := by
  rw [Nat.one_le_iff_ne_zero, ne_eq, ne_eq, ← BitVec.toNat_inj]
  rfl

/-! ## The row of a byte -/

/-- `i` is a well-formed row of the pattern space `lv`, and `w` is its pattern. -/
def Instr.RowOf (lv : Level) (w : List Byte) (i : Instr) : Prop := i.wf = true ∧ i.level = some lv ∧ encode i = w

theorem skip_wf {m : Byte} : (Instr.skip m).wf = true ↔ m ≠ 0xDB ∧ m ≠ 0xC0 ∧ m ≠ 0xC4 ∧ m ≠ 0xDA := by
  simp only [Instr.wf, Bool.and_eq_true, bne_iff_ne, and_assoc]

theorem decodeMarkerByte_rowOf (m : Byte) : (decodeMarkerByte m).RowOf .marker [0xFF, m] := by
  rw [decodeMarkerByte]
  split
  · subst m; exact ⟨rfl, rfl, rfl⟩
  split
  · subst m; exact ⟨rfl, rfl, rfl⟩
  split
  · subst m; exact ⟨rfl, rfl, rfl⟩
  split
  · subst m; exact ⟨rfl, rfl, rfl⟩
  rename_i hdb hc0 hc4 hda
  exact ⟨skip_wf.mpr ⟨hdb, hc0, hc4, hda⟩, rfl, rfl⟩

theorem decodeDcSymbol_rowOf (n : Byte) : (decodeDcSymbol n).RowOf .dc [n] := by
  rw [decodeDcSymbol]
  split
  · subst n; exact ⟨rfl, rfl, rfl⟩
  rename_i h0
  have h1 : n.toNat ≠ 0 := fun e => h0 (BitVec.eq_of_toNat_eq e)
  split
  · rename_i hle
    rw [Config.dcCategoryLimit] at hle
    refine ⟨?_, rfl, by rw [encode, ofNibbles_zero_loNibble (by omega)]⟩
    simp only [Instr.wf, loNibble_toNat, Config.dcCategoryLimit, decide_eq_true_eq]
    omega
  · rename_i hgt
    exact ⟨decide_eq_true (by omega), rfl, rfl⟩

theorem decodeAcSymbol_rowOf (sym : Byte) : (decodeAcSymbol sym).RowOf .ac [sym] := by
  have he : ofNibbles (hiNibble sym) (loNibble sym) = sym := Machine.byte_nibbles sym
  rw [decodeAcSymbol]
  split
  · subst sym; exact ⟨rfl, rfl, rfl⟩
  rename_i h0
  split
  · rename_i hl
    rw [hl] at he
    split
    · rename_i hr
      rw [hr] at he
      subst sym; exact ⟨rfl, rfl, rfl⟩
    · rename_i hr
      have h1 := nibble_ne_zero.mp (Machine.hiNibble_ne_zero h0 hl)
      have h15 : (hiNibble sym).toNat ≠ 15 := fun e => hr (BitVec.eq_of_toNat_eq e)
      exact ⟨decide_eq_true (by omega), rfl, congrArg (fun b => [b]) he⟩
  rename_i hl
  split
  · rename_i hs
    exact ⟨decide_eq_true ⟨nibble_ne_zero.mp hl, hs⟩, rfl, congrArg (fun b => [b]) he⟩
  · rename_i hs
    exact ⟨decide_eq_true (Nat.lt_of_not_le hs), rfl, congrArg (fun b => [b]) he⟩

/-! ## The byte of a row -/

theorem decodeMarkerByte_skip {m : Byte} (h : (Instr.skip m).wf = true) : decodeMarkerByte m = .skip m := by
  obtain ⟨hdb, hc0, hc4, hda⟩ := skip_wf.mp h
  rw [decodeMarkerByte, if_neg hdb, if_neg hc0, if_neg hc4, if_neg hda]

theorem decodeDcSymbol_dcMag {n : Nibble} (h : (Instr.dcMag n).wf = true) :
    decodeDcSymbol (ofNibbles 0 n) = .dcMag n := by
  obtain ⟨h1, h11⟩ := of_decide_eq_true h
  have hne : ofNibbles 0 n ≠ 0 := fun e => nibble_ne_zero.mpr h1 (ofNibbles_eq_zero.mp e).2
  rw [decodeDcSymbol, if_neg hne, if_pos (by simpa [ofNibbles_toNat] using h11), loNibble_ofNibbles]

theorem decodeDcSymbol_dcBad {n : Byte} (h : (Instr.dcBad n).wf = true) : decodeDcSymbol n = .dcBad n := by
  have h11 : Config.dcCategoryLimit < n.toNat := of_decide_eq_true h
  have hne : n ≠ 0 := by rintro rfl; exact absurd h11 (by decide)
  rw [decodeDcSymbol, if_neg hne, if_neg (Nat.not_le.mpr h11)]

theorem decodeAcSymbol_acRun {r : Nibble} (h : (Instr.acRun r).wf = true) :
    decodeAcSymbol (ofNibbles r 0) = .acRun r := by
  obtain ⟨h1, h14⟩ := of_decide_eq_true h
  have hne : ofNibbles r 0 ≠ 0 := fun e => nibble_ne_zero.mpr h1 (ofNibbles_eq_zero.mp e).1
  have hr : r ≠ 15 := by rintro rfl; exact absurd h14 (by decide)
  rw [decodeAcSymbol, if_neg hne, loNibble_ofNibbles, hiNibble_ofNibbles, if_pos rfl, if_neg hr]

/-- A symbol of a size other than 0 is judged by its size alone. -/
theorem decodeAcSymbol_of_size {r sz : Nibble} (h : sz ≠ 0) :
    decodeAcSymbol (ofNibbles r sz) = if sz.toNat ≤ Config.acCategoryLimit then .acCoef r sz else .acBad r sz := by
  have hne : ofNibbles r sz ≠ 0 := fun e => h (ofNibbles_eq_zero.mp e).2
  rw [decodeAcSymbol, if_neg hne, loNibble_ofNibbles, hiNibble_ofNibbles, if_neg h]

theorem decodeAcSymbol_acCoef {r sz : Nibble} (h : (Instr.acCoef r sz).wf = true) :
    decodeAcSymbol (ofNibbles r sz) = .acCoef r sz := by
  obtain ⟨h1, h10⟩ := of_decide_eq_true h
  rw [decodeAcSymbol_of_size (nibble_ne_zero.mpr h1), if_pos h10]

theorem decodeAcSymbol_acBad {r sz : Nibble} (h : (Instr.acBad r sz).wf = true) :
    decodeAcSymbol (ofNibbles r sz) = .acBad r sz := by
  have h10 : Config.acCategoryLimit < sz.toNat := of_decide_eq_true h
  rw [decodeAcSymbol_of_size (nibble_ne_zero.mpr (Nat.one_le_of_lt h10)), if_neg (Nat.not_le.mpr h10)]

/-! ## What a pattern space answers on a word -/

section words
variable (rest : List Byte)

theorem decode_start_soi : decode .start (0xFF :: 0xD8 :: rest) = .instr .soi rest := rfl

theorem decode_marker_word (m : Byte) :
    decode .marker (0xFF :: m :: rest) = .instr (decodeMarkerByte m) rest := rfl

theorem decode_marker_lead {b : Byte} (h : b ≠ 0xFF) : decode .marker (b :: rest) = .instr (.badmarker b) rest := by
  rw [decode, decodeMarker.eq_def]
  exact if_neg h

theorem decode_entropy_data {b : Byte} (h : b ≠ 0xFF) : decode .entropy (b :: rest) = .instr (.data b) rest := by
  rw [decode, decodeEntropy.eq_def]
  exact if_neg h

theorem decode_entropy_stuff : decode .entropy (0xFF :: 0x00 :: rest) = .instr .stuff rest := rfl

theorem decode_entropy_badstuff {x : Byte} (h : x ≠ 0) :
    decode .entropy (0xFF :: x :: rest) = .instr (.badstuff x) rest := if_neg h

end words

/-- Settles O1: a word of its space decodes to the row its bytes name, and on the bytes of a well-formed row that is the
row itself. -/
theorem decodeEncodeAgree : Obligations.DecodeEncodeAgree := by
  intro i lv rest hwf hlv
  cases i with
  | soi => cases hlv; exact decode_start_soi rest
  | dqt | sof0 | dht | sos => cases hlv; exact decode_marker_word rest _
  | skip m => cases hlv; exact (decode_marker_word rest m).trans (by rw [decodeMarkerByte_skip hwf])
  | badmarker lead => cases hlv; exact decode_marker_lead rest (bne_iff_ne.mp hwf)
  | data b => cases hlv; exact decode_entropy_data rest (bne_iff_ne.mp hwf)
  | stuff => cases hlv; exact decode_entropy_stuff rest
  | badstuff x => cases hlv; exact decode_entropy_badstuff rest (bne_iff_ne.mp hwf)
  | dcZero => cases hlv; rfl
  | dcMag n => cases hlv; exact congrArg (Decoded.instr · rest) (decodeDcSymbol_dcMag hwf)
  | dcBad n => cases hlv; exact congrArg (Decoded.instr · rest) (decodeDcSymbol_dcBad hwf)
  | acEob | acZrl => cases hlv; rfl
  | acRun r => cases hlv; exact congrArg (Decoded.instr · rest) (decodeAcSymbol_acRun hwf)
  | acCoef r sz => cases hlv; exact congrArg (Decoded.instr · rest) (decodeAcSymbol_acCoef hwf)
  | acBad r sz => cases hlv; exact congrArg (Decoded.instr · rest) (decodeAcSymbol_acBad hwf)
  | reset | start | header | markerFetch | dispatch | fetchbyte | nextbit | readcode | readmag | checkConfig
  | buildMstruct | grid | scan | decodeBlock | scanDone => exact nomatch hlv

/-! ## What a pattern space accepts -/

section accepted
variable {bs rest : List Byte} {i : Instr}

theorem decode_start_instr (h : decode .start bs = .instr i rest) : i = .soi ∧ bs = 0xFF :: 0xD8 :: rest := by
  rw [decode, decodeStart.eq_def] at h
  split at h
  · cases h
  split at h
  · split at h
    · cases h
    split at h
    · subst_vars; cases h; exact ⟨rfl, rfl⟩
    · cases h
  · cases h

theorem decode_marker_instr (h : decode .marker bs = .instr i rest) :
    (∃ m, i = decodeMarkerByte m ∧ bs = 0xFF :: m :: rest) ∨ ∃ b, b ≠ 0xFF ∧ i = .badmarker b ∧ bs = b :: rest := by
  rw [decode, decodeMarker.eq_def] at h
  split at h
  · cases h
  split at h
  · split at h
    · cases h
    · subst_vars; cases h; exact .inl ⟨_, rfl, rfl⟩
  · cases h; exact .inr ⟨_, ‹_›, rfl, rfl⟩

theorem decode_entropy_instr (h : decode .entropy bs = .instr i rest) :
    (∃ b, b ≠ 0xFF ∧ i = .data b ∧ bs = b :: rest) ∨ (i = .stuff ∧ bs = 0xFF :: 0x00 :: rest) ∨
      ∃ x, x ≠ 0 ∧ i = .badstuff x ∧ bs = 0xFF :: x :: rest := by
  rw [decode, decodeEntropy.eq_def] at h
  split at h
  · cases h
  split at h
  · split at h
    · cases h
    split at h
    · subst_vars; cases h; exact .inr (.inl ⟨rfl, rfl⟩)
    · subst_vars; cases h; exact .inr (.inr ⟨_, ‹_›, rfl, rfl⟩)
  · cases h; exact .inl ⟨_, ‹_›, rfl, rfl⟩

theorem decode_dc_instr (h : decode .dc bs = .instr i rest) : ∃ n, i = decodeDcSymbol n ∧ bs = n :: rest := by
  cases bs with
  | nil => cases h
  | cons n bs => cases h; exact ⟨n, rfl, rfl⟩

theorem decode_ac_instr (h : decode .ac bs = .instr i rest) : ∃ n, i = decodeAcSymbol n ∧ bs = n :: rest := by
  cases bs with
  | nil => cases h
  | cons n bs => cases h; exact ⟨n, rfl, rfl⟩

/-- The bytes a space decodes begin with the pattern of the row they decode to. -/
theorem decode_instr_rowOf {lv : Level} (h : decode lv bs = .instr i rest) : ∃ w, i.RowOf lv w ∧ bs = w ++ rest := by
  cases lv with
  | start =>
    obtain ⟨rfl, rfl⟩ := decode_start_instr h
    exact ⟨_, ⟨rfl, rfl, rfl⟩, rfl⟩
  | marker =>
    obtain ⟨m, rfl, rfl⟩ | ⟨b, hb, rfl, rfl⟩ := decode_marker_instr h
    · exact ⟨_, decodeMarkerByte_rowOf m, rfl⟩
    · exact ⟨_, ⟨bne_iff_ne.mpr hb, rfl, rfl⟩, rfl⟩
  | entropy =>
    obtain ⟨b, hb, rfl, rfl⟩ | ⟨rfl, rfl⟩ | ⟨x, hx, rfl, rfl⟩ := decode_entropy_instr h
    · exact ⟨_, ⟨bne_iff_ne.mpr hb, rfl, rfl⟩, rfl⟩
    · exact ⟨_, ⟨rfl, rfl, rfl⟩, rfl⟩
    · exact ⟨_, ⟨bne_iff_ne.mpr hx, rfl, rfl⟩, rfl⟩
  | dc =>
    obtain ⟨n, rfl, rfl⟩ := decode_dc_instr h
    exact ⟨_, decodeDcSymbol_rowOf n, rfl⟩
  | ac =>
    obtain ⟨n, rfl, rfl⟩ := decode_ac_instr h
    exact ⟨_, decodeAcSymbol_rowOf n, rfl⟩

end accepted

/-- Settles O2: what a space accepts is a well-formed row of it, behind its pattern. -/
theorem decodedWordIsItsPattern : Obligations.DecodedWordIsItsPattern := by
  intro lv bs rest i h
  obtain ⟨w, ⟨hwf, hlv, rfl⟩, hbs⟩ := decode_instr_rowOf h
  exact ⟨hwf, hlv, hbs⟩

/-- Settles O3: the decoder run on each of the twelve words. -/
theorem wordsOfTheTablesDecode : Obligations.WordsOfTheTablesDecode := by
  unfold Obligations.WordsOfTheTablesDecode
  decide

end Sys2Proof
end

section
/-! SUPPORT. Decoding in place: FETCHBYTE against the entropy row at the cursor (spec/45_bit_reader.md R171), and a step
against the operation that is due (log entry 5). -/

namespace Sys2Proof.Machine

/-! ## The entropy word at the cursor -/

section fetchByte
variable {s : State}

/-- The bytes a pattern may take are bytes of the stream. -/
theorem State.window_holds {b : Byte} {w : List Byte} (h : s.window = b :: w) : s.holds s.pos (b :: w) := by
  have hl : (b :: w).length = min 2 (s.len - s.pos) := by rw [← h, State.window, bytesFrom_length]
  refine ⟨?_, by rw [hl, ← h, State.window]⟩
  rw [List.length_cons] at hl ⊢
  omega

theorem fetchByte_data {b : Byte} {w : List Byte} (h : s.holds s.pos (b :: w)) (hb : b ≠ 0xFF) :
    fetchByte s = .ok () ((s.setPos (s.pos + 1)).setCur b) := by
  obtain ⟨hlen, rfl, -⟩ := State.holds_cons h
  rw [fetchByte, rd8_ok hlen, Res.bind_ok, if_neg hb]

/-- After `FF` the next byte is read and judged. -/
theorem fetchByte_ff {x : Byte} {w : List Byte} (h : s.holds s.pos (0xFF :: x :: w)) :
    fetchByte s = if x = 0 then .ok () ((s.setPos (s.pos + 2)).setCur 0xFF)
      else fail (.invalidByteStuffing (s.pos + 1) x) (s.setPos (s.pos + 2)) := by
  obtain ⟨hlen, hff, h⟩ := State.holds_cons h
  obtain ⟨hlen', rfl, -⟩ := State.holds_cons h
  rw [fetchByte, rd8_ok hlen, Res.bind_ok, hff, if_pos rfl, rd8_at hlen', Res.bind_ok]
  rfl

end fetchByte

/-- Settles O25: the window holds bytes of the stream, and each of the three entropy rows is a case of `fetchByte`. -/
theorem fetchByteRunsItsRow : Obligations.FetchByteRunsItsRow := by
  intro s i rest h
  have hn {w : List Byte} (hw : s.window = w ++ rest) : s.window.length - rest.length = w.length := by
    rw [hw, List.length_append, Nat.add_sub_cancel]
  show (fetchByte s).outcome = _
  obtain ⟨b, hb, rfl, hw⟩ | ⟨rfl, hw⟩ | ⟨x, hx, rfl, hw⟩ := decode_entropy_instr h
  · rw [hn (w := [b]) hw, fetchByte_data (State.window_holds hw) hb]
    rfl
  · rw [hn (w := [0xFF, 0x00]) hw, fetchByte_ff (State.window_holds hw), if_pos rfl]
    rfl
  · rw [hn (w := [0xFF, x]) hw, fetchByte_ff (State.window_holds hw), if_neg hx]
    rfl

/-! ## The operation that is due -/

section due
variable {s t u : State} {i : Instr}

/-- SOI is due at address 0. -/
theorem fetch_soi (h : s.phase = .header) (hp : s.pos = 0) : fetch s = .ok (some .soi) s := by
  simp only [fetch, h, hp, if_true]

/-- After address 0 the marker word at the cursor is due. -/
theorem fetch_marker {rest : List Byte} (h : s.phase = .header) (hp : s.pos ≠ 0)
    (hd : decode .marker s.window = .instr i rest) :
    fetch s = .ok (some i) (s.setPos (s.pos + (s.window.length - rest.length))) := by
  simp only [fetch, h, hp, if_false, fetchPattern, hd]

/-- In a block the row of the symbol just read is due. -/
theorem fetchSymbol_dc {id sym : Byte} {dct act : HuffTable} (hid : s.mstruct[s.blkIdx]? = some id)
    (ht : s.tablesOf id = some (dct, act)) (hr : readCode dct s = .ok sym u) :
    fetchSymbol .dc s = .ok (some (decodeDcSymbol sym)) u := by
  simp only [fetchSymbol, hid, ht, hr, Res.bind_ok]

theorem fetchSymbol_ac {id sym : Byte} {dct act : HuffTable} (hid : s.mstruct[s.blkIdx]? = some id)
    (ht : s.tablesOf id = some (dct, act)) (hr : readCode act s = .ok sym u) :
    fetchSymbol .ac s = .ok (some (decodeAcSymbol sym)) u := by
  simp only [fetchSymbol, hid, ht, hr, Res.bind_ok]

/-- A step runs the operation that is due and moves on. -/
theorem step_of_next (hf : fetch s = .ok (some i) u) (he : exec i u = .next t) : step s = .next (advance i t) := by
  rw [step_ok hf, he]

end due

/-- Settles O52: in each case the operation is the one `fetch` answers, and `step_of_next` does the rest. -/
theorem stepRunsTheDecodedOperation : Obligations.StepRunsTheDecodedOperation := by
  intro s t i
  refine ⟨fun hh hp => step_of_next (fetch_soi hh hp), fun rest hh hp hd => step_of_next (fetch_marker hh hp hd),
    ?dc, ?ac, ?due, fun ht => advance_header ht⟩
  case dc =>
    intro id dct act sym u hp hs hid ht hr hd
    cases hd
    exact step_of_next ((fetch_dc hp hs).trans (fetchSymbol_dc hid ht hr))
  case ac =>
    intro id dct act sym u hp hs hid ht hr hd
    cases hd
    exact step_of_next ((fetch_ac hp hs).trans (fetchSymbol_ac hid ht hr))
  case due =>
    rintro hp (⟨hs, rfl⟩ | ⟨hs, rfl⟩ | ⟨hs, rfl⟩ | ⟨hs, rfl⟩)
    · exact step_of_next (fetch_check hp hs)
    · exact step_of_next (fetch_mstruct hp hs)
    · exact step_of_next (fetch_grid hp hs)
    · exact step_of_next (fetch_done hp hs)

end Sys2Proof.Machine
end

section
/-! SUPPORT. The operations of the marker dispatcher, case by case (spec/40_marker_dispatcher.md R110 to R114): the
marker fetch and SOI, SKIP, DISPATCH, and that HEADER ends. -/

namespace Sys2Proof.Machine

section markers
variable {s : State}

/-! ## MARKER_FETCH and SOI -/

theorem markerFetchOp_past (h : s.len ≤ s.pos) :
    markerFetchOp s = .raised (s.raise (.unexpectedEndOfStream s.pos)) := by
  rw [markerFetchOp, rd8_end h, Res.bind_raised]

theorem markerFetchOp_lead (h : s.pos < s.len) (hb : s.byteAt s.pos ≠ 0xFF) :
    markerFetchOp s = .raised ((s.setPos (s.pos + 1)).raise (.malformedMarker s.pos (s.byteAt s.pos))) := by
  rw [markerFetchOp, rd8_ok h, Res.bind_ok, if_pos hb]
  rfl

/-- Behind a lead byte `FF` the marker byte is read. -/
theorem markerFetchOp_ff (h : s.pos < s.len) (hb : s.byteAt s.pos = 0xFF) :
    markerFetchOp s = rd8 (s.setPos (s.pos + 1)) := by
  rw [markerFetchOp, rd8_ok h, Res.bind_ok, if_neg (not_not.mpr hb)]

theorem markerFetchOp_last (h : s.pos + 1 = s.len) (hb : s.byteAt s.pos = 0xFF) :
    markerFetchOp s = .raised ((s.setPos s.len).raise (.unexpectedEndOfStream s.len)) := by
  rw [markerFetchOp_ff (by omega) hb, h, rd8_end (Nat.le_refl _)]
  rfl

theorem markerFetchOp_word (h : s.pos + 2 ≤ s.len) (hb : s.byteAt s.pos = 0xFF) :
    markerFetchOp s = .ok (s.byteAt (s.pos + 1)) (s.setPos (s.pos + 2)) := by
  rw [markerFetchOp_ff (by omega) hb, rd8_at h]

/-- SOI fetches a marker as the marker loop does, and then judges its second byte. -/
theorem soiOp_eq (s : State) :
    soiOp s = (markerFetchOp s).bind fun b t =>
      if b ≠ 0xD8 then fail (.malformedMarker (t.pos - 1) b) t else .ok () t := by
  rw [soiOp, markerFetchOp, Res.bind_assoc]
  congr 1
  funext b t
  split <;> rfl

theorem soiOp_word (h : s.pos + 2 ≤ s.len) (hb : s.byteAt s.pos = 0xFF) (hd : s.byteAt (s.pos + 1) = 0xD8) :
    soiOp s = .ok () (s.setPos (s.pos + 2)) := by
  rw [soiOp_eq, markerFetchOp_word h hb, Res.bind_ok, if_neg (not_not.mpr hd)]

/-- Settles O5: SOI's fetch in each case of MARKER_FETCH, then its judgement of the second byte. -/
theorem soiCheckCases : Obligations.SoiCheckCases := by
  intro s h0
  have hs : exec .soi s = (soiOp s).outcome := rfl
  rw [hs, soiOp_eq]
  refine ⟨fun hl => ?empty, fun hl hb => ?lead, fun hl hb => ?last, fun hl hb hd => ?wrong, fun hl hb hd => ?soi⟩
  case empty =>
    rw [markerFetchOp_past (by omega), h0]
    rfl
  case lead =>
    rw [markerFetchOp_lead (by omega) (h0 ▸ hb), h0]
    rfl
  case last =>
    have hm := markerFetchOp_last (s := s) (by omega) (h0 ▸ hb)
    rw [hl] at hm
    rw [hm]
    rfl
  case wrong =>
    rw [markerFetchOp_word (by omega) (h0 ▸ hb), h0, Res.bind_ok, if_pos hd]
    rfl
  case soi =>
    rw [← soiOp_eq, soiOp_word (by omega) (h0 ▸ hb) (h0 ▸ hd), h0]
    rfl

/-- Settles O6, one lemma on `markerFetchOp` per case. -/
theorem markerFetchCases : Obligations.MarkerFetchCases := by
  intro s
  have hs : exec .markerFetch s = (markerFetchOp s).outcomeRet Ret.marker := rfl
  rw [hs]
  refine ⟨fun h => ?past, fun h hb => ?lead, fun h hb => ?last, fun h hb => ?word, fun _ _ => rfl⟩
  case past => rw [markerFetchOp_past h, Res.outcomeRet_raised]
  case lead => rw [markerFetchOp_lead h hb, Res.outcomeRet_raised]; rfl
  case last => rw [markerFetchOp_last h hb, Res.outcomeRet_raised]; rfl
  case word => rw [markerFetchOp_word h hb, Res.outcomeRet_ok]; rfl

/-! ## SKIP -/

/-- Settles O7: the address is the one `skipEnd` finds, its search bounded by the bytes left. -/
theorem skipStopsAtNextMarker : Obligations.SkipStopsAtNextMarker := by
  intro s m hs
  obtain ⟨hle, hend, hrun, hff⟩ := skipEnd_spec s.mem (s.len - s.pos) s.pos
  exact ⟨_, rfl, hle, by omega, hrun, fun h => hff (by omega)⟩

/-! ## DISPATCH -/

/-- DISPATCH answers whether the marker byte was that of SOS, the phase as it was. -/
theorem dispatchOp_flag (m : Byte) (s : State) :
    (dispatchOp m s).Ends (fun d t => d = decide (m = 0xDA) ∧ t.phase = s.phase) fun t => t.phase = .fault := by
  have hr {r : Res Unit} {d : Bool} (h : r.Configures s) (hd : d = decide (m = 0xDA)) :
      (r.bind fun _ s => .ok d s).Ends (fun d t => d = decide (m = 0xDA) ∧ t.phase = s.phase)
        fun t => t.phase = .fault :=
    (h.imp (fun _ _ ht => ht.phase) fun _ ⟨_, _, _, _, ht⟩ => ht ▸ rfl).bind fun _ _ ht => ⟨hd, ht⟩
  rw [dispatchOp]
  split
  · subst m; exact hr (dqtOp_configured s) rfl
  split
  · subst m; exact hr (sof0Op_configured s) rfl
  split
  · subst m; exact hr (dhtOp_configured s) rfl
  split
  · subst m; exact hr (sosOp_configured s) rfl
  · rename_i hda
    exact hr (skipOp_configured m s) (decide_eq_false hda).symm

theorem dispatchOp_skip {m : Byte} (h : (Instr.skip m).wf = true) :
    dispatchOp m s = (skipOp m s).bind fun _ t => .ok false t := by
  obtain ⟨hdb, hc0, hc4, hda⟩ := skip_wf.mp h
  rw [dispatchOp, if_neg hdb, if_neg hc0, if_neg hc4, if_neg hda]

/-- Settles O8: the row of the marker byte is DISPATCH without its answer, which `dispatchOp_flag` gives. -/
theorem dispatchRunsTheHandler : Obligations.DispatchRunsTheHandler := by
  intro s m
  have hs : exec (.dispatch m) s = (dispatchOp m s).outcomeRet Ret.flag := rfl
  rw [exec_decodeMarkerByte, hs]
  refine ⟨fun hp => ?selected, fun hdb hc0 hc4 hda => ?skipped⟩
  case selected =>
    obtain ⟨t, ht, ⟨d, hd, rfl, hph⟩ | ⟨hd, hph⟩⟩ := (dispatchOp_flag m s).outcome
    · rw [hd]
      exact ⟨t, rfl, fun hf => absurd (hph.symm.trans hf) hp, fun _ => rfl⟩
    · rw [hd]
      exact ⟨t, rfl, fun _ => rfl, fun hf => absurd hph hf⟩
  case skipped =>
    rw [dispatchOp_skip (skip_wf.mpr ⟨hdb, hc0, hc4, hda⟩)]
    exact ⟨_, rfl, rfl⟩

/-! ## HEADER -/

/-- Settles O10: HEADER ends with the header configured or in a fault raised on the way. -/
theorem headerAlwaysEnds : Obligations.HeaderAlwaysEnds := by
  intro s
  obtain ⟨t, ht, ⟨_, -, hc⟩ | ⟨-, u, f, hu, -, rfl⟩⟩ := (headerOp_configured s).outcome
  · exact ⟨t, ht, .inl hc.phase, hc.forward.1⟩
  · exact ⟨u.raise f, ht, .inr rfl, hu.forward.1⟩

end markers

end Sys2Proof.Machine
end

section
/-! SUPPORT. HEADER on a listing (spec/30_encoding.md R99, spec/40_marker_dispatcher.md R110): each handler run on the
bytes of its line has the line's effect, and the marker loop runs the lines one after another. A handler is followed
with the stream fixed in `s` and the cursor at an address `p` of it. -/

namespace Sys2Proof
open Sys2Proof.Machine

/-! ## A line and its marker -/

/-- The marker byte that leads a line (R82). -/
def Item.marker : Item → Byte
  | .soi => 0xD8
  | .skip m _ => m
  | .dqt _ _ _ => 0xDB
  | .sof0 _ _ _ _ => 0xC0
  | .dht _ _ _ _ => 0xC4
  | .sos _ _ => 0xDA

theorem Item.bytes_eq (it : Item) : it.bytes = 0xFF :: it.marker :: it.payload := by
  cases it <;> rfl

/-- The bytes of a line are the two of its marker and its payload. -/
theorem Item.apply_eq (it : Item) (s : State) :
    it.apply s = (it.store s).setPos (s.pos + 2 + it.payload.length) := by
  rw [Item.apply, Item.bytes_eq, List.length_cons, List.length_cons, Nat.add_assoc s.pos, Nat.add_comm 2]

end Sys2Proof

namespace Sys2Proof.Machine

/-! ## Reading bytes the stream holds -/

section reading
variable {s : State} {p : Nat} {bs : List Byte}

theorem State.holds_tail {b : Byte} (h : s.holds p (b :: bs)) : s.holds (p + 1) bs := (State.holds_cons h).2.2

theorem State.holds_after_half {x : Half} (h : s.holds p (halfBytes x ++ bs)) : s.holds (p + 2) bs :=
  (State.holds_append h).2

theorem rd8_holds {b : Byte} (h : s.holds p (b :: bs)) : rd8 (s.setPos p) = .ok b (s.setPos (p + 1)) := by
  obtain ⟨hlen, rfl, -⟩ := State.holds_cons h
  exact rd8_at hlen

theorem rd16_holds {x : Half} (h : s.holds p (halfBytes x ++ bs)) :
    rd16 (s.setPos p) = .ok x (s.setPos (p + 2)) := by
  obtain ⟨-, hhi, h⟩ := State.holds_cons h
  obtain ⟨hlen, hlo, -⟩ := State.holds_cons h
  rw [rd16_at hlen, hhi, hlo, be16_halves]

theorem rdBytes_holds {n : Nat} (h : s.holds p bs) (hn : bs.length = n) :
    rdBytes n (s.setPos p) = .ok bs (s.setPos (p + n)) := by
  subst hn
  obtain ⟨hlen, hbs⟩ := h
  rw [rdBytes_at hlen, hbs]

theorem consume_holds {n : Nat} (h : s.holds p bs) (hn : bs.length = n) :
    consume n (s.setPos p) = .ok bs (s.setPos (p + n)) := by
  subst hn
  obtain ⟨hlen, hbs⟩ := h
  rw [consume_at hlen, hbs]

theorem State.holds_getElem {i : Nat} (h : s.holds p bs) (hi : i < bs.length) : s.byteAt (p + i) = bs[i] := by
  have hget := bytesFrom_get s p hi
  rw [h.2, List.getElem?_eq_getElem hi, Option.some_inj] at hget
  exact hget.symm

/-- What the header phase configures leaves the bytes of the stream. -/
theorem State.Configured.holds {t : State} {a : Nat} (hc : s.Configured t) (h : s.holds a bs) : t.holds a bs := by
  rw [hc.frame]
  exact h

end reading

section listing
variable {s : State} {p : Nat} {bs : List Byte}

/-! ## DQT -/

theorem ofByte_loByte {h : Half} (hh : h.toNat < 256) : ofByte (loByte h) = h := by
  apply BitVec.eq_of_toNat_eq
  have := h.isLt
  simp only [ofByte, loByte, BitVec.zeroExtend, BitVec.toNat_setWidth, BitVec.extractLsb'_toNat, Nat.shiftRight_zero]
  omega

theorem map_ofByte_map_loByte {q : List Half} (h : ∀ x ∈ q, x.toNat < 256) : (q.map loByte).map ofByte = q := by
  rw [List.map_map]
  exact (List.map_congr_left fun x hx => ofByte_loByte (h x hx)).trans (List.map_id' q)

theorem bePairs_flatMap_halfBytes (q : List Half) : bePairs (q.flatMap halfBytes) = q := by
  induction q with
  | nil => rfl
  | cons x q ih =>
    show be16 (hiByte x) (loByte x) :: bePairs (q.flatMap halfBytes) = x :: q
    rw [be16_halves, ih]

theorem quantBytes_length (pq : Nibble) (q : List Half) :
    (quantBytes pq q).length = if pq = 0 then q.length else 2 * q.length := by
  rw [quantBytes]
  split
  · rw [List.length_map]
  · simp [halfBytes, List.length_flatMap, Nat.mul_comm]

theorem dqtOp_listing {pq tq : Nibble} {q : List Half} (hwf : (Item.dqt pq tq q).wf = true)
    (h : s.holds p (Item.dqt pq tq q).payload) :
    dqtOp (s.setPos p) =
      .ok () (((Item.dqt pq tq q).store s).setPos (p + (Item.dqt pq tq q).payload.length)) := by
  simp only [Item.wf, Bool.and_eq_true, Bool.or_eq_true, beq_iff_eq, bne_iff_ne, List.all_eq_true,
    decide_eq_true_eq] at hwf
  obtain ⟨hq, hsmall⟩ := hwf
  have hlen := quantBytes_length pq q
  rw [Item.payload] at h
  have hpt := State.holds_after_half h
  have hd := State.holds_tail hpt
  have hn : (BitVec.ofNat 16 (3 + (quantBytes pq q).length)).toNat = 3 + (quantBytes pq q).length :=
    Nat.mod_eq_of_lt (by split at hlen <;> omega)
  have hp : p + 2 + 1 + (quantBytes pq q).length = p + (Item.dqt pq tq q).payload.length := by
    simp only [Item.payload, halfBytes, List.length_append, List.length_cons, List.length_nil]
    omega
  rw [dqtOp, rd16_holds h, Res.bind_ok, rd8_holds hpt, Res.bind_ok, hn, if_neg (by omega), Nat.add_sub_cancel_left,
    consume_holds hd rfl, Res.bind_ok, hiNibble_ofNibbles, loNibble_ofNibbles, hp]
  by_cases h0 : pq = 0
  · rw [if_pos h0] at hlen ⊢
    have hmap := map_ofByte_map_loByte (hsmall.resolve_left (not_not.mpr h0))
    rw [if_neg (by rw [hlen, hq]; decide), quantBytes, if_pos h0, hmap, Item.store, decide_eq_false (not_not.mpr h0)]
    rfl
  · rw [if_neg h0] at hlen ⊢
    rw [if_neg (by rw [hlen, hq]; decide), quantBytes, if_neg h0, bePairs_flatMap_halfBytes, Item.store,
      decide_eq_true h0]
    rfl

/-! ## SOF0 -/

theorem frameBytes_length (comps : List FrameEntry) : (frameBytes comps).length = 3 * comps.length := by
  simp [frameBytes, List.length_flatMap, Nat.mul_comm]

theorem sof0Entries_listing {comps : List FrameEntry} (h : s.holds p (frameBytes comps)) :
    sof0Entries comps.length (s.setPos p) =
      .ok () ((comps.foldl (fun s e => s.declare e.id (ofNibbles e.H e.V) e.tq) s).setPos (p + 3 * comps.length)) := by
  induction comps generalizing s p with
  | nil => rfl
  | cons e es ih =>
    have hhv := State.holds_tail h
    have htq := State.holds_tail hhv
    rw [List.length_cons, sof0Entries, rd8_holds h, Res.bind_ok, rd8_holds hhv, Res.bind_ok, rd8_holds htq, Res.bind_ok]
    have hes := ih (s := s.declare e.id (ofNibbles e.H e.V) e.tq) (State.holds_tail htq)
    rw [List.foldl_cons, show p + 3 * (es.length + 1) = p + 1 + 1 + 1 + 3 * es.length by omega]
    exact hes

theorem sof0Op_listing {x : Byte} {hgt wid : Half} {comps : List FrameEntry}
    (hwf : (Item.sof0 x hgt wid comps).wf = true) (h : s.holds p (Item.sof0 x hgt wid comps).payload) :
    sof0Op (s.setPos p) =
      .ok () (((Item.sof0 x hgt wid comps).store s).setPos (p + (Item.sof0 x hgt wid comps).payload.length)) := by
  have hc : comps.length < 256 := of_decide_eq_true hwf
  have hp : p + 2 + 1 + 2 + 2 + 1 + 3 * comps.length = p + (Item.sof0 x hgt wid comps).payload.length := by
    simp only [Item.payload, halfBytes, frameBytes_length, List.length_append, List.length_cons, List.length_nil]
    omega
  have hlf : (BitVec.ofNat 16 (8 + 3 * comps.length)).toNat = 8 + 3 * comps.length := Nat.mod_eq_of_lt (by omega)
  have hnf : (BitVec.ofNat 8 comps.length).toNat = comps.length := Nat.mod_eq_of_lt hc
  rw [Item.payload, List.append_assoc] at h
  have hx := State.holds_after_half h
  have hy := State.holds_tail hx
  have hw := State.holds_after_half hy
  have hn := State.holds_after_half hw
  rw [sof0Op, rd16_holds h, Res.bind_ok, rd8_holds hx, Res.bind_ok, rd16_holds hy, Res.bind_ok, rd16_holds hw,
    Res.bind_ok, rd8_holds hn, Res.bind_ok, hlf, hnf, if_neg (by omega), ← hp]
  exact sof0Entries_listing (s := s.setImg (some ⟨wid, hgt⟩)) (State.holds_tail hn)

/-! ## DHT -/

theorem classBit_classByte (c : HuffClass) (t : Nibble) : classBit (classByte c t) = c := by
  revert t
  cases c <;> decide

theorem loNibble_classByte (c : HuffClass) (t : Nibble) : loNibble (classByte c t) = t := by
  cases c
  · exact loNibble_ofNibbles 0 t
  · exact loNibble_ofNibbles 1 t

theorem dhtOp_listing {tc : HuffClass} {th : Nibble} {counts syms : List Byte}
    (hseg : (Item.dht tc th counts syms).Segment) (h : s.holds p (Item.dht tc th counts syms).payload) :
    dhtOp (s.setPos p) =
      .ok () (((Item.dht tc th counts syms).store s).setPos (p + (Item.dht tc th counts syms).payload.length)) := by
  obtain ⟨hwf, map, hmap⟩ := hseg
  simp only [Item.wf, Bool.and_eq_true, beq_iff_eq] at hwf
  obtain ⟨hc, hs⟩ := hwf
  have htot := countsTotal_le counts
  have hp : p + 2 + 1 + 16 + countsTotal counts = p + (Item.dht tc th counts syms).payload.length := by
    simp only [Item.payload, halfBytes, hc, hs, List.length_append, List.length_cons, List.length_nil]
    omega
  have hlh : (BitVec.ofNat 16 (19 + countsTotal counts)).toNat = 19 + countsTotal counts :=
    Nat.mod_eq_of_lt (by omega)
  have ht := State.holds_after_half h
  obtain ⟨hcounts, hsyms⟩ := State.holds_append (State.holds_tail ht)
  rw [hc] at hsyms
  rw [dhtOp, rd16_holds h, Res.bind_ok, rd8_holds ht, Res.bind_ok, rdBytes_holds hcounts hc, Res.bind_ok, hlh,
    if_neg (by omega), consume_holds hsyms hs, Res.bind_ok, hp, Item.store]
  simp only [hmap, classBit_classByte, loNibble_classByte]
  cases tc <;> rfl

/-! ## SOS -/

theorem scanBytes_length (comps : List ScanEntry) : (scanBytes comps).length = 2 * comps.length := by
  simp [scanBytes, List.length_flatMap, Nat.mul_comm]

theorem select_of_compAt {e : ScanEntry} {c : Component} (h : s.compAt e.id.toNat = some c) :
    s.select e = s.putComp e.id { c with sel := some ⟨e.td, e.ta⟩ } := by
  rw [State.select]
  simp only [h]

/-- Binding a selector declares no component and drops none. -/
theorem compValid_select (e : ScanEntry) (s : State) (id : Byte) : (s.select e).compValid id = s.compValid id :=
  compAt_select_fold_isSome [e] s id.toNat

theorem sosEntries_listing {comps : List ScanEntry} (hdecl : ∀ e ∈ comps, s.compValid e.id = true)
    (h : s.holds p (scanBytes comps)) :
    sosEntries comps.length (s.setPos p) =
      .ok () ((comps.foldl (fun s e => s.select e) s).setPos (p + 2 * comps.length)) := by
  induction comps generalizing s p with
  | nil => rfl
  | cons e es ih =>
    obtain ⟨he, hes⟩ := List.forall_mem_cons.mp hdecl
    obtain ⟨c, hc⟩ := Option.isSome_iff_exists.mp he
    have hsel := select_of_compAt hc
    have hb := State.holds_tail h
    have hrest := State.holds_tail hb
    have hkeep : (s.select e).holds (p + 1 + 1) (scanBytes es) := by rw [hsel]; exact hrest
    have hrun := ih (s := s.select e) (fun x hx => (compValid_select e s x.id).trans (hes x hx)) hkeep
    have hcp : (s.setPos (p + 1 + 1)).compAt e.id.toNat = some c := hc
    rw [List.length_cons, sosEntries, rd8_holds h, Res.bind_ok, rd8_holds hb, Res.bind_ok]
    simp only [hcp, hiNibble_ofNibbles, loNibble_ofNibbles]
    rw [List.foldl_cons, show p + 2 * (es.length + 1) = p + 1 + 1 + 2 * es.length by omega, ← hrun, hsel]
    rfl

theorem sosOp_listing {comps : List ScanEntry} {tail : List Byte} (hwf : (Item.sos comps tail).wf = true)
    (hdecl : ∀ e ∈ comps, s.compValid e.id = true) (h : s.holds p (Item.sos comps tail).payload) :
    sosOp (s.setPos p) =
      .ok () (((Item.sos comps tail).store s).setPos (p + (Item.sos comps tail).payload.length)) := by
  simp only [Item.wf, Bool.and_eq_true, decide_eq_true_eq] at hwf
  obtain ⟨hc, hl⟩ := hwf
  have hp : p + 2 + 1 + 2 * comps.length + tail.length = p + (Item.sos comps tail).payload.length := by
    simp only [Item.payload, halfBytes, scanBytes_length, List.length_append, List.length_cons, List.length_nil]
    omega
  have hls : (BitVec.ofNat 16 (3 + 2 * comps.length + tail.length)).toNat = 3 + 2 * comps.length + tail.length :=
    Nat.mod_eq_of_lt hl
  have hns : (BitVec.ofNat 8 comps.length).toNat = comps.length := Nat.mod_eq_of_lt hc
  have hn := State.holds_after_half h
  obtain ⟨hentries, htail⟩ := State.holds_append (State.holds_tail hn)
  rw [scanBytes_length] at htail
  have hkeep : (comps.foldl (fun s e => s.select e) s).holds (p + 2 + 1 + 2 * comps.length) tail := by
    rw [select_fold_frame]; exact htail
  rw [sosOp, rd16_holds h, Res.bind_ok, rd8_holds hn, Res.bind_ok, hns, sosEntries_listing hdecl hentries, Res.bind_ok,
    hls, if_neg (by omega), show 3 + 2 * comps.length + tail.length - 3 - 2 * comps.length = tail.length by omega,
    consume_holds hkeep rfl, Res.bind_ok, hp]
  rfl

/-! ## SKIP -/

/-- A run without `FF` before an `FF` is skipped whole. -/
theorem skipEnd_run {run : List Byte} (hrun : ∀ b ∈ run, b ≠ 0xFF) (h : s.holds p (run ++ 0xFF :: bs)) :
    skipEnd s.mem (s.len - p) p = p + run.length := by
  obtain ⟨hr, hff⟩ := State.holds_append h
  obtain ⟨hlen, hff, -⟩ := State.holds_cons hff
  obtain ⟨hle, -, hbefore, hat⟩ := skipEnd_spec s.mem (s.len - p) p
  rcases Nat.lt_trichotomy (skipEnd s.mem (s.len - p) p) (p + run.length) with hlt | heq | hgt
  · have hi : skipEnd s.mem (s.len - p) p - p < run.length := by omega
    have hbyte := State.holds_getElem hr hi
    rw [Nat.add_sub_cancel' hle] at hbyte
    exact absurd (hbyte.symm.trans (hat (by omega))) (hrun _ (List.getElem_mem hi))
  · exact heq
  · exact absurd hff (hbefore _ (Nat.le_add_right ..) hgt)

theorem skipOp_listing {m : Byte} {run : List Byte} (hwf : (Item.skip m run).wf = true)
    (h : s.holds p (run ++ 0xFF :: bs)) :
    skipOp m (s.setPos p) = .ok () (((Item.skip m run).store s).setPos (p + run.length)) := by
  simp only [Item.wf, Bool.and_eq_true, List.all_eq_true, bne_iff_ne] at hwf
  have hend := skipEnd_run hwf.2 h
  have hbytes : s.bytesFrom p run.length = run := (State.holds_append h).1.2
  simp only [skipOp, State.setPos_mem, State.setPos_len, State.setPos_pos, hend, State.bytesFrom_setPos,
    Nat.add_sub_cancel_left, hbytes]
  rfl

/-! ## A line of the listing -/

/-- A line at the cursor: its marker is fetched, and behind it lie its payload and what follows. -/
theorem markerFetchOp_listing {it : Item} (h : s.holds s.pos (it.bytes ++ bs)) :
    markerFetchOp s = .ok it.marker (s.setPos (s.pos + 2)) := by
  rw [Item.bytes_eq] at h
  obtain ⟨-, hff, h⟩ := State.holds_cons h
  obtain ⟨hlen, hm, -⟩ := State.holds_cons h
  rw [markerFetchOp_word hlen hff, hm]

theorem holds_payload {it : Item} (h : s.holds s.pos (it.bytes ++ bs)) : s.holds (s.pos + 2) (it.payload ++ bs) := by
  rw [Item.bytes_eq] at h
  exact State.holds_tail (State.holds_tail h)

/-- DISPATCH on the marker of a segment at the cursor, an `FF` behind the segment, has the segment's effect. -/
theorem dispatchOp_segment {it : Item} (hit : it.Segment) (h : s.holds s.pos (it.bytes ++ 0xFF :: bs)) :
    dispatchOp it.marker (s.setPos (s.pos + 2)) = .ok false (it.apply s) := by
  have hrun := holds_payload h
  have hpay := (State.holds_append hrun).1
  rw [Item.apply_eq]
  cases it with
  | soi => exact hit.elim
  | skip m run =>
    have hm : (Instr.skip m).wf = true := (Bool.and_eq_true_iff.mp hit).1
    rw [Item.marker, dispatchOp_skip hm, skipOp_listing hit hrun, Res.bind_ok]
    rfl
  | dqt pq tq q => rw [Item.marker, dispatchOp, if_pos rfl, dqtOp_listing hit hpay, Res.bind_ok]
  | sof0 x hgt wid comps =>
    rw [Item.marker, dispatchOp, if_neg (by decide), if_pos rfl, sof0Op_listing hit hpay, Res.bind_ok]
  | dht tc th counts syms =>
    rw [Item.marker, dispatchOp, if_neg (by decide), if_neg (by decide), if_pos rfl, dhtOp_listing hit hpay, Res.bind_ok]
  | sos comps tail => exact hit.elim

theorem dispatchOp_sos {comps : List ScanEntry} {tail : List Byte} (hwf : (Item.sos comps tail).wf = true)
    (hdecl : ∀ e ∈ comps, s.compValid e.id = true) (h : s.holds s.pos ((Item.sos comps tail).bytes ++ bs)) :
    dispatchOp 0xDA (s.setPos (s.pos + 2)) = .ok true ((Item.sos comps tail).apply s) := by
  have hpay := (State.holds_append (holds_payload h)).1
  rw [Item.apply_eq, dispatchOp, if_neg (by decide), if_neg (by decide), if_neg (by decide), if_pos rfl,
    sosOp_listing hwf hdecl hpay, Res.bind_ok]

/-- A segment leaves the bytes behind it. -/
theorem holds_apply {it : Item} (hit : it.Segment) (h : s.holds s.pos (it.bytes ++ 0xFF :: bs)) :
    (it.apply s).holds (it.apply s).pos (0xFF :: bs) ∧ (it.apply s).len = s.len := by
  have hends := dispatchOp_configured it.marker (s.setPos (s.pos + 2))
  rw [dispatchOp_segment hit h] at hends
  have hc : (s.setPos (s.pos + 2)).Configured (it.apply s) := hends
  exact ⟨hc.holds (State.holds_append h).2, hc.len⟩

/-! ## The marker loop -/

/-- A header's lines after SOI begin with the `FF` of a marker, where a skipped run before them ends (R114). -/
theorem listing_head (segs : List Item) (last : Item) :
    ∃ rest, segs.flatMap Item.bytes ++ last.bytes = 0xFF :: rest := by
  cases segs with
  | nil => exact ⟨_, Item.bytes_eq last⟩
  | cons it its => exact ⟨_, by rw [List.flatMap_cons, Item.bytes_eq it]; rfl⟩

/-- The marker loop runs the lines one after another; each takes two bytes, so the bound outlasts them (R262). -/
theorem markerLoop_listing {segs : List Item} {comps : List ScanEntry} {tail : List Byte} {n : Nat}
    (hseg : ∀ it ∈ segs, it.Segment) (hwf : (Item.sos comps tail).wf = true)
    (hdecl : ∀ e ∈ comps, (segs.foldl (fun s it => it.apply s) s).compValid e.id = true)
    (h : s.holds s.pos (segs.flatMap Item.bytes ++ (Item.sos comps tail).bytes)) (hn : s.len - s.pos < n) :
    markerLoop n s = .ok () ((Item.sos comps tail).apply (segs.foldl (fun s it => it.apply s) s)) := by
  induction segs generalizing s n with
  | nil =>
    obtain ⟨n, rfl⟩ := Nat.exists_eq_succ_of_ne_zero (Nat.ne_zero_of_lt hn)
    have hsos : s.holds s.pos ((Item.sos comps tail).bytes ++ []) := by rwa [List.append_nil]
    rw [markerLoop, markerFetchOp_listing hsos, Res.bind_ok, Item.marker, dispatchOp_sos (s := s) hwf hdecl hsos,
      Res.bind_ok, if_pos rfl, List.foldl_nil]
  | cons it its ih =>
    obtain ⟨n, rfl⟩ := Nat.exists_eq_succ_of_ne_zero (Nat.ne_zero_of_lt hn)
    obtain ⟨hit, hits⟩ := List.forall_mem_cons.mp hseg
    obtain ⟨rest, hrest⟩ := listing_head its (.sos comps tail)
    rw [List.flatMap_cons, List.append_assoc, hrest] at h
    obtain ⟨hnext, hlen⟩ := holds_apply hit h
    have hpos : (it.apply s).pos = s.pos + 2 + it.payload.length := by rw [Item.apply_eq, State.setPos_pos]
    have hle := h.1
    rw [List.length_append, Item.bytes_eq, List.length_cons] at hle
    rw [markerLoop, markerFetchOp_listing h, Res.bind_ok, dispatchOp_segment hit h, Res.bind_ok, if_neg (by decide),
      List.foldl_cons]
    exact ih hits hdecl (hrest ▸ hnext) (by omega)

/-- SOI at the cursor has the effect of its line. -/
theorem soiOp_listing (h : s.holds s.pos (Item.soi.bytes ++ bs)) : soiOp s = .ok () (Item.soi.apply s) := by
  obtain ⟨-, hff, h⟩ := State.holds_cons h
  obtain ⟨hlen, hd8, -⟩ := State.holds_cons h
  exact soiOp_word hlen hff hd8

end listing

/-- Settles O9: SOI, then the marker loop over the segments and SOS, by induction on the segments. -/
theorem headerRunsTheListing : Obligations.HeaderRunsTheListing := by
  intro s segs comps tail hseg hwf hdecl h
  rw [headerBytes, List.append_assoc] at h
  have hlines : (Item.soi.apply s).holds (Item.soi.apply s).pos
      (segs.flatMap Item.bytes ++ (Item.sos comps tail).bytes) := (State.holds_append h).2
  have hrun : headerOp s = .ok () (afterHeader segs comps tail s) := by
    rw [headerOp, soiOp_listing h, Res.bind_ok]
    exact markerLoop_listing hseg hwf hdecl hlines (by have := hlines.1; omega)
  show (headerOp s).outcome = _
  rw [hrun, Res.outcome_ok]

end Sys2Proof.Machine
end

section
/-! SUPPORT. DQT by the bytes at the cursor (spec/41_dqt.md R125 to R128): what the segment's length and its second
field make of it, and the two statements of the family. -/

namespace Sys2Proof.Machine

section dqt
variable {s : State} {n : Nat}

/-! ## The forms of a segment -/

/-- The declared length of a DQT segment with one table of 64 entries, by its byte `Pq/Tq` (R125). -/
def dqtLength (pt : Byte) : Nat := if hiNibble pt = 0 then 67 else 131

/-- The table that the payload `d` of a DQT segment holds, by its byte `Pq/Tq` (R125). -/
def dqtTable (pt : Byte) (d : List Byte) : QuantTable :=
  if hiNibble pt = 0 then ⟨false, d.map ofByte⟩ else ⟨true, bePairs d⟩

theorem dqtTable_bytes {pt : Byte} (h : hiNibble pt = 0) (d : List Byte) : dqtTable pt d = ⟨false, d.map ofByte⟩ :=
  if_pos h

theorem dqtTable_pairs {pt : Byte} (h : hiNibble pt ≠ 0) (d : List Byte) : dqtTable pt d = ⟨true, bePairs d⟩ :=
  if_neg h

/-! ## DQT, case by case -/

/-- The stream ends inside the length or before `Pq/Tq`. -/
theorem dqtOp_missing (h : s.pos ≤ s.len) (h3 : s.len < s.pos + 3) :
    dqtOp s = .raised ((s.setPos s.len).raise (.unexpectedEndOfStream s.len)) := by
  rcases Nat.lt_or_ge s.len (s.pos + 2) with h2 | h2
  · rw [dqtOp, rd16_end h h2, Res.bind_raised]
  · have hlen : s.pos + 2 = s.len := by omega
    rw [dqtOp, rd16_ok h2, Res.bind_ok, hlen, rd8_end (Nat.le_refl _), Res.bind_raised]
    rfl

section header
variable (h : s.pos + 3 ≤ s.len) (hn : (be16 (s.byteAt s.pos) (s.byteAt (s.pos + 1))).toNat = n)
include h hn

theorem dqtOp_short (hlt : n < 3) :
    dqtOp s = .raised ((s.setPos (s.pos + 3)).raise (.invalidSegmentLength (s.pos + 3) n)) := by
  rw [dqtOp, rd16_ok (by omega), Res.bind_ok, rd8_at h, Res.bind_ok, hn, if_pos hlt]
  rfl

theorem dqtOp_cut (hge : 3 ≤ n) (hend : s.len < s.pos + n) :
    dqtOp s = .raised ((s.setPos (s.pos + 3)).raise (.unexpectedEndOfStream s.len)) := by
  rw [dqtOp, rd16_ok (by omega), Res.bind_ok, rd8_at h, Res.bind_ok, hn, if_neg (by omega),
    consume_at_end (by omega), Res.bind_raised]

end header

/-- A segment inside the stream loads its table when its length is the one of its form, and is refused behind its
payload otherwise. -/
theorem dqtOp_whole (hn : (be16 (s.byteAt s.pos) (s.byteAt (s.pos + 1))).toNat = n) (hge : 3 ≤ n)
    (hend : s.pos + n ≤ s.len) :
    dqtOp s =
      if n = dqtLength (s.byteAt (s.pos + 2)) then
        .ok () ((s.putQt (loNibble (s.byteAt (s.pos + 2)))
          (dqtTable (s.byteAt (s.pos + 2)) (s.bytesFrom (s.pos + 3) (n - 3)))).setPos (s.pos + n))
      else .raised ((s.setPos (s.pos + n)).raise (.invalidSegmentLength (s.pos + n) n)) := by
  have hp : s.pos + 3 + (n - 3) = s.pos + n := by omega
  rw [dqtOp, rd16_ok (by omega), Res.bind_ok, rd8_at (by omega), Res.bind_ok, hn, if_neg (by omega),
    consume_at (by omega), Res.bind_ok, hp, dqtLength, dqtTable]
  by_cases h0 : hiNibble (s.byteAt (s.pos + 2)) = 0
  · by_cases h67 : n = 67
    · simp only [h0, h67, if_true]
      rfl
    · have hsize : n - 3 ≠ Config.quantEntries := by rw [Config.quantEntries]; omega
      simp only [h0, h67, hsize, if_true, if_false, ne_eq, not_false_eq_true]
      rfl
  · by_cases h131 : n = 131
    · simp only [h0, h131, if_true, if_false]
      rfl
    · have hsize : n - 3 ≠ 2 * Config.quantEntries := by rw [Config.quantEntries]; omega
      simp only [h0, h131, hsize, if_true, if_false, ne_eq, not_false_eq_true]
      rfl

end dqt

/-! ## The entries of a table -/

theorem ofByte_toNat (b : Byte) : (ofByte b).toNat = b.toNat := BitVec.toNat_setWidth_of_le (by decide)

/-- An entry of the 8-bit form is the byte of the stream at its place (R126). -/
theorem map_ofByte_entry (s : State) (p : Nat) {m i : Nat} (h : i < m) :
    (((s.bytesFrom p m).map ofByte).getD i 0).toNat = (s.byteAt (p + i)).toNat := by
  rw [List.getD_eq_getElem?_getD, List.getElem?_map, bytesFrom_get s p h]
  exact ofByte_toNat _

/-- An entry of the 16-bit form is the big-endian pair of the stream at its place (R126). -/
theorem bePairs_entry (s : State) (p : Nat) {m i : Nat} (h : 2 * i + 1 < m) :
    ((bePairs (s.bytesFrom p m)).getD i 0).toNat =
      256 * (s.byteAt (p + 2 * i)).toNat + (s.byteAt (p + 2 * i + 1)).toNat := by
  rw [List.getD_eq_getElem?_getD, bePairs_get _ i (by rwa [bytesFrom_length]), bytesFrom_getD s p (by omega),
    bytesFrom_getD s p h]
  exact be16_toNat _ _

/-! ## The statements -/

/-- A segment inside the stream of the length of its form leaves the table in its slot, the other slots and all other
state as they were (R125, R128). -/
theorem execDqt_loads {s : State} {n : Nat} (hn : (be16 (s.byteAt s.pos) (s.byteAt (s.pos + 1))).toNat = n)
    (hform : n = dqtLength (s.byteAt (s.pos + 2))) (hend : s.pos + n ≤ s.len) :
    ∃ t, exec .dqt s = .next t ∧ t = { s with pos := s.pos + n, qt := t.qt } ∧
      t.qtAt (loNibble (s.byteAt (s.pos + 2))).toNat =
        some (dqtTable (s.byteAt (s.pos + 2)) (s.bytesFrom (s.pos + 3) (n - 3))) ∧
      ∀ u, u ≠ (loNibble (s.byteAt (s.pos + 2))).toNat → t.qtAt u = s.qtAt u := by
  have hge : 3 ≤ n := by rw [hform, dqtLength]; split <;> omega
  have hrun : exec .dqt s = (dqtOp s).outcome := rfl
  rw [hrun, dqtOp_whole hn hge hend, if_pos hform]
  exact ⟨_, rfl, rfl, (State.qtAt_putQt ..).trans (if_pos rfl), fun u hu => (State.qtAt_putQt ..).trans (if_neg hu)⟩

/-- Settles O11: `execDqt_loads` for the two forms, with the entries of each. -/
theorem dqtLoadsATable : Obligations.DqtLoadsATable := by
  rintro s _ rfl
  refine ⟨fun h0 hhi hlo hend => ?bytes, fun h0 hhi hlo hend => ?pairs⟩
  case bytes =>
    obtain ⟨t, hrun, hframe, hslot, hother⟩ :=
      execDqt_loads (n := 67) (by rw [hhi, hlo]; decide) (if_pos h0).symm hend
    rw [dqtTable_bytes h0] at hslot
    exact ⟨t, _, hrun, hframe, hslot, by rw [List.length_map, bytesFrom_length],
      fun i hi => map_ofByte_entry s _ hi, hother⟩
  case pairs =>
    obtain ⟨t, hrun, hframe, hslot, hother⟩ :=
      execDqt_loads (n := 131) (by rw [hhi, hlo]; decide) (if_neg h0).symm hend
    rw [dqtTable_pairs h0] at hslot
    refine ⟨t, _, hrun, hframe, hslot, by rw [bePairs_length, bytesFrom_length], fun i hi => ?_, hother⟩
    rw [bePairs_entry s _ (by omega), show s.pos + 3 + 2 * i + 1 = s.pos + 4 + 2 * i by omega]

/-- Settles O12: the length and `Pq/Tq` missing, a length below 3, a payload the stream cuts, a payload of another
size. -/
theorem dqtFaultOrder : Obligations.DqtFaultOrder := by
  intro s lq hlq
  have hn : (be16 (s.byteAt s.pos) (s.byteAt (s.pos + 1))).toNat = lq := by rw [be16_toNat, hlq]
  have hrun : exec .dqt s = (dqtOp s).outcome := rfl
  rw [hrun]
  refine ⟨fun h h3 => ?missing, fun h hlt => ?short, fun h hge hend => ?cut, fun hend hge hform => ?size⟩
  case missing => rw [dqtOp_missing h h3]; rfl
  case short => rw [dqtOp_short h hn hlt]; rfl
  case cut => rw [dqtOp_cut h hn hge hend]; rfl
  case size => rw [dqtOp_whole hn hge hend, dqtLength, if_neg hform]; rfl

end Sys2Proof.Machine
end

section
/-! SUPPORT. SOF0 by the bytes at the cursor (spec/42_sof0.md R135, R136): the eight bytes before the entries and the
judgement of the length, the components the entries declare, and the two statements of the family. -/

namespace Sys2Proof.Machine

section sof0
variable {s : State} {p n : Nat}

/-! ## The component entries -/

/-- The `i`-th component entry of three bytes from `p` on: the id, the byte `H/V`, the table id (R135). -/
def State.frameEntryAt (s : State) (p i : Nat) : Byte × Byte × Byte :=
  (s.byteAt (p + 3 * i), s.byteAt (p + 1 + 3 * i), s.byteAt (p + 2 + 3 * i))

/-- The state after the `n` component entries from `p` on, the cursor as it was. -/
def State.declareFrom (s : State) (p n : Nat) : State :=
  ((List.range n).map (s.frameEntryAt p)).foldl (fun s e => s.declare e.1 e.2.1 e.2.2) s

theorem State.declareFrom_succ (s : State) (p n : Nat) :
    s.declareFrom p (n + 1) = (s.declareFrom p n).declare (s.byteAt (p + 3 * n)) (s.byteAt (p + 1 + 3 * n))
      (s.byteAt (p + 2 + 3 * n)) := by
  rw [declareFrom, List.range_succ, List.map_append, List.foldl_append]
  rfl

/-- The entries write `comp` alone. -/
theorem State.declareFrom_frame (s : State) (p n : Nat) :
    s.declareFrom p n = s.setComp (s.declareFrom p n).comp := declare_fold_frame _ s

/-- The last entry of a run, split off. -/
theorem sof0Entries_succ (n : Nat) (s : State) :
    sof0Entries (n + 1) s = (sof0Entries n s).bind fun _ t => sof0Entries 1 t := by
  induction n generalizing s with
  | zero => rfl
  | succ n ih =>
    rw [sof0Entries]
    conv_rhs => rw [sof0Entries]
    simp only [ih, Res.bind_assoc]

theorem sof0Entries_one (h : p + 3 ≤ s.len) :
    sof0Entries 1 (s.setPos p) =
      .ok () ((s.declare (s.byteAt p) (s.byteAt (p + 1)) (s.byteAt (p + 2))).setPos (p + 3)) := by
  rw [sof0Entries, rd8_at (by omega), Res.bind_ok, rd8_at (by omega), Res.bind_ok, rd8_at (by omega), Res.bind_ok]
  rfl

theorem sof0Entries_whole (h : p + 3 * n ≤ s.len) :
    sof0Entries n (s.setPos p) = .ok () ((s.declareFrom p n).setPos (p + 3 * n)) := by
  induction n with
  | zero => rfl
  | succ n ih =>
    have hone : p + 3 * n + 3 ≤ (s.declareFrom p n).len := by rw [s.declareFrom_frame p n]; exact h
    have hbyte (a : Nat) : (s.declareFrom p n).byteAt a = s.byteAt a := by rw [s.declareFrom_frame p n]; rfl
    rw [sof0Entries_succ, ih (by omega), Res.bind_ok, sof0Entries_one hone, hbyte, hbyte, hbyte, s.declareFrom_succ,
      Nat.add_right_comm p 1, Nat.add_right_comm p 2]
    rfl

/-! ## What the entries declare -/

theorem State.compAt_declare (c hv tq : Byte) (s : State) (j : Nat) :
    (s.declare c hv tq).compAt j =
      if j = c.toNat then some ⟨hiNibble hv, loNibble hv, tq, (s.compAt j).bind Component.sel⟩ else s.compAt j := by
  rw [declare, compAt_putComp]
  split
  · next hj => rw [hj]
  · rfl

/-- Declaring a component keeps every selector, that of a component without an entry being none (R136). -/
theorem State.sel_declareFrom (s : State) (p n j : Nat) :
    ((s.declareFrom p n).compAt j).bind Component.sel = (s.compAt j).bind Component.sel := by
  induction n with
  | zero => rfl
  | succ n ih =>
    rw [declareFrom_succ, compAt_declare]
    split <;> exact ih

theorem State.compAt_declareFrom_unlisted {id : Nat} (h : ∀ i, i < n → (s.byteAt (p + 3 * i)).toNat ≠ id) :
    (s.declareFrom p n).compAt id = s.compAt id := by
  induction n with
  | zero => rfl
  | succ n ih =>
    rw [declareFrom_succ, compAt_declare, if_neg (h n (Nat.lt_succ_self n)).symm]
    exact ih fun i hi => h i (Nat.lt_succ_of_lt hi)

/-- An entry that no later one of the same id follows is what stands declared (R136). -/
theorem State.compAt_declareFrom_last {i : Nat} (hi : i < n)
    (hlast : ∀ j, i < j → j < n → s.byteAt (p + 3 * j) ≠ s.byteAt (p + 3 * i)) :
    (s.declareFrom p n).compAt (s.byteAt (p + 3 * i)).toNat =
      some ⟨hiNibble (s.byteAt (p + 1 + 3 * i)), loNibble (s.byteAt (p + 1 + 3 * i)), s.byteAt (p + 2 + 3 * i),
        (s.compAt (s.byteAt (p + 3 * i)).toNat).bind Component.sel⟩ := by
  induction n with
  | zero => exact absurd hi (Nat.not_lt_zero i)
  | succ n ih =>
    rw [declareFrom_succ, compAt_declare]
    rcases Nat.lt_succ_iff_lt_or_eq.mp hi with hlt | rfl
    · have hne : (s.byteAt (p + 3 * i)).toNat ≠ (s.byteAt (p + 3 * n)).toNat := fun he =>
        hlast n hlt (Nat.lt_succ_self n) (BitVec.eq_of_toNat_eq he.symm)
      rw [if_neg hne]
      exact ih hlt fun j hj hjn => hlast j hj (Nat.lt_succ_of_lt hjn)
    · rw [if_pos rfl, sel_declareFrom]

/-! ## The segment -/

/-- The image size of the SOF0 segment from `p` on: the height stands before the width (R135). -/
def State.frameImageAt (s : State) (p : Nat) : Image :=
  ⟨be16 (s.byteAt (p + 5)) (s.byteAt (p + 6)), be16 (s.byteAt (p + 3)) (s.byteAt (p + 4))⟩

/-- The eight bytes before the entries, and the judgement of the length by the count (R135). -/
theorem sof0Op_header {lf : Nat} (h : s.pos + 8 ≤ s.len)
    (hlf : (be16 (s.byteAt s.pos) (s.byteAt (s.pos + 1))).toNat = lf) (hn : (s.byteAt (s.pos + 7)).toNat = n) :
    sof0Op s =
      if lf = 8 + 3 * n then sof0Entries n ((s.setImg (some (s.frameImageAt s.pos))).setPos (s.pos + 8))
      else .raised ((s.setPos (s.pos + 8)).raise (.componentCountMismatch (s.pos + 8) lf n)) := by
  rw [sof0Op, rd16_ok (by omega), Res.bind_ok, rd8_at (by omega), Res.bind_ok, rd16_at (by omega), Res.bind_ok,
    rd16_at (by omega), Res.bind_ok, rd8_at h, Res.bind_ok, hlf, hn]
  by_cases he : lf = 8 + 3 * n
  · rw [if_pos he, if_neg (by omega)]
    rfl
  · rw [if_neg he, if_pos (by omega)]
    rfl

theorem sof0Op_whole (hlf : (be16 (s.byteAt s.pos) (s.byteAt (s.pos + 1))).toNat = 8 + 3 * n)
    (hn : (s.byteAt (s.pos + 7)).toNat = n) (hend : s.pos + 8 + 3 * n ≤ s.len) :
    sof0Op s =
      .ok () (((s.setImg (some (s.frameImageAt s.pos))).declareFrom (s.pos + 8) n).setPos (s.pos + 8 + 3 * n)) := by
  rw [sof0Op_header (by omega) hlf hn, if_pos rfl]
  exact sof0Entries_whole hend

end sof0

/-! ## The statements -/

/-- Settles O13: the length passes the judgement, and the entries declare the components. -/
theorem sofDeclaresComponents : Obligations.SofDeclaresComponents := by
  intro s n hn hlf hend
  have hrun : exec .sof0 s = (sof0Op s).outcome := rfl
  rw [hrun, sof0Op_whole ((be16_toNat ..).trans hlf) hn.symm hend]
  let sized := s.setImg (some (s.frameImageAt s.pos))
  exact ⟨_, rfl, congrArg (State.setPos _) (sized.declareFrom_frame ..),
    fun i hi hlast => State.compAt_declareFrom_last (s := sized) hi hlast,
    fun id hid => State.compAt_declareFrom_unlisted (s := sized) hid⟩

/-- Settles O14: the length fails the judgement. -/
theorem sofCountMismatch : Obligations.SofCountMismatch := by
  intro s lf nf hlf hnf hend hne
  have hrun : exec .sof0 s = (sof0Op s).outcome := rfl
  rw [hrun, sof0Op_header hend ((be16_toNat ..).trans hlf.symm) hnf.symm, if_neg hne]
  rfl

end Sys2Proof.Machine
end

section
/-! SUPPORT. The table BuildCodes returns, in closed form (spec/43_dht.md R146 to R152): it is built exactly when the
Kraft sum leaves room, its keys are the canonical ones, and none of its codes begins another, whatever symbols the keys
are paired with. -/

namespace Sys2Proof.Machine

section canonical
variable {counts syms : List Byte} {map : List HuffEntry} {keys : List CodeKey} {n k : Nat}

/-! ## What the codes of each length are and take -/

/-- The keys of length `n + 1` of the closed form of R146. -/
def keysOfLength (counts : List Byte) (n : Nat) : List CodeKey :=
  (List.range (countAt counts n)).map fun j => (n + 1, firstCode counts n + j)

/-- How many of the `2^16` strings of 16 bits begin with a code of length `n + 1` (R152). -/
def kraftTerm (counts : List Byte) (n : Nat) : Nat := countAt counts n * 2 ^ (15 - n)

/-- How many strings of 17 bits lie below the first code of length `n + 1` or begin with a code of one of the `k` lengths
from there on, where `n + k = 16`. A 17th bit is counted because the running code is doubled once more behind the codes
of length 16 (R146). -/
def kraftFrom (counts : List Byte) (n k : Nat) : Nat :=
  firstCode counts n * 2 ^ k + 2 * ((List.range' n k).map (kraftTerm counts)).sum

theorem canonicalKeys_eq (counts : List Byte) :
    canonicalKeys counts = (List.range' 0 16).flatMap (keysOfLength counts) := rfl

theorem kraftSum_eq (counts : List Byte) : kraftSum counts = ((List.range' 0 16).map (kraftTerm counts)).sum := rfl

theorem kraftFrom_first (counts : List Byte) : kraftFrom counts 0 16 = 2 * kraftSum counts := by
  rw [kraftSum_eq, kraftFrom, firstCode, Nat.zero_mul, Nat.zero_add]

theorem firstCode_succ (counts : List Byte) (n : Nat) :
    firstCode counts (n + 1) = 2 * (firstCode counts n + countAt counts n) := rfl

/-- The codes of a length pass from the codes to come to the strings below the running code. -/
theorem kraftFrom_succ (hn : n + (k + 1) = 16) : kraftFrom counts n (k + 1) = kraftFrom counts (n + 1) k := by
  rw [kraftFrom, kraftFrom, firstCode_succ, List.range'_succ, List.map_cons, List.sum_cons, kraftTerm,
    show 15 - n = k by omega]
  ring

/-- A length without room for its codes takes the share above the whole. -/
theorem kraftFrom_over (hn : n + (k + 1) = 16) (hover : 2 ^ (n + 1) < firstCode counts n + countAt counts n) :
    2 ^ 17 < kraftFrom counts n (k + 1) := by
  rw [kraftFrom_succ hn]
  calc 2 ^ 17 = 2 ^ (n + 1) * 2 ^ (k + 1) := by rw [← Nat.pow_add, show n + 1 + (k + 1) = 17 by omega]
    _ < (firstCode counts n + countAt counts n) * 2 ^ (k + 1) := Nat.mul_lt_mul_of_pos_right hover (by positivity)
    _ = firstCode counts (n + 1) * 2 ^ k := by rw [firstCode_succ]; ring
    _ ≤ kraftFrom counts (n + 1) k := Nat.le_add_right _ _

/-! ## Construction in closed form -/

theorem map_toNat_drop (h : n < counts.length) :
    (counts.drop n).map BitVec.toNat = countAt counts n :: (counts.drop (n + 1)).map BitVec.toNat := by
  rw [List.drop_eq_getElem_cons h, List.map_cons, countAt, List.getD_eq_getElem _ _ h]

theorem assignLengths_cons_iff {len code count : Nat} {counts : List Nat} :
    assignLengths len code (count :: counts) = .ok keys ↔
      ∃ more, (count = 0 ∨ code + count ≤ 2 ^ len) ∧
        assignLengths (len + 1) (2 * (code + count)) counts = .ok more ∧
        keys = ((List.range count).map fun j => (len, code + j)) ++ more :=
  ⟨assignLengths_cons, fun ⟨_, hroom, hmore, hkeys⟩ => hkeys ▸ assignLengths_cons_ok hroom hmore⟩

/-- Construction from length `n + 1` on, its running code the first code of that length. -/
theorem assignLengths_from_iff (hc : counts.length = 16) (hn : n + k = 16)
    (hroom : firstCode counts n ≤ 2 ^ (n + 1)) :
    assignLengths (n + 1) (firstCode counts n) ((counts.drop n).map BitVec.toNat) = .ok keys ↔
      kraftFrom counts n k ≤ 2 ^ 17 ∧ keys = (List.range' n k).flatMap (keysOfLength counts) := by
  induction k generalizing n keys with
  | zero =>
    obtain rfl : n = 16 := hn
    have hle : kraftFrom counts 16 0 ≤ 2 ^ 17 := (Nat.mul_one _).trans_le hroom
    rw [List.drop_of_length_le hc.le]
    exact ⟨fun h => ⟨hle, (Except.ok.inj h).symm⟩, fun h => congrArg Except.ok h.2.symm⟩
  | succ k ih =>
    rw [map_toNat_drop (by omega), assignLengths_cons_iff, ← firstCode_succ, List.range'_succ, List.flatMap_cons]
    by_cases hfit : firstCode counts n + countAt counts n ≤ 2 ^ (n + 1)
    · have hnext : firstCode counts (n + 1) ≤ 2 ^ (n + 1 + 1) := by
        rw [firstCode_succ, Nat.pow_succ]
        omega
      simp only [ih (by omega) hnext, kraftFrom_succ hn, hfit, or_true, true_and]
      exact ⟨fun ⟨_, ⟨hle, hmore⟩, hkeys⟩ => ⟨hle, hmore ▸ hkeys⟩, fun ⟨hle, hkeys⟩ => ⟨_, ⟨hle, rfl⟩, hkeys⟩⟩
    · have hover := kraftFrom_over hn (Nat.lt_of_not_le hfit)
      constructor
      · rintro ⟨_, hcount, -⟩
        omega
      · rintro ⟨hle, -⟩
        omega

/-- Construction over all lengths gives the canonical keys, exactly when the Kraft sum is at most 1. -/
theorem assignLengths_canonical_iff (hc : counts.length = 16) :
    assignLengths 1 0 (counts.map BitVec.toNat) = .ok keys ↔
      kraftSum counts ≤ 2 ^ 16 ∧ keys = canonicalKeys counts := by
  rw [canonicalKeys_eq]
  refine (assignLengths_from_iff (n := 0) hc rfl (Nat.zero_le _)).trans (and_congr_left' ?_)
  rw [kraftFrom_first]
  omega

theorem buildCodes_ok_iff : buildCodes counts syms = .ok map ↔
    ∃ keys, assignLengths 1 0 (counts.map BitVec.toNat) = .ok keys ∧
      map = keys.zipWith (fun key v => ⟨key.1, key.2, v⟩) syms := by
  refine ⟨buildCodes_ok, fun ⟨keys, hkeys, hmap⟩ => ?_⟩
  rw [buildCodes, hkeys, hmap]

theorem buildCodes_canonical_iff (hc : counts.length = 16) :
    buildCodes counts syms = .ok map ↔
      kraftSum counts ≤ 2 ^ 16 ∧ map = (canonicalKeys counts).zipWith (fun key v => ⟨key.1, key.2, v⟩) syms := by
  simp only [buildCodes_ok_iff, assignLengths_canonical_iff hc, and_assoc, exists_and_left, exists_eq_left]

/-! ## Tables with too few or too many symbols -/

/-- The symbols cut to `n`, or filled up to `n` with zeros. -/
def fitSyms (n : Nat) (syms : List Byte) : List Byte := syms.take n ++ List.replicate (n - syms.length) 0

theorem fitSyms_length (n : Nat) (syms : List Byte) : (fitSyms n syms).length = n := by
  rw [fitSyms, List.length_append, List.length_take, List.length_replicate]
  omega

/-- Pairing with the fitted symbols only adds entries. -/
theorem zipWith_sublist_fitSyms (f : CodeKey → Byte → HuffEntry) (keys : List CodeKey) (syms : List Byte) :
    (keys.zipWith f syms).Sublist (keys.zipWith f (fitSyms keys.length syms)) := by
  induction keys generalizing syms with
  | nil => exact List.Sublist.refl _
  | cons key keys ih =>
    cases syms with
    | nil => exact List.nil_sublist _
    | cons v syms => simpa [fitSyms] using ih syms

/-- A built table is part of the one built from the same counts and as many symbols as they count. -/
theorem buildCodes_sublist (h : buildCodes counts syms = .ok map) :
    ∃ full, buildCodes counts (fitSyms (countsTotal counts) syms) = .ok full ∧ map.Sublist full := by
  obtain ⟨keys, hkeys, rfl⟩ := buildCodes_ok h
  have hlen : keys.length = countsTotal counts := assignLengths_length hkeys
  exact ⟨_, buildCodes_ok_iff.mpr ⟨keys, hkeys, rfl⟩, hlen ▸ zipWith_sublist_fitSyms _ keys syms⟩

end canonical

/-! ## The statements -/

/-- Settles O17: the keys of a built table are the canonical ones. -/
theorem codesAreCanonical : Obligations.CodesAreCanonical :=
  fun _ _ _ hc h => ((buildCodes_canonical_iff hc).mp h).2

/-- Settles O18: the table is part of a valid one, the one built with every counted symbol present. -/
theorem builtTablesArePrefixFree : Obligations.BuiltTablesArePrefixFree := by
  intro counts syms map hc h
  obtain ⟨full, hfull, hsub⟩ := buildCodes_sublist h
  have hvalid := buildCodes_valid hc (fitSyms_length _ _) hfull
  exact ⟨fun e he => hvalid.keys e (hsub.subset he), hvalid.prefixFree.sublist hsub⟩

/-- Settles O19: the Kraft bound is the first half of the closed form, and the second half names the table. -/
theorem builtExactlyUnderKraft : Obligations.BuiltExactlyUnderKraft := by
  intro counts syms hc
  simp only [buildCodes_canonical_iff hc, exists_and_left, exists_eq, and_true]

end Sys2Proof.Machine
end

section
/-! SUPPORT. DHT by the bytes at the cursor (spec/43_dht.md R145): the nineteen bytes before the symbols and the
judgement of the length by the counts, what becomes of the symbols, and the two statements of the family. -/

namespace Sys2Proof.Machine

section dht
variable {s : State} {p lh : Nat} {tb : Byte} {counts : List Byte}

/-! ## The nineteen bytes before the symbols -/

/-- What DHT does behind the counts: it consumes the symbols, builds the table and stores it (R145, R146). -/
def dhtSymbols (tb : Byte) (counts : List Byte) (s : State) : Res Unit :=
  (consume (countsTotal counts) s).bind fun syms s =>
    match buildCodes counts syms with
    | .error len => fail (.invalidConfiguration .huffOversubscribed len) s
    | .ok map => .ok () (s.putHt (classBit tb) (loNibble tb) ⟨countsTotal counts, map⟩)

/-- The stream ends inside the length, before the leading byte or inside the counts. -/
theorem dhtOp_missing (h : s.pos ≤ s.len) (h19 : s.len < s.pos + 19) :
    dhtOp s = .raised ((s.setPos s.len).raise (.unexpectedEndOfStream s.len)) := by
  rcases Nat.lt_or_ge s.len (s.pos + 2) with h2 | h2
  · rw [dhtOp, rd16_end h h2, Res.bind_raised]
  rw [dhtOp, rd16_ok h2, Res.bind_ok]
  rcases Nat.lt_or_ge s.len (s.pos + 3) with h3 | h3
  · have hlen : s.pos + 2 = s.len := by omega
    rw [hlen, rd8_end (Nat.le_refl _), Res.bind_raised]
    rfl
  · rw [rd8_at h3, Res.bind_ok, rdBytes_end h3 (by simp only [State.setPos_pos, State.setPos_len]; omega),
      Res.bind_raised]
    rfl

/-- The nineteen bytes before the symbols, and the judgement of the length by the counts (R145). -/
theorem dhtOp_header (h : s.pos + 19 ≤ s.len) (hlh : (be16 (s.byteAt s.pos) (s.byteAt (s.pos + 1))).toNat = lh)
    (hcounts : s.bytesFrom (s.pos + 3) 16 = counts) :
    dhtOp s =
      if lh = 19 + countsTotal counts then dhtSymbols (s.byteAt (s.pos + 2)) counts (s.setPos (s.pos + 19))
      else .raised ((s.setPos (s.pos + 19)).raise (.symbolCountMismatch (s.pos + 19) lh (countsTotal counts))) := by
  have hbytes : s.bytesFrom (s.pos + 2 + 1) 16 = counts := hcounts
  rw [dhtOp, rd16_ok (by omega), Res.bind_ok, rd8_at (by omega), Res.bind_ok, rdBytes_at (by omega), Res.bind_ok, hlh,
    hbytes]
  by_cases he : lh = 19 + countsTotal counts
  · rw [if_pos he, if_neg (by omega)]
    rfl
  · rw [if_neg he, if_pos (by omega)]
    rfl

/-! ## The symbols -/

theorem dhtSymbols_cut (h : s.len < p + countsTotal counts) :
    dhtSymbols tb counts (s.setPos p) = .raised ((s.setPos p).raise (.unexpectedEndOfStream s.len)) := by
  rw [dhtSymbols, consume_at_end h, Res.bind_raised]

theorem dhtSymbols_oversubscribed {l : Nat} (h : p + countsTotal counts ≤ s.len)
    (hb : buildCodes counts (s.bytesFrom p (countsTotal counts)) = .error l) :
    dhtSymbols tb counts (s.setPos p) =
      .raised ((s.setPos (p + countsTotal counts)).raise (.invalidConfiguration .huffOversubscribed l)) := by
  rw [dhtSymbols, consume_at h, Res.bind_ok, hb]
  rfl

theorem dhtSymbols_stores {map : List HuffEntry} (h : p + countsTotal counts ≤ s.len)
    (hb : buildCodes counts (s.bytesFrom p (countsTotal counts)) = .ok map) :
    dhtSymbols tb counts (s.setPos p) =
      .ok () ((s.setPos (p + countsTotal counts)).putHt (classBit tb) (loNibble tb) ⟨countsTotal counts, map⟩) := by
  rw [dhtSymbols, consume_at h, Res.bind_ok, hb]

end dht

/-! ## The statements -/

/-- Settles O15: the length passes the judgement, the symbols are all there, and the table goes into its slot. -/
theorem dhtStoresTheBuiltTable : Obligations.DhtStoresTheBuiltTable := by
  intro s tb counts syms map hc hs h hb
  have htotal := countsTotal_le counts
  have hlh : (BitVec.ofNat 16 (19 + countsTotal counts)).toNat = 19 + countsTotal counts :=
    Nat.mod_eq_of_lt (by omega)
  obtain ⟨-, hhi, hsecond⟩ := State.holds_cons h
  obtain ⟨-, hlo, -⟩ := State.holds_cons hsecond
  obtain ⟨-, rfl, hrest⟩ := State.holds_cons (State.holds_after_half h)
  obtain ⟨⟨-, hcounts⟩, hend, hsyms⟩ := State.holds_append hrest
  rw [hc] at hcounts hend hsyms
  rw [hs] at hend hsyms
  have hrun : exec .dht s = (dhtOp s).outcome := rfl
  rw [hrun, dhtOp_header (by omega) (by rw [hhi, hlo, be16_halves, hlh]) hcounts, if_pos rfl,
    dhtSymbols_stores hend (hsyms ▸ hb)]
  exact ⟨_, rfl, State.putHt_frame .., (State.htAt_putHt ..).trans (if_pos rfl),
    fun c u hu => (State.htAt_putHt ..).trans (if_neg hu)⟩

/-- Settles O16: the counts missing, a length that is not theirs, symbols the stream cuts, a histogram without room. -/
theorem dhtFaultOrder : Obligations.DhtFaultOrder := by
  intro s lh hlh
  have hn : (be16 (s.byteAt s.pos) (s.byteAt (s.pos + 1))).toNat = lh := (be16_toNat ..).trans hlh.symm
  have hrun : exec .dht s = (dhtOp s).outcome := rfl
  rw [hrun]
  generalize hcounts : s.bytesFrom (s.pos + 3) 16 = counts
  refine ⟨fun h h19 => ?missing, fun h hne => ?mismatch, fun h heq hend => ?cut, fun heq hend l hb => ?histogram⟩
  case missing => rw [dhtOp_missing h h19]; rfl
  case mismatch => rw [dhtOp_header h hn hcounts, if_neg hne]; rfl
  case cut => rw [dhtOp_header h hn hcounts, if_pos heq, dhtSymbols_cut (by omega)]; rfl
  case histogram =>
    rw [heq, Nat.add_sub_cancel_left] at hb
    rw [dhtOp_header (by omega) hn hcounts, if_pos heq, dhtSymbols_oversubscribed (by omega) hb, heq, ← Nat.add_assoc]
    rfl

end Sys2Proof.Machine
end

section
/-! SUPPORT. SOS by the bytes at the cursor (spec/44_sos.md R160 to R162): the three bytes before the entries, the
entries up to the first undeclared id, what the entries bind, the judgement of the length behind them, and the two
statements of the family. -/

namespace Sys2Proof.Machine

section sos
variable {s : State} {p n : Nat}

/-! ## The component entries -/

/-- The `i`-th component entry of two bytes from `p` on: the id, and the byte of the two table ids split (R160). -/
def State.scanEntryAt (s : State) (p i : Nat) : ScanEntry :=
  ⟨s.byteAt (p + 2 * i), hiNibble (s.byteAt (p + 1 + 2 * i)), loNibble (s.byteAt (p + 1 + 2 * i))⟩

/-- The `n` component entries from `p` on. -/
def State.scanEntriesFrom (s : State) (p n : Nat) : List ScanEntry := (List.range n).map (s.scanEntryAt p)

theorem State.scanEntriesFrom_succ (s : State) (p n : Nat) :
    s.scanEntriesFrom p (n + 1) = s.scanEntriesFrom p n ++ [s.scanEntryAt p n] := by
  rw [scanEntriesFrom, List.range_succ, List.map_append]
  rfl

theorem State.scanEntriesFrom_length (s : State) (p n : Nat) : (s.scanEntriesFrom p n).length = n := by
  rw [scanEntriesFrom, List.length_map, List.length_range]

theorem scanBytes_append (es fs : List ScanEntry) : scanBytes (es ++ fs) = scanBytes es ++ scanBytes fs :=
  List.flatMap_append

/-- The entries read at `p` are listed by the bytes at `p`. -/
theorem State.bytesFrom_scanEntries (s : State) (p n : Nat) :
    s.bytesFrom p (2 * n) = scanBytes (s.scanEntriesFrom p n) := by
  induction n with
  | zero => rfl
  | succ n ih =>
    have hentry : s.bytesFrom (p + 2 * n) 2 = scanBytes [s.scanEntryAt p n] := by
      show [s.byteAt (p + 2 * n), s.byteAt (p + 2 * n + 1)] =
        [s.byteAt (p + 2 * n), ofNibbles (hiNibble (s.byteAt (p + 1 + 2 * n))) (loNibble (s.byteAt (p + 1 + 2 * n)))]
      rw [byte_nibbles, Nat.add_right_comm p 1]
    have hsplit : s.bytesFrom p (2 * n + 2) = s.bytesFrom p (2 * n) ++ s.bytesFrom (p + 2 * n) 2 :=
      Memory.slice_append ..
    rw [scanEntriesFrom_succ, scanBytes_append, ← ih, ← hentry, ← hsplit]
    rfl

theorem State.holds_scanEntries (h : p + 2 * n ≤ s.len) : s.holds p (scanBytes (s.scanEntriesFrom p n)) := by
  rw [← bytesFrom_scanEntries]
  exact ⟨by rwa [bytesFrom_length], by rw [bytesFrom_length]⟩

/-- The state after the `n` component entries from `p` on, the cursor as it was. -/
def State.selectFrom (s : State) (p n : Nat) : State := (s.scanEntriesFrom p n).foldl (fun s e => s.select e) s

theorem State.selectFrom_succ (s : State) (p n : Nat) :
    s.selectFrom p (n + 1) = (s.selectFrom p n).select (s.scanEntryAt p n) := by
  rw [selectFrom, scanEntriesFrom_succ, List.foldl_append]
  rfl

/-- The entries write `comp` alone. -/
theorem State.selectFrom_frame (s : State) (p n : Nat) :
    s.selectFrom p n = s.setComp (s.selectFrom p n).comp := select_fold_frame _ s

theorem State.selectFrom_len (s : State) (p n : Nat) : (s.selectFrom p n).len = s.len := by
  rw [selectFrom_frame]
  rfl

theorem State.byteAt_selectFrom (s : State) (p n a : Nat) : (s.selectFrom p n).byteAt a = s.byteAt a := by
  rw [selectFrom_frame]
  rfl

theorem State.compValid_selectFrom (s : State) (p n : Nat) (id : Byte) :
    (s.selectFrom p n).compValid id = s.compValid id := compAt_select_fold_isSome _ s id.toNat

theorem sosEntries_whole (h : p + 2 * n ≤ s.len) (hdecl : ∀ i, i < n → s.compValid (s.byteAt (p + 2 * i)) = true) :
    sosEntries n (s.setPos p) = .ok () ((s.selectFrom p n).setPos (p + 2 * n)) := by
  have hids : ∀ e ∈ s.scanEntriesFrom p n, s.compValid e.id = true := by
    intro e he
    obtain ⟨i, hi, rfl⟩ := List.mem_map.mp he
    exact hdecl i (List.mem_range.mp hi)
  have hrun := sosEntries_listing hids (State.holds_scanEntries h)
  rwa [s.scanEntriesFrom_length] at hrun

/-- A run of the entries, cut in two. -/
theorem sosEntries_add (m k : Nat) (s : State) :
    sosEntries (m + k) s = (sosEntries m s).bind fun _ t => sosEntries k t := by
  induction m generalizing s with
  | zero => rw [Nat.zero_add]; rfl
  | succ m ih =>
    rw [Nat.succ_add, sosEntries, sosEntries, Res.bind_assoc]
    congr 1
    funext cs t
    rw [Res.bind_assoc]
    congr 1
    funext sel t
    cases t.compAt cs.toNat with
    | none => rfl
    | some c => exact ih _

/-- An undeclared id raises behind both bytes of its entry (R162). -/
theorem sosEntries_undeclared (k : Nat) (h : p + 2 ≤ s.len) (hid : s.compValid (s.byteAt p) = false) :
    sosEntries (k + 1) (s.setPos p) =
      .raised ((s.setPos (p + 2)).raise (.unknownComponent (p + 2) (s.byteAt p))) := by
  have hnone : (s.setPos (p + 1 + 1)).compAt (s.byteAt p).toNat = none :=
    Option.isNone_iff_eq_none.mp (Option.isSome_eq_false_iff.mp hid)
  rw [sosEntries, rd8_at (by omega), Res.bind_ok, rd8_at h, Res.bind_ok]
  simp only [hnone]
  rfl

/-- The entries before the first undeclared id are bound, and that one raises. -/
theorem sosEntries_first_undeclared {i : Nat} (hi : i < n) (h : p + 2 * i + 2 ≤ s.len)
    (hdecl : ∀ j, j < i → s.compValid (s.byteAt (p + 2 * j)) = true)
    (hid : s.compValid (s.byteAt (p + 2 * i)) = false) :
    sosEntries n (s.setPos p) =
      .raised (((s.selectFrom p i).setPos (p + 2 * i + 2)).raise
        (.unknownComponent (p + 2 * i + 2) (s.byteAt (p + 2 * i)))) := by
  obtain ⟨k, rfl⟩ : ∃ k, n = i + (k + 1) := ⟨n - i - 1, by omega⟩
  have hbyte := s.byteAt_selectFrom p i (p + 2 * i)
  rw [sosEntries_add, sosEntries_whole (by omega) hdecl, Res.bind_ok,
    sosEntries_undeclared k (by rwa [s.selectFrom_len]) (by rw [s.compValid_selectFrom, hbyte, hid]), hbyte]

/-! ## What the entries bind -/

/-- The component with its selector bound to the table ids `v` (R160). -/
def Component.withSel (v : Selector) (c : Component) : Component := { c with sel := some v }

theorem State.compAt_select (e : ScanEntry) (s : State) (j : Nat) :
    (s.select e).compAt j =
      if j = e.id.toNat then (s.compAt j).map (Component.withSel ⟨e.td, e.ta⟩) else s.compAt j := by
  rw [select]
  split
  · next c hc =>
    rw [compAt_putComp]
    split
    · next hj => rw [hj, hc]; rfl
    · rfl
  · next hc =>
    split
    · next hj => rw [hj, hc]; rfl
    · rfl

theorem State.compAt_selectFrom_succ (s : State) (p n j : Nat) :
    (s.selectFrom p (n + 1)).compAt j =
      if j = (s.byteAt (p + 2 * n)).toNat then
        ((s.selectFrom p n).compAt j).map (Component.withSel ⟨(s.scanEntryAt p n).td, (s.scanEntryAt p n).ta⟩)
      else (s.selectFrom p n).compAt j := by
  rw [selectFrom_succ]
  exact compAt_select ..

/-- Binding selectors changes nothing else of a component: a later binding does not see the earlier ones. -/
theorem State.compAt_selectFrom_withSel (s : State) (p n j : Nat) (v : Selector) :
    ((s.selectFrom p n).compAt j).map (Component.withSel v) = (s.compAt j).map (Component.withSel v) := by
  induction n with
  | zero => rfl
  | succ n ih =>
    rw [compAt_selectFrom_succ]
    split
    · rw [Option.map_map]
      exact ih
    · exact ih

theorem State.compAt_selectFrom_unlisted {id : Nat} (h : ∀ i, i < n → (s.byteAt (p + 2 * i)).toNat ≠ id) :
    (s.selectFrom p n).compAt id = s.compAt id := by
  induction n with
  | zero => rfl
  | succ n ih =>
    rw [compAt_selectFrom_succ, if_neg (h n (Nat.lt_succ_self n)).symm]
    exact ih fun i hi => h i (Nat.lt_succ_of_lt hi)

/-- An entry that no later one of the same id follows gives the component its selector (R160). -/
theorem State.compAt_selectFrom_last {i : Nat} (hi : i < n)
    (hlast : ∀ j, i < j → j < n → s.byteAt (p + 2 * j) ≠ s.byteAt (p + 2 * i)) :
    (s.selectFrom p n).compAt (s.byteAt (p + 2 * i)).toNat =
      (s.compAt (s.byteAt (p + 2 * i)).toNat).map
        (Component.withSel ⟨(s.scanEntryAt p i).td, (s.scanEntryAt p i).ta⟩) := by
  induction n with
  | zero => exact absurd hi (Nat.not_lt_zero i)
  | succ n ih =>
    rw [compAt_selectFrom_succ]
    rcases Nat.lt_succ_iff_lt_or_eq.mp hi with hlt | rfl
    · have hne : (s.byteAt (p + 2 * i)).toNat ≠ (s.byteAt (p + 2 * n)).toNat := fun he =>
        hlast n hlt (Nat.lt_succ_self n) (BitVec.eq_of_toNat_eq he.symm)
      rw [if_neg hne]
      exact ih hlt fun j hj hjn => hlast j hj (Nat.lt_succ_of_lt hjn)
    · rw [if_pos rfl, compAt_selectFrom_withSel]

/-! ## The segment -/

/-- What SOS does behind the entries: it judges the length and steps over the tail (R160, R161). -/
def sosTail (ls n : Nat) (s : State) : Res Unit :=
  if ls < 3 + 2 * n then fail (.invalidSegmentLength s.pos ls) s
  else (consume (ls - 3 - 2 * n) s).bind fun _ s => .ok () s

/-- The three bytes before the entries (R160). -/
theorem sosOp_header {ls : Nat} (h : s.pos + 3 ≤ s.len)
    (hls : (be16 (s.byteAt s.pos) (s.byteAt (s.pos + 1))).toNat = ls) (hn : (s.byteAt (s.pos + 2)).toNat = n) :
    sosOp s = (sosEntries n (s.setPos (s.pos + 3))).bind fun _ t => sosTail ls n t := by
  rw [sosOp, rd16_ok (by omega), Res.bind_ok, rd8_at h, Res.bind_ok, hls, hn]
  rfl

theorem sosTail_short {ls : Nat} (h : ls < 3 + 2 * n) :
    sosTail ls n (s.setPos p) = .raised ((s.setPos p).raise (.invalidSegmentLength p ls)) := by
  rw [sosTail, if_pos h]
  rfl

theorem sosTail_whole {ls : Nat} (h : 3 + 2 * n ≤ ls) (hend : p + (ls - 3 - 2 * n) ≤ s.len) :
    sosTail ls n (s.setPos p) = .ok () (s.setPos (p + (ls - 3 - 2 * n))) := by
  rw [sosTail, if_neg (by omega), consume_at hend, Res.bind_ok]

end sos

/-! ## The statements -/

/-- Settles O20: the entries bind their selectors, and the tail is stepped over to the declared end. -/
theorem sosBindsSelectors : Obligations.SosBindsSelectors := by
  intro s ls n hls hn hge hend hdecl
  have hrun : exec .sos s = (sosOp s).outcome := rfl
  have hp : s.pos + 3 + 2 * n + (ls - 3 - 2 * n) = s.pos + ls := by omega
  rw [hrun, sosOp_header (by omega) ((be16_toNat ..).trans hls.symm) hn.symm, sosEntries_whole (by omega) hdecl,
    Res.bind_ok, sosTail_whole hge (by rw [s.selectFrom_len]; omega), hp]
  refine ⟨_, rfl, congrArg (State.setPos _) (s.selectFrom_frame ..), fun i c hi hlast hc => ?_,
    fun id hid => State.compAt_selectFrom_unlisted hid⟩
  have hbound := State.compAt_selectFrom_last hi hlast
  rw [hc] at hbound
  exact hbound

/-- Settles O21: an undeclared id ends the entries; a length too small for declared ones is judged behind them. -/
theorem sosFaultOrder : Obligations.SosFaultOrder := by
  intro s ls n hls hn
  have hrun : exec .sos s = (sosOp s).outcome := rfl
  have hlen := (be16_toNat (s.byteAt s.pos) (s.byteAt (s.pos + 1))).trans hls.symm
  rw [hrun]
  refine ⟨fun i hi hend hdecl hid => ?undeclared, fun hend hlt hdecl => ?short⟩
  case undeclared =>
    have hp : s.pos + 3 + 2 * i + 2 = s.pos + 5 + 2 * i := by omega
    rw [sosOp_header (by omega) hlen hn.symm, sosEntries_first_undeclared hi (by omega) hdecl hid, Res.bind_raised, hp]
    exact ⟨_, rfl, rfl, rfl, rfl, rfl⟩
  case short =>
    rw [sosOp_header (by omega) hlen hn.symm, sosEntries_whole hend hdecl, Res.bind_ok, sosTail_short hlt]
    exact ⟨_, rfl, rfl, rfl, rfl, rfl⟩

end Sys2Proof.Machine
end

section
/-! SUPPORT. The bit reader (spec/45_bit_reader.md R171 to R178): FETCHBYTE and NEXTBIT by the bytes at the cursor, the
bits of a stuffed run, READCODE and READMAG on the bits the stream delivers, and the values of a magnitude field. -/

namespace Sys2Proof.Machine

section reader
variable {s t u : State}

/-! ## FETCHBYTE -/

theorem State.holds_byte {p : Nat} (h : p + 1 ≤ s.len) : s.holds p [s.byteAt p] := ⟨h, rfl⟩

theorem State.holds_two_bytes {p : Nat} (h : p + 2 ≤ s.len) : s.holds p [s.byteAt p, s.byteAt (p + 1)] := ⟨h, rfl⟩

theorem fetchByte_end (h : s.len ≤ s.pos) : fetchByte s = .raised (s.raise (.unexpectedEndOfStream s.pos)) := by
  rw [fetchByte, rd8_end h, Res.bind_raised]

/-- `FF` as the last byte: the byte to be judged is missing. -/
theorem fetchByte_last (h : s.pos + 1 = s.len) (hb : s.byteAt s.pos = 0xFF) :
    fetchByte s = .raised ((s.setPos s.len).raise (.unexpectedEndOfStream s.len)) := by
  have hend : (s.setPos s.len).len ≤ (s.setPos s.len).pos := Nat.le_refl _
  rw [fetchByte, rd8_ok (Nat.lt_of_succ_le h.le), Res.bind_ok, hb, if_pos rfl, h, rd8_end hend, Res.bind_raised]
  rfl

/-- Settles O24: the first byte is missing or no `FF`; after `FF` the next one is missing, `00`, or another byte. -/
theorem fetchByteCases : Obligations.FetchByteCases := by
  intro s
  have hrun : exec .fetchbyte s = (fetchByte s).outcome := rfl
  rw [hrun]
  refine ⟨fun hend => ?missing, fun hlt hb => ?data, fun hlast hb => ?last, fun hle hb hz => ?stuff,
    fun hle hb hz => ?badstuff⟩
  case missing => rw [fetchByte_end hend, Res.outcome_raised]
  case data =>
    rw [fetchByte_data (State.holds_byte hlt) hb]
    rfl
  case last =>
    rw [fetchByte_last hlast hb]
    rfl
  case stuff =>
    rw [fetchByte_ff (hb ▸ State.holds_two_bytes hle), if_pos hz]
    rfl
  case badstuff =>
    rw [fetchByte_ff (hb ▸ State.holds_two_bytes hle), if_neg hz]
    rfl

/-! ## NEXTBIT -/

/-- While a byte is held nothing is fetched. -/
theorem nextBit_held (h : s.bitOff ≠ 0) :
    nextBit s = .ok (s.cur.getLsbD (7 - s.bitOff.toNat)) (s.setBitOff (s.bitOff + 1)) := if_neg h

/-- The first bit of a byte just fetched is its bit 7. -/
theorem nextBit_fetched {p : Nat} {b : Byte} (h0 : s.bitOff = 0)
    (hf : fetchByte s = .ok () ((s.setPos p).setCur b)) :
    nextBit s = .ok (b.getLsbD 7) (((s.setPos p).setCur b).setBitOff 1) := by
  rw [nextBit, if_pos h0, hf, Res.bind_ok, shiftBit, State.setCur_bitOff, State.setPos_bitOff, h0]
  rfl

theorem nextBit_raised (h0 : s.bitOff = 0) (hf : fetchByte s = .raised t) : nextBit s = .raised t := by
  rw [nextBit, if_pos h0, hf, Res.bind_raised]

/-- A fetch that leads into the phase FAULT has raised its fault: one that succeeds keeps the phase. -/
theorem fetchByte_raised_of_phase (hs : s.phase ≠ .fault) (h : (fetchByte s).outcome = .next t)
    (ht : t.phase = .fault) : fetchByte s = .raised t := by
  obtain ⟨a, hok⟩ | hraised := Res.outcome_next h
  · have hends := fetchByte_ends s
    rw [hok] at hends
    have hphase : t.phase = s.phase := by rw [hends.1.frame]
    exact absurd (hphase.symm.trans ht) hs
  · exact hraised

/-- Settles O26: a held byte gives its next bit, a fetched one its first, and a fault of the fetch is NEXTBIT's. -/
theorem nextBitCases : Obligations.NextBitCases := by
  intro s
  have hrun : exec .nextbit s = (nextBit s).outcomeRet Ret.bit := rfl
  rw [hrun]
  refine ⟨fun hne => ?held, fun h0 hlt hb => ?data, fun h0 hle hb hz => ?stuff, fun h0 hs t ht hf => ?fault⟩
  case held =>
    rw [nextBit_held hne]
    rfl
  case data =>
    rw [nextBit_fetched h0 (fetchByte_data (State.holds_byte hlt) hb)]
    rfl
  case stuff =>
    have hfetch := fetchByte_ff (hb ▸ State.holds_two_bytes hle)
    rw [if_pos hz] at hfetch
    rw [nextBit_fetched h0 hfetch]
    rfl
  case fault =>
    rw [nextBit_raised h0 (fetchByte_raised_of_phase hs ht hf), Res.outcomeRet_raised]

/-! ## A stuffed run -/

theorem byteBits_drop (b : Byte) {n : Nat} (h : n < 7) :
    (byteBits b).drop (7 - n) = b.getLsbD n :: (byteBits b).drop (8 - n) := by
  interval_cases n <;> rfl

/-- The last `n` bits of a held byte, fewer than all eight, are given as they stand; the offset then wraps. -/
theorem nextBits_held (c : Byte) (s : State) {n : Nat} (h : n ≤ 7) :
    ((s.setCur c).setBitOff (BitVec.ofNat 3 (8 - n))).nextBits n =
      some ((byteBits c).drop (8 - n), (s.setCur c).setBitOff 0) := by
  induction n with
  | zero => rfl
  | succ n ih =>
    have hoff : (BitVec.ofNat 3 (7 - n)).toNat = 7 - n := by rw [BitVec.toNat_ofNat]; omega
    have hne : BitVec.ofNat 3 (7 - n) ≠ 0 := BitVec.toNat_ne.mpr (by rw [hoff]; exact Nat.sub_ne_zero_of_lt h)
    have hnext : BitVec.ofNat 3 (7 - n) + 1 = BitVec.ofNat 3 (8 - n) := by
      rw [(by omega : 8 - n = 7 - n + 1), BitVec.ofNat_add]
      rfl
    have hbit := nextBit_held (s := (s.setCur c).setBitOff (BitVec.ofNat 3 (7 - n))) hne
    rw [State.setBitOff_bitOff, hoff, hnext, Nat.sub_sub_self (by omega)] at hbit
    rw [Nat.add_sub_add_right 7 1 n, byteBits_drop c (by omega)]
    exact nextBits_cons hbit (ih (by omega))

/-- A byte that is fetched at a byte boundary gives its eight bits. -/
theorem nextBits_byte {p : Nat} {b : Byte} (h0 : s.bitOff = 0) (hf : fetchByte s = .ok () ((s.setPos p).setCur b)) :
    s.nextBits 8 = some (byteBits b, (s.setPos p).setCur b) := by
  rw [nextBits_cons (nextBit_fetched h0 hf) (nextBits_held b (s.setPos p) (n := 7) (by decide)), ← h0]
  rfl

theorem stuffed_cons (b : Byte) (bs : List Byte) : stuffed (b :: bs) = stuffed [b] ++ stuffed bs :=
  List.flatMap_append (xs := [b]) ..

/-- One data byte, with the `00` behind it if it is `FF`. -/
theorem fetchByte_stuffed {b : Byte} (h : s.holds s.pos (stuffed [b])) :
    fetchByte s = .ok () ((s.setPos (s.pos + (stuffed [b]).length)).setCur b) := by
  by_cases hb : b = 0xFF
  · subst hb
    exact fetchByte_ff h
  · have hw : stuffed [b] = [b] := by rw [stuffed, List.flatMap_singleton, if_neg hb]
    rw [hw] at h ⊢
    exact fetchByte_data h hb

/-- Settles O27, by induction on the data bytes: each gives its eight bits and leaves the reader at a byte boundary. -/
theorem stuffingIsTransparent : Obligations.StuffingIsTransparent := by
  intro s bs h0 h
  induction bs generalizing s with
  | nil => exact ⟨s.cur, rfl⟩
  | cons b bs ih =>
    rw [stuffed_cons] at h ⊢
    obtain ⟨hb, hbs⟩ := State.holds_append h
    obtain ⟨c, hc⟩ := ih ((s.setPos (s.pos + (stuffed [b]).length)).setCur b) h0 hbs
    have hn : 8 * (b :: bs).length = 8 + 8 * bs.length := by rw [List.length_cons]; omega
    refine ⟨c, ?_⟩
    rw [hn, nextBits_join (nextBits_byte h0 (fetchByte_stuffed hb)) hc, List.flatMap_cons, List.length_append,
      ← Nat.add_assoc]
    rfl

/-! ## READCODE -/

theorem readCodeOf_valid {c : HuffClass} {i : Nibble} {h : HuffTable} (hh : s.htAt c i = some h) :
    readCodeOf c i s = readCode h s := by
  rw [readCodeOf, hh]

/-- Settles O28: `readCode_bits` on the table of the operands. -/
theorem readCodeReturnsTheSymbol : Obligations.ReadCodeReturnsTheSymbol := by
  intro s u c t h e hh hv he hbits
  have hrun : exec (.readcode c t) s = (readCodeOf c t s).outcomeRet Ret.symbol := rfl
  rw [hrun, readCodeOf_valid hh, readCode_bits hv he hbits]
  rfl

/-- Settles O29: `readCode_overflow` on the table of the operands. -/
theorem readCodeOverflows : Obligations.ReadCodeOverflows := by
  intro s u c t h bits hh hv hbits hn
  have hrun : exec (.readcode c t) s = (readCodeOf c t s).outcomeRet Ret.symbol := rfl
  rw [hrun, readCodeOf_valid hh, readCode_overflow hv hbits hn]
  rfl

end reader

/-! ## Magnitude values -/

section magnitude
variable {m : MagnitudeMode} {n u : Nat}

@[simp] theorem magnitude_zero (m : MagnitudeMode) (u : Nat) : magnitude m 0 u = 0 := if_pos rfl

/-- First bit 1: the field is its own value. -/
theorem magnitude_positive (h : 2 ^ n ≤ u) : magnitude m (n + 1) u = u := by
  rw [magnitude, if_neg n.succ_ne_zero, Nat.add_sub_cancel, if_pos h]

/-- First bit 0: the bias of the mode is taken off. -/
theorem magnitude_negative (h : u < 2 ^ n) : magnitude m (n + 1) u = u - negBias m (n + 1) := by
  rw [magnitude, if_neg n.succ_ne_zero, Nat.add_sub_cancel, if_neg (Nat.not_le.mpr h)]

theorem magnitude_observed (h : u < 2 ^ n) : magnitude .observed (n + 1) u = u - 2 ^ n := magnitude_negative h

theorem magnitude_standard (h : u < 2 ^ n) : magnitude .standard (n + 1) u = u - (2 ^ (n + 1) - 1) :=
  magnitude_negative h

/-- In either mode the value of an `n`-bit field is less than `2 ^ n` away from 0. -/
theorem magnitude_bounds (h : u < 2 ^ (n + 1)) :
    -(2 ^ (n + 1)) < magnitude m (n + 1) u ∧ magnitude m (n + 1) u < 2 ^ (n + 1) := by
  have hcast : ((2 ^ n : Nat) : Int) = 2 ^ n := Nat.cast_pow 2 n
  rcases Nat.lt_or_ge u (2 ^ n) with hlo | hhi
  · cases m
    · rw [magnitude_observed hlo]
      omega
    · rw [magnitude_standard hlo]
      omega
  · rw [magnitude_positive hhi]
    omega

/-- The first of `n + 1` bits decides whether their number reaches `2 ^ n`. -/
theorem le_bitsVal_cons (b : Bool) (bs : List Bool) : 2 ^ bs.length ≤ bitsVal (b :: bs) ↔ b = true := by
  have hlt := bitsVal_lt bs
  rw [bitsVal_cons]
  cases b
  · simp [bitVal, hlt]
  · simp [bitVal]

/-- The value of a field by its first bit (R175). -/
theorem magnitude_bitsVal_cons (m : MagnitudeMode) (b : Bool) (bs : List Bool) :
    magnitude m (bs.length + 1) (bitsVal (b :: bs)) =
      if b = true then (bitsVal (b :: bs) : Int) else bitsVal (b :: bs) - negBias m (bs.length + 1) := by
  split
  · next hb => exact magnitude_positive ((le_bitsVal_cons b bs).mpr hb)
  · next hb => exact magnitude_negative (Nat.lt_of_not_le fun h => hb ((le_bitsVal_cons b bs).mp h))

end magnitude

/-- Settles O30: `readMagnitude_bits`, and the value by the first bit of the field. -/
theorem readMagReturnsTheValue : Obligations.ReadMagReturnsTheValue := by
  intro s u n bits hbits
  have hrun : exec (.readmag n) s = (readMagnitude n.toNat s).outcomeRet Ret.value := rfl
  have hlen := nextBits_length hbits
  rw [hrun, readMagnitude_bits hbits, Res.outcomeRet_ok]
  refine congrArg (fun v => Host.Outcome.next (u.setRet (.value v))) ?_
  cases bits with
  | nil =>
    have hn : n = 0 := BitVec.eq_of_toNat_eq hlen.symm
    rw [hn, if_pos rfl]
    rfl
  | cons b bs =>
    have hn : n ≠ 0 := fun h => by simp [h] at hlen
    rw [if_neg hn, ← hlen, List.length_cons, magnitude_bitsVal_cons]
    cases b <;> cases s.mode <;> rfl

/-- Settles O31: the two halves of a category, each value within 16 bits as `n` is at most 11. -/
theorem magnitudeRanges : Obligations.MagnitudeRanges := by
  intro n u hn hn' hu
  obtain ⟨k, rfl⟩ := Nat.exists_eq_add_of_le' hn
  have hpow : 2 ^ k ≤ 2 ^ 10 := Nat.pow_le_pow_right (by decide) (by omega)
  have hcast : ((2 ^ k : Nat) : Int) = 2 ^ k := Nat.cast_pow 2 k
  rw [Nat.add_sub_cancel]
  refine ⟨fun h m => magnitude_positive h, fun h => ⟨?observed, ?standard⟩, fun m => ?fits⟩
  case observed =>
    rw [magnitude_observed h]
    omega
  case standard =>
    rw [magnitude_standard h]
    omega
  case fits =>
    have hbound := magnitude_bounds (m := m) hu
    exact BitVec.toInt_ofInt_eq_self (by decide) (by omega) (by omega)

/-- Settles O32: the number sent lies in the half of its category that the sign picks. -/
theorem magnitudeRoundTrip : Obligations.MagnitudeRoundTrip := by
  refine ⟨fun m => magnitude_zero m 0, fun n v hn _ => ?_⟩
  obtain ⟨k, rfl⟩ := Nat.exists_eq_add_of_le' hn
  have hcast : ((2 ^ k : Nat) : Int) = 2 ^ k := Nat.cast_pow 2 k
  rw [Nat.add_sub_cancel]
  refine ⟨fun hlo hhi m => ?positive, fun hlo hhi => ?negative⟩
  case positive =>
    rw [magnitude_positive (by omega)]
    omega
  case negative =>
    have hlow : (v + 2 ^ (k + 1) - 1).toNat < 2 ^ k := by omega
    have hsent : ((v + 2 ^ (k + 1) - 1).toNat : Int) = v + 2 ^ (k + 1) - 1 := Int.toNat_of_nonneg (by omega)
    rw [magnitude_standard hlow, magnitude_observed hlow, hsent]
    omega

/-! ## The entropy rows -/

/-- Settles O23: each row is its one write, or its fault, by the row's definition. -/
theorem entropyRowsEffect : Obligations.EntropyRowsEffect := by
  intro s b
  have hdata : exec (.data b) s = (dataOp b s).outcome := rfl
  have hstuff : exec .stuff s = (stuffOp s).outcome := rfl
  have hbad : exec (.badstuff b) s = (badstuffOp b s).outcome := rfl
  exact ⟨hdata, hstuff, fun _ => hbad⟩

end Sys2Proof.Machine
end

section
/-! SUPPORT. The DC and AC symbol operations run on their own (spec/46_mcu_decoder.md R196 to R205): what each writes,
and when it raises a fault instead. -/

namespace Sys2Proof.Machine

section rows
variable {s u : State}

/-! ## Registers between a magnitude read and its store -/

theorem State.putCoef_zero (v : Int) (s : State) :
    s.putCoef 0 v = s.setBlk (s.blk.set 0 (BitVec.ofInt 16 v)) :=
  congrArg s.setBlk (Vector.toList_inj.mp (by rw [Vector.toList_setIfInBounds, Vector.toList_set]))

/-- Reading bits leaves the block as it was. -/
theorem nextBits_blk {n : Nat} {bits : List Bool} (h : s.nextBits n = some (bits, u)) : u.blk = s.blk := by
  rw [(nextBits_read h).frame]

/-! ## DC operations -/

theorem dcMagOp_bits {n : Nat} {bits : List Bool} (h : s.nextBits n = some (bits, u)) :
    dcMagOp n s = .ok () (u.putCoef 0 (magnitude s.mode n (bitsVal bits))) := by
  rw [dcMagOp, readMagnitude_bits h, Res.bind_ok]

/-- Settles O33: DC_ZERO and DC_BAD by definition, DC_MAG by `dcMagOp_bits`. -/
theorem dcOperationsEffect : Obligations.DcOperationsEffect := by
  intro s
  refine ⟨?zero, fun n bits u _ _ hbits => ?mag, fun n => rfl⟩
  case zero =>
    have hrun : exec .dcZero s = .next (s.putCoef 0 0) := rfl
    rw [hrun, State.putCoef_zero]
    rfl
  case mag =>
    have hrun : exec (.dcMag n) s = (dcMagOp n.toNat s).outcome := rfl
    rw [hrun, dcMagOp_bits hbits, Res.outcome_ok, State.putCoef_zero, nextBits_blk hbits]
    rfl

/-! ## AC operations -/

theorem acZeros_fits {z : Nat} (sym : Byte) (h : s.k + z ≤ 63) : acZeros z sym s = .ok () (s.setK (s.k + z)) :=
  if_neg (Nat.not_lt.mpr h)

theorem acZeros_overrun {z : Nat} (sym : Byte) (h : 63 < s.k + z) :
    acZeros z sym s = .raised (s.raise (.blockOverrun s.k sym)) := if_pos h

/-- Settles O34: ZRL and RUN are `acZeros` of 16 and of `r`. -/
theorem acRunOperationsEffect : Obligations.AcRunOperationsEffect := by
  intro s
  have hzrl : exec .acZrl s = (acZeros 16 0xF0 s).outcome := rfl
  have hrun (r : Nibble) : exec (.acRun r) s = (acZeros r.toNat (ofNibbles r 0) s).outcome := rfl
  refine ⟨rfl, fun h => ?zrl, fun h => ?zrlOverrun, fun r => ⟨fun h => ?run, fun h => ?runOverrun⟩⟩
  case zrl =>
    rw [hzrl, acZeros_fits _ (by omega)]
    rfl
  case zrlOverrun => rw [hzrl, acZeros_overrun _ (by omega), Res.outcome_raised]
  case run =>
    rw [hrun, acZeros_fits _ h]
    rfl
  case runOverrun => rw [hrun, acZeros_overrun _ h, Res.outcome_raised]

theorem acCoefOp_overrun {r sz : Nibble} (h : 63 < s.k + r.toNat + 1) :
    acCoefOp r sz s = .raised (s.raise (.blockOverrun s.k (ofNibbles r sz))) := if_pos h

/-- The value of a coefficient is stored behind its `r` zeros. -/
theorem acCoefOp_bits {r sz : Nibble} {bits : List Bool} (hk : s.k + r.toNat + 1 ≤ 63)
    (h : s.nextBits sz.toNat = some (bits, u)) :
    acCoefOp r sz s = .ok ()
      ((u.putCoef (1 + (s.k + r.toNat)) (magnitude s.mode sz.toNat (bitsVal bits))).setK (s.k + r.toNat + 1)) := by
  have hfit : ¬ Config.acValues < s.k + r.toNat + 1 := Nat.not_lt.mpr hk
  rw [acCoefOp, if_neg hfit, readMagnitude_bits (nextBits_setK _ h)]
  rfl

/-- Settles O35: `acCoefOp_bits` within the block, `acCoefOp_overrun` past it; AC_BAD by definition. -/
theorem acCoefOperationsEffect : Obligations.AcCoefOperationsEffect := by
  intro s r sz
  have hrun : exec (.acCoef r sz) s = (acCoefOp r sz s).outcome := rfl
  refine ⟨fun bits u _ _ hbits hk => ?coef, fun hk => ?overrun, rfl⟩
  case coef =>
    rw [hrun, acCoefOp_bits hk hbits, Res.outcome_ok, State.putCoef, nextBits_blk hbits, ← Nat.add_assoc]
    rfl
  case overrun => rw [hrun, acCoefOp_overrun hk, Res.outcome_raised]

end rows

end Sys2Proof.Machine
end

section
/-! SUPPORT. DECODE_BLOCK on the listing of a block (spec/30_encoding.md R95, spec/46_mcu_decoder.md R194 to R203):
what the reader still delivers, the AC values emitted so far, and each item of the listing taken in turn. -/

namespace Sys2Proof.Machine

/-! ## States the bit reader cannot tell apart -/

/-- The two states have the same stream, mode and reader position. -/
structure State.SameReader (s t : State) : Prop where
  mem : t.mem = s.mem
  len : t.len = s.len
  mode : t.mode = s.mode
  pos : t.pos = s.pos
  bitOff : t.bitOff = s.bitOff
  cur : t.cur = s.cur

theorem State.SameReader.refl (s : State) : s.SameReader s := ⟨rfl, rfl, rfl, rfl, rfl, rfl⟩

theorem State.SameReader.symm {s t : State} (h : s.SameReader t) : t.SameReader s :=
  ⟨h.mem.symm, h.len.symm, h.mode.symm, h.pos.symm, h.bitOff.symm, h.cur.symm⟩

theorem State.SameReader.trans {s t u : State} (h : s.SameReader t) (h' : t.SameReader u) : s.SameReader u :=
  ⟨h'.mem.trans h.mem, h'.len.trans h.len, h'.mode.trans h.mode, h'.pos.trans h.pos, h'.bitOff.trans h.bitOff,
    h'.cur.trans h.cur⟩

theorem inert_sameReader : Inert State.SameReader where
  mem := State.SameReader.mem
  len := State.SameReader.len
  pos := State.SameReader.pos
  bitOff := State.SameReader.bitOff
  cur := State.SameReader.cur
  setPos _ h := { h with pos := rfl }
  setBitOff _ h := { h with bitOff := rfl }
  setCur _ h := { h with cur := rfl }
  raise _ h := { h with mem := h.mem }

/-! ## Bits to come -/

/-- The next bits from `s` are `bits`; after them the reader stands as in `u`. -/
def State.Delivers (s : State) (bits : List Bool) (u : State) : Prop :=
  ∃ v, s.nextBits bits.length = some (bits, v) ∧ v.SameReader u

section delivers
variable {s t u : State} {bits rest : List Bool}

theorem State.Delivers.of_nextBits (h : s.nextBits bits.length = some (bits, u)) : s.Delivers bits u :=
  ⟨u, h, .refl u⟩

theorem State.Delivers.of_same (h : s.Delivers bits u) (hs : s.SameReader t) : t.Delivers bits u := by
  obtain ⟨v, hv, hu⟩ := h
  obtain ⟨w, hw, hvw⟩ := nextBits_alike inert_sameReader hs hv
  exact ⟨w, hw, hvw.symm.trans hu⟩

theorem State.Delivers.setAcc (h : s.Delivers bits u) (v : BitVec 16) (l : BitVec 5) : (s.setAcc v l).Delivers bits u :=
  h.of_same ⟨rfl, rfl, rfl, rfl, rfl, rfl⟩

theorem State.Delivers.setK (h : s.Delivers bits u) (k : Nat) : (s.setK k).Delivers bits u :=
  h.of_same ⟨rfl, rfl, rfl, rfl, rfl, rfl⟩

theorem State.Delivers.setBlk (h : s.Delivers bits u) (b : Block) : (s.setBlk b).Delivers bits u :=
  h.of_same ⟨rfl, rfl, rfl, rfl, rfl, rfl⟩

/-- Bits at the front are taken first. -/
theorem State.Delivers.take (h : s.Delivers (bits ++ rest) u) :
    ∃ v, s.nextBits bits.length = some (bits, v) ∧ v.Delivers rest u := by
  obtain ⟨w, hw, hu⟩ := h
  obtain ⟨v, hv, hrest⟩ := nextBits_append hw
  exact ⟨v, hv, w, hrest, hu⟩

theorem State.Delivers.nil (h : s.Delivers [] u) : s.SameReader u := by
  obtain ⟨v, hv, hu⟩ := h
  cases hv
  exact hu

theorem State.Delivers.mode (h : s.Delivers bits u) : u.mode = s.mode := by
  obtain ⟨v, hv, hu⟩ := h
  rw [hu.mode, (nextBits_read hv).mode]

end delivers

/-! ## Codes in place -/

/-- From `s` to `t` neither the block nor its counter changed. -/
def State.SameBlock (s t : State) : Prop := t.k = s.k ∧ t.blk = s.blk

theorem State.Read.sameBlock {s t : State} (h : s.Read t) : s.SameBlock t := by
  rw [h.frame]
  exact ⟨rfl, rfl⟩

theorem readCode_delivers {s u : State} {rest : List Bool} {tb : HuffTable} (hv : tb.Valid) {e : HuffEntry}
    (he : e ∈ tb.map) (h : s.Delivers (e.bits ++ rest) u) :
    ∃ t, readCode tb s = .ok e.sym t ∧ t.Delivers rest u ∧ s.SameBlock t := by
  obtain ⟨v, hbits, hrest⟩ := h.take
  rw [entryBits_length] at hbits
  exact ⟨_, readCode_bits hv he hbits, hrest.setAcc _ _, (nextBits_read hbits).sameBlock⟩

/-- A magnitude of a legal category fits an entry of the block (R34, R177). -/
theorem magnitude_fits (m : MagnitudeMode) {bits : List Bool} (h : bits.length ≤ 11) :
    (BitVec.ofInt 16 (magnitude m bits.length (bitsVal bits))).toInt = magnitude m bits.length (bitsVal bits) := by
  rcases Nat.eq_zero_or_pos bits.length with h0 | h0
  · rw [h0, magnitude_zero]
    rfl
  · exact (magnitudeRanges _ _ h0 h (bitsVal_lt bits)).2.2 m

/-! ## Values of a block -/

/-- The entries of a block as integers. -/
def blockInts (b : Block) : List Int := b.toList.map BitVec.toInt

/-- The values of a block of which `vs` are the AC values emitted so far. -/
def blockValues (dc : Int) (vs : List Int) : List Int := dc :: (vs ++ List.replicate (63 - vs.length) 0)

theorem blockInts_zero : blockInts Block.zero = blockValues 0 [] := by
  rw [blockInts, Block.zero, Vector.toList_replicate, List.map_replicate]
  rfl

theorem blockInts_set (b : Block) (j : Nat) {v : Int} (hv : (BitVec.ofInt 16 v).toInt = v) :
    blockInts (b.setIfInBounds j (BitVec.ofInt 16 v)) = (blockInts b).set j v := by
  rw [blockInts, Vector.toList_setIfInBounds, List.map_set, hv]
  rfl

theorem blockValues_zeros {dc : Int} {vs : List Int} {z : Nat} (h : vs.length + z ≤ 63) :
    blockValues dc (vs ++ List.replicate z 0) = blockValues dc vs := by
  have hz : z + (63 - (vs.length + z)) = 63 - vs.length := by omega
  rw [blockValues, List.length_append, List.length_replicate, List.append_assoc, List.replicate_append_replicate, hz]
  rfl

theorem blockValues_set {dc v : Int} {vs : List Int} (h : vs.length < 63) :
    (blockValues dc vs).set (1 + vs.length) v = blockValues dc (vs ++ [v]) := by
  obtain ⟨m, hm⟩ : ∃ m, 63 - vs.length = m + 1 := ⟨62 - vs.length, by omega⟩
  have hm' : 63 - (vs ++ [v]).length = m := by rw [List.length_append, List.length_singleton]; omega
  rw [blockValues, blockValues, hm, hm', Nat.add_comm 1, List.set_cons_succ, List.set_append_right _ _ (Nat.le_refl _),
    Nat.sub_self, List.replicate_succ, List.set_cons_zero, List.append_assoc]
  rfl

/-- The block under assembly has the DC value `dc` and `vs` as its AC values so far. -/
structure State.Filled (s : State) (dc : Int) (vs : List Int) : Prop where
  count : s.k = vs.length
  ints : blockInts s.blk = blockValues dc vs

section filled
variable {dc : Int} {vs : List Int} {s t : State}

theorem State.Filled.first (h : s.blk = Block.zero) (hv : (BitVec.ofInt 16 dc).toInt = dc) :
    ((s.putCoef 0 dc).setK 0).Filled dc [] where
  count := rfl
  ints := by
    rw [State.setK_blk, State.putCoef, State.setBlk_blk, h, blockInts_set _ _ hv, blockInts_zero]
    rfl

theorem State.Filled.same (h : s.Filled dc vs) (hs : s.SameBlock t) : t.Filled dc vs :=
  ⟨hs.1.trans h.count, hs.2 ▸ h.ints⟩

/-- Zeros are emitted by advancing `k` (R194). -/
theorem State.Filled.zeros (h : s.Filled dc vs) {z : Nat} (hz : vs.length + z ≤ 63) :
    (s.setK (s.k + z)).Filled dc (vs ++ List.replicate z 0) where
  count := by rw [State.setK_k, h.count, List.length_append, List.length_replicate]
  ints := by rw [State.setK_blk, h.ints, blockValues_zeros hz]

theorem State.Filled.coef (h : s.Filled dc vs) {v : Int} (hv : (BitVec.ofInt 16 v).toInt = v) (hk : vs.length < 63) :
    ((s.putCoef (1 + s.k) v).setK (s.k + 1)).Filled dc (vs ++ [v]) where
  count := by rw [State.setK_k, h.count, List.length_append, List.length_singleton]
  ints := by
    rw [State.setK_blk, State.putCoef, State.setBlk_blk, blockInts_set _ _ hv, h.ints, h.count, blockValues_set hk]

end filled

/-! ## Items of the listing -/

section items
variable {s u : State} {rest : List Bool} {c : CodeItem}

theorem dcSymbol_delivers {dct : HuffTable} (hc : c.dcOk dct) (hz : s.blk = Block.zero)
    (h : s.Delivers (c.bits ++ rest) u) :
    ∃ t, dcSymbol c.entry.sym s = .ok () t ∧ t.Delivers rest u ∧ (t.setK 0).Filled (c.dcValue u.mode) [] := by
  obtain ⟨-, hcat, hlen⟩ := hc
  have hfill {t : State} (ht : t.blk = s.blk) :=
    State.Filled.first (ht.trans hz) (magnitude_fits u.mode (hlen ▸ hcat))
  by_cases h0 : c.entry.sym = 0
  · have hbits : c.bits = [] := List.length_eq_zero_iff.mp (by rw [hlen, h0]; rfl)
    have hval : c.dcValue u.mode = 0 := by rw [CodeItem.dcValue, hbits, List.length_nil, magnitude_zero]
    rw [hbits] at h
    refine ⟨s.putCoef 0 (c.dcValue u.mode), ?_, h.setBlk _, hfill rfl⟩
    rw [dcSymbol, if_pos h0, dcZeroOp, hval]
  · obtain ⟨v, hbits, hrest⟩ := h.take
    have hmag := dcMagOp_bits hbits
    rw [← h.mode] at hmag
    refine ⟨v.putCoef 0 (c.dcValue u.mode), ?_, hrest.setBlk _, hfill (nextBits_blk hbits)⟩
    rw [dcSymbol, if_neg h0, if_pos hcat, ← hlen]
    exact hmag

/-- An item that emits zeros alone: ZRL or a run (R201, R202). -/
theorem acSymbol_zeros {sym : Byte} (h0 : sym ≠ 0) (hlo : loNibble sym = 0) (s : State) :
    acSymbol sym s = acZeros (if (hiNibble sym).toNat = 15 then 16 else (hiNibble sym).toNat) sym s := by
  have hsym : ofNibbles (hiNibble sym) 0 = sym := by rw [← hlo, byte_nibbles]
  rw [acSymbol, if_neg h0, if_pos hlo]
  by_cases hr : hiNibble sym = 15
  · have hr' : (hiNibble sym).toNat = 15 := congrArg BitVec.toNat hr
    rw [hr] at hsym
    rw [if_pos hr, if_pos hr', ← hsym]
    rfl
  · have hr' : (hiNibble sym).toNat ≠ 15 := fun h => hr (BitVec.eq_of_toNat_eq h)
    rw [if_neg hr, if_neg hr', acRunOp, hsym]

/-- An item that emits a value behind zeros (R203). -/
theorem acSymbol_coef {sym : Byte} (hlo : loNibble sym ≠ 0) (hsz : (loNibble sym).toNat ≤ 10) (s : State) :
    acSymbol sym s = acCoefOp (hiNibble sym) (loNibble sym) s := by
  have h0 : sym ≠ 0 := fun h => hlo (by rw [h]; rfl)
  rw [acSymbol, if_neg h0, if_neg hlo]
  exact if_pos hsz

/-- An AC item other than EOB emits its values. -/
theorem acSymbol_delivers {act : HuffTable} {dc : Int} {vs : List Int} (hc : c.acOk act) (h0 : c.entry.sym ≠ 0)
    (hfill : s.Filled dc vs) (hfit : vs.length + (c.acValues u.mode).length ≤ 63)
    (h : s.Delivers (c.bits ++ rest) u) :
    ∃ t, acSymbol c.entry.sym s = .ok () t ∧ t.Delivers rest u ∧ t.Filled dc (vs ++ c.acValues u.mode) := by
  obtain ⟨-, hsz, hlen⟩ := hc
  rw [CodeItem.acValues] at hfit ⊢
  by_cases hlo : loNibble c.entry.sym = 0
  · have hbits : c.bits = [] := List.length_eq_zero_iff.mp (by rw [hlen, hlo]; rfl)
    rw [hbits] at h
    rw [if_pos hlo] at hfit ⊢
    rw [List.length_replicate] at hfit
    rw [acSymbol_zeros h0 hlo, acZeros_fits _ (hfill.count ▸ hfit)]
    exact ⟨_, rfl, h.setK _, hfill.zeros hfit⟩
  · rw [if_neg hlo] at hfit ⊢
    rw [List.length_append, List.length_replicate, List.length_singleton] at hfit
    obtain ⟨v, hbits, hrest⟩ := h.take
    have hsame := (nextBits_read hbits).sameBlock
    have hrun := (hfill.same hsame).zeros (z := (hiNibble c.entry.sym).toNat) (by omega)
    have hcoef := hrun.coef (magnitude_fits u.mode (by rw [hlen]; exact Nat.le_succ_of_le hsz))
      (by rw [List.length_append, List.length_replicate]; omega)
    have hop := acCoefOp_bits (r := hiNibble c.entry.sym) (by rw [hfill.count]; exact hfit) (hlen ▸ hbits)
    rw [← hsame.1, ← h.mode, ← hlen] at hop
    rw [List.append_assoc] at hcoef
    exact ⟨_, (acSymbol_coef hlo hsz s).trans hop, (hrest.setBlk _).setK _, hcoef⟩

end items

/-! ## The AC loop -/

section loop
variable {act : HuffTable} {s u : State} {rest : List Bool} {dc : Int} {vs : List Int}

/-- The loop ends at the 63rd value. -/
theorem acLoop_full {n : Nat} (hn : 0 < n) (hk : s.k = 63) : acLoop act n s = .ok () s := by
  cases n with
  | zero => exact absurd hn (Nat.lt_irrefl 0)
  | succ n => exact if_neg (by rw [hk]; decide)

/-- A round of the loop takes a code and runs its symbol. -/
theorem acLoop_round {n : Nat} {sym : Byte} {v : State} (hk : s.k < 63) (hread : readCode act s = .ok sym v) :
    acLoop act (n + 1) s = (acSymbol sym v).bind fun _ t => acLoop act n t := by
  have hlt : s.k < Config.acValues := hk
  rw [acLoop, if_pos hlt, hread, Res.bind_ok]

/-- An AC item other than EOB emits at least one value. -/
theorem acValues_pos (m : MagnitudeMode) {c : CodeItem} (h0 : c.entry.sym ≠ 0) : 0 < (c.acValues m).length := by
  rw [CodeItem.acValues]
  split
  · next hlo =>
    have hhi : (hiNibble c.entry.sym).toNat ≠ 0 := fun h => hiNibble_ne_zero h0 hlo (BitVec.eq_of_toNat_eq h)
    rw [List.length_replicate]
    split <;> omega
  · rw [List.length_append, List.length_singleton]
    omega

/-- The items before EOB, one round each. -/
theorem acLoop_items (hv : act.Valid) {cs : List CodeItem} (hc : ∀ c ∈ cs, c.acOk act ∧ c.entry.sym ≠ 0)
    {n : Nat} (hn : 63 - vs.length < n) (hfill : s.Filled dc vs)
    (hfit : (vs ++ cs.flatMap (CodeItem.acValues u.mode)).length ≤ 63)
    (h : s.Delivers (cs.flatMap CodeItem.stream ++ rest) u) :
    ∃ t m, acLoop act n s = acLoop act m t ∧ 63 - t.k < m ∧ t.Delivers rest u ∧
      t.Filled dc (vs ++ cs.flatMap (CodeItem.acValues u.mode)) := by
  induction cs generalizing s vs n with
  | nil => exact ⟨s, n, rfl, hfill.count ▸ hn, h, by simpa using hfill⟩
  | cons c cs ih =>
    obtain ⟨hok, h0⟩ := hc c List.mem_cons_self
    have hpos := acValues_pos u.mode h0
    rw [List.flatMap_cons, ← List.append_assoc] at hfit
    have hsum : vs.length + (c.acValues u.mode).length + (cs.flatMap (CodeItem.acValues u.mode)).length ≤ 63 := by
      rwa [← List.length_append, ← List.length_append]
    obtain ⟨n, rfl⟩ : ∃ m, n = m + 1 := ⟨n - 1, by omega⟩
    rw [List.flatMap_cons, CodeItem.stream, List.append_assoc, List.append_assoc] at h
    obtain ⟨v, hread, hbits, hsame⟩ := readCode_delivers hv hok.1 h
    obtain ⟨t, hsym, hrest, hfill'⟩ := acSymbol_delivers hok h0 (hfill.same hsame) (by omega) hbits
    rw [acLoop_round (by rw [hfill.count]; omega) hread, hsym, Res.bind_ok, List.flatMap_cons, ← List.append_assoc]
    exact ih (fun d hd => hc d (List.mem_cons_of_mem _ hd)) (by rw [List.length_append]; omega) hfill' hfit hrest

/-- EOB leaves the values to come at zero (R200). -/
theorem acLoop_eob (hv : act.Valid) {e : CodeItem} (he : e.acOk act) (h0 : e.entry.sym = 0) {n : Nat}
    (hn : 63 - s.k < n) (hk : s.k < 63) (h : s.Delivers (e.stream ++ rest) u) :
    ∃ t, acLoop act n s = .ok () t ∧ t.Delivers rest u ∧ t.blk = s.blk := by
  obtain ⟨hmem, -, hlen⟩ := he
  have hbits : e.bits = [] := List.length_eq_zero_iff.mp (by rw [hlen, h0]; rfl)
  rw [CodeItem.stream, hbits, List.append_nil] at h
  obtain ⟨v, hread, hrest, -, hblk⟩ := readCode_delivers hv hmem h
  have hsym : acSymbol e.entry.sym v = .ok () (v.setK 63) := if_pos h0
  obtain ⟨n, rfl⟩ : ∃ m, n = m + 1 := ⟨n - 1, by omega⟩
  rw [acLoop_round hk hread, hsym, Res.bind_ok, acLoop_full (by omega) rfl]
  exact ⟨_, rfl, hrest.setK _, hblk⟩

end loop

/-! ## The block -/

/-- The AC part of a listing, from the first AC symbol to the end of the block. -/
theorem acLoop_listing {dct act : HuffTable} {s u : State} {b : BlockCode} {rest : List Bool} (hv : act.Valid)
    (hb : b.Ok dct act u.mode) (hfill : s.Filled (b.dc.dcValue u.mode) [])
    (h : s.Delivers (b.ac.flatMap CodeItem.stream ++ ((b.eob.map CodeItem.stream).getD [] ++ rest)) u) :
    ∃ t, acLoop act 64 s = .ok () t ∧ t.Delivers rest u ∧ blockInts t.blk = b.values u.mode := by
  have hfit : (b.emitted u.mode).length ≤ 63 := by
    by_cases he : b.eob = none
    · exact (hb.full he).le
    · exact (hb.short he).le
  obtain ⟨t, m, hloop, hm, hrest, hfill'⟩ := acLoop_items hv hb.ac (n := 64) (by decide) hfill hfit h
  have hcount : t.k = (b.emitted u.mode).length := hfill'.count
  rw [hloop]
  cases he : b.eob with
  | none =>
    rw [he] at hrest
    have hk : t.k = 63 := hcount.trans (hb.full he)
    exact ⟨t, acLoop_full (by omega) hk, hrest, hfill'.ints⟩
  | some e =>
    rw [he] at hrest
    obtain ⟨heok, he0⟩ := hb.eobItem e he
    have hk : t.k < 63 := hcount ▸ hb.short (by rw [he]; exact Option.some_ne_none e)
    obtain ⟨w, hw, hrest', hblk⟩ := acLoop_eob hv heok he0 hm hk hrest
    exact ⟨w, hw, hrest', hblk ▸ hfill'.ints⟩

theorem decodeBlockWith_listing {dct act : HuffTable} {s u : State} {b : BlockCode} {rest : List Bool}
    (hvd : dct.Valid) (hva : act.Valid) (hb : b.Ok dct act u.mode) (h : s.Delivers (b.stream ++ rest) u) :
    ∃ t, decodeBlockWith dct act s = .ok t.blk t ∧ t.Delivers rest u ∧ blockInts t.blk = b.values u.mode := by
  rw [BlockCode.stream, CodeItem.stream, List.append_assoc, List.append_assoc, List.append_assoc] at h
  obtain ⟨v, hread, hbits, -, hblk⟩ := readCode_delivers hvd hb.dc.1 (h.setBlk Block.zero)
  obtain ⟨w, hdc, hrest, hfill⟩ := dcSymbol_delivers hb.dc hblk hbits
  obtain ⟨t, hac, hend, hints⟩ := acLoop_listing hva hb hfill (hrest.setK 0)
  refine ⟨t, ?_, hend, hints⟩
  rw [decodeBlockWith, hread, Res.bind_ok, hdc, Res.bind_ok]
  exact congrArg (Res.bind · fun _ s => .ok s.blk s) hac

theorem decodeBlockOp_tables {s : State} {id : Byte} {dct act : HuffTable} (h : s.tablesOf id = some (dct, act)) :
    decodeBlockOp id s = decodeBlockWith dct act s := by
  rw [decodeBlockOp, h]

/-- Settles O37: `decodeBlockWith_listing`, and what `decodeBlockWith_ends` says stays. -/
theorem decodeBlockInvertsTheListing : Obligations.DecodeBlockInvertsTheListing := by
  intro s u id dct act b htab hvd hva hb hbits
  have hmode : u.mode = s.mode := (nextBits_read hbits).mode
  have hdel : s.Delivers (b.stream ++ []) u := by
    rw [List.append_nil]
    exact .of_nextBits hbits
  obtain ⟨t, hdec, hend, hints⟩ := decodeBlockWith_listing hvd hva (hmode ▸ hb) hdel
  have hends := decodeBlockWith_ends dct act s
  rw [hdec] at hends
  obtain ⟨hframe, hk, -⟩ := hends
  have hrun : exec (.decodeBlock id) s = (decodeBlockOp id s).outcomeRet Ret.block := rfl
  refine ⟨t.setRet (.block t.blk), ?runs, hmode ▸ hints, rfl, hk, ?frame⟩
  case runs => rw [hrun, decodeBlockOp_tables htab, hdec, Res.outcomeRet_ok]
  case frame =>
    obtain ⟨-, -, -, hpos, hoff, hcur⟩ := hend.nil
    have hu := (nextBits_read hbits).frame
    rw [hframe.frame, hu, ← hpos, ← hoff, ← hcur]
    rfl

end Sys2Proof.Machine
end

section
/-! SUPPORT. No block depends on an earlier one (spec/46_mcu_decoder.md R206): run from two states with the same reader
and the same tables, DECODE_BLOCK ends alike, with the same block. -/

namespace Sys2Proof.Machine

/-! ## Reading codes and fields -/

/-- A relation of states that READCODE and READMAG cannot tell apart, kept by what they write. -/
structure InertCode (R : State → State → Prop) : Prop extends Inert R where
  mode : ∀ {s t}, R s t → t.mode = s.mode
  acc : ∀ {s t}, R s t → t.acc = s.acc
  accLen : ∀ {s t}, R s t → t.accLen = s.accLen
  setAcc : ∀ {s t} (v : BitVec 16) (l : BitVec 5), R s t → R (s.setAcc v l) (t.setAcc v l)

theorem Res.Alike.mono {α : Type} {R R' : State → State → Prop} {r r' : Res α} (h : r.Alike R r')
    (hR : ∀ s t, R s t → R' s t) : r.Alike R' r' := by
  cases r with
  | ok a s =>
    obtain ⟨t, rfl, ht⟩ := h.of_ok rfl
    exact ⟨rfl, hR s t ht⟩
  | raised s =>
    obtain ⟨t, rfl, ht⟩ := h.of_raised rfl
    exact hR s t ht
  | stop f =>
    cases r' with
    | ok b t => exact h.elim
    | raised t => exact h.elim
    | stop g => exact h

section codes
variable {R : State → State → Prop} {s t : State}

theorem readCodeLoop_alike (hR : InertCode R) (h : R s t) (tb : HuffTable) (n : Nat) :
    (readCodeLoop tb n s).Alike R (readCodeLoop tb n t) := by
  induction n generalizing s t with
  | zero =>
    rw [readCodeLoop, readCodeLoop, hR.pos h, hR.acc h]
    exact hR.raise _ h
  | succ n ih =>
    refine (nextBit_alike hR.toInert h).bind fun b u v h => ?_
    have hset := hR.setAcc (BitVec.ofNat 16 (2 * u.acc.toNat + bitVal b)) (u.accLen + 1) h
    rw [hR.acc h, hR.accLen h]
    dsimp only [State.setAcc_acc, State.setAcc_accLen]
    split
    · exact ⟨rfl, hset⟩
    · exact ih hset

theorem readCode_alike (hR : InertCode R) (h : R s t) (tb : HuffTable) :
    (readCode tb s).Alike R (readCode tb t) := readCodeLoop_alike hR (hR.setAcc 0 0 h) tb _

theorem readMagnitude_alike (hR : InertCode R) (h : R s t) (n : Nat) :
    (readMagnitude n s).Alike R (readMagnitude n t) := by
  refine (readBits_alike hR.toInert h n 0).bind fun w u v h => ?_
  rw [hR.mode h]
  exact ⟨rfl, h⟩

end codes

/-! ## States that assemble the same block -/

/-- The two states agree in the reader, the code accumulator and the block, and in whether a fault was raised. -/
structure State.SameAssembly (s t : State) : Prop extends s.SameReader t where
  acc : t.acc = s.acc
  accLen : t.accLen = s.accLen
  blk : t.blk = s.blk
  faulted : t.phase = .fault ↔ s.phase = .fault

theorem inertCode_sameAssembly : InertCode State.SameAssembly where
  mem h := h.mem
  len h := h.len
  pos h := h.pos
  bitOff h := h.bitOff
  cur h := h.cur
  setPos _ h := { h with pos := rfl }
  setBitOff _ h := { h with bitOff := rfl }
  setCur _ h := { h with cur := rfl }
  raise _ h := { h with faulted := Iff.rfl }
  mode h := h.mode
  acc := State.SameAssembly.acc
  accLen := State.SameAssembly.accLen
  setAcc _ _ h := { h with acc := rfl, accLen := rfl }

/-- The two states also agree in the number of AC values. -/
def State.SameAssemblyK (s t : State) : Prop := s.SameAssembly t ∧ t.k = s.k

theorem inertCode_sameAssemblyK : InertCode State.SameAssemblyK where
  mem h := h.1.mem
  len h := h.1.len
  pos h := h.1.pos
  bitOff h := h.1.bitOff
  cur h := h.1.cur
  setPos p h := ⟨inertCode_sameAssembly.setPos p h.1, h.2⟩
  setBitOff b h := ⟨inertCode_sameAssembly.setBitOff b h.1, h.2⟩
  setCur b h := ⟨inertCode_sameAssembly.setCur b h.1, h.2⟩
  raise f h := ⟨inertCode_sameAssembly.raise f h.1, h.2⟩
  mode h := h.1.mode
  acc h := h.1.acc
  accLen h := h.1.accLen
  setAcc v l h := ⟨inertCode_sameAssembly.setAcc v l h.1, h.2⟩

section assembly
variable {s t : State}

theorem State.SameAssembly.putCoef (h : s.SameAssembly t) (j : Nat) (v : Int) :
    (s.putCoef j v).SameAssembly (t.putCoef j v) :=
  { h with blk := congrArg (·.setIfInBounds j (BitVec.ofInt 16 v)) h.blk }

theorem State.SameAssembly.setK (h : s.SameAssembly t) (k : Nat) : (s.setK k).SameAssemblyK (t.setK k) :=
  ⟨{ h with acc := h.acc }, rfl⟩

/-! ## The symbols and the loop -/

theorem dcSymbol_alike (h : s.SameAssembly t) (n : Byte) :
    (dcSymbol n s).Alike State.SameAssembly (dcSymbol n t) := by
  rw [dcSymbol, dcSymbol]
  split
  · exact ⟨rfl, h.putCoef 0 0⟩
  split
  · exact (readMagnitude_alike inertCode_sameAssembly h _).bind fun v _ _ h => ⟨rfl, h.putCoef 0 v⟩
  · exact inertCode_sameAssembly.raise _ h

theorem acZeros_alike (h : s.SameAssemblyK t) (z : Nat) (sym : Byte) :
    (acZeros z sym s).Alike State.SameAssemblyK (acZeros z sym t) := by
  rw [acZeros, acZeros, h.2]
  split
  · exact inertCode_sameAssemblyK.raise _ h
  · exact ⟨rfl, h.1.setK _⟩

theorem acCoefOp_alike (h : s.SameAssemblyK t) (r sz : Nibble) :
    (acCoefOp r sz s).Alike State.SameAssemblyK (acCoefOp r sz t) := by
  rw [acCoefOp, acCoefOp, h.2]
  split
  · exact inertCode_sameAssemblyK.raise _ h
  · refine (readMagnitude_alike inertCode_sameAssemblyK (h.1.setK _) _).bind fun v u w h => ?_
    rw [h.2]
    exact ⟨rfl, (h.1.putCoef _ v).setK _⟩

theorem acSymbol_alike (h : s.SameAssemblyK t) (sym : Byte) :
    (acSymbol sym s).Alike State.SameAssemblyK (acSymbol sym t) := by
  rw [acSymbol, acSymbol]
  split
  · exact ⟨rfl, h.1.setK _⟩
  split
  · split
    · exact acZeros_alike h 16 0xF0
    · exact acZeros_alike h _ _
  split
  · exact acCoefOp_alike h _ _
  · exact inertCode_sameAssemblyK.raise _ h

theorem acLoop_alike (h : s.SameAssemblyK t) (act : HuffTable) (n : Nat) :
    (acLoop act n s).Alike State.SameAssemblyK (acLoop act n t) := by
  induction n generalizing s t with
  | zero => rfl
  | succ n ih =>
    rw [acLoop, acLoop, h.2]
    split
    · exact (readCode_alike inertCode_sameAssemblyK h act).bind fun sym _ _ h =>
        (acSymbol_alike h sym).bind fun _ _ _ h => ih h
    · exact ⟨rfl, h⟩

/-- What an earlier block left in `acc` and `blk` is cleared, and in `k` before the AC part, so it is not seen. -/
theorem decodeBlockWith_alike (h : s.SameReader t) (hf : t.phase = .fault ↔ s.phase = .fault) (dct act : HuffTable) :
    (decodeBlockWith dct act s).Alike State.SameAssembly (decodeBlockWith dct act t) := by
  have hclear : ((s.setBlk Block.zero).setAcc 0 0).SameAssembly ((t.setBlk Block.zero).setAcc 0 0) :=
    { h with acc := rfl, accLen := rfl, blk := rfl, faulted := hf }
  refine (readCodeLoop_alike inertCode_sameAssembly hclear dct _).bind fun n _ _ h => ?_
  refine (dcSymbol_alike h n).bind fun _ _ _ h => ?_
  refine ((acLoop_alike (h.setK 0) act _).mono fun _ _ h => h.1).bind fun _ u v h => ?_
  rw [h.blk]
  exact ⟨rfl, h⟩

theorem decodeBlockOp_alike (h : s.SameReader t) (hf : t.phase = .fault ↔ s.phase = .fault) {id : Byte}
    (htab : t.tablesOf id = s.tablesOf id) :
    (decodeBlockOp id s).Alike State.SameAssembly (decodeBlockOp id t) := by
  rw [decodeBlockOp, decodeBlockOp, htab]
  split
  · rfl
  · exact decodeBlockWith_alike h hf _ _

end assembly

/-- Settles O38: `decodeBlockOp_alike`, the result register written on both sides. -/
theorem blocksAreIndependent : Obligations.BlocksAreIndependent := by
  intro s s' t id htab hmem hlen hmode hpos hoff hcur hs hs' hrun
  have halike := decodeBlockOp_alike (s := s) (t := s') ⟨hmem, hlen, hmode, hpos, hoff, hcur⟩
    (iff_of_false hs' hs) htab
  have hret := halike.bind (k := fun b u => .ok b (u.setRet (.block b))) (k' := fun b u => .ok b (u.setRet (.block b)))
    fun _ _ _ h => ⟨rfl, { h with acc := h.acc }⟩
  obtain ⟨t', hrun', hsame⟩ := hret.next hrun
  exact ⟨t', hrun', hsame.blk, hsame.pos, hsame.bitOff, hsame.cur, hsame.faulted⟩

end Sys2Proof.Machine
end

section
/-! SUPPORT. The scan start (spec/46_mcu_decoder.md R190 to R192): what the scan-start check finds first, the order of
the MCU structure, and the grid as the smallest that covers the image. -/

namespace Sys2Proof.Machine

/-! ## CHECK_CONFIG -/

section check
variable {s : State} {c : Component}

theorem samplingGood_iff (c : Component) : c.SamplingGood ↔ (samplingOk c.H && samplingOk c.V) = true := by
  rw [Bool.and_eq_true, samplingOk_iff, samplingOk_iff, and_assoc]

theorem quantGood_iff (s : State) (c : Component) :
    c.QuantGood s ↔ (decide (Config.lastQuantSlot < c.tq.toNat) || (s.qtAt c.tq.toNat).isNone) = false := by
  rw [Bool.or_eq_false_iff, decide_eq_false_iff_not, Nat.not_lt, Option.isNone_eq_false_iff]
  rfl

theorem componentError_sampling (h : ¬ c.SamplingGood) : componentError s c = some .sampling := by
  rw [samplingGood_iff, Bool.not_eq_true] at h
  rw [componentError, h]
  rfl

theorem componentError_noSelector (h : c.SamplingGood) (hsel : c.sel = none) :
    componentError s c = some .noSelector := by
  rw [componentError, (samplingGood_iff c).mp h, hsel]
  rfl

/-- With sampling factors and a selector given, the three tables decide. -/
theorem componentError_tables {sel : Selector} (h : c.SamplingGood) (hsel : c.sel = some sel) :
    componentError s c =
      if decide (Config.lastQuantSlot < c.tq.toNat) || (s.qtAt c.tq.toNat).isNone then some .noQuantTable
      else if (s.htAt .dc sel.td).isNone then some .noDcTable
      else if (s.htAt .ac sel.ta).isNone then some .noAcTable
      else none := by
  rw [componentError, (samplingGood_iff c).mp h, hsel]
  rfl

/-- Good components at the front are passed over. -/
theorem componentsError_append {pre l : List (Nat × Component)} (h : ∀ e ∈ pre, e.2.Good s) :
    componentsError s (pre ++ l) = componentsError s l := by
  induction pre with
  | nil => rfl
  | cons e pre ih =>
    rw [List.forall_mem_cons] at h
    rw [List.cons_append, componentsError, (componentError_none s e.2).mpr h.1, ih h.2]

/-- The error of the first component that is not good is the one raised. -/
theorem configError_first {pre post : List (Nat × Component)} {id : Nat} {r : ConfigReason}
    (h1 : (s.compAt 1).isSome = true) (hcomp : s.comp = pre ++ (id, c) :: post) (hpre : ∀ e ∈ pre, e.2.Good s)
    (hc : componentError s c = some r) : configError s = some (r, id) := by
  obtain ⟨c1, hc1⟩ := Option.isSome_iff_exists.mp h1
  rw [configError, hc1, hcomp]
  dsimp only
  rw [componentsError_append hpre, componentsError, hc]

theorem checkConfig_raises {r : ConfigReason} {id : Nat} (h : configError s = some (r, id)) :
    exec .checkConfig s = .next (s.raise (.invalidConfiguration r id)) := by
  have hrun : exec .checkConfig s = (checkConfigOp s).outcome := rfl
  rw [hrun, checkConfigOp, h]
  rfl

theorem checkConfigOp_good (h : s.ConfigGood) : checkConfigOp s = .ok () s := by
  rw [checkConfigOp, (configError_none s).mpr h]

/-- Settles O39: `configError_first`, with the error of the component by its branch. -/
theorem checkConfigCases : Obligations.CheckConfigCases := by
  intro s
  refine ⟨fun hgood => ?good, fun h1 => checkConfig_raises ?missing, fun pre post id c h1 hcomp hpre => ?first⟩
  case good =>
    have hrun : exec .checkConfig s = (checkConfigOp s).outcome := rfl
    rw [hrun, checkConfigOp_good hgood, Res.outcome_ok]
  case missing => rw [configError, h1]
  case first =>
    have hraise {r : ConfigReason} (hc : componentError s c = some r) :=
      checkConfig_raises (configError_first h1 hcomp hpre hc)
    refine ⟨fun hs => hraise (componentError_sampling hs), fun hs hsel => hraise (componentError_noSelector hs hsel),
      fun sel hs hsel => ⟨fun hq => hraise ?quant, fun hq hd => hraise ?dc, fun hq hd ha => hraise ?ac⟩⟩
    all_goals rw [componentError_tables hs hsel]
    case quant =>
      rw [quantGood_iff, Bool.not_eq_false] at hq
      rw [if_pos hq]
    case dc =>
      rw [if_neg (Bool.not_eq_true _ ▸ (quantGood_iff s c).mp hq), hd]
      rfl
    case ac =>
      obtain ⟨dct, hdct⟩ := Option.isSome_iff_exists.mp hd
      rw [if_neg (Bool.not_eq_true _ ▸ (quantGood_iff s c).mp hq), hdct, ha]
      rfl

end check

/-! ## BUILD_MSTRUCT -/

section mstruct
variable {α : Type}

/-- A key below the bound of a canonical list is not listed. -/
theorem Slots.get_below {lo k : Nat} {m : List (Nat × α)} (h : Slots.sortedFrom lo m = true) (hk : k < lo) :
    Slots.get k m = none := by
  cases hg : Slots.get k m with
  | none => rfl
  | some v => exact absurd (Slots.sortedFrom_le h (Slots.get_mem hg)) (Nat.not_le.mpr hk)

theorem Slots.pairwise_lt {lo : Nat} {m : List (Nat × α)} (h : Slots.sortedFrom lo m = true) :
    m.Pairwise fun a b => a.1 < b.1 := by
  induction m generalizing lo with
  | nil => exact .nil
  | cons e m ih =>
    obtain ⟨k, v⟩ := e
    simp only [Slots.sortedFrom, Bool.and_eq_true] at h
    exact .cons (fun a ha => Slots.sortedFrom_le h.2 ha) (ih h.2)

theorem mstructOf_pairwise {l : List (Nat × Component)} (hsorted : l.Pairwise fun a b => a.1 < b.1)
    (hid : ∀ e ∈ l, e.1 < 256) : (mstructOf l).Pairwise fun a b => a.toNat ≤ b.toNat := by
  rw [mstructOf, List.pairwise_flatMap]
  refine ⟨fun e _ => List.pairwise_replicate.mpr (.inr (Nat.le_refl _)), ?_⟩
  refine hsorted.imp_of_mem fun {a b} ha hb hab x hx y hy => ?_
  rw [(List.mem_replicate.mp hx).2, (List.mem_replicate.mp hy).2, BitVec.toNat_ofNat, BitVec.toNat_ofNat,
    Nat.mod_eq_of_lt (hid a ha), Nat.mod_eq_of_lt (hid b hb)]
  exact hab.le

/-- How often the MCU structure visits a component: `H * V` times (R191). -/
def Component.visits (c : Option Component) : Nat :=
  match c with
  | some c => c.H.toNat * c.V.toNat
  | none => 0

theorem count_mstructOf {lo : Nat} {l : List (Nat × Component)} (hsorted : Slots.sortedFrom lo l = true)
    (hid : ∀ e ∈ l, e.1 < 256) (id : Byte) :
    (mstructOf l).count id = Component.visits (Slots.get id.toNat l) := by
  induction l generalizing lo with
  | nil => rfl
  | cons e l ih =>
    obtain ⟨k, c⟩ := e
    rw [List.forall_mem_cons] at hid
    simp only [Slots.sortedFrom, Bool.and_eq_true] at hsorted
    have hk : BitVec.ofNat 8 k = id ↔ k = id.toNat := by
      rw [← BitVec.toNat_inj, BitVec.toNat_ofNat, Nat.mod_eq_of_lt hid.1]
    rw [mstructOf, List.flatMap_cons, List.count_append, List.count_replicate]
    change _ + (mstructOf l).count id = _
    rw [ih hsorted.2 hid.2, Slots.get]
    by_cases h : k = id.toNat
    · rw [if_pos h, if_pos (beq_iff_eq.mpr (hk.mpr h)), Slots.get_below hsorted.2 (h ▸ Nat.lt_succ_self k)]
      rfl
    · rw [if_neg h, if_neg fun hb => h (hk.mp (beq_iff_eq.mp hb)), Nat.zero_add]

/-- Settles O40: the order by `mstructOf_pairwise`, the numbers by `count_mstructOf`. -/
theorem buildMstructOrder : Obligations.BuildMstructOrder := fun _ hs =>
  ⟨_, rfl, mstructOf_pairwise (Slots.pairwise_lt hs.comp) hs.compIds, count_mstructOf hs.comp hs.compIds⟩

end mstruct

/-! ## GRID -/

/-- `ceildiv a b` is the least number of `b`s that reach `a` (R9). -/
theorem ceildiv_le_iff {a b q : Nat} (hb : 1 ≤ b) : ceildiv a b ≤ q ↔ a ≤ b * q := by
  rw [ceildiv, if_neg (Nat.ne_of_gt hb), ← Nat.ceilDiv_eq_add_pred_div]
  exact ceilDiv_le_iff_le_mul hb

/-- The number of MCUs of sampling factor `f` that cover `n` samples: no fewer, and no more than needed (R192). -/
theorem ceildiv_ceildiv_covers {n f : Nat} (hf : 1 ≤ f) :
    n ≤ 8 * f * ceildiv (ceildiv n 8) f ∧
      (ceildiv (ceildiv n 8) f = 0 ∨ 8 * f * (ceildiv (ceildiv n 8) f - 1) < n) := by
  have hle (q : Nat) : ceildiv (ceildiv n 8) f ≤ q ↔ n ≤ 8 * f * q := by
    rw [ceildiv_le_iff hf, ceildiv_le_iff (by decide), Nat.mul_assoc]
  refine ⟨(hle _).mp (Nat.le_refl _), ?_⟩
  rw [← Nat.not_le, ← hle]
  omega

theorem gridOp_valid {s : State} {im : Image} {c : Component} (him : s.img = some im) (hc : s.compAt 1 = some c) :
    gridOp s = .ok () (s.setGrid (ceildiv (ceildiv im.width.toNat 8) c.H.toNat)
      (ceildiv (ceildiv im.height.toNat 8) c.V.toNat)
      (ceildiv (ceildiv im.width.toNat 8) c.H.toNat * ceildiv (ceildiv im.height.toNat 8) c.V.toNat)) := by
  rw [gridOp, him, hc]

/-- Settles O41: `ceildiv_ceildiv_covers` across and down. -/
theorem gridCoversTheImage : Obligations.GridCoversTheImage := by
  intro s im c him hc hH hV
  have hrun : exec .grid s = (gridOp s).outcome := rfl
  obtain ⟨hcols, hcolsLeast⟩ := ceildiv_ceildiv_covers (n := im.width.toNat) hH
  obtain ⟨hrows, hrowsLeast⟩ := ceildiv_ceildiv_covers (n := im.height.toNat) hV
  refine ⟨_, _, ?_, hcols, hcolsLeast, hrows, hrowsLeast⟩
  rw [hrun, gridOp_valid him hc]
  rfl

end Sys2Proof.Machine
end

section
/-! SUPPORT. SCAN as a whole (spec/46_mcu_decoder.md R193, R208): it ends in DONE or FAULT, at once when the image is
empty, and on the listing of its MCUs it gives their values back. -/

namespace Sys2Proof.Machine

/-! ## The scan loop after a scan start that passes -/

/-- The state in which the MCU loop begins: MCU structure and grid written, the reader at a byte boundary. -/
def State.scanStart (s : State) (cols rows : Nat) : State :=
  { s with
    mstruct := mstructOf s.comp, mcuCols := cols, mcuRows := rows, mcuTotal := cols * rows, mcuIdx := 0, bitOff := 0 }

section scanStart
variable (s : State) (cols rows : Nat)

@[simp] theorem State.scanStart_mcuIdx : (s.scanStart cols rows).mcuIdx = 0 := rfl
@[simp] theorem State.scanStart_mstruct : (s.scanStart cols rows).mstruct = mstructOf s.comp := rfl
@[simp] theorem State.scanStart_tablesOf (id : Byte) : (s.scanStart cols rows).tablesOf id = s.tablesOf id := rfl

theorem State.scanStart_eq_set : s.scanStart cols rows =
    (((s.setMstruct (mstructOf s.comp)).setGrid cols rows (cols * rows)).setBitOff 0).setMcuIdx 0 := by
  apply State.ext <;> simp [State.scanStart]

/-- At a byte boundary the reader is not moved by the scan start. -/
theorem State.sameReader_scanStart (h : s.bitOff = 0) : s.SameReader (s.scanStart cols rows) :=
  ⟨rfl, rfl, rfl, rfl, h.symm, rfl⟩

end scanStart

theorem scanOp_good {s : State} {cols rows : Nat} (hgood : s.ConfigGood)
    (hgrid : gridOp (s.setMstruct (mstructOf s.comp)) =
      .ok () ((s.setMstruct (mstructOf s.comp)).setGrid cols rows (cols * rows))) :
    scanOp s = (scanMcus (cols * rows) (s.scanStart cols rows)).bind fun _ t => scanDoneOp t := by
  rw [scanOp, checkConfigOp_good hgood, Res.bind_ok, buildMstructOp, Res.bind_ok, hgrid, Res.bind_ok,
    State.scanStart_eq_set, State.setGrid_mcuTotal]

/-! ## How SCAN ends -/

theorem scanMcus_start_ends {s : State} (hs : s.StoresOk) (hgood : s.ConfigGood) (cols rows : Nat) :
    (scanMcus (cols * rows) (s.scanStart cols rows)).Ends
      (fun _ t => (s.scanStart cols rows).Scanned t ∧ t.mcuIdx = cols * rows)
      (Raised State.Scanned FaultInfo.ofBlock (s.scanStart cols rows)) := by
  refine (scanMcus_ends (cols * rows) (s.scanStart cols rows) fun id hid => ?tables).imp ?loop fun _ h => h
  case tables =>
    rw [State.scanStart_mstruct] at hid
    rw [State.scanStart_tablesOf]
    exact tablesOf_good hs hgood hid
  case loop =>
    rintro - t ⟨hscanned, hidx, -⟩
    rw [State.scanStart_mcuIdx, Nat.zero_add] at hidx
    exact ⟨hscanned, hidx⟩

/-- SCAN ends in DONE, or in FAULT. -/
theorem scanOp_ends {s : State} (hs : s.StoresOk) (hi : s.ImageOk) :
    (scanOp s).Ends (fun _ t => t.phase = .done) fun t => t.phase = .fault := by
  cases hc : configError s with
  | some e =>
    have hraise : scanOp s = .raised (s.raise (.invalidConfiguration e.1 e.2)) := by
      rw [scanOp, checkConfigOp, hc]
      rfl
    rw [hraise]
    rfl
  | none =>
    have hgood := (configError_none s).mp hc
    obtain ⟨cols, rows, hgrid⟩ := gridOp_good (s := s.setMstruct (mstructOf s.comp)) hgood hi
    rw [scanOp_good hgood hgrid]
    refine ((scanMcus_start_ends hs hgood cols rows).imp (fun _ _ h => h) ?_).bind fun _ t _ => rfl
    rintro t ⟨u, f, -, -, rfl⟩
    rfl

/-- Settles O44: `scanOp_ends`, as the outcome of SCAN. -/
theorem scanAlwaysEnds : Obligations.ScanAlwaysEnds := by
  intro s hs hi
  have hrun : exec .scan s = (scanOp s).outcome := rfl
  rw [hrun]
  obtain ⟨t, hnext, ⟨_, -, hdone⟩ | ⟨-, hfault⟩⟩ := (scanOp_ends hs hi).outcome
  · exact ⟨t, hnext, .inl hdone⟩
  · exact ⟨t, hnext, .inr hfault⟩

/-! ## An empty image -/

theorem ceildiv_zero {b : Nat} (hb : 1 ≤ b) : ceildiv 0 b = 0 :=
  Nat.le_zero.mp ((ceildiv_le_iff hb).mpr (Nat.zero_le _))

theorem ceildiv_ceildiv_zero {d : Half} {f : Nat} (hd : d = 0) (hf : 1 ≤ f) : ceildiv (ceildiv d.toNat 8) f = 0 := by
  have h0 : d.toNat = 0 := congrArg BitVec.toNat hd
  rw [h0, ceildiv_zero (by decide), ceildiv_zero hf]

/-- Settles O42: without width or height the grid is empty and the MCU loop runs no round. -/
theorem scanOfAnEmptyImage : Obligations.ScanOfAnEmptyImage := by
  intro s
  refine ⟨rfl, fun im hgood him hempty => ?_⟩
  have hrun : exec .scan s = (scanOp s).outcome := rfl
  obtain ⟨c, hc⟩ := Option.isSome_iff_exists.mp hgood.1
  obtain ⟨⟨hH, -, hV, -⟩, -⟩ := hgood.2 _ (Slots.get_mem hc)
  have hgrid := gridOp_valid (s := s.setMstruct (mstructOf s.comp)) him hc
  have hzero : ceildiv (ceildiv im.width.toNat 8) c.H.toNat * ceildiv (ceildiv im.height.toNat 8) c.V.toNat = 0 := by
    rcases hempty with h | h
    · rw [ceildiv_ceildiv_zero h hH, Nat.zero_mul]
    · rw [ceildiv_ceildiv_zero h hV, Nat.mul_zero]
  have hscan := scanOp_good hgood hgrid
  rw [hzero, scanMcus, Res.bind_ok, State.scanStart, hzero] at hscan
  rw [hrun, hscan]
  exact ⟨_, rfl, rfl⟩

/-! ## The listing of the MCUs -/

/-- Block `b` may be sent for component `id`: it is written with the tables of that component, both valid. -/
def State.Sends (s : State) (id : Byte) (b : BlockCode) : Prop :=
  ∃ dct act, s.tablesOf id = some (dct, act) ∧ dct.Valid ∧ act.Valid ∧ b.Ok dct act s.mode

theorem tablesOf_valid {s : State} (hs : s.StoresOk) {id : Byte} {dct act : HuffTable}
    (h : s.tablesOf id = some (dct, act)) : dct.Valid ∧ act.Valid := by
  rw [State.tablesOf] at h
  split at h
  · cases h
  split at h
  · cases h
  split at h
  · next hd ha =>
    cases h
    exact ⟨hs.huffDc _ (Slots.get_mem hd), hs.huffAc _ (Slots.get_mem ha)⟩
  · cases h

/-- The blocks of an MCU, entry by entry of the MCU structure. -/
theorem sends_of_getElem {s : State} (hs : s.StoresOk) {ids : List Byte} {m : List BlockCode}
    (hlen : m.length = ids.length)
    (h : ∀ (i : Nat) (b : BlockCode), m[i]? = some b →
      ∃ id dct act, ids[i]? = some id ∧ s.tablesOf id = some (dct, act) ∧ BlockCode.Ok dct act s.mode b) :
    List.Forall₂ s.Sends ids m := by
  refine List.forall₂_iff_get.mpr ⟨hlen.symm, fun i h₁ h₂ => ?_⟩
  obtain ⟨id, dct, act, hid, htab, hok⟩ := h i _ (List.getElem?_eq_getElem h₂)
  obtain ⟨_, rfl⟩ := List.getElem?_eq_some_iff.mp hid
  obtain ⟨hd, ha⟩ := tablesOf_valid hs htab
  exact ⟨dct, act, htab, hd, ha, hok⟩

theorem State.Scanned.sends {s t : State} (h : s.Scanned t) : t.Sends = s.Sends := by
  have hmode : t.mode = s.mode := by rw [h.frame]
  funext id b
  rw [State.Sends, State.Sends, h.tablesOf, hmode]

/-- The values of the blocks of an MCU. -/
def mcuInts (m : List Block) : List (List Int) := m.map blockInts

/-! ### The steps of the loops -/

/-- The block just decoded is appended to the MCU. -/
def State.addBlock (s : State) : State := (s.setMcu (s.mcu ++ [s.blk])).setBlkIdx (s.blkIdx + 1)

/-- The next MCU is begun. -/
def State.openMcu (s : State) : State := (s.setMcu []).setBlkIdx 0

/-- The MCU is complete and appended to the output. -/
def State.closeMcu (s : State) : State := (s.setOut (s.out ++ [s.mcu])).setMcuIdx (s.mcuIdx + 1)

section steps
variable {s t u : State} {bits : List Bool}

theorem scanBlocks_cons {id : Byte} {ids : List Byte} (h : decodeBlockOp id s = .ok t.blk t) :
    scanBlocks (id :: ids) s = scanBlocks ids t.addBlock := by
  rw [scanBlocks, h]
  rfl

theorem scanMcus_succ {n : Nat} (h : scanBlocks s.mstruct s.openMcu = .ok () t) :
    scanMcus (n + 1) s = scanMcus n t.closeMcu := by
  change (scanBlocks s.mstruct s.openMcu).bind _ = _
  rw [h]
  rfl

theorem State.scanned_addBlock (s : State) : s.Scanned s.addBlock := ⟨.refl s, rfl⟩
theorem State.scanned_openMcu (s : State) : s.Scanned s.openMcu := ⟨.refl s, rfl⟩
theorem State.scanned_closeMcu (s : State) : s.Scanned s.closeMcu := ⟨.refl s, rfl⟩

theorem State.Delivers.addBlock (h : s.Delivers bits u) : s.addBlock.Delivers bits u :=
  h.of_same ⟨rfl, rfl, rfl, rfl, rfl, rfl⟩

theorem State.Delivers.openMcu (h : s.Delivers bits u) : s.openMcu.Delivers bits u :=
  h.of_same ⟨rfl, rfl, rfl, rfl, rfl, rfl⟩

theorem State.Delivers.closeMcu (h : s.Delivers bits u) : s.closeMcu.Delivers bits u :=
  h.of_same ⟨rfl, rfl, rfl, rfl, rfl, rfl⟩

theorem State.mcuInts_addBlock (s : State) : mcuInts s.addBlock.mcu = mcuInts s.mcu ++ [blockInts s.blk] :=
  List.map_append

theorem State.outInts_closeMcu (s : State) : s.closeMcu.out.map mcuInts = s.out.map mcuInts ++ [mcuInts s.mcu] :=
  List.map_append

end steps

section listing
variable {s u : State} {rest : List Bool}

/-- The blocks of an MCU are decoded to their values, the first bits being theirs. -/
theorem scanBlocks_listing {ids : List Byte} {m : List BlockCode} (hm : List.Forall₂ s.Sends ids m)
    (h : s.Delivers (m.flatMap BlockCode.stream ++ rest) u) :
    ∃ t, scanBlocks ids s = .ok () t ∧ t.Delivers rest u ∧ s.Scanned t ∧ t.out = s.out ∧
      mcuInts t.mcu = mcuInts s.mcu ++ m.map (BlockCode.values u.mode) := by
  induction m generalizing s ids with
  | nil =>
    cases hm
    exact ⟨s, rfl, h, .refl s, rfl, (List.append_nil _).symm⟩
  | cons b m ih =>
    cases hm with
    | @cons id _ ids _ hb hm =>
    obtain ⟨dct, act, htab, hd, ha, hok⟩ := hb
    rw [List.flatMap_cons, List.append_assoc] at h
    obtain ⟨t, hdec, hrest, hints⟩ := decodeBlockWith_listing hd ha (h.mode ▸ hok) h
    have hends := decodeBlockWith_ends dct act s
    rw [hdec] at hends
    have hasm : s.Assembled t := hends.1
    have hstep : s.Scanned t.addBlock := hasm.scanned.trans t.scanned_addBlock
    obtain ⟨v, hscan, hend, hscanned, hout, hmcu⟩ := ih (hstep.sends ▸ hm) hrest.addBlock
    refine ⟨v, ?runs, hend, hstep.trans hscanned, hout.trans ?out, hmcu.trans ?values⟩
    case runs => rw [scanBlocks_cons ((decodeBlockOp_tables htab).trans hdec), hscan]
    case out =>
      show t.out = s.out
      rw [hasm.frame]
    case values =>
      have hmcu0 : t.mcu = s.mcu := by rw [hasm.frame]
      rw [t.mcuInts_addBlock, hmcu0, hints, List.append_assoc]
      rfl

/-- The MCUs are decoded to their values, one after the other (R193). -/
theorem scanMcus_listing {mcus : List (List BlockCode)} (hm : ∀ m ∈ mcus, List.Forall₂ s.Sends s.mstruct m)
    (h : s.Delivers ((mcus.flatMap fun m => m.flatMap BlockCode.stream) ++ rest) u) :
    ∃ t, scanMcus mcus.length s = .ok () t ∧ t.Delivers rest u ∧
      t.out.map mcuInts = s.out.map mcuInts ++ mcus.map fun m => m.map (BlockCode.values u.mode) := by
  induction mcus generalizing s with
  | nil => exact ⟨s, rfl, h, (List.append_nil _).symm⟩
  | cons m mcus ih =>
    rw [List.forall_mem_cons] at hm
    rw [List.flatMap_cons, List.append_assoc] at h
    have hopen := s.scanned_openMcu
    obtain ⟨t, hscan, hrest, hscanned, hout, hmcu⟩ := scanBlocks_listing (hopen.sends ▸ hm.1) h.openMcu
    have hstep : s.Scanned t.closeMcu := (hopen.trans hscanned).trans t.scanned_closeMcu
    obtain ⟨v, hloop, hend, hvalues⟩ := ih (by rw [hstep.sends, hstep.mstruct]; exact hm.2) hrest.closeMcu
    refine ⟨v, ?runs, hend, hvalues.trans ?values⟩
    case runs => rw [List.length_cons, scanMcus_succ hscan, hloop]
    case values =>
      have hout0 : t.out = s.out := hout
      have hmcu0 : mcuInts t.mcu = m.map (BlockCode.values u.mode) := hmcu
      rw [t.outInts_closeMcu, hout0, hmcu0, List.append_assoc]
      rfl

end listing

/-- A grid that was computed is the product of its columns and rows, and nothing else was written. -/
theorem execGrid_next {s g : State} (h : exec .grid s = .next g) :
    ∃ cols rows, gridOp s = .ok () g ∧ g = s.setGrid cols rows (cols * rows) := by
  change (gridOp s).outcome = _ at h
  rw [gridOp] at h ⊢
  split at h
  · cases h
    exact ⟨_, _, rfl, rfl⟩
  · cases h

/-- Settles O43: `scanMcus_listing` from the state the scan start leaves, whose reader stands where `s`'s does. -/
theorem scanInvertsTheListing : Obligations.ScanInvertsTheListing := by
  intro s g u mcus hs hgood hoff hgrid hcount hmcus hbits
  obtain ⟨cols, rows, hgridOp, rfl⟩ := execGrid_next hgrid
  change mcus.length = cols * rows at hcount
  have hsends : ∀ m ∈ mcus, List.Forall₂ (s.scanStart cols rows).Sends (mstructOf s.comp) m := fun m hm =>
    sends_of_getElem hs (hmcus m hm).1 (hmcus m hm).2
  have hdel : s.Delivers ((mcus.flatMap fun m => m.flatMap BlockCode.stream) ++ []) u := by
    rw [List.append_nil]
    exact .of_nextBits hbits
  obtain ⟨t, hloop, hend, hvalues⟩ := scanMcus_listing (s := s.scanStart cols rows) hsends
    (hdel.of_same (s.sameReader_scanStart cols rows hoff))
  rw [hcount] at hloop
  have hends := scanMcus_start_ends hs hgood cols rows
  rw [hloop] at hends
  have hrun : exec .scan s = (scanOp s).outcome := rfl
  refine ⟨t.setPhase .done, ?runs, rfl, hends.2, hend.nil.pos.symm, hend.nil.bitOff.symm, ?values⟩
  case runs =>
    rw [hrun, scanOp_good hgood hgridOp, hloop]
    rfl
  case values => exact hdel.mode ▸ hvalues

end Sys2Proof.Machine
end

section
/-! SUPPORT. Faults (spec/60_exceptions.md R220, R229, R232): what raising one writes, and in which phase of a session
each can arise. A header step raises only what `FaultInfo.ofHeader` admits; here the same is shown of a scan step. -/

namespace Sys2Proof.Machine

/-! ## Raising a fault -/

/-- The codes of R220 are 1 to 11. -/
theorem FaultInfo.code_range (f : FaultInfo) : f.code ≠ 0 ∧ f.code.toNat ≤ 11 := by
  cases f <;> simp [FaultInfo.code]

theorem step_raise (s : State) (f : FaultInfo) : step (s.raise f) = .next (s.raise f) :=
  step_idle nofun nofun

/-- Settles O46: the writes are `State.raise`'s own, and no operation is due in the phase it leaves. -/
theorem raiseWritesThreeRegisters : Obligations.RaiseWritesThreeRegisters := fun s f =>
  ⟨rfl, step_raise s f, f.code_range⟩

/-- Settles O53: no operation is due in these phases (`fetch_idle`). -/
theorem endedSessionsStay : Obligations.EndedSessionsStay := fun _ => step_idle

/-! ## What a state in phase FAULT blames -/

/-- The faults of the scan phase (R220): those of a block, and the reasons of the scan-start check (R229). -/
def FaultInfo.ofScan : FaultInfo → Bool
  | .invalidConfiguration r _ => r != .huffOversubscribed
  | f => f.ofBlock

theorem FaultInfo.ofBlock_ofScan {f : FaultInfo} (h : f.ofBlock = true) : f.ofScan = true := by
  cases f with
  | invalidConfiguration r n => exact nomatch h
  | _ => exact h

/-- If the state is in phase FAULT, its record is a fault `f` with `p f`. -/
def State.Blames (p : FaultInfo → Bool) (s : State) : Prop :=
  s.phase = .fault → ∃ f, s.faultInfo = some f ∧ p f = true

section blames
variable {α : Type} {p p' : FaultInfo → Bool} {s t : State}

theorem State.Blames.of_phase (h : s.phase ≠ .fault) : s.Blames p := fun hf => absurd hf h

theorem State.blames_raise (s : State) {f : FaultInfo} (h : p f = true) : (s.raise f).Blames p := fun _ => ⟨f, rfl, h⟩

theorem Raised.blames {R : State → State → Prop} (h : Raised R p' s t) (hp : ∀ f, p' f = true → p f = true) :
    t.Blames p := by
  obtain ⟨u, f, -, hf, rfl⟩ := h
  exact u.blames_raise (hp f hf)

theorem State.Blames.admits {f : FaultInfo} (h : s.Blames p) (hs : s.phase = .fault) (hf : s.faultInfo = some f) :
    p f = true := by
  obtain ⟨g, hg, hp⟩ := h hs
  cases hf.symm.trans hg
  exact hp

end blames

/-! ## Moving on raises nothing -/

theorem advanceScan_phase (s : State) : (advanceScan s).phase = s.phase := by
  cases hs : s.stage with
  | check | mstruct | dc => rw [advanceScan, hs]; rfl
  | done => rw [advanceScan, hs]
  | grid => rw [advanceScan, hs]; exact nextMcu_phase _
  | ac =>
    simp only [advanceScan, hs]
    split
    · rfl
    · exact nextBlock_phase s

theorem State.Blames.advance {p : FaultInfo → Bool} {s : State} (h : s.Blames p) (i : Instr) :
    (advance i s).Blames p := by
  cases hp : s.phase with
  | header =>
    rw [advance_header hp]
    split
    · exact .of_phase nofun
    · exact h
  | scan => exact .of_phase (by rw [advance_scan hp, advanceScan_phase, hp]; exact nofun)
  | idle | done | fault => rwa [advance_idle (by rw [hp]; exact nofun) (by rw [hp]; exact nofun)]

/-! ## A step of the header phase -/

theorem State.HeaderStep.blames {s t : State} (h : s.HeaderStep t) (hp : s.phase = .header) :
    t.Blames FaultInfo.ofHeader := by
  obtain hr | hc | ⟨u, -, rfl⟩ := h
  · exact hr.blames fun _ => id
  · exact .of_phase (by rw [hc.phase, hp]; exact nofun)
  · exact .of_phase nofun

theorem step_header_blames {s t : State} (hp : s.phase = .header) (h : step s = .next t) :
    t.Blames FaultInfo.ofHeader := by
  obtain ⟨u, hu, hs⟩ := step_header hp
  cases hu.symm.trans h
  exact hs.blames hp

/-! ## A step of the scan phase -/

/-- The procedure stays in the scan phase, or raises a fault of it. -/
abbrev Res.RaisesInScan {α : Type} (r : Res α) : Prop :=
  r.Answers (fun _ t => t.phase = .scan) (State.Blames FaultInfo.ofScan)

section scan
variable {s : State}

theorem State.Assembled.phase {t : State} (h : s.Assembled t) : t.phase = s.phase := by rw [h.frame]

theorem Res.Ends.raisesInScan {α : Type} {P : α → State → Prop} {R : State → State → Prop} {r : Res α}
    (h : r.Ends P (Raised R FaultInfo.ofBlock s)) (hP : ∀ a t, P a t → t.phase = .scan) : r.RaisesInScan :=
  h.answers hP fun _ hr => hr.blames fun _ => FaultInfo.ofBlock_ofScan

theorem Res.RaisesInScan.next {α : Type} {r : Res α} {t : State} (h : r.RaisesInScan) (e : r.outcome = .next t) :
    t.Blames FaultInfo.ofScan :=
  Res.Answers.next (h.imp (fun _ _ ht => .of_phase (by rw [ht]; exact nofun)) fun _ => id) e

variable (h : s.phase = .scan)
include h

theorem readCode_raisesInScan (tb : HuffTable) : (readCode tb s).RaisesInScan :=
  (readCode_ends tb s).raisesInScan fun _ _ ht => ht.assembled.phase.trans h

theorem fetchSymbol_raisesInScan (c : HuffClass) : (fetchSymbol c s).RaisesInScan := by
  rw [fetchSymbol]
  split
  · trivial
  split
  · trivial
  cases c
  · exact (readCode_raisesInScan h _).bind fun _ _ ht => ht
  · exact (readCode_raisesInScan h _).bind fun _ _ ht => ht

theorem fetch_raisesInScan : (fetch s).RaisesInScan := by
  cases hs : s.stage with
  | check => rw [fetch_check h hs]; exact h
  | mstruct => rw [fetch_mstruct h hs]; exact h
  | grid => rw [fetch_grid h hs]; exact h
  | dc => rw [fetch_dc h hs]; exact fetchSymbol_raisesInScan h .dc
  | ac => rw [fetch_ac h hs]; exact fetchSymbol_raisesInScan h .ac
  | done => rw [fetch_done h hs]; exact h

/-- The scan-start check never finds a table oversubscribed: DHT alone does (R229). -/
theorem checkConfigOp_raisesInScan : (checkConfigOp s).RaisesInScan := by
  refine (checkConfigOp_ends s).answers ?_ ?_
  · rintro _ t ⟨-, rfl⟩
    exact h
  · rintro t ⟨r, id, hr, rfl⟩
    exact s.blames_raise (bne_iff_ne.mpr (configError_reason hr))

theorem dcSymbol_raisesInScan (n : Byte) : (dcSymbol n s).RaisesInScan :=
  (dcSymbol_ends n s).raisesInScan fun _ _ ht => ht.1.phase.trans h

theorem acZeros_raisesInScan (z : Nat) (sym : Byte) : (acZeros z sym s).RaisesInScan := by
  rw [acZeros]
  split
  · exact s.blames_raise rfl
  · exact h

/-- An AC symbol at any `k`. -/
theorem acSymbol_raisesInScan (sym : Byte) : (acSymbol sym s).RaisesInScan := by
  rw [acSymbol]
  split
  · exact h
  split
  · split <;> exact acZeros_raisesInScan h ..
  split
  · exact (acCoefOp_ends _ _ s).raisesInScan fun _ _ ht => ht.1.phase.trans h
  · exact s.blames_raise rfl

theorem exec_scanRow_blames {i : Instr} (hi : ScanRow i) {t : State} (e : exec i s = .next t) :
    t.Blames FaultInfo.ofScan := by
  obtain rfl | rfl | rfl | rfl | ⟨c, sym, rfl⟩ := hi
  · exact (checkConfigOp_raisesInScan h).next e
  · exact Res.RaisesInScan.next (r := buildMstructOp s) h e
  · obtain ⟨cols, rows, -, rfl⟩ := execGrid_next e
    exact .of_phase (by rw [State.setGrid_phase, h]; exact nofun)
  · cases e
    exact .of_phase nofun
  · cases c with
    | dc => exact (dcSymbol_raisesInScan h sym).next ((exec_decodeDcSymbol sym s).symm.trans e)
    | ac => exact (acSymbol_raisesInScan h sym).next ((exec_decodeAcSymbol sym s).symm.trans e)

theorem step_scan_blames {t : State} (e : step s = .next t) : t.Blames FaultInfo.ofScan := by
  have hphase := fetch_raisesInScan h
  have hrow := fetch_scan_writes h
  obtain hf | hf | ⟨i, u, v, hf, hv, rfl⟩ := step_next e <;> rw [hf] at hphase hrow
  · exact hphase
  · obtain ⟨_, hi, -⟩ := hrow
    cases hi
  · obtain ⟨_, hi, hrow, -⟩ := hrow
    cases hi
    exact (exec_scanRow_blames hphase hrow hv).advance i

end scan

/-! ## The phase of each fault -/

/-- A step into FAULT starts in HEADER or SCAN, and blames a fault of that phase. -/
theorem step_fault_phase {s t : State} {f : FaultInfo} (h : step s = .next t) (hs : s.phase ≠ .fault)
    (ht : t.phase = .fault) (hf : t.faultInfo = some f) :
    (s.phase = .header ∧ f.ofHeader = true) ∨ (s.phase = .scan ∧ f.ofScan = true) := by
  by_cases hh : s.phase = .header
  · exact .inl ⟨hh, (step_header_blames hh h).admits ht hf⟩
  by_cases hp : s.phase = .scan
  · exact .inr ⟨hp, (step_scan_blames hp h).admits ht hf⟩
  · cases (step_idle hh hp).symm.trans h
    exact absurd ht hs

/-- Settles O47: `step_fault_phase`, and no fault but the end of the stream is one of both phases. -/
theorem faultsArriveInTheirPhase : Obligations.FaultsArriveInTheirPhase := by
  intro s t f h hs ht hf
  obtain ⟨hp, hfault⟩ | ⟨hp, hfault⟩ := step_fault_phase h hs ht hf
  case inl =>
    cases f with
    | malformedMarker | invalidSegmentLength | componentCountMismatch | symbolCountMismatch | unknownComponent =>
      exact hp
    | unexpectedEndOfStream => exact .inl hp
    | invalidConfiguration r n =>
      cases r with
      | huffOversubscribed => exact hp
      | _ => exact nomatch hfault
    | _ => exact nomatch hfault
  case inr =>
    cases f with
    | invalidByteStuffing | huffmanDecodeOverflow | categoryOutOfRange | blockOverrun => exact hp
    | unexpectedEndOfStream => exact .inr hp
    | invalidConfiguration r n =>
      cases r with
      | huffOversubscribed => exact nomatch hfault
      | _ => exact hp
    | _ => exact nomatch hfault

end Sys2Proof.Machine
end

section
/-! SUPPORT. RESET and START (spec/70_reset_and_hazards.md R250, R251): START as the session over its launch, that every
session ends, and what a session over a whole listing gives back. -/

namespace Sys2Proof.Machine

/-! ## START is the session over its launch -/

section start
variable {s : State} (bs : List Byte) (m : MagnitudeMode)

theorem State.running_iff (s : State) : s.running = true ↔ s.phase = .header ∨ s.phase = .scan := by
  rw [State.running, Bool.or_eq_true, beq_iff_eq, beq_iff_eq]

theorem exec_start_running (h : s.phase = .header ∨ s.phase = .scan) :
    exec (.start bs m) s = .refused .sessionRunning := if_pos (s.running_iff.mpr h)

theorem exec_start_idle (h : s.phase ≠ .header) (h' : s.phase ≠ .scan) :
    exec (.start bs m) s = (sessionOp (State.launch bs m)).outcome := by
  have hidle : ¬ s.running = true := fun hr => (s.running_iff.mp hr).elim h h'
  exact if_neg hidle

/-- Settles O49: `exec_start_running`. -/
theorem startWhileRunningIsRefused : Obligations.StartWhileRunningIsRefused := fun _ bs m => exec_start_running bs m

end start

/-! ## What the header phase hands to the scan -/

theorem State.launch_inv (bs : List Byte) (m : MagnitudeMode) : (State.launch bs m).Inv :=
  invariantAtResetAndLaunch.2 bs m

/-- A launched session holds its stream from address 0 on. -/
theorem State.launch_holds (bs rest : List Byte) (m : MagnitudeMode) :
    (State.launch (bs ++ rest) m).holds (State.launch (bs ++ rest) m).pos bs := by
  have hall : (State.launch (bs ++ rest) m).holds 0 (bs ++ rest) :=
    ⟨(Nat.zero_add _).le, Memory.slice_load [] 0 (bs ++ rest)⟩
  exact (State.holds_append hall).1

section handover
variable {s t : State} (h : s.Configured t)
include h

theorem State.Configured.scan_stores (hs : s.StoresOk) : (t.setPhase .scan).StoresOk :=
  (h.stores hs).of_eq rfl rfl rfl rfl

theorem State.Configured.scan_image (hi : s.ImageOk) : (t.setPhase .scan).ImageOk := h.image hi

end handover

/-! ## Every session ends -/

theorem Raised.phase {R : State → State → Prop} {p : FaultInfo → Bool} {s t : State} (h : Raised R p s t) :
    t.phase = .fault := by
  obtain ⟨u, f, -, -, rfl⟩ := h
  rfl

/-- A session ends in DONE, or in FAULT (R251, R262). -/
theorem sessionOp_ends {s : State} (hs : s.StoresOk) (hi : s.ImageOk) :
    (sessionOp s).Ends (fun _ t => t.phase = .done) fun t => t.phase = .fault :=
  ((headerOp_configured s).imp (fun _ _ h => h) fun _ => Raised.phase).bind fun _ _ hc =>
    scanOp_ends (hc.scan_stores hs) (hc.scan_image hi)

/-- Settles O50: `sessionOp_ends` from the launch, which no earlier session reaches into. -/
theorem everySessionEnds : Obligations.EverySessionEnds := by
  intro bs m
  have hinv := State.launch_inv bs m
  obtain ⟨t, hrun, ht⟩ := (sessionOp_ends hinv.stores hinv.scan.image).outcome
  refine ⟨t, ?ended, fun s h h' => (exec_start_idle bs m h h').trans hrun⟩
  case ended =>
    obtain ⟨_, -, hdone⟩ | ⟨-, hfault⟩ := ht
    · exact .inl hdone
    · exact .inr hfault

/-! ## A session over a listing -/

/-- HEADER on a header listing completes, with the effect of its lines. -/
theorem headerOp_listing {s : State} {segs : List Item} {comps : List ScanEntry} {tail : List Byte}
    (hseg : ∀ it ∈ segs, it.Segment) (hwf : (Item.sos comps tail).wf = true)
    (hdecl : ∀ e ∈ comps, (afterSegments segs s).compValid e.id = true)
    (hb : s.holds s.pos (headerBytes segs comps tail)) : headerOp s = .ok () (afterHeader segs comps tail s) := by
  rw [headerBytes, List.append_assoc] at hb
  have hlines : (Item.soi.apply s).holds (Item.soi.apply s).pos
      (segs.flatMap Item.bytes ++ (Item.sos comps tail).bytes) := (State.holds_append hb).2
  rw [headerOp, soiOp_listing hb, Res.bind_ok]
  exact markerLoop_listing hseg hwf hdecl hlines (by have := hlines.1; omega)

/-- The grid is computed from the image and the components alone. -/
theorem gridOp_congr {s g : State} (h : gridOp s = .ok () g) (t : State) (himg : t.img = s.img)
    (hcomp : t.comp = s.comp) : gridOp t = .ok () (t.setGrid g.mcuCols g.mcuRows g.mcuTotal) := by
  have hc : t.compAt 1 = s.compAt 1 := congrArg (Slots.get 1) hcomp
  rw [gridOp] at h
  split at h
  · rename_i im c him hc1
    cases h
    exact gridOp_valid (himg.trans him) (hc.trans hc1)
  · cases h

/-- GRID does not read the phase. -/
theorem execGrid_setPhase {s g : State} (p : Phase) (h : exec .grid s = .next g) :
    exec .grid (s.setPhase p) = .next (g.setPhase p) := by
  obtain ⟨cols, rows, hgrid, rfl⟩ := execGrid_next h
  have hrun : exec .grid (s.setPhase p) = (gridOp (s.setPhase p)).outcome := rfl
  rw [hrun, gridOp_congr hgrid (s.setPhase p) rfl rfl]
  rfl

/-- Settles O51: `headerOp_listing`, then `scanInvertsTheListing` from the state the header hands over. -/
theorem startDecodesTheListing : Obligations.StartDecodesTheListing := by
  intro s h g u segs comps tail rest m mcus hs hs' hseg hwf hdecl hh hgood hgrid hcount hmcus hbits
  have hinv := State.launch_inv (headerBytes segs comps tail ++ rest) m
  have hheader := headerOp_listing (s := State.launch (headerBytes segs comps tail ++ rest) m) hseg hwf hdecl
    (State.launch_holds ..)
  rw [← hh] at hheader
  have hends := headerOp_configured (State.launch (headerBytes segs comps tail ++ rest) m)
  rw [hheader] at hends
  have hconf : (State.launch (headerBytes segs comps tail ++ rest) m).Configured h := hends
  have hmode : h.mode = m := by rw [hconf.frame]; rfl
  have hoff : h.bitOff = 0 := by rw [hconf.frame]; rfl
  have hout : h.out = [] := by rw [hconf.frame]; rfl
  obtain ⟨v, hv, hvu⟩ := (State.Delivers.of_nextBits hbits).of_same (t := h.setPhase .scan)
    ⟨rfl, rfl, rfl, rfl, rfl, rfl⟩
  obtain ⟨t, hscan, hdone, -, hpos, htoff, hvalues⟩ := scanInvertsTheListing (h.setPhase .scan) (g.setPhase .scan) v
    mcus (hconf.scan_stores hinv.stores) hgood hoff (execGrid_setPhase .scan hgrid) hcount (hmode ▸ hmcus) hv
  have hframe : (h.setPhase .scan).ScanWrites t := (scanOp_writes (h.setPhase .scan)).next hscan
  refine ⟨t, ?runs, hdone, by rw [hframe.frame]; rfl, by rw [hframe.frame]; rfl, hpos.trans hvu.pos.symm,
    htoff.trans hvu.bitOff.symm, ?values⟩
  case runs =>
    rw [exec_start_idle _ _ hs hs', sessionOp, hheader]
    exact hscan
  case values =>
    rw [State.setPhase_out, hout, State.setPhase_mode, hmode] at hvalues
    exact hvalues

end Sys2Proof.Machine
end

section
/-! SUPPORT. The stage of the model (log entry 5) says which operation is due, and no operation reads it: run at another
stage, an operation of the scan ends alike, in the same state at that stage. -/

namespace Sys2Proof.Machine

/-- The operations of the bit reader neither read the stage nor write it. -/
theorem inertCode_setStage (v : Stage) : InertCode fun s t => t = s.setStage v := by
  refine ⟨?inert, ?_, ?_, ?_, ?_⟩
  case inert => constructor <;> (intros; subst_vars; rfl)
  all_goals (intros; subst_vars; rfl)

section symbols
variable {s : State} (v : Stage)

theorem readCode_setStage (tb : HuffTable) :
    (readCode tb s).Alike (fun s t => t = s.setStage v) (readCode tb (s.setStage v)) :=
  readCode_alike (inertCode_setStage v) rfl tb

theorem readMagnitude_setStage (n : Nat) :
    (readMagnitude n s).Alike (fun s t => t = s.setStage v) (readMagnitude n (s.setStage v)) :=
  readMagnitude_alike (inertCode_setStage v) rfl n

theorem dcSymbol_setStage (n : Byte) :
    (dcSymbol n s).Alike (fun s t => t = s.setStage v) (dcSymbol n (s.setStage v)) := by
  rw [dcSymbol, dcSymbol]
  split
  · exact ⟨rfl, rfl⟩
  split
  · exact (readMagnitude_setStage v _).bind fun _ _ _ h => ⟨rfl, by rw [h]; rfl⟩
  · rfl

theorem acZeros_setStage (z : Nat) (sym : Byte) :
    (acZeros z sym s).Alike (fun s t => t = s.setStage v) (acZeros z sym (s.setStage v)) := by
  rw [acZeros, acZeros, State.setStage_k]
  split
  · rfl
  · exact ⟨rfl, rfl⟩

theorem acCoefOp_setStage (r sz : Nibble) :
    (acCoefOp r sz s).Alike (fun s t => t = s.setStage v) (acCoefOp r sz (s.setStage v)) := by
  rw [acCoefOp, acCoefOp, State.setStage_k]
  split
  · rfl
  · exact (readMagnitude_setStage (s := s.setK (s.k + r.toNat)) v _).bind fun _ _ _ h => ⟨rfl, by rw [h]; rfl⟩

theorem acSymbol_setStage (sym : Byte) :
    (acSymbol sym s).Alike (fun s t => t = s.setStage v) (acSymbol sym (s.setStage v)) := by
  rw [acSymbol, acSymbol]
  split
  · exact ⟨rfl, rfl⟩
  split
  · split <;> exact acZeros_setStage v ..
  split
  · exact acCoefOp_setStage v ..
  · rfl

end symbols

/-! ## Moving on writes the stage anew -/

theorem nextMcu_setStage (v : Stage) (s : State) : nextMcu (s.setStage v) = nextMcu s := by
  have hm : (s.setStage v).mlen = s.mlen := rfl
  rw [nextMcu, nextMcu, hm, State.setStage_mcuIdx, State.setStage_mcuTotal]
  split
  · split <;> rfl
  · rfl

theorem nextBlock_setStage (v : Stage) (s : State) : nextBlock (s.setStage v) = nextBlock s := by
  have hm : (s.setStage v).mlen = s.mlen := rfl
  rw [nextBlock_eq, nextBlock_eq, hm, State.setStage_blkIdx]
  split
  · rfl
  · exact nextMcu_setStage v ((((s.setMcu (s.mcu ++ [s.blk])).setBlkIdx (s.blkIdx + 1)).setOut
      (s.out ++ [s.mcu ++ [s.blk]])).setMcuIdx (s.mcuIdx + 1))

end Sys2Proof.Machine
end

section
/-! SUPPORT. Stepping against the nested procedures (log entry 5): from the launch of a session the steps reach what
HEADER, and then SCAN, answer. -/

namespace Sys2Proof.Machine

/-! ## Reaching a state by steps -/

/-- Some number of steps leads from `s` to `t`. -/
def State.Reaches (s t : State) : Prop := ∃ n, runSteps n s = some t

/-- Some number of steps leads from `s` to what the spec sees of `t`. -/
def State.ReachesSeen (s t : State) : Prop := ∃ u, s.Reaches u ∧ u.seen = t.seen

section reaches
variable {s t u : State}

theorem State.Reaches.refl (s : State) : s.Reaches s := ⟨0, rfl⟩

theorem State.Reaches.head (h : step s = .next t) (h' : t.Reaches u) : s.Reaches u := by
  obtain ⟨n, hn⟩ := h'
  exact ⟨n + 1, by rw [runSteps, h]; exact hn⟩

theorem State.Reaches.of_step (h : step s = .next t) : s.Reaches t := .head h (.refl t)

theorem State.Reaches.trans (h : s.Reaches t) (h' : t.Reaches u) : s.Reaches u := by
  obtain ⟨n, hn⟩ := h
  induction n generalizing s with
  | zero => cases hn; exact h'
  | succ n ih =>
    rw [runSteps] at hn
    split at hn
    · rename_i v hv; exact .head hv (ih hn)
    · cases hn
    · cases hn

theorem State.Reaches.seen (h : s.Reaches t) : s.ReachesSeen t := ⟨t, h, rfl⟩

theorem State.Reaches.trans_seen (h : s.Reaches t) (h' : t.ReachesSeen u) : s.ReachesSeen u := by
  obtain ⟨v, hv, hu⟩ := h'
  exact ⟨v, h.trans hv, hu⟩

/-- The stage a state is reached at is not seen. -/
theorem State.Reaches.seen_setStage {v : Stage} (h : s.Reaches (t.setStage v)) : s.ReachesSeen t := ⟨_, h, rfl⟩

end reaches

/-- A procedure that ends, with what is known of its answers besides. -/
theorem Res.Ends.and_answers {α : Type} {P P' : α → State → Prop} {Q Q' : State → Prop} {r : Res α} (h : r.Ends P Q)
    (h' : r.Answers P' Q') : r.Ends (fun a s => P a s ∧ P' a s) fun s => Q s ∧ Q' s := by
  cases r with
  | ok a s => exact ⟨h, h'⟩
  | raised s => exact ⟨h, h'⟩
  | stop f => exact h

/-- The same where only its value is asked for. -/
theorem Res.Ends.and_answers_ok {α : Type} {P P' : α → State → Prop} {Q Q' : State → Prop} {r : Res α}
    (h : r.Ends P Q) (h' : r.Answers P' Q') : r.Answers (fun a s => P a s ∧ P' a s) Q' :=
  (h.and_answers h').answers (fun _ _ h => h) fun _ h => h.2

/-- What a procedure's run at stage `v` answers, read back at the stage it is run at. -/
theorem Res.Alike.answers_setStage {α : Type} {P : α → State → Prop} {Q : State → Prop} {r r' : Res α} {v : Stage}
    (h : r.Alike (fun s t => t = s.setStage v) r') (h' : r'.Answers P Q) :
    r.Answers (fun a s => P a (s.setStage v)) fun s => Q (s.setStage v) := by
  cases hr : r with
  | ok a s =>
    obtain ⟨_, rfl, rfl⟩ := h.of_ok hr
    exact h'
  | raised s =>
    obtain ⟨_, rfl, rfl⟩ := h.of_raised hr
    exact h'
  | stop f => trivial

/-- A step does what the operation that is due does, and moves on. -/
theorem step_of_res {α : Type} {s u : State} {i : Instr} {r : Res α} (hf : fetch s = .ok (some i) u)
    (he : exec i u = r.outcome) :
    r.Answers (fun _ t => step s = .next (advance i t)) fun t => step s = .next (advance i t) := by
  cases r with
  | ok a t => exact step_of_next hf he
  | raised t => exact step_of_next hf he
  | stop f => trivial

theorem advance_fault (i : Instr) {s : State} (h : s.phase = .fault) : advance i s = s :=
  advance_idle (by rw [h]; exact nofun) (by rw [h]; exact nofun)

/-! ## The header phase -/

/-! ### The bytes a marker word may take -/

section window
variable {s : State}

theorem window_past (h : s.len ≤ s.pos) : s.window = [] := by
  rw [State.window, Nat.sub_eq_zero_of_le h]
  rfl

theorem window_last (h : s.pos + 1 = s.len) : s.window = [s.byteAt s.pos] := by
  rw [State.window, ← h, Nat.add_sub_cancel_left]
  rfl

theorem window_word (h : s.pos + 2 ≤ s.len) : s.window = [s.byteAt s.pos, s.byteAt (s.pos + 1)] := by
  rw [State.window, Nat.min_eq_left (by omega)]
  rfl

theorem window_cons (h : s.pos < s.len) : ∃ w, s.window = s.byteAt s.pos :: w := by
  obtain hlast | hword : s.pos + 1 = s.len ∨ s.pos + 2 ≤ s.len := by omega
  · exact ⟨_, window_last hlast⟩
  · exact ⟨_, window_word hword⟩

end window

/-! ### A round of the marker loop -/

section round
variable {s : State}

/-- One round of the marker loop. -/
def markerRound (s : State) : Res Bool := (markerFetchOp s).bind dispatchOp

theorem markerLoop_succ (n : Nat) :
    markerLoop (n + 1) s = (markerRound s).bind fun d t => if d then .ok () t else markerLoop n t := by
  rw [markerRound, Res.bind_assoc]
  rfl

theorem markerRound_ends (s : State) :
    (markerRound s).Ends (fun _ t => s.Configured t ∧ t.pos ≠ 0) (Raised State.Configured FaultInfo.ofHeader s) := by
  refine (markerFetchOp_configured s).bind fun m t ht => ?_
  obtain ⟨hst, htwo, -⟩ := ht
  refine (dispatchOp_configured m t).imp (fun _ u htu => ⟨hst.trans htu, ?_⟩) fun _ => Raised.configured hst
  have hpos : t.pos ≤ u.pos := htu.forward.1
  omega

theorem endsHeader_decodeMarkerByte (m : Byte) : endsHeader (decodeMarkerByte m) = decide (m = 0xDA) := by
  rw [decodeMarkerByte]
  split
  · subst m; rfl
  split
  · subst m; rfl
  split
  · subst m; rfl
  split
  · subst m; rfl
  · rename_i hda
    exact (decide_eq_false hda).symm

/-- The row of a marker word does what DISPATCH does, and moving on after it asks what DISPATCH answers (R113, R115). -/
theorem step_dispatch {m : Byte} {u : State} (hf : fetch s = .ok (some (decodeMarkerByte m)) u)
    (hu : u.phase = .header) :
    (dispatchOp m u).Answers (fun d t => step s = .next (if d then enterScan t else t)) fun t => step s = .next t := by
  have hstep := (dispatchOp_flag m u).and_answers (step_of_res hf (exec_decodeMarkerByte m u))
  refine hstep.answers (fun d t ht => ?_) fun t ht => ?_
  · obtain ⟨⟨rfl, hphase⟩, ht⟩ := ht
    rw [ht, advance_header (hphase.trans hu), endsHeader_decodeMarkerByte]
  · rw [ht.2, advance_fault _ ht.1]

end round

section header
variable {s : State} (hp : s.phase = .header)
include hp

/-- Where the stream ends inside a marker word, its end is raised as MARKER_FETCH raises it. -/
theorem fetch_marker_cut (h0 : s.pos ≠ 0) {w : List Byte} (hw : s.window = w) {r : Reject}
    (hd : decode .marker w = .reject r) :
    fetch s = .raised ((s.setPos (s.pos + w.length)).raise (.unexpectedEndOfStream (s.pos + w.length))) := by
  simp only [fetch, hp, h0, if_false, fetchPattern, hw, hd, fail_eq]

/-- A step after SOI is one round of the marker loop (R110, R112, R113). -/
theorem step_marker (h0 : s.pos ≠ 0) :
    (markerRound s).Answers (fun d t => step s = .next (if d then enterScan t else t)) fun t => step s = .next t := by
  rw [markerRound]
  by_cases hpast : s.len ≤ s.pos
  · rw [markerFetchOp_past hpast]
    exact step_raised (fetch_marker_cut hp h0 (window_past hpast) rfl)
  have hlt : s.pos < s.len := Nat.lt_of_not_le hpast
  by_cases hff : s.byteAt s.pos = 0xFF
  · by_cases hlast : s.pos + 1 = s.len
    · have hcut := fetch_marker_cut hp h0 (window_last hlast) (r := .truncated) (by rw [hff]; rfl)
      rw [List.length_singleton, hlast] at hcut
      rw [markerFetchOp_last hlast hff]
      exact step_raised hcut
    · have hword : s.pos + 2 ≤ s.len := by omega
      have hwindow := window_word hword
      have hf := fetch_marker hp h0 (i := decodeMarkerByte (s.byteAt (s.pos + 1))) (rest := []) (by
        rw [hwindow, hff]
        exact decode_marker_word [] _)
      rw [hwindow] at hf
      rw [markerFetchOp_word hword hff]
      exact step_dispatch hf hp
  · obtain ⟨w, hwindow⟩ := window_cons hlt
    have hf := fetch_marker hp h0 (by rw [hwindow]; exact decode_marker_lead w hff)
    rw [hwindow, List.length_cons, Nat.add_sub_cancel_left] at hf
    rw [markerFetchOp_lead hlt hff]
    exact (step_of_next hf rfl).trans (by rw [advance_raise]; rfl)

theorem markerLoop_reaches (h0 : s.pos ≠ 0) (n : Nat) :
    (markerLoop n s).Answers (fun _ t => s.Reaches (enterScan t)) s.Reaches := by
  induction n generalizing s with
  | zero => trivial
  | succ n ih =>
    rw [markerLoop_succ]
    refine ((markerRound_ends s).and_answers_ok ((step_marker hp h0).imp (fun _ _ h => h) fun _ => .of_step)).bind
      fun d t ht => ?_
    obtain ⟨⟨hst, ht0⟩, hstep⟩ := ht
    cases d
    · exact (ih (hst.phase.trans hp) ht0).imp (fun _ _ => .head hstep) fun _ => .head hstep
    · exact .of_step hstep

/-- Stepping through the header phase comes to what HEADER answers, handed over to the scan (R110, R115). -/
theorem headerOp_reaches (h0 : s.pos = 0) :
    (headerOp s).Answers (fun _ t => s.Reaches (enterScan t)) s.Reaches := by
  have hsoi := (soiOp_ends s).and_answers (step_of_res (fetch_soi hp h0) (r := soiOp s) rfl)
  refine (hsoi.answers (fun _ _ h => h) fun t ht => ?fault).bind fun _ t ht => ?loop
  case fault => exact .of_step (ht.2.trans (by rw [advance_fault _ ht.1.phase]))
  case loop =>
    obtain ⟨⟨-, rfl⟩, hstep⟩ := ht
    rw [advance_header (s := s.setPos (s.pos + 2)) hp] at hstep
    exact (markerLoop_reaches (s := s.setPos (s.pos + 2)) hp (Nat.succ_ne_zero _) _).imp (fun _ _ => .head hstep)
      fun _ => .head hstep

end header

/-! ## A symbol of a block -/

/-- The stage at which a symbol of a class is due. -/
def symbolStage : HuffClass → Stage
  | .dc => .dc
  | .ac => .ac

/-- Which of the two tables of a component codes a symbol of a class (R194). -/
def symbolTable (c : HuffClass) (tabs : HuffTable × HuffTable) : HuffTable :=
  match c with
  | .dc => tabs.1
  | .ac => tabs.2

/-- What DECODE_BLOCK does with a symbol of a class (R195, R199). -/
def symbolOp : HuffClass → Byte → State → Res Unit
  | .dc => dcSymbol
  | .ac => acSymbol

section symbol
variable {c : HuffClass} {sym : Byte} {v : Stage} {s t : State} {tabs : HuffTable × HuffTable}

theorem exec_decodeSymbol (c : HuffClass) (sym : Byte) (s : State) :
    exec (decodeSymbol c sym) s = (symbolOp c sym s).outcome := by
  cases c
  · exact exec_decodeDcSymbol sym s
  · exact exec_decodeAcSymbol sym s

theorem symbolOp_setStage (v : Stage) :
    (symbolOp c sym s).Alike (fun s t => t = s.setStage v) (symbolOp c sym (s.setStage v)) := by
  cases c
  · exact dcSymbol_setStage v sym
  · exact acSymbol_setStage v sym

theorem symbolOp_ends (hk : c = .ac → s.k < Config.acValues) :
    (symbolOp c sym s).Ends (fun _ t => s.Assembled t) (Raised State.AssembledK FaultInfo.ofBlock s) := by
  cases c
  · exact (dcSymbol_ends sym s).imp (fun _ _ ht => ht.1) fun _ => id
  · exact (acSymbol_ends sym s (hk rfl)).imp (fun _ _ ht => ht.1) fun _ => id

/-- A block of the scan is under assembly, its tables `tabs` loaded. -/
structure State.InBlock (s : State) (tabs : HuffTable × HuffTable) : Prop where
  phase : s.phase = .scan
  tables : ∃ id, s.mstruct[s.blkIdx]? = some id ∧ s.tablesOf id = some tabs

theorem State.InBlock.assembled (h : s.InBlock tabs) (ha : s.Assembled t) : t.InBlock tabs := by
  rw [ha.frame]
  exact ⟨h.phase, h.tables⟩

theorem fetchSymbol_inBlock (h : s.InBlock tabs) (c : HuffClass) :
    fetchSymbol c s = (readCode (symbolTable c tabs) s).bind fun sym t => .ok (some (decodeSymbol c sym)) t := by
  obtain ⟨id, hid, htab⟩ := h.tables
  rw [fetchSymbol, hid]
  dsimp only
  rw [htab]
  cases c <;> rfl

/-- In a block, at the stage of a symbol, the fetch reads the symbol. -/
theorem fetch_inBlock (h : s.InBlock tabs) (hs : s.stage = symbolStage c) :
    (readCode (symbolTable c tabs) s).Answers (fun sym t => fetch s = .ok (some (decodeSymbol c sym)) t)
      fun t => fetch s = .raised t := by
  have hf : fetch s = fetchSymbol c s := by
    cases c
    · exact fetch_dc h.phase hs
    · exact fetch_ac h.phase hs
  rw [hf, fetchSymbol_inBlock h]
  cases readCode (symbolTable c tabs) s with
  | ok sym t => rfl
  | raised t => rfl
  | stop f => trivial

/-- The step that fetched a symbol does with it what DECODE_BLOCK does. -/
theorem step_symbolOp (h : t.InBlock tabs) (hk : c = .ac → t.k < Config.acValues)
    (hf : fetch s = .ok (some (decodeSymbol c sym)) (t.setStage v)) :
    (symbolOp c sym t).Answers (fun _ u => t.Assembled u ∧ step s = .next (advanceScan (u.setStage v)))
      fun u => step s = .next (u.setStage v) := by
  have hstep := (symbolOp_setStage v).answers_setStage (step_of_res hf (exec_decodeSymbol c sym _))
  refine ((symbolOp_ends hk).and_answers hstep).answers (fun _ u hu => ?_) fun u hu => ?_
  · obtain ⟨htu, hu⟩ := hu
    exact ⟨htu, hu.trans (congrArg _ (advance_scan (s := u.setStage v) (h.assembled htu).phase))⟩
  · exact hu.2.trans (congrArg _ (advance_fault _ (s := u.setStage v) hu.1.phase))

/-- A step in a block, at the stage of the symbol due, reads the symbol and does with it what DECODE_BLOCK does. -/
theorem step_symbol (h : s.InBlock tabs) (hk : c = .ac → s.k < Config.acValues) (hv : v = symbolStage c) :
    ((readCode (symbolTable c tabs) s).bind (symbolOp c)).Answers
      (fun _ t => s.Assembled t ∧ step (s.setStage v) = .next (advanceScan (t.setStage v)))
      (s.setStage v).ReachesSeen := by
  have hfetch := (readCode_setStage v (symbolTable c tabs)).answers_setStage
    (fetch_inBlock (s := s.setStage v) ⟨h.phase, h.tables⟩ hv)
  refine ((readCode_assembled (symbolTable c tabs) s).and_answers_ok (hfetch.imp (fun _ _ h => h) fun t ht =>
    (State.Reaches.of_step (step_raised ht)).seen_setStage)).bind fun sym t ht => ?_
  obtain ⟨⟨hst, hkt⟩, hf⟩ := ht
  exact (step_symbolOp (h.assembled hst) (hkt ▸ hk) hf).imp (fun _ _ hu => ⟨hst.trans hu.1, hu.2⟩) fun _ hu =>
    (State.Reaches.of_step hu).seen_setStage

end symbol

/-! ## A block -/

section block
variable {s : State}

/-- The head of the AC loop: the next AC symbol is due, or the block is complete (R199). -/
theorem advanceScan_ac (s : State) :
    advanceScan (s.setStage .ac) = if s.k < Config.acValues then s.setStage .ac else nextBlock s := by
  rw [← nextBlock_setStage .ac s]
  rfl

theorem acLoop_reaches {dct act : HuffTable} (h : s.InBlock (dct, act)) (n : Nat) :
    (acLoop act n s).Answers (fun _ t => (advanceScan (s.setStage .ac)).Reaches (nextBlock t))
      (advanceScan (s.setStage .ac)).ReachesSeen := by
  induction n generalizing s with
  | zero => trivial
  | succ n ih =>
    rw [acLoop, advanceScan_ac]
    split
    · rename_i hk
      rw [← Res.bind_assoc]
      refine (step_symbol (c := .ac) h (fun _ => hk) rfl).bind fun _ t ht => ?_
      obtain ⟨hst, hstep⟩ := ht
      have hstep := State.Reaches.of_step hstep
      exact (ih (h.assembled hst)).imp (fun _ _ => hstep.trans) fun _ => hstep.trans_seen
    · exact .refl _

/-- From the beginning of a block the steps reach the beginning of what comes after DECODE_BLOCK (R194). -/
theorem decodeBlockOp_reaches {id : Byte} (hp : s.phase = .scan) (hid : s.mstruct[s.blkIdx]? = some id) :
    (decodeBlockOp id s).Answers (fun b t => b = t.blk ∧ (startBlock s).Reaches (nextBlock t))
      (startBlock s).ReachesSeen := by
  rw [decodeBlockOp]
  split
  · trivial
  rename_i dct act htab
  have hb : (s.setBlk Block.zero).InBlock (dct, act) := ⟨hp, id, hid, htab⟩
  rw [decodeBlockWith, ← Res.bind_assoc]
  refine (step_symbol (c := .dc) hb nofun rfl).bind fun _ t ht => ?_
  obtain ⟨hst, hstep⟩ := ht
  have hstep : (startBlock s).Reaches (advanceScan ((t.setK 0).setStage .ac)) := .of_step hstep
  refine ((acLoop_reaches ((hb.assembled hst).assembled (t.assembled_setK 0)) _).imp (fun _ _ => hstep.trans) fun _ =>
    hstep.trans_seen).bind fun _ u hu => ⟨rfl, hu⟩

end block

/-! ## The scan loop -/

/-- A block is due, or the MCU is complete (R193). -/
def blockHead (s : State) : State := if s.blkIdx < s.mlen then startBlock s else nextMcu s.closeMcu

theorem nextBlock_eq_blockHead (s : State) : nextBlock s = blockHead s.addBlock := nextBlock_eq s

/-- The scan loop runs, the tables of every entry of the MCU structure loaded. -/
structure State.InScan (s : State) : Prop where
  phase : s.phase = .scan
  tables : ∀ id ∈ s.mstruct, (s.tablesOf id).isSome = true

section scan
variable {s t : State}

theorem State.InScan.scanned (h : s.InScan) (hs : s.Scanned t) : t.InScan := by
  rw [hs.frame]
  exact ⟨h.phase, h.tables⟩

theorem scanBlocks_reaches {ids : List Byte} (h : s.InScan) (hids : s.mstruct.drop s.blkIdx = ids) :
    (scanBlocks ids s).Answers (fun _ t => (blockHead s).Reaches (nextMcu t.closeMcu)) (blockHead s).ReachesSeen := by
  induction ids generalizing s with
  | nil =>
    have hle : s.mlen ≤ s.blkIdx := List.drop_eq_nil_iff.mp hids
    rw [blockHead, if_neg (Nat.not_lt.mpr hle)]
    exact .refl _
  | cons id ids ih =>
    have hid : s.mstruct[s.blkIdx]? = some id := by rw [← List.head?_drop, hids, List.head?_cons]
    have hrest : s.mstruct.drop (s.blkIdx + 1) = ids := by rw [← List.tail_drop, hids, List.tail_cons]
    have hlt : s.blkIdx < s.mlen := (List.getElem?_eq_some_iff.mp hid).1
    rw [blockHead, if_pos hlt]
    refine ((decodeBlockOp_ends (h.tables id (List.mem_of_getElem? hid))).and_answers_ok
      (decodeBlockOp_reaches h.phase hid)).bind fun b t ht => ?_
    obtain ⟨⟨hst, -⟩, rfl, hblock⟩ := ht
    rw [nextBlock_eq_blockHead] at hblock
    have hadd : s.Scanned t.addBlock := hst.scanned.trans t.scanned_addBlock
    have hdrop : t.addBlock.mstruct.drop t.addBlock.blkIdx = ids := by
      have hidx : t.addBlock.blkIdx = s.blkIdx + 1 := by rw [State.addBlock, State.setBlkIdx_blkIdx, hst.frame]
      rw [hadd.mstruct, hidx, hrest]
    exact (ih (h.scanned hadd) hdrop).imp (fun _ _ => hblock.trans) fun _ => hblock.trans_seen

/-- From the head of the MCU loop the steps reach its end, SCAN_DONE due (R193). -/
theorem scanMcus_reaches {n : Nat} (h : s.InScan) (hne : s.mstruct ≠ []) (hn : s.mcuIdx + n = s.mcuTotal) :
    (scanMcus n s).Answers (fun _ t => (nextMcu s).Reaches (t.setStage .done)) (nextMcu s).ReachesSeen := by
  induction n generalizing s with
  | zero =>
    rw [nextMcu, if_neg (by omega)]
    exact .refl _
  | succ n ih =>
    have hlen : s.mlen ≠ 0 := fun h0 => hne (List.length_eq_zero_iff.mp h0)
    have hhead : nextMcu s = blockHead s.openMcu := by
      rw [nextMcu, if_pos (by omega), if_neg hlen]
      exact (if_pos (Nat.pos_of_ne_zero hlen)).symm
    have hopen := h.scanned s.scanned_openMcu
    rw [hhead]
    refine ((scanBlocks_ends s.mstruct s.openMcu hopen.tables).and_answers_ok (scanBlocks_reaches hopen rfl)).bind
      fun _ t ht => ?_
    obtain ⟨⟨hst, -, hidx, -⟩, hmcu⟩ := ht
    have hclose : s.Scanned t.closeMcu := (s.scanned_openMcu.trans hst).trans t.scanned_closeMcu
    have hcount : t.closeMcu.mcuIdx + n = t.closeMcu.mcuTotal := by
      have hnext : t.closeMcu.mcuIdx = s.mcuIdx + 1 := congrArg (· + 1) hidx
      rw [hclose.mcuTotal, hnext]
      omega
    exact (ih (h.scanned hclose) (hclose.mstruct ▸ hne) hcount).imp (fun _ _ => hmcu.trans) fun _ => hmcu.trans_seen

end scan

/-! ## SCAN and the session -/

/-- The step that runs GRID leads to the head of the MCU loop, the reader at a byte boundary (R192, R193). -/
theorem step_grid {s g : State} (hp : s.phase = .scan) (h : gridOp s = .ok () g) :
    step (s.setStage .grid) = .next (nextMcu ((g.setBitOff 0).setMcuIdx 0)) := by
  obtain ⟨cols, rows, hgrid, rfl⟩ := execGrid_next (congrArg Res.outcome h)
  have hdue : fetch (s.setStage .grid) = .ok (some .grid) (s.setStage .grid) := fetch_grid hp rfl
  have hrun := gridOp_congr hgrid (s.setStage .grid) rfl rfl
  refine (step_of_next hdue (congrArg Res.outcome hrun)).trans (congrArg _ ?_)
  refine (advance_grid .grid (s := (s.setStage .grid).setGrid cols rows (cols * rows)) hp rfl).trans ?_
  exact nextMcu_setStage .grid (((s.setGrid cols rows (cols * rows)).setBitOff 0).setMcuIdx 0)

/-- The scan start, step by step, leads to the head of the MCU loop. -/
theorem scanStart_reaches {s : State} {cols rows : Nat} (hp : s.phase = .scan) (hs : s.stage = .check)
    (hgood : s.ConfigGood)
    (hgrid : gridOp (s.setMstruct (mstructOf s.comp)) =
      .ok () ((s.setMstruct (mstructOf s.comp)).setGrid cols rows (cols * rows))) :
    s.Reaches (nextMcu (s.scanStart cols rows)) := by
  have hcheck : step s = .next (s.setStage .mstruct) := by
    rw [← advance_check .checkConfig hp hs]
    exact step_of_next (fetch_check hp hs) (congrArg Res.outcome (checkConfigOp_good hgood))
  have hmstruct : step (s.setStage .mstruct) = .next ((s.setMstruct (mstructOf s.comp)).setStage .grid) := by
    have hdue : fetch (s.setStage .mstruct) = .ok (some .buildMstruct) (s.setStage .mstruct) := fetch_mstruct hp rfl
    refine (step_of_next hdue rfl).trans (congrArg _ ?_)
    exact advance_mstruct .buildMstruct (s := (s.setStage .mstruct).setMstruct (mstructOf s.comp)) hp rfl
  rw [State.scanStart_eq_set]
  exact .head hcheck (.head hmstruct (.of_step (step_grid hp hgrid)))

/-- Stepping through the scan phase comes to what SCAN answers (R193, R208). -/
theorem scanOp_reaches {s : State} (hp : s.phase = .scan) (hs : s.stage = .check) (hst : s.StoresOk) (hi : s.ImageOk) :
    (scanOp s).Answers (fun _ => s.ReachesSeen) s.ReachesSeen := by
  cases hc : configError s with
  | some e =>
    obtain ⟨r, id⟩ := e
    have hstep := step_of_next (fetch_check hp hs) (checkConfig_raises hc)
    rw [advance_raise] at hstep
    rw [scanOp, checkConfigOp, hc]
    exact (State.Reaches.of_step hstep).seen
  | none =>
    have hgood := (configError_none s).mp hc
    obtain ⟨cols, rows, hgrid⟩ := gridOp_good (s := s.setMstruct (mstructOf s.comp)) hgood hi
    have hscan : (s.scanStart cols rows).InScan := ⟨hp, fun _ hid => tablesOf_good hst hgood hid⟩
    have hstart := scanStart_reaches hp hs hgood hgrid
    have hloop := (scanMcus_reaches (n := cols * rows) hscan (mstructOf_ne_nil hgood) (Nat.zero_add _)).imp
      (fun _ _ => hstart.trans) fun _ => hstart.trans_seen
    rw [scanOp_good hgood hgrid]
    refine ((scanMcus_start_ends hst hgood cols rows).and_answers_ok hloop).bind fun _ t ht => ?_
    obtain ⟨⟨hscanned, -⟩, ht⟩ := ht
    have hdue : fetch (t.setStage .done) = .ok (some .scanDone) _ := fetch_done (hscan.scanned hscanned).phase rfl
    have hdone : (t.setStage .done).Reaches ((t.setPhase .done).setStage .done) := .of_step (step_of_next hdue rfl)
    exact (ht.trans hdone).seen_setStage

/-- Stepping from the launch comes to what the session answers (R251). -/
theorem sessionOp_reaches (bs : List Byte) (m : MagnitudeMode) :
    (sessionOp (State.launch bs m)).Answers (fun _ => (State.launch bs m).ReachesSeen)
      (State.launch bs m).ReachesSeen := by
  have hinv := State.launch_inv bs m
  have hheader := (headerOp_reaches (s := State.launch bs m) rfl rfl).imp (fun _ _ h => h) fun _ => State.Reaches.seen
  refine ((headerOp_configured (State.launch bs m)).and_answers_ok hheader).bind fun _ t ht => ?_
  obtain ⟨hconf, henter⟩ := ht
  have hstage : t.stage = .check := by rw [hconf.frame]; rfl
  have henter : (State.launch bs m).Reaches (t.setPhase .scan) := by
    have hsame : enterScan t = t.setPhase .scan := by rw [enterScan, ← hstage]; rfl
    rwa [hsame] at henter
  exact (scanOp_reaches (s := t.setPhase .scan) rfl hstage (hconf.scan_stores hinv.stores)
    (hconf.scan_image hinv.scan.image)).imp (fun _ _ => henter.trans_seen) fun _ => henter.trans_seen

/-- Settles O60: `sessionOp_reaches`, for the state the session ends in. -/
theorem stepsRefineTheSession : Obligations.StepsRefineTheSession := by
  intro bs m
  have hinv := State.launch_inv bs m
  obtain ⟨t, hrun, -⟩ := (sessionOp_ends hinv.stores hinv.scan.image).outcome
  obtain ⟨u, ⟨n, hn⟩, hseen⟩ := (sessionOp_reaches bs m).next hrun
  exact ⟨n, t, u, (exec_start_idle bs m (by decide) (by decide)).trans hrun, hn, hseen⟩

end Sys2Proof.Machine
end
